-- ==== Sys2Proof/Word.lean ====
section
/-! DEFINITION. The word types of the block: bytes, 32-bit words and 64-bit values (`00_scope.md` R12, R13),
channel numbers (`MAX_CH` = 16) and the two indexed containers every per-channel and per-ring piece of state uses. -/

namespace Sys2Proof

/-- A byte is 8 bits (R101). -/
abbrev Byte := BitVec 8

/-- A word, a register and a physical address are 32 bits (R12 `REG_W`, `ADDR_W`; R13). -/
abbrev Word := BitVec 32

/-- Timestamps and statistics counters are 64 bits (R12 `TS_W`, `CNT_W`). -/
abbrev Long := BitVec 64

/-- A channel (queue) number that the hardware can have: `MAX_CH` = 16 (R12). -/
abbrev Chan := Fin 16

/-- A direction (R14). -/
inductive Dir where
  | tx
  | rx
deriving DecidableEq, Repr

/-- A ring id `(dir, q)` (R14, R30). -/
structure RingId where
  dir : Dir
  q : Chan
deriving DecidableEq, Repr

/-- All sixteen channel numbers, ascending. -/
def allChans : List Chan := [0, 1, 2, 3, 4, 5, 6, 7, 8, 9, 10, 11, 12, 13, 14, 15]

/-- One value per channel. -/
abbrev PerChan (α : Type) := Vector α 16

def vget {α : Type} (v : PerChan α) (c : Chan) : α := v[c.val]

def vset {α : Type} (v : PerChan α) (c : Chan) (x : α) : PerChan α := v.set c.val x

/-- One value per ring. -/
structure PerRing (α : Type) where
  tx : PerChan α
  rx : PerChan α
deriving DecidableEq, Repr

def rget {α : Type} (m : PerRing α) (r : RingId) : α :=
  match r.dir with
  | .tx => vget m.tx r.q
  | .rx => vget m.rx r.q

def rset {α : Type} (m : PerRing α) (r : RingId) (x : α) : PerRing α :=
  match r.dir with
  | .tx => { m with tx := vset m.tx r.q x }
  | .rx => { m with rx := vset m.rx r.q x }

/-- The values of all rings of direction `d`, each changed by `f`. -/
def rmapDir {α : Type} (m : PerRing α) (d : Dir) (f : Chan → α → α) : PerRing α :=
  match d with
  | .tx => { m with tx := Vector.ofFn fun c => f c (vget m.tx c) }
  | .rx => { m with rx := Vector.ofFn fun c => f c (vget m.rx c) }

end Sys2Proof
end

