-- ==== Sys2Proof/Config.lean ====
section
/-! DEFINITION. The implementation parameters of `00_scope.md` R12 (the arguments of `ATTACH`) and the free values: opaque
constants without a body for what the environment answers (R85) and for memory nothing has written (R82). -/

namespace Sys2Proof

/-- The two variants of the hardware (R3). -/
inductive Variant where
  | sq
  | mc
deriving DecidableEq, Repr

/-- Checksum modes NONE, PARTIAL, FULL (R12 `CAPS`). -/
inductive CsumMode where
  | off
  | part
  | full
deriving DecidableEq, Repr

/-- The MAC-side IP variants (R5); read by no rule. -/
inductive MacVariant where
  | g1
  | g2p5
  | legacy10g
  | g10g25
  | mrmac
deriving DecidableEq, Repr

/-- Per-ring parameters: `N[dir][q]`, `COAL_THRESH[r]`, `COAL_DELAY[r]` (R12). -/
structure RingCfg where
  cap : Nat
  thresh : Nat
  delay : Nat
deriving DecidableEq, Repr

/-- `offload_capabilities` (R12 `CAPS`). -/
structure Caps where
  txCsum : CsumMode
  rxCsum : CsumMode
  ts : Bool
deriving DecidableEq, Repr

/-- One value per "argument" row of R12. The lists are indexed by the queue number. -/
structure Config where
  variant : Variant
  nq : Nat
  tx : List RingCfg
  rx : List RingCfg
  maxFrame : Nat
  rxBufSize : Nat
  weightSumLimit : Option Nat
  initWeight : List Nat
  resetRetryMax : Nat
  caps : Caps
  mac : MacVariant
  regBase : Word
deriving DecidableEq, Repr

/-- The parameters of ring `r`; a ring the lists do not give has no capacity and R12's default coalescing. -/
def Config.ring (c : Config) (r : RingId) : RingCfg :=
  ((match r.dir with | .tx => c.tx | .rx => c.rx)[r.q.val]?).getD ⟨0, 1, 0⟩

/-- `INIT_WEIGHT[c]`, default 1 (R12). -/
def Config.weight (c : Config) (q : Chan) : Nat := (c.initWeight[q.val]?).getD 1

/-- The channels below `nq`, ascending. -/
def chansBelow (nq : Nat) : List Chan := allChans.filter fun c => c.val < nq

/-- The rings of the hardware, TX before RX, q ascending (R420). -/
def ringsBelow (nq : Nat) : List RingId :=
  (chansBelow nq).map (fun c => ⟨.tx, c⟩) ++ (chansBelow nq).map (fun c => ⟨.rx, c⟩)

/-- `DESC_SIZE` (R12). -/
def descSize : Nat := 64

/-- `TAG_INVALID` (R12, R177). -/
def tagInvalid : BitVec 16 := 0xFFFF

/-- Bus responses (R85). -/
inductive BusResp where
  | okay
  | slverr
  | decerr
deriving DecidableEq, Repr, Inhabited

/-- Free value: what a byte of memory reads as that nothing has written (R82, U20). Argument: the address. -/
opaque Config.freeByte : Nat → Byte

/-- Free value: `bus_resp` (R85). Argument: the draw counter. -/
opaque Config.freeBusResp : Nat → BusResp

/-- Free value: `ts` (R85, R386). -/
opaque Config.freeTs : Nat → Long

/-- Free value: `reset_completes` (R85, R331). -/
opaque Config.freeResetCompletes : Nat → Bool

/-- Free value: a fresh RX buffer (handle, address) (R85, R217). -/
opaque Config.freeRxBuffer : Nat → Word × Word

/-- Free value: the platform allocator's answer (R190). -/
opaque Config.freeAlloc : Nat → Option Word

end Sys2Proof
end

