-- ==== Sys2Proof/Syntax.lean ====
section
/-! DEFINITION. The operations of the block: `Instr`, one constructor per row of spec/opcode_table.json
(commands R165, engine steps R166, register transactions R153 to R161, descriptors R141, R142 and their words R143 to R149),
and the encoded object an operation is read from. -/

namespace Sys2Proof

/-- The kind of memory mapping of a fragment (R63). -/
inductive MapKind where
  | single
  | page
deriving DecidableEq, Repr

/-- A fragment of a TX frame (R63). The length is not bounded here: R211 says what an invalid frame is. -/
structure Frag where
  addr : Word
  len : Nat
  kind : MapKind
deriving DecidableEq, Repr

/-- A TX frame (R63). -/
structure Frame where
  handle : Word
  frags : List Frag
  csumReq : Bool
  csumStart : BitVec 16
  csumInsert : BitVec 16
  csumSeed : Word
  tsReq : Bool
deriving DecidableEq, Repr

/-- A non-empty subset of the directions (R243). -/
inductive Dirs where
  | both
  | txOnly
  | rxOnly
deriving DecidableEq, Repr

/-- The cause of a controller-level fault (R392). -/
inductive Cause where
  | int
  | slv
  | dec
deriving DecidableEq, Repr

/-- The five application words (R147, R148). -/
structure App where
  a0 : Word
  a1 : Word
  a2 : Word
  a3 : Word
  a4 : Word
deriving DecidableEq, Repr

/-- The named words of a descriptor; both layouts have the same names (R141, R142). -/
structure Desc where
  next : Word
  buf : Word
  ctrl : Word
  status : Word
  app : App
  swFrame : Word
  swMap : Word
  swTag : Word
deriving DecidableEq, Repr

/-- A 32-bit register transaction (R107, R330). -/
inductive Trans where
  | read
  | write (v : Word)
deriving DecidableEq, Repr

/-- One constructor per row of spec/opcode_table.json. Queue and channel operands are natural numbers: whether the
ring exists is decided when the operation runs. -/
inductive Instr where
  -- commands (R165)
  | attach (cfg : Config)
  | detach
  | allocate (dir : Dir) (q : Nat) (cap : Nat)
  | resetRing (dir : Dir) (q : Nat)
  | armRx (q : Nat)
  | freeRing (dir : Dir) (q : Nat)
  | submitTx (q : Nat) (f : Frame)
  | pollRx (q : Nat) (budget : Nat)
  | reclaimTx (q : Nat)
  | offloadTx (q : Nat) (f : Frame)
  | offloadRx (q : Nat) (i : Nat)
  | configureWeight (c : Nat) (w : Nat)
  | enableChannel (c : Nat) (dirs : Dirs)
  | disableChannel (c : Nat) (dirs : Dirs)
  | irqService (dir : Dir) (budget : Nat)
  | recoverBegin (dir : Dir) (q : Nat)
  | recoverPoll (dir : Dir) (q : Nat)
  | recoverDrain (dir : Dir) (q : Nat)
  | recoverReconfig (dir : Dir) (q : Nat)
  | linkNotify (up : Bool)
  | statsSnapshot
  | regRead (off : Nat)
  | regWrite (off : Nat) (v : Word)
  -- engine steps (R166)
  | eTxDesc (q : Nat)
  | eRxDesc (q : Nat)
  | eArbGrant
  | eDelayTimeout (dir : Dir) (q : Nat)
  | eFault (dir : Dir) (q : Nat) (cause : Cause)
  | eResetDone (dir : Dir) (q : Nat)
  | eStopDone (dir : Dir) (q : Nat)
  -- registers of the SQ variant (R153, R156)
  | crSq (dir : Dir) (t : Trans)
  | srSq (dir : Dir) (t : Trans)
  | curdescSq (dir : Dir) (t : Trans)
  | taildescSq (dir : Dir) (t : Trans)
  | isrSq (dir : Dir) (t : Trans)
  | ierSq (dir : Dir) (t : Trans)
  | icrSq (dir : Dir) (t : Trans)
  | tsfCntSq (t : Trans)
  | tsfTagSq (t : Trans)
  | tsfLoSq (t : Trans)
  | tsfHiSq (t : Trans)
  -- registers of the MC variant (R153, R157, R158)
  | crMc (dir : Dir) (c : Nat) (t : Trans)
  | srMc (dir : Dir) (c : Nat) (t : Trans)
  | curdescMc (dir : Dir) (c : Nat) (t : Trans)
  | taildescMc (dir : Dir) (c : Nat) (t : Trans)
  | isrMc (dir : Dir) (c : Nat) (t : Trans)
  | ierMc (dir : Dir) (c : Nat) (t : Trans)
  | icrMc (dir : Dir) (c : Nat) (t : Trans)
  | tsfCntMc (c : Nat) (t : Trans)
  | tsfTagMc (c : Nat) (t : Trans)
  | tsfLoMc (c : Nat) (t : Trans)
  | tsfHiMc (c : Nat) (t : Trans)
  | chen (dir : Dir) (t : Trans)
  | chIer (dir : Dir) (t : Trans)
  | chIsr (dir : Dir) (t : Trans)
  | chIcr (dir : Dir) (t : Trans)
  | weight0 (t : Trans)
  | weight1 (t : Trans)
  -- both variants (R348)
  | reservedOffset (off : Nat) (t : Trans)
  -- the descriptor, the engine's instruction format (R140 to R142)
  | descriptorSq (dir : Dir) (q : Nat) (d : Desc)
  | descriptorMc (dir : Dir) (q : Nat) (d : Desc)
  -- descriptor words (R143 to R149): the word `v` of descriptor `i` of a ring
  | descNext (dir : Dir) (q : Nat) (i : Nat) (v : Word)
  | descBuf (dir : Dir) (q : Nat) (i : Nat) (v : Word)
  | descCtrlSq (dir : Dir) (q : Nat) (i : Nat) (v : Word)
  | descCtrlMc (dir : Dir) (q : Nat) (i : Nat) (v : Word)
  | descStatus (dir : Dir) (q : Nat) (i : Nat) (v : Word)
  | descApp0Tx (q : Nat) (i : Nat) (v : Word)
  | descApp1Tx (q : Nat) (i : Nat) (v : Word)
  | descApp2Tx (q : Nat) (i : Nat) (v : Word)
  | descApp3Tx (q : Nat) (i : Nat) (v : Word)
  | descApp4Tx (q : Nat) (i : Nat) (v : Word)
  | descApp0Rx (q : Nat) (i : Nat) (v : Word)
  | descApp1Rx (q : Nat) (i : Nat) (v : Word)
  | descApp2Rx (q : Nat) (i : Nat) (v : Word)
  | descApp3Rx (q : Nat) (i : Nat) (v : Word)
  | descApp4Rx (q : Nat) (i : Nat) (v : Word)
  | descSwFrame (dir : Dir) (q : Nat) (i : Nat) (v : Word)
  | descSwMap (dir : Dir) (q : Nat) (i : Nat) (v : Word)
  | descSwTag (dir : Dir) (q : Nat) (i : Nat) (v : Word)
deriving DecidableEq, Repr

/-- The four kinds of encoded object (R140); a descriptor word is a part of the first. -/
inductive Fmt where
  | command
  | register
  | descWord
  | descriptor
deriving DecidableEq, Repr

/-- An operation as it is handed to the block: the kind of object and its bytes. -/
structure RawOp where
  fmt : Fmt
  bytes : List Byte
deriving DecidableEq, Repr

/-- The registers an offset can name (R153, R158). -/
inductive Reg where
  | cr (r : RingId)
  | sr (r : RingId)
  | curdesc (r : RingId)
  | taildesc (r : RingId)
  | isr (r : RingId)
  | ier (r : RingId)
  | icr (r : RingId)
  | tsfCnt (q : Chan)
  | tsfTag (q : Chan)
  | tsfLo (q : Chan)
  | tsfHi (q : Chan)
  | chen (dir : Dir)
  | chIer (dir : Dir)
  | chIsr (dir : Dir)
  | chIcr (dir : Dir)
  | weight0
  | weight1
  | reserved
deriving DecidableEq, Repr

/-- Why bytes are not an operation. -/
inductive DecodeError where
  /-- A command or step id not listed in R165, R166 (R178). -/
  | unknownId (id : Nat)
  /-- A register transaction that is not 32 bits wide (R107). -/
  | badWidth (code : Nat)
  /-- A register transaction at an offset that is not a multiple of 4 (R107). -/
  | misaligned (off : Nat)
  /-- A register transaction outside the 4 KiB window (R102). -/
  | outsideWindow (off : Nat)
  /-- A descriptor word whose reserved bits are not 0 (R150). -/
  | reservedBits
  /-- An operand byte outside its enumeration. -/
  | badOperand
  /-- Fewer bytes than the operation has. -/
  | truncated
deriving DecidableEq, Repr

end Sys2Proof
end

