-- ==== Sys2Proof/WellFormed.lean ====
section
/-! DEFINITION. When an operation is an encodable operation of a machine of variant `v` with `nq` channels: operands fit the
bytes the model gives them (log 8), a register row belongs to the variant and its channel exists (R156, R157), a
register offset is a multiple of 4 in the window (R107), a descriptor word has its reserved bits 0 (R143 to R150). -/

namespace Sys2Proof

def RingCfg.wf (r : RingCfg) : Bool := r.cap < 2 ^ 32 && r.thresh < 2 ^ 32 && r.delay < 2 ^ 32

/-- The counts fit a byte, the numbers a word. -/
def Config.wf (c : Config) : Bool :=
  [c.nq, c.tx.length, c.rx.length, c.initWeight.length].all (· < 256) &&
    [c.maxFrame, c.rxBufSize, c.weightSumLimit.getD 0, c.resetRetryMax].all (· < 2 ^ 32) &&
    (c.tx ++ c.rx).all RingCfg.wf && c.initWeight.all (· < 2 ^ 32)

def Frame.wf (f : Frame) : Bool := f.frags.length < 65536 && f.frags.all (·.len < 2 ^ 32)

/-- A register offset as R107 wants it. -/
def offWf (off : Nat) : Bool := off < 4096 && off % 4 == 0

/-- The reserved offsets of a ring's register block (R153, R348). -/
def reservedInRingBlock (dir : Dir) (o : Nat) : Bool :=
  o == 0x0C || o == 0x14 || 0x34 ≤ o || (dir == .rx && 0x24 ≤ o)

/-- The reserved offsets of a bitmap block (R158, R348). -/
def reservedInBitmapBlock (dir : Dir) (o : Nat) : Bool :=
  0x18 ≤ o || (dir == .rx && 0x10 ≤ o)

/-- The reserved offsets as R348 lists them. -/
def reservedOff (v : Variant) (nq off : Nat) : Bool :=
  match v with
  | .sq => 0x80 ≤ off || reservedInRingBlock (if off < 0x40 then .tx else .rx) (off % 0x40)
  | .mc =>
    let dir : Dir := if off < 0x800 then .tx else .rx
    let b := off % 0x800 / 0x40
    if b = 0 then reservedInBitmapBlock dir (off % 0x40)
    else 17 ≤ b || nq ≤ b - 1 || reservedInRingBlock dir (off % 0x40)

/-- The bits of a descriptor word that are reserved and written 0 (R143 to R149). -/
def ctrlSqReserved : Word := 0xF3800000
def ctrlMcReserved : Word := 0x3F800000
def statusReserved : Word := 0x03800000
def nextReserved : Word := 0x0000003F
def app0TxReserved : Word := 0xFFFFFFFC
def app3TxReserved : Word := 0xFFFFFFFF
def app4TxReserved : Word := 0x7FFF0000
def swTagReserved : Word := 0x7FFF0000

/-- `SW_MAP` is 0, 1 or 2; 3 and above are reserved (R149, R177, U8). -/
def swMapWf (w : Word) : Bool := w ≤ 2

/-- The operands that name a slot of a ring. -/
def slotWf (q i : Nat) : Bool := q < 256 && i < 65536

def Instr.wf (v : Variant) (nq : Nat) : Instr → Bool
  | .attach cfg => cfg.wf
  | .detach => true
  | .allocate _ q cap => q < 256 && cap < 2 ^ 32
  | .resetRing _ q => q < 256
  | .armRx q => q < 256
  | .freeRing _ q => q < 256
  | .submitTx q f => q < 256 && f.wf
  | .pollRx q budget => q < 256 && budget < 2 ^ 32
  | .reclaimTx q => q < 256
  | .offloadTx q f => q < 256 && f.wf
  | .offloadRx q i => slotWf q i
  | .configureWeight c w => c < 256 && w < 256
  | .enableChannel c _ => c < 256
  | .disableChannel c _ => c < 256
  | .irqService _ budget => 1 ≤ budget && budget ≤ 2 ^ 32
  | .recoverBegin _ q => q < 256
  | .recoverPoll _ q => q < 256
  | .recoverDrain _ q => q < 256
  | .recoverReconfig _ q => q < 256
  | .linkNotify _ => true
  | .statsSnapshot => true
  | .regRead off => offWf off
  | .regWrite off _ => offWf off
  | .eTxDesc q => q < 256
  | .eRxDesc q => q < 256
  | .eArbGrant => true
  | .eDelayTimeout _ q => q < 256
  | .eFault _ q _ => q < 256
  | .eResetDone _ q => q < 256
  | .eStopDone _ q => q < 256
  | .crSq _ _ => v == .sq
  | .srSq _ _ => v == .sq
  | .curdescSq _ _ => v == .sq
  | .taildescSq _ _ => v == .sq
  | .isrSq _ _ => v == .sq
  | .ierSq _ _ => v == .sq
  | .icrSq _ _ => v == .sq
  | .tsfCntSq _ => v == .sq
  | .tsfTagSq _ => v == .sq
  | .tsfLoSq _ => v == .sq
  | .tsfHiSq _ => v == .sq
  | .crMc _ c _ => v == .mc && c < nq && c < 16
  | .srMc _ c _ => v == .mc && c < nq && c < 16
  | .curdescMc _ c _ => v == .mc && c < nq && c < 16
  | .taildescMc _ c _ => v == .mc && c < nq && c < 16
  | .isrMc _ c _ => v == .mc && c < nq && c < 16
  | .ierMc _ c _ => v == .mc && c < nq && c < 16
  | .icrMc _ c _ => v == .mc && c < nq && c < 16
  | .tsfCntMc c _ => v == .mc && c < nq && c < 16
  | .tsfTagMc c _ => v == .mc && c < nq && c < 16
  | .tsfLoMc c _ => v == .mc && c < nq && c < 16
  | .tsfHiMc c _ => v == .mc && c < nq && c < 16
  | .chen _ _ => v == .mc
  | .chIer _ _ => v == .mc
  | .chIsr _ _ => v == .mc
  | .chIcr _ _ => v == .mc
  | .weight0 _ => v == .mc
  | .weight1 _ => v == .mc
  | .reservedOffset off _ => offWf off && reservedOff v nq off
  | .descriptorSq _ q _ => v == .sq && q < 256
  | .descriptorMc _ q _ => v == .mc && q < 256
  | .descNext _ q i w => slotWf q i && w &&& nextReserved == 0
  | .descBuf _ q i _ => slotWf q i
  | .descCtrlSq _ q i w => slotWf q i && w &&& ctrlSqReserved == 0
  | .descCtrlMc _ q i w => slotWf q i && w &&& ctrlMcReserved == 0
  | .descStatus _ q i w => slotWf q i && w &&& statusReserved == 0
  | .descApp0Tx q i w => slotWf q i && w &&& app0TxReserved == 0
  | .descApp1Tx q i _ => slotWf q i
  | .descApp2Tx q i _ => slotWf q i
  | .descApp3Tx q i w => slotWf q i && w &&& app3TxReserved == 0
  | .descApp4Tx q i w => slotWf q i && w &&& app4TxReserved == 0
  | .descApp0Rx q i _ => slotWf q i
  | .descApp1Rx q i _ => slotWf q i
  | .descApp2Rx q i _ => slotWf q i
  | .descApp3Rx q i _ => slotWf q i
  | .descApp4Rx q i _ => slotWf q i
  | .descSwFrame _ q i _ => slotWf q i
  | .descSwMap _ q i w => slotWf q i && swMapWf w
  | .descSwTag _ q i w => slotWf q i && w &&& swTagReserved == 0

end Sys2Proof
end

