-- ==== Sys2Proof/Decode.lean ====
section
/-! DEFINITION. The decoder and the encoder of operations: command and step ids (R165, R166, R178), the register map (R153 to R161),
the two descriptor layouts (R141, R142) and the descriptor words. The byte layout of operands is the model's (log 8). -/

namespace Sys2Proof

abbrev Decoded := Except DecodeError Instr

/-! ### Bytes -/

/-- The number of the first `n` bytes, little-endian (R104), and the bytes after them. -/
def takeLE : Nat → List Byte → Option (Nat × List Byte)
  | 0, b => some (0, b)
  | _ + 1, [] => none
  | n + 1, x :: b =>
    match takeLE n b with
    | none => none
    | some (v, rest) => some (x.toNat + 256 * v, rest)

/-- The low `n` bytes of `v`, little-endian. -/
def putLE : Nat → Nat → List Byte
  | 0, _ => []
  | n + 1, v => BitVec.ofNat 8 v :: putLE n (v / 256)

/-- Read `n` bytes as a number and go on. -/
def rdNat (n : Nat) (b : List Byte) (k : Nat → List Byte → Decoded) : Decoded :=
  match takeLE n b with
  | none => .error .truncated
  | some (v, rest) => k v rest

def rdWord (b : List Byte) (k : Word → List Byte → Decoded) : Decoded :=
  rdNat 4 b fun v rest => k (BitVec.ofNat 32 v) rest

def rdHalf (b : List Byte) (k : BitVec 16 → List Byte → Decoded) : Decoded :=
  rdNat 2 b fun v rest => k (BitVec.ofNat 16 v) rest

/-- Read a byte that is an index into `xs`. -/
def rdEnum {α : Type} (xs : List α) (b : List Byte) (k : α → List Byte → Decoded) : Decoded :=
  rdNat 1 b fun v rest =>
    match xs[v]? with
    | none => .error .badOperand
    | some x => k x rest

/-- Read `n` items. -/
def rdMany {α : Type} (item : List Byte → (α → List Byte → Decoded) → Decoded) :
    Nat → List Byte → (List α → List Byte → Decoded) → Decoded
  | 0, b, k => k [] b
  | n + 1, b, k => item b fun x rest => rdMany item n rest fun xs rest' => k (x :: xs) rest'

def dirList : List Dir := [.tx, .rx]
def boolList : List Bool := [false, true]
def dirsList : List Dirs := [.both, .txOnly, .rxOnly]
def causeList : List Cause := [.int, .slv, .dec]
def variantList : List Variant := [.sq, .mc]
def csumList : List CsumMode := [.off, .part, .full]
def macList : List MacVariant := [.g1, .g2p5, .legacy10g, .g10g25, .mrmac]
def kindList : List MapKind := [.single, .page]

def wrWord (w : Word) : List Byte := putLE 4 w.toNat
def wrHalf (w : BitVec 16) : List Byte := putLE 2 w.toNat
def wrEnum {α : Type} [DecidableEq α] (xs : List α) (x : α) : List Byte := putLE 1 (xs.idxOf x)

/-! ### Operands -/

def rdRingCfg (b : List Byte) (k : RingCfg → List Byte → Decoded) : Decoded :=
  rdNat 4 b fun cap b => rdNat 4 b fun thresh b => rdNat 4 b fun delay b => k ⟨cap, thresh, delay⟩ b

def wrRingCfg (r : RingCfg) : List Byte := putLE 4 r.cap ++ (putLE 4 r.thresh ++ putLE 4 r.delay)

def rdOptNat (b : List Byte) (k : Option Nat → List Byte → Decoded) : Decoded :=
  rdEnum boolList b fun on b => rdNat 4 b fun v b => k (if on then some v else none) b

def wrOptNat (o : Option Nat) : List Byte := wrEnum boolList o.isSome ++ putLE 4 (o.getD 0)

/-- The configuration record of `ATTACH` (R12, R420). -/
def rdConfig (b : List Byte) (k : Config → List Byte → Decoded) : Decoded :=
  rdEnum variantList b fun variant b => rdNat 1 b fun nq b =>
  rdNat 1 b fun ntx b => rdMany rdRingCfg ntx b fun tx b =>
  rdNat 1 b fun nrx b => rdMany rdRingCfg nrx b fun rx b =>
  rdNat 4 b fun maxFrame b => rdNat 4 b fun rxBufSize b =>
  rdOptNat b fun weightSumLimit b =>
  rdNat 1 b fun nw b => rdMany (rdNat 4) nw b fun initWeight b =>
  rdNat 4 b fun resetRetryMax b =>
  rdEnum csumList b fun txCsum b => rdEnum csumList b fun rxCsum b => rdEnum boolList b fun ts b =>
  rdEnum macList b fun mac b => rdWord b fun regBase b =>
  k ⟨variant, nq, tx, rx, maxFrame, rxBufSize, weightSumLimit, initWeight, resetRetryMax, ⟨txCsum, rxCsum, ts⟩, mac, regBase⟩ b

def wrConfig (c : Config) : List Byte :=
  wrEnum variantList c.variant ++ (putLE 1 c.nq ++
  (putLE 1 c.tx.length ++ ((c.tx.map wrRingCfg).flatten ++
  (putLE 1 c.rx.length ++ ((c.rx.map wrRingCfg).flatten ++
  (putLE 4 c.maxFrame ++ (putLE 4 c.rxBufSize ++
  (wrOptNat c.weightSumLimit ++
  (putLE 1 c.initWeight.length ++ ((c.initWeight.map (putLE 4)).flatten ++
  (putLE 4 c.resetRetryMax ++
  (wrEnum csumList c.caps.txCsum ++ (wrEnum csumList c.caps.rxCsum ++ (wrEnum boolList c.caps.ts ++
  (wrEnum macList c.mac ++ wrWord c.regBase)))))))))))))))

def rdFrag (b : List Byte) (k : Frag → List Byte → Decoded) : Decoded :=
  rdWord b fun addr b => rdNat 4 b fun len b => rdEnum kindList b fun kind b => k ⟨addr, len, kind⟩ b

def wrFrag (f : Frag) : List Byte := wrWord f.addr ++ (putLE 4 f.len ++ wrEnum kindList f.kind)

/-- A TX frame (R63). -/
def rdFrame (b : List Byte) (k : Frame → List Byte → Decoded) : Decoded :=
  rdWord b fun handle b => rdNat 2 b fun n b => rdMany rdFrag n b fun frags b =>
  rdEnum boolList b fun csumReq b => rdHalf b fun csumStart b => rdHalf b fun csumInsert b =>
  rdWord b fun csumSeed b => rdEnum boolList b fun tsReq b =>
  k ⟨handle, frags, csumReq, csumStart, csumInsert, csumSeed, tsReq⟩ b

def wrFrame (f : Frame) : List Byte :=
  wrWord f.handle ++ (putLE 2 f.frags.length ++ ((f.frags.map wrFrag).flatten ++
  (wrEnum boolList f.csumReq ++ (wrHalf f.csumStart ++ (wrHalf f.csumInsert ++
  (wrWord f.csumSeed ++ wrEnum boolList f.tsReq))))))

/-! ### The register map -/

/-- The register at offset `o` of the block of ring `r` (R153). -/
def ringReg (r : RingId) (o : Nat) : Reg :=
  match o, r.dir with
  | 0x00, _ => .cr r
  | 0x04, _ => .sr r
  | 0x08, _ => .curdesc r
  | 0x10, _ => .taildesc r
  | 0x18, _ => .isr r
  | 0x1C, _ => .ier r
  | 0x20, _ => .icr r
  | 0x24, .tx => .tsfCnt r.q
  | 0x28, .tx => .tsfTag r.q
  | 0x2C, .tx => .tsfLo r.q
  | 0x30, .tx => .tsfHi r.q
  | _, _ => .reserved

/-- The register at offset `o` of the bitmap block of a direction (R158). -/
def bitmapReg (dir : Dir) (o : Nat) : Reg :=
  match o, dir with
  | 0x00, _ => .chen dir
  | 0x04, _ => .chIer dir
  | 0x08, _ => .chIsr dir
  | 0x0C, _ => .chIcr dir
  | 0x10, .tx => .weight0
  | 0x14, .tx => .weight1
  | _, _ => .reserved

/-- The register an offset names on a machine of variant `v` with `nq` channels (R161). -/
def decodeOff (v : Variant) (nq off : Nat) : Reg :=
  match v with
  | .sq => if 0x80 ≤ off then .reserved else ringReg ⟨if off < 0x40 then .tx else .rx, 0⟩ (off % 0x40)
  | .mc =>
    let dir : Dir := if off < 0x800 then .tx else .rx
    let b := off % 0x800 / 0x40
    if b = 0 then bitmapReg dir (off % 0x40)
    else if h : b - 1 < 16 then
      if b - 1 < nq then ringReg ⟨dir, ⟨b - 1, h⟩⟩ (off % 0x40) else .reserved
    else .reserved

/-- `rb(r)` as an offset from `REG_BASE` (R160). -/
def rbOff (v : Variant) (dir : Dir) (q : Nat) : Nat :=
  match v with
  | .sq => (match dir with | .tx => 0x000 | .rx => 0x040)
  | .mc => (match dir with | .tx => 0x000 | .rx => 0x800) + 0x040 + q * 0x040

/-- `bb(dir)` as an offset from `REG_BASE` (R160). -/
def bbOff (dir : Dir) : Nat := match dir with | .tx => 0x000 | .rx => 0x800

/-- The row of the table a transaction on register `g` at `off` is. -/
def regInstr (v : Variant) (off : Nat) (t : Trans) (g : Reg) : Instr :=
  match g, v with
  | .cr r, .sq => .crSq r.dir t
  | .cr r, .mc => .crMc r.dir r.q.val t
  | .sr r, .sq => .srSq r.dir t
  | .sr r, .mc => .srMc r.dir r.q.val t
  | .curdesc r, .sq => .curdescSq r.dir t
  | .curdesc r, .mc => .curdescMc r.dir r.q.val t
  | .taildesc r, .sq => .taildescSq r.dir t
  | .taildesc r, .mc => .taildescMc r.dir r.q.val t
  | .isr r, .sq => .isrSq r.dir t
  | .isr r, .mc => .isrMc r.dir r.q.val t
  | .ier r, .sq => .ierSq r.dir t
  | .ier r, .mc => .ierMc r.dir r.q.val t
  | .icr r, .sq => .icrSq r.dir t
  | .icr r, .mc => .icrMc r.dir r.q.val t
  | .tsfCnt _, .sq => .tsfCntSq t
  | .tsfCnt q, .mc => .tsfCntMc q.val t
  | .tsfTag _, .sq => .tsfTagSq t
  | .tsfTag q, .mc => .tsfTagMc q.val t
  | .tsfLo _, .sq => .tsfLoSq t
  | .tsfLo q, .mc => .tsfLoMc q.val t
  | .tsfHi _, .sq => .tsfHiSq t
  | .tsfHi q, .mc => .tsfHiMc q.val t
  | .chen dir, _ => .chen dir t
  | .chIer dir, _ => .chIer dir t
  | .chIsr dir, _ => .chIsr dir t
  | .chIcr dir, _ => .chIcr dir t
  | .weight0, _ => .weight0 t
  | .weight1, _ => .weight1 t
  | .reserved, _ => .reservedOffset off t

/-! ### The decoder -/

def rdSlot (b : List Byte) (k : Nat → Nat → List Byte → Decoded) : Decoded :=
  rdNat 1 b fun q b => rdNat 2 b fun i b => k q i b

def rdRing (b : List Byte) (k : Dir → Nat → List Byte → Decoded) : Decoded :=
  rdEnum dirList b fun dir b => rdNat 1 b fun q b => k dir q b

/-- A command or step by its id (R165, R166); every other id is invalid (R178). -/
def decodeCommand (b : List Byte) : Decoded :=
  rdNat 1 b fun id b =>
    match id with
    | 0x01 => rdConfig b fun cfg _ => .ok (.attach cfg)
    | 0x02 => .ok .detach
    | 0x03 => rdRing b fun dir q b => rdNat 4 b fun cap _ => .ok (.allocate dir q cap)
    | 0x04 => rdRing b fun dir q _ => .ok (.resetRing dir q)
    | 0x05 => rdNat 1 b fun q _ => .ok (.armRx q)
    | 0x06 => rdRing b fun dir q _ => .ok (.freeRing dir q)
    | 0x10 => rdNat 1 b fun q b => rdFrame b fun f _ => .ok (.submitTx q f)
    | 0x11 => rdNat 1 b fun q b => rdNat 4 b fun budget _ => .ok (.pollRx q budget)
    | 0x12 => rdNat 1 b fun q _ => .ok (.reclaimTx q)
    | 0x18 => rdNat 1 b fun q b => rdFrame b fun f _ => .ok (.offloadTx q f)
    | 0x19 => rdSlot b fun q i _ => .ok (.offloadRx q i)
    | 0x20 => rdNat 1 b fun c b => rdNat 1 b fun w _ => .ok (.configureWeight c w)
    | 0x21 => rdNat 1 b fun c b => rdEnum dirsList b fun dirs _ => .ok (.enableChannel c dirs)
    | 0x22 => rdNat 1 b fun c b => rdEnum dirsList b fun dirs _ => .ok (.disableChannel c dirs)
    | 0x30 => rdEnum dirList b fun dir b => rdNat 4 b fun n _ => .ok (.irqService dir (n + 1))
    | 0x31 => rdRing b fun dir q _ => .ok (.recoverBegin dir q)
    | 0x32 => rdRing b fun dir q _ => .ok (.recoverPoll dir q)
    | 0x33 => rdRing b fun dir q _ => .ok (.recoverDrain dir q)
    | 0x34 => rdRing b fun dir q _ => .ok (.recoverReconfig dir q)
    | 0x40 => rdEnum boolList b fun up _ => .ok (.linkNotify up)
    | 0x41 => .ok .statsSnapshot
    | 0x50 => rdNat 2 b fun off _ => if offWf off then .ok (.regRead off) else .error (.misaligned off)
    | 0x51 => rdNat 2 b fun off b => rdWord b fun v _ =>
        if offWf off then .ok (.regWrite off v) else .error (.misaligned off)
    | 0x80 => rdNat 1 b fun q _ => .ok (.eTxDesc q)
    | 0x81 => rdNat 1 b fun q _ => .ok (.eRxDesc q)
    | 0x82 => .ok .eArbGrant
    | 0x83 => rdRing b fun dir q _ => .ok (.eDelayTimeout dir q)
    | 0x84 => rdRing b fun dir q b => rdEnum causeList b fun cause _ => .ok (.eFault dir q cause)
    | 0x85 => rdRing b fun dir q _ => .ok (.eResetDone dir q)
    | 0x86 => rdRing b fun dir q _ => .ok (.eStopDone dir q)
    | n => .error (.unknownId n)

/-- A register transaction: offset (12 bits), width and direction, and the value of a write (R140, R107). -/
def decodeRegister (v : Variant) (nq : Nat) (b : List Byte) : Decoded :=
  rdNat 2 b fun off b =>
    if 4096 ≤ off then .error (.outsideWindow off)
    else if off % 4 ≠ 0 then .error (.misaligned off)
    else rdNat 1 b fun code b =>
      match code with
      | 0 => .ok (regInstr v off .read (decodeOff v nq off))
      | 1 => rdWord b fun w _ => .ok (regInstr v off (.write w) (decodeOff v nq off))
      | n => .error (.badWidth n)

/-- Refuse a word with a reserved value. -/
def checkWord (ok : Bool) (i : Instr) : Decoded := if ok then .ok i else .error .reservedBits

/-- Refuse a word with a reserved bit set (R150). -/
def checkReserved (w mask : Word) (i : Instr) : Decoded := checkWord (w &&& mask == 0) i

/-- A descriptor word: the word, then which word of the table it is, then the slot. -/
def decodeDescWord (b : List Byte) : Decoded :=
  rdWord b fun w b => rdNat 1 b fun place b =>
    match place with
    | 0 => rdEnum dirList b fun dir b => rdSlot b fun q i _ => checkReserved w nextReserved (.descNext dir q i w)
    | 1 => rdEnum dirList b fun dir b => rdSlot b fun q i _ => .ok (.descBuf dir q i w)
    | 2 => rdEnum dirList b fun dir b => rdSlot b fun q i _ => checkReserved w ctrlSqReserved (.descCtrlSq dir q i w)
    | 3 => rdEnum dirList b fun dir b => rdSlot b fun q i _ => checkReserved w ctrlMcReserved (.descCtrlMc dir q i w)
    | 4 => rdEnum dirList b fun dir b => rdSlot b fun q i _ => checkReserved w statusReserved (.descStatus dir q i w)
    | 5 => rdSlot b fun q i _ => checkReserved w app0TxReserved (.descApp0Tx q i w)
    | 6 => rdSlot b fun q i _ => .ok (.descApp1Tx q i w)
    | 7 => rdSlot b fun q i _ => .ok (.descApp2Tx q i w)
    | 8 => rdSlot b fun q i _ => checkReserved w app3TxReserved (.descApp3Tx q i w)
    | 9 => rdSlot b fun q i _ => checkReserved w app4TxReserved (.descApp4Tx q i w)
    | 10 => rdSlot b fun q i _ => .ok (.descApp0Rx q i w)
    | 11 => rdSlot b fun q i _ => .ok (.descApp1Rx q i w)
    | 12 => rdSlot b fun q i _ => .ok (.descApp2Rx q i w)
    | 13 => rdSlot b fun q i _ => .ok (.descApp3Rx q i w)
    | 14 => rdSlot b fun q i _ => .ok (.descApp4Rx q i w)
    | 15 => rdEnum dirList b fun dir b => rdSlot b fun q i _ => .ok (.descSwFrame dir q i w)
    | 16 => rdEnum dirList b fun dir b => rdSlot b fun q i _ => checkWord (swMapWf w) (.descSwMap dir q i w)
    | 17 => rdEnum dirList b fun dir b => rdSlot b fun q i _ => checkReserved w swTagReserved (.descSwTag dir q i w)
    | _ => .error .badOperand

def rdApp (b : List Byte) (k : App → List Byte → Decoded) : Decoded :=
  rdWord b fun a0 b => rdWord b fun a1 b => rdWord b fun a2 b => rdWord b fun a3 b => rdWord b fun a4 b =>
  k ⟨a0, a1, a2, a3, a4⟩ b

def wrApp (a : App) : List Byte := wrWord a.a0 ++ (wrWord a.a1 ++ (wrWord a.a2 ++ (wrWord a.a3 ++ wrWord a.a4)))

/-- A descriptor in the `SQ` layout (R141); reserved words are not interpreted (R150). -/
def rdDescSq (b : List Byte) (k : Desc → List Byte → Decoded) : Decoded :=
  rdWord b fun next b => rdWord b fun _ b => rdWord b fun buf b => rdWord b fun _ b =>
  rdWord b fun _ b => rdWord b fun _ b => rdWord b fun ctrl b => rdWord b fun status b =>
  rdApp b fun app b => rdWord b fun swFrame b => rdWord b fun swMap b => rdWord b fun swTag b =>
  k ⟨next, buf, ctrl, status, app, swFrame, swMap, swTag⟩ b

def wrDescSq (d : Desc) : List Byte :=
  wrWord d.next ++ (wrWord 0 ++ (wrWord d.buf ++ (wrWord 0 ++ (wrWord 0 ++ (wrWord 0 ++
  (wrWord d.ctrl ++ (wrWord d.status ++
  (wrApp d.app ++ (wrWord d.swFrame ++ (wrWord d.swMap ++ wrWord d.swTag))))))))))

/-- A descriptor in the `MC` layout (R142). -/
def rdDescMc (b : List Byte) (k : Desc → List Byte → Decoded) : Decoded :=
  rdWord b fun next b => rdWord b fun _ b => rdWord b fun buf b => rdWord b fun _ b =>
  rdWord b fun _ b => rdWord b fun ctrl b => rdWord b fun status b => rdWord b fun _ b =>
  rdApp b fun app b => rdWord b fun swFrame b => rdWord b fun swMap b => rdWord b fun swTag b =>
  k ⟨next, buf, ctrl, status, app, swFrame, swMap, swTag⟩ b

def wrDescMc (d : Desc) : List Byte :=
  wrWord d.next ++ (wrWord 0 ++ (wrWord d.buf ++ (wrWord 0 ++ (wrWord 0 ++
  (wrWord d.ctrl ++ (wrWord d.status ++ (wrWord 0 ++
  (wrApp d.app ++ (wrWord d.swFrame ++ (wrWord d.swMap ++ wrWord d.swTag))))))))))

/-- A descriptor, and the ring whose engine it is for. -/
def decodeDescriptor (v : Variant) (b : List Byte) : Decoded :=
  match v with
  | .sq => rdDescSq b fun d b => rdRing b fun dir q _ => .ok (.descriptorSq dir q d)
  | .mc => rdDescMc b fun d b => rdRing b fun dir q _ => .ok (.descriptorMc dir q d)

/-- The operation that an encoded object is on a machine of variant `v` with `nq` channels. -/
def decode (v : Variant) (nq : Nat) (op : RawOp) : Decoded :=
  match op.fmt with
  | .command => decodeCommand op.bytes
  | .register => decodeRegister v nq op.bytes
  | .descWord => decodeDescWord op.bytes
  | .descriptor => decodeDescriptor v op.bytes

/-! ### The encoder -/

def wrRing (dir : Dir) (q : Nat) : List Byte := wrEnum dirList dir ++ putLE 1 q

def encCommand (id : Nat) (operands : List Byte) : RawOp := ⟨.command, putLE 1 id ++ operands⟩

def wrTrans (t : Trans) : List Byte :=
  match t with
  | .read => putLE 1 0
  | .write w => putLE 1 1 ++ wrWord w

def encRegister (off : Nat) (t : Trans) : RawOp := ⟨.register, putLE 2 off ++ wrTrans t⟩

def wrSlot (q i : Nat) : List Byte := putLE 1 q ++ putLE 2 i

def encDescWord (place : Nat) (w : Word) (slot : List Byte) : RawOp :=
  ⟨.descWord, wrWord w ++ (putLE 1 place ++ slot)⟩

/-- The encoded object of an operation. -/
def encode : Instr → RawOp
  | .attach cfg => encCommand 0x01 (wrConfig cfg)
  | .detach => encCommand 0x02 []
  | .allocate dir q cap => encCommand 0x03 (wrRing dir q ++ putLE 4 cap)
  | .resetRing dir q => encCommand 0x04 (wrRing dir q)
  | .armRx q => encCommand 0x05 (putLE 1 q)
  | .freeRing dir q => encCommand 0x06 (wrRing dir q)
  | .submitTx q f => encCommand 0x10 (putLE 1 q ++ wrFrame f)
  | .pollRx q budget => encCommand 0x11 (putLE 1 q ++ putLE 4 budget)
  | .reclaimTx q => encCommand 0x12 (putLE 1 q)
  | .offloadTx q f => encCommand 0x18 (putLE 1 q ++ wrFrame f)
  | .offloadRx q i => encCommand 0x19 (wrSlot q i)
  | .configureWeight c w => encCommand 0x20 (putLE 1 c ++ putLE 1 w)
  | .enableChannel c dirs => encCommand 0x21 (putLE 1 c ++ wrEnum dirsList dirs)
  | .disableChannel c dirs => encCommand 0x22 (putLE 1 c ++ wrEnum dirsList dirs)
  | .irqService dir budget => encCommand 0x30 (wrEnum dirList dir ++ putLE 4 (budget - 1))
  | .recoverBegin dir q => encCommand 0x31 (wrRing dir q)
  | .recoverPoll dir q => encCommand 0x32 (wrRing dir q)
  | .recoverDrain dir q => encCommand 0x33 (wrRing dir q)
  | .recoverReconfig dir q => encCommand 0x34 (wrRing dir q)
  | .linkNotify up => encCommand 0x40 (wrEnum boolList up)
  | .statsSnapshot => encCommand 0x41 []
  | .regRead off => encCommand 0x50 (putLE 2 off)
  | .regWrite off v => encCommand 0x51 (putLE 2 off ++ wrWord v)
  | .eTxDesc q => encCommand 0x80 (putLE 1 q)
  | .eRxDesc q => encCommand 0x81 (putLE 1 q)
  | .eArbGrant => encCommand 0x82 []
  | .eDelayTimeout dir q => encCommand 0x83 (wrRing dir q)
  | .eFault dir q cause => encCommand 0x84 (wrRing dir q ++ wrEnum causeList cause)
  | .eResetDone dir q => encCommand 0x85 (wrRing dir q)
  | .eStopDone dir q => encCommand 0x86 (wrRing dir q)
  | .crSq dir t => encRegister (rbOff .sq dir 0 + 0x00) t
  | .srSq dir t => encRegister (rbOff .sq dir 0 + 0x04) t
  | .curdescSq dir t => encRegister (rbOff .sq dir 0 + 0x08) t
  | .taildescSq dir t => encRegister (rbOff .sq dir 0 + 0x10) t
  | .isrSq dir t => encRegister (rbOff .sq dir 0 + 0x18) t
  | .ierSq dir t => encRegister (rbOff .sq dir 0 + 0x1C) t
  | .icrSq dir t => encRegister (rbOff .sq dir 0 + 0x20) t
  | .tsfCntSq t => encRegister (rbOff .sq .tx 0 + 0x24) t
  | .tsfTagSq t => encRegister (rbOff .sq .tx 0 + 0x28) t
  | .tsfLoSq t => encRegister (rbOff .sq .tx 0 + 0x2C) t
  | .tsfHiSq t => encRegister (rbOff .sq .tx 0 + 0x30) t
  | .crMc dir c t => encRegister (rbOff .mc dir c + 0x00) t
  | .srMc dir c t => encRegister (rbOff .mc dir c + 0x04) t
  | .curdescMc dir c t => encRegister (rbOff .mc dir c + 0x08) t
  | .taildescMc dir c t => encRegister (rbOff .mc dir c + 0x10) t
  | .isrMc dir c t => encRegister (rbOff .mc dir c + 0x18) t
  | .ierMc dir c t => encRegister (rbOff .mc dir c + 0x1C) t
  | .icrMc dir c t => encRegister (rbOff .mc dir c + 0x20) t
  | .tsfCntMc c t => encRegister (rbOff .mc .tx c + 0x24) t
  | .tsfTagMc c t => encRegister (rbOff .mc .tx c + 0x28) t
  | .tsfLoMc c t => encRegister (rbOff .mc .tx c + 0x2C) t
  | .tsfHiMc c t => encRegister (rbOff .mc .tx c + 0x30) t
  | .chen dir t => encRegister (bbOff dir + 0x00) t
  | .chIer dir t => encRegister (bbOff dir + 0x04) t
  | .chIsr dir t => encRegister (bbOff dir + 0x08) t
  | .chIcr dir t => encRegister (bbOff dir + 0x0C) t
  | .weight0 t => encRegister (bbOff .tx + 0x10) t
  | .weight1 t => encRegister (bbOff .tx + 0x14) t
  | .reservedOffset off t => encRegister off t
  | .descriptorSq dir q d => ⟨.descriptor, wrDescSq d ++ wrRing dir q⟩
  | .descriptorMc dir q d => ⟨.descriptor, wrDescMc d ++ wrRing dir q⟩
  | .descNext dir q i w => encDescWord 0 w (wrEnum dirList dir ++ wrSlot q i)
  | .descBuf dir q i w => encDescWord 1 w (wrEnum dirList dir ++ wrSlot q i)
  | .descCtrlSq dir q i w => encDescWord 2 w (wrEnum dirList dir ++ wrSlot q i)
  | .descCtrlMc dir q i w => encDescWord 3 w (wrEnum dirList dir ++ wrSlot q i)
  | .descStatus dir q i w => encDescWord 4 w (wrEnum dirList dir ++ wrSlot q i)
  | .descApp0Tx q i w => encDescWord 5 w (wrSlot q i)
  | .descApp1Tx q i w => encDescWord 6 w (wrSlot q i)
  | .descApp2Tx q i w => encDescWord 7 w (wrSlot q i)
  | .descApp3Tx q i w => encDescWord 8 w (wrSlot q i)
  | .descApp4Tx q i w => encDescWord 9 w (wrSlot q i)
  | .descApp0Rx q i w => encDescWord 10 w (wrSlot q i)
  | .descApp1Rx q i w => encDescWord 11 w (wrSlot q i)
  | .descApp2Rx q i w => encDescWord 12 w (wrSlot q i)
  | .descApp3Rx q i w => encDescWord 13 w (wrSlot q i)
  | .descApp4Rx q i w => encDescWord 14 w (wrSlot q i)
  | .descSwFrame dir q i w => encDescWord 15 w (wrEnum dirList dir ++ wrSlot q i)
  | .descSwMap dir q i w => encDescWord 16 w (wrEnum dirList dir ++ wrSlot q i)
  | .descSwTag dir q i w => encDescWord 17 w (wrEnum dirList dir ++ wrSlot q i)

/-! ### Words of the opcode table -/

/-- The kind of object a table row of `nbits` bits is. -/
def tableFmt (nbits : Nat) : Fmt :=
  if nbits ≤ 8 then .command else if nbits ≤ 16 then .register else if nbits ≤ 32 then .descWord else .descriptor

/-- The encoded object whose bits are `w`, with 128 zero bytes after the bits the table gives. -/
def tableOp (nbits w : Nat) : RawOp := ⟨tableFmt nbits, putLE ((nbits + 7) / 8) w ++ List.replicate 128 0⟩

/-- The operation the decoder reads from a table word, on the machine as it is after reset (`SQ`, one channel; log 9). -/
def decodeTableWord (nbits w : Nat) : Option Instr := (decode .sq 1 (tableOp nbits w)).toOption

end Sys2Proof
end

