-- ==== Sys2Proof/Machine/State.lean ====
section
/-! DEFINITION. The state of the block (`10_state.md`): the engine's registers and hidden state, the ring manager's state, memory,
the ports, and the model's own fields for draws, commands in progress and the order of steps. Faults and refusals. Reset. -/

namespace Sys2Proof.Machine

/-! ### Hardware layer -/

/-- Registers and hidden engine state of one ring (R40 to R53). `run` is `CR.RS` in `SQ` and bit q of `CHEN[dir]` in `MC`
(R42, R48); `chIer` and `chIsr` are bit q of `CH_IER[dir]` and `CH_ISR[dir]` (R49, R50). -/
structure RingRegs where
  run : Bool
  resetBusy : Bool
  resetCompletes : Bool
  stopPending : Bool
  tailValid : Bool
  idle : Bool
  thresh : BitVec 8
  delay : BitVec 8
  errInt : Bool
  errSlv : Bool
  errDec : Bool
  curdesc : Word
  taildesc : Word
  isr : BitVec 3
  ier : BitVec 3
  iocCount : Nat
  dlyArmed : Bool
  chIer : Bool
  chIsr : Bool
deriving DecidableEq, Repr

/-- The hardware reset values of one ring (R80). `reset_completes` has none (R501): the model's false (log 2). -/
def RingRegs.reset : RingRegs :=
  { run := false, resetBusy := false, resetCompletes := false, stopPending := false, tailValid := false, idle := false,
    thresh := 1, delay := 0, errInt := false, errSlv := false, errDec := false, curdesc := 0, taildesc := 0,
    isr := 0, ier := 0, iocCount := 1, dlyArmed := false, chIer := false, chIsr := false }

/-- The frame assembly record (R54). -/
structure Asm where
  active : Bool
  bytes : List Byte
  app : App
  err : Bool
deriving DecidableEq, Repr

def appZero : App := ⟨0, 0, 0, 0, 0⟩

def asmInactive : Asm := ⟨false, [], appZero, false⟩

/-- An entry of the timestamp FIFO (R47). -/
structure TsEntry where
  tag : BitVec 16
  ts : Long
deriving DecidableEq, Repr

/-- Engine state of one TX ring: `asm[q]` (R54) and `TSF[q]` (R47). -/
structure TxEngine where
  asm : Asm
  tsf : List TsEntry
deriving DecidableEq, Repr

/-- A frame on `rx_stream[q]` (R84). -/
structure StreamFrame where
  bytes : List Byte
  app : App
deriving DecidableEq, Repr

/-- The spanning record when it is not none (R55). -/
structure RxRem where
  bytes : List Byte
  app : App
  first : Bool
deriving DecidableEq, Repr

/-- Engine state of one RX ring: `rx_rem[q]` (R55) and its input queue `rx_stream[q]` (R84). -/
structure RxEngine where
  rem : Option RxRem
  stream : List StreamFrame
deriving DecidableEq, Repr

/-- The hardware layer (R4): everything the engines, the arbiter and the register file hold. -/
structure Hw where
  regs : PerRing RingRegs
  txe : PerChan TxEngine
  rxe : PerChan RxEngine
  weight : PerChan (BitVec 4)
  credit : PerChan Nat
  rrPtr : Chan
  grant : Option Chan
  irqTx : Bool
  irqRx : Bool
deriving DecidableEq, Repr

/-! ### Ring-manager layer -/

/-- The states of a ring (R37). -/
inductive RState where
  | running
  | halting
  | halted
  | reconfiguring
  | fatal
deriving DecidableEq, Repr

/-- The result codes (R450). -/
inductive ResultCode where
  | ok
  | ringFull
  | descriptorError
  | dmaFault
  | resetTimeout
  | configError
  | outOfMemory
  | invalidConfiguration
  | notReady
  | fatal
  | invalidFrame
deriving DecidableEq, Repr

/-- Ring-manager state of one ring (R31 to R38, R58). `populated`: `ARM_RX` has armed the pool, which R62 asks of an RX
ring (log 18). -/
structure RingSw where
  present : Bool
  base : Word
  cap : Nat
  issue : Nat
  hwTail : Nat
  completion : Nat
  rstate : RState
  recoveryPending : Bool
  retries : Nat
  fatalCause : Option ResultCode
  packets : Long
  bytes : Long
  errors : Long
  dropped : Long
  populated : Bool
deriving DecidableEq, Repr

/-- Before the first `ATTACH` and after a successful `DETACH` (R81: absent); the values are the model's (log 2). -/
def RingSw.absent : RingSw :=
  { present := false, base := 0, cap := 0, issue := 0, hwTail := 0, completion := 0, rstate := .fatal,
    recoveryPending := false, retries := 0, fatalCause := none, packets := 0, bytes := 0, errors := 0, dropped := 0,
    populated := false }

/-- Timestamp tag state of one TX ring (R60); the map is a list sorted by tag. -/
structure TagState where
  nextTag : BitVec 16
  tagmap : List (Nat × Word)
deriving DecidableEq, Repr

/-- The ring-manager layer (R4, R58 to R60). `unfenced` is the model's: a descriptor of the ring has been written and no
`WMB` executed since (R121, R122; log 12). -/
structure Sw where
  rings : PerRing RingSw
  unfenced : PerRing Bool
  tags : PerChan TagState
  ctxPresent : Bool
  linkUp : Bool
  txCsum : CsumMode
  rxCsum : CsumMode
  tsEnabled : Bool
deriving DecidableEq, Repr

/-! ### Ports -/

/-- Outcome of the receive checksum decode (R63, R315). -/
inductive CsumStatus where
  | hardwareVerified
  | softwareVerifyNeeded
  | unsupported
deriving DecidableEq, Repr

/-- A received frame handed upward (R63). -/
structure RxFrame where
  payload : List Byte
  length : Nat
  csum : CsumStatus
  raw : BitVec 16
  ts : Option Long
  handle : Word
  addr : Word
deriving DecidableEq, Repr

/-- Output events (R84); one list keeps their order across ports. -/
inductive Event where
  | txStream (q : Chan) (bytes : List Byte) (app : App)
  | release (h : Word)
  | unmap (addr : Word) (len : Nat) (kind : Word)
  | rxDeliver (q : Chan) (f : RxFrame)
  | txTimestamp (h : Word) (t : Long)
  | scheduleRecovery (r : RingId)
  | fatal (r : RingId) (c : ResultCode)
deriving DecidableEq, Repr

/-- The subcodes of `ConfigError` (R450). -/
inductive SubCode where
  | queueCount
  | alignment
  | size
  | weight
  | memory
deriving DecidableEq, Repr

/-- What `STATS_SNAPSHOT` returns for one ring (R429). -/
structure Stat where
  ring : RingId
  packets : Long
  bytes : Long
  errors : Long
  dropped : Long
  rstate : RState
deriving DecidableEq, Repr

/-- The result of a command operation with what it returns (R450). -/
inductive Result where
  | ok
  | okRing (r : RingId)
  | okFrames (fs : List RxFrame)
  | okHandles (hs : List Word)
  | okWords (a : App)
  | okRx (cs : CsumStatus) (raw : BitVec 16) (ts : Option Long)
  | okStats (xs : List Stat)
  | okValue (v : Word)
  | ringFull
  | resetTimeout
  | configError (sub : SubCode)
  | outOfMemory
  | invalidConfiguration
  | notReady
  | fatal
  | invalidFrame
deriving DecidableEq, Repr

/-- A result given back at the command interface, with the id of the command (R165); register rows answer under the
id of `REG_READ`. -/
structure Answer where
  id : Nat
  result : Result
deriving DecidableEq, Repr

/-! ### Draws, commands in progress, order of steps -/

/-- The environment's answers still to be given (R85), and the counter the free values are applied to when a list has
run out (log 4). -/
structure Env where
  busResp : List BusResp
  ts : List Long
  resetCompletes : List Bool
  rxBuffers : List (Word × Word)
  allocs : List (Option Word)
  drawn : Nat
deriving DecidableEq, Repr

/-- A `POLL_RX` between two iterations (R215). -/
structure PollSt where
  q : Chan
  budget : Nat
  n : Nat
  out : List RxFrame
  last : Option Nat
deriving DecidableEq, Repr

/-- A `RECLAIM_TX` between two iterations (R220). -/
structure ReclaimSt where
  q : Chan
  out : List Word
deriving DecidableEq, Repr

/-- Where an `IRQ_SERVICE` stands: what its next atomic step is (R270, R271). `s` is the value read from `ISR[r]`. -/
inductive IrqStage where
  | readChIsr
  | readChIer (v : Word)
  | writeChIcr (v : Word)
  | entry
  | maskIer (q : Chan)
  | maskChIer (q : Chan)
  | call (q : Chan) (s : BitVec 3)
  | poll (q : Chan) (s : BitVec 3) (p : PollSt)
  | reclaim (q : Chan) (s : BitVec 3) (p : ReclaimSt)
  | deliver (q : Chan) (s : BitVec 3) (fs : List RxFrame)
  | writeIcr (q : Chan) (s : BitVec 3)
  | readIer (q : Chan) (s : BitVec 3)
  | writeIer (q : Chan) (s : BitVec 3) (e : BitVec 3)
deriving DecidableEq, Repr

/-- A register access of phase 5 or 7 of `ATTACH` (R420) or of phase 2 of `DETACH` (R425): a step of its own (R17, D45). A
read-modify-write that R244 and R61 make one step is one access. -/
inductive Access where
  | curdesc (r : RingId)
  | cr (r : RingId)
  | weights (hi : Bool)
  | ier (r : RingId)
  | readRun (r : RingId)
  | writeRun (r : RingId) (v : Word)
  | enableBits (r : RingId)
  | bell (r : RingId)
  | maskIer (r : RingId)
  | maskChIer (r : RingId)
  | reset (r : RingId)
deriving DecidableEq, Repr

/-- The next atomic step of an `ATTACH` (R420): a phase, or in phases 5 and 7 the accesses left. -/
inductive AttachPhase where
  | allocate
  | software
  | arm
  | program (todo : List Access)
  | present
  | enable (todo : List Access)
deriving DecidableEq, Repr

/-- The next atomic step of a `DETACH` (R425): phase 2 with the accesses left, or phase 3 with the rings left to poll; with
none left it is phase 4. -/
inductive DetachStage where
  | mask (todo : List Access)
  | poll (todo : List RingId) (k : Nat)
deriving DecidableEq, Repr

/-- The next register write of a `RECOVER_RECONFIG` (R294). -/
inductive ReconfigStage where
  | curdesc
  | cr
  | ier
  | enable
deriving DecidableEq, Repr

/-- A command in progress between two of its atomic steps (R17; log 6). -/
inductive Task where
  | attach (phase : AttachPhase) (cfg : Config)
  | detach (stage : DetachStage)
  | poll (p : PollSt)
  | reclaim (p : ReclaimSt)
  | irq (dir : Dir) (budget : Nat) (todo : List Chan) (stage : IrqStage)
  | reconfig (r : RingId) (stage : ReconfigStage)
deriving DecidableEq, Repr

/-- A choice of the scheduler (R17, R83): start an operation, let a command in progress take its next step, let the consumer
of a `POLL_RX` abandon it (R218), or let the environment act: a frame arrives on `rx_stream[q]` (R18 (g), R84), bytes of
data buffers are written (R82, R432). -/
inductive Sched where
  | start (op : RawOp)
  | resume (k : Nat)
  | abandon (k : Nat)
  | receive (q : Chan) (f : StreamFrame)
  | poke (a : Word) (bytes : List Byte)
deriving DecidableEq, Repr

/-- DMA-visible memory (R100): bytes by address, addresses strictly rising; an unlisted address holds no value yet
(R82; log 3). -/
abbrev Memory := List Host.Cell

/-- The whole machine. -/
structure State where
  cfg : Config
  hw : Hw
  sw : Sw
  mem : Memory
  events : List Event
  answers : List Answer
  env : Env
  tasks : List Task
  sched : List Sched
deriving DecidableEq, Repr

/-! ### Stops -/

/-- Why the machine stops with a fault. -/
inductive Fault where
  /-- `fault TagCollision` (R311, R462): raised by `SUBMIT_TX` and `OFFLOAD_TX` when the next tag is still in the map.
  Safe: the spec's own faulted state. -/
  | tagCollision
deriving DecidableEq, Repr

/-- Why there is no transition (R461). Every reason is safe: the model stops where the spec defines no behaviour. -/
inductive Refusal where
  /-- Raised by `exec` for an instruction without a meaning. Safe. -/
  | notModelled (mnemonic : String)
  /-- Raised by `step` for bytes that are no operation: an id not listed (R178, U29), a register transaction that R107
  refuses, a descriptor word with reserved bits (R150, U8). Safe. -/
  | undecodable (e : DecodeError)
  /-- Raised by a command that needs a device context (R210, R215, R220, R240, R243, R245, R425, R428, R429; R81). Safe. -/
  | noContext
  /-- Raised by an operation on a ring or channel the hardware does not have (U28). Safe. -/
  | noSuchRing
  /-- Raised by an operation of the other variant (U28). Safe. -/
  | wrongVariant
  /-- Raised by `ALLOCATE` of a ring that has a pool (R190). Safe. -/
  | alreadyAllocated
  /-- Raised by a pool operation on a ring without a pool (R193, R461). Safe. -/
  | notAllocated
  /-- Raised by a pool operation on a ring that is not halted (R193, R196, R198, R461). Safe. -/
  | ringNotHalted
  /-- Raised by `FREE_RING` alone while there is a device context: then only `DETACH` uses it (R198, R299). Safe. -/
  | usedByDetachOnly
  /-- Raised by `ATTACH` with a context, or with a ring that is not halted (R420). Safe. -/
  | attachNotEnabled
  /-- Raised by a `RECOVER_*` in another ring state than its rule's, by `DETACH` during a recovery (U28, R425), and by a store to
  a descriptor of a ring that is not `Running`, whose descriptors stay as they are (R37, R61, R297). Safe. -/
  | wrongRingState
  /-- Raised by an operation that has to wait for a body on its ring (R276, R296). Safe. -/
  | bodyInProgress
  /-- Raised by the operations of the control context while an `ATTACH` or a `DETACH` is in progress in it (R18 (d)), and by
  `RECOVER_BEGIN`, which waits for an `ATTACH` that still has register accesses to make (R291). Safe: log 19. -/
  | contextBusy
  /-- Raised by a register transaction at a bad offset (R107, U3). Safe. -/
  | badTransaction
  /-- Raised by a doorbell that no `WMB` orders after the last descriptor write (R121, U19). Safe. -/
  | doorbellUnordered
  /-- Raised by a store to a descriptor the engine owns (R127, U17). Safe. -/
  | engineOwnsDescriptor
  /-- Raised by a descriptor store that no rule of the ring manager makes (R152: no other write exists): into a complete
  descriptor, into a receive descriptor of a ring that is not halted, another chain word than `RESET_RING`'s or outside a
  halted ring, a nonzero `STATUS` or receive application word. Safe: log 11. -/
  | noSuchWrite
  /-- Raised by an operation on a descriptor index outside the ring (U28). Safe. -/
  | slotOutOfRange
deriving DecidableEq, Repr

abbrev Res := Host.Outcome State Fault Refusal

/-! ### Reset -/

/-- The configuration until the first `ATTACH`: the given variant and channel count, R12's defaults where it gives one
(`WEIGHT_SUM_LIMIT`, `RESET_RETRY_MAX`, the coalescing and weight defaults of `Config.ring` and `Config.weight`). R12 gives
no default for `MAX_FRAME`, `RX_BUF_SIZE`, `CAPS`, `MAC_VARIANT` and `REG_BASE`: 0, 0, none, 1G and 0 are the model's
choice (DESIGN CHOICE, log 1). -/
def powerOnConfig (v : Variant) (nq : Nat) : Config :=
  { variant := v, nq := nq, tx := [], rx := [], maxFrame := 0, rxBufSize := 0, weightSumLimit := none, initWeight := [],
    resetRetryMax := 300, caps := ⟨.off, .off, false⟩, mac := .g1, regBase := 0 }

/-- The hardware after power-on (R80, R500 (a)). -/
def Hw.powerOn (nq : Nat) : Hw :=
  { regs := ⟨Vector.replicate 16 RingRegs.reset, Vector.replicate 16 RingRegs.reset⟩
    txe := Vector.replicate 16 ⟨asmInactive, []⟩
    rxe := Vector.replicate 16 ⟨none, []⟩
    weight := Vector.ofFn fun c => if c.val < nq then 1 else 0
    credit := Vector.replicate 16 0
    rrPtr := 0
    grant := none
    irqTx := false
    irqRx := false }

/-- No ring owes a `WMB`. -/
def allFenced : PerRing Bool := ⟨Vector.replicate 16 false, Vector.replicate 16 false⟩

/-- The ring manager before the first `ATTACH` (R81). -/
def Sw.absent : Sw :=
  { rings := ⟨Vector.replicate 16 RingSw.absent, Vector.replicate 16 RingSw.absent⟩
    unfenced := allFenced
    tags := Vector.replicate 16 ⟨0, []⟩
    ctxPresent := false
    linkUp := false
    txCsum := .off
    rxCsum := .off
    tsEnabled := false }

/-- No answer given yet. -/
def Env.empty : Env := ⟨[], [], [], [], [], 0⟩

/-- Power-on of a machine of variant `v` with `nq` channels (R500 (a), R501). -/
def State.powerOn (v : Variant) (nq : Nat) : State :=
  { cfg := powerOnConfig v nq
    hw := Hw.powerOn nq
    sw := Sw.absent
    mem := []
    events := []
    answers := []
    env := Env.empty
    tasks := []
    sched := [] }

/-- The machine right after reset: power-on of the `SQ` variant (log 1). -/
def State.reset : State := State.powerOn .sq 1

end Sys2Proof.Machine
end

