-- ==== Sys2Proof/Machine/Operands.lean ====
section
/-! DEFINITION. Operand assembly (R162): the two descriptor layouts as word offsets (R141, R142), descriptor addresses (R14), the
fields of `CTRL` (R143, R144), `STATUS` (R145) and the application words (R147, R148), and the cursor arithmetic (R14, R31). -/

namespace Sys2Proof.Machine

/-! ### Word offsets -/

def nextOff : Nat := 0x00
def bufOff : Nat := 0x08

/-- `CTRL` is at 0x18 in `SQ` (R141) and 0x14 in `MC` (R142). -/
def ctrlOff (v : Variant) : Nat := match v with | .sq => 0x18 | .mc => 0x14

/-- `STATUS` is at 0x1C in `SQ` (R141) and 0x18 in `MC` (R142). -/
def statusOff (v : Variant) : Nat := match v with | .sq => 0x1C | .mc => 0x18

/-- `APP0` to `APP4` are at 0x20 to 0x30. -/
def appOff (j : Nat) : Nat := 0x20 + 4 * j

def swFrameOff : Nat := 0x34
def swMapOff : Nat := 0x38
def swTagOff : Nat := 0x3C

/-! ### Addresses and cursors -/

/-- `daddr(r, i)` (R14): the address of descriptor `i` of a pool at `base`. -/
def daddr (base : Word) (i : Nat) : Word := base + BitVec.ofNat 32 (64 * i)

/-- `inc(r, x)` (R14). -/
def incMod (n x : Nat) : Nat := (x + 1) % n

/-- `(x - 1) mod n` for `x` below `n`. -/
def decMod (n x : Nat) : Nat := (x + (n - 1)) % n

/-- `free_tx(r)` = (completion - issue - 1) mod N (R14, R212), for `issue` below `n`. -/
def freeTx (n issue completion : Nat) : Nat := (completion + (n - 1 - issue)) % n

/-- Pointer registers and `NEXT` drop bits [5:0] (R40, R41, R146). -/
def align64 (w : Word) : Word := w &&& 0xFFFFFFC0

/-! ### The `CTRL` word -/

/-- `LEN`, bits [22:0] of `CTRL`; `XFER_LEN`, bits [22:0] of `STATUS` (R143, R144, R145). -/
def lenOf (w : Word) : Nat := (w.extractLsb' 0 23).toNat

/-- Bit position of `SOF` (R143, R144). -/
def sofPos (v : Variant) : Nat := match v with | .sq => 27 | .mc => 31

/-- Bit position of `EOF` (R143, R144). -/
def eofPos (v : Variant) : Nat := match v with | .sq => 26 | .mc => 30

def sofOf (v : Variant) (w : Word) : Bool := w.getLsbD (sofPos v)
def eofOf (v : Variant) (w : Word) : Bool := w.getLsbD (eofPos v)

/-- One bit of a word, when it is asked for. -/
def bitIf (on : Bool) (pos : Nat) : Word := if on then BitVec.ofNat 32 (2 ^ pos) else 0

/-- A TX `CTRL` word (R162). -/
def txCtrl (v : Variant) (len : Nat) (sof eof : Bool) : Word :=
  BitVec.ofNat 32 len ||| bitIf sof (sofPos v) ||| bitIf eof (eofPos v)

/-! ### The `STATUS` word -/

def cmpltOf (w : Word) : Bool := w.getLsbD 31

/-- Bits [30:28]: `ERR_DEC`, `ERR_SLV`, `ERR_INT` (R145). -/
def errBits (w : Word) : BitVec 3 := w.extractLsb' 28 3

def rxSofOf (w : Word) : Bool := w.getLsbD 27
def rxEofOf (w : Word) : Bool := w.getLsbD 26

/-- The three error flags as the engine's pseudocode numbers them (R381). -/
def errInt : BitVec 3 := 1
def errSlv : BitVec 3 := 2
def errDec : BitVec 3 := 4

/-- The word the engine writes back (R385): `CMPLT`, error flags, `RXSOF`, `RXEOF`, and `XFER_LEN`, 0 with an error. -/
def statusWord (err : BitVec 3) (rxSof rxEof : Bool) (n : Nat) : Word :=
  bitIf true 31 ||| (err.setWidth 32 <<< 28) ||| bitIf rxSof 27 ||| bitIf rxEof 26 |||
    (if err = 0 then BitVec.ofNat 32 n else 0)

/-! ### Application words and the software-only words -/

/-- Bit 31 of TX `APP4` (`TS_REQ`) and of `SW_TAG` (`TS_PENDING`) (R147, R149). -/
def tsReqOf (w : Word) : Bool := w.getLsbD 31

/-- Bits [15:0]: the tag (R147, R149). -/
def tagOf (w : Word) : BitVec 16 := w.extractLsb' 0 16

/-- The TX `APP4` word of a timestamped frame (R162). -/
def tagWord (tag : BitVec 16) : Word := 0x80000000 ||| tag.setWidth 32

/-- The TX `APP1` word (R162). -/
def csumWord (start insert : BitVec 16) : Word := (start.setWidth 32 <<< 16) ||| insert.setWidth 32

/-- `CSUM_STS`, bits [5:3] of RX `APP2` (R148). -/
def csumSts (w : Word) : BitVec 3 := w.extractLsb' 3 3

/-- `SW_MAP` of a fragment (R149). -/
def mapWord (k : MapKind) : Word := match k with | .single => 1 | .page => 2

/-- A `CR` value (R162). -/
def crValue (delay thresh : Nat) : Word := (BitVec.ofNat 32 delay <<< 24) ||| (BitVec.ofNat 32 thresh <<< 16)

end Sys2Proof.Machine
end

