-- ==== Sys2Proof/Machine/Flags.lean ====
section
/-! DEFINITION. The flags of the block (R64): the `CR` and `SR` views of a ring (R42, R43, R331, R333), the interrupt causes (R44, R465),
the run and stop control (R332), coalescing (R394), and the conditions the engine steps are enabled by (R380). -/

namespace Sys2Proof.Machine

/-- `halted(r)`, the value of `SR.HALTED` (R43, R333). -/
def halted (x : RingRegs) : Bool := !x.run && !x.stopPending && !x.resetBusy

/-- `SR.IDLE` (R43). -/
def idleFlag (x : RingRegs) : Bool := x.run && x.tailValid && x.idle

/-- A read of `SR` (R333). -/
def srWord (x : RingRegs) : Word :=
  bitIf (halted x) 0 ||| bitIf (idleFlag x) 1 ||| bitIf x.errInt 4 ||| bitIf x.errSlv 5 ||| bitIf x.errDec 6

/-- A read of `CR` (R331). -/
def crWord (x : RingRegs) : Word :=
  bitIf x.run 0 ||| bitIf x.resetBusy 2 ||| (x.thresh.setWidth 32 <<< 16) ||| (x.delay.setWidth 32 <<< 24)

/-- `processing(r)` (R380). -/
def processing (x : RingRegs) : Bool :=
  x.run && !x.resetBusy && !x.stopPending && x.tailValid && !x.idle

/-! ### Interrupt causes -/

/-- The causes (R395): `IOC` bit 0, `DLY` bit 1, `ERR` bit 2. -/
inductive Irq where
  | ioc
  | dly
  | err
deriving DecidableEq, Repr

def Irq.bit : Irq → BitVec 3
  | .ioc => 1
  | .dly => 2
  | .err => 4

/-- `RAISE` on the ring's own registers (R395): the status bit is set; an enabled cause is masked and delivered (the flag). -/
def raiseRegs (k : Irq) (x : RingRegs) : RingRegs × Bool :=
  ({ x with isr := x.isr ||| k.bit, ier := x.ier &&& ~~~k.bit }, x.ier &&& k.bit != 0)

/-- A write of `IER` (R337): asserted causes now enabled are masked again and delivered (the flag). -/
def ierWriteRegs (v : BitVec 3) (x : RingRegs) : RingRegs × Bool :=
  ({ x with ier := v &&& ~~~(v &&& x.isr) }, v &&& x.isr != 0)

/-! ### Run and stop -/

/-- Setting run on a ring that is not running (R331, R343). -/
def startRegs (x : RingRegs) : RingRegs :=
  if x.run then x else { x with run := true, tailValid := false, idle := false }

/-- Clearing run on a running ring asks for a stop (R332). -/
def stopRegs (x : RingRegs) : RingRegs :=
  if x.run then { x with run := false, stopPending := true } else x

/-- The run bit written to `CR` in `SQ` (R331) or to `CHEN` (R343): ignored while a stop or a reset is in progress. -/
def runWriteRegs (on : Bool) (x : RingRegs) : RingRegs :=
  if x.resetBusy || x.stopPending then x else if on then startRegs x else stopRegs x

/-- The coalescing fields of a `CR` write (R331): a `THRESH` of 0 leaves the field unchanged (R42). -/
def coalesceRegs (v : Word) (x : RingRegs) : RingRegs :=
  let th := if v.extractLsb' 16 8 = 0 then x.thresh else v.extractLsb' 16 8
  { x with thresh := th, delay := v.extractLsb' 24 8, iocCount := th.toNat,
           dlyArmed := if v.extractLsb' 24 8 = 0 then false else x.dlyArmed }

/-- A write of `TAILDESC`, the doorbell (R335). -/
def tailWriteRegs (v : Word) (x : RingRegs) : RingRegs :=
  if x.resetBusy then x
  else if x.run && !x.stopPending then { x with taildesc := align64 v, tailValid := true, idle := false }
  else { x with taildesc := align64 v }

/-- A write of `CURDESC` (R334): ignored unless the ring is halted. -/
def curWriteRegs (v : Word) (x : RingRegs) : RingRegs :=
  if halted x then { x with curdesc := align64 v } else x

/-- A write of `ICR` (R338). -/
def icrWriteRegs (v : Word) (x : RingRegs) : RingRegs :=
  if x.resetBusy then x else { x with isr := x.isr &&& ~~~(v.extractLsb' 0 3) }

/-- Whether a `TAILDESC` write would ring (R335). -/
def rings (x : RingRegs) : Bool := x.run && !x.stopPending && !x.resetBusy

/-! ### Coalescing, fault, reset, stop -/

/-- `PACKET_DONE` without its `RAISE` (R394); the flag says that `IOC` is raised. -/
def packetDoneRegs (x : RingRegs) : RingRegs × Bool :=
  if x.iocCount - 1 = 0 then ({ x with iocCount := x.thresh.toNat, dlyArmed := false }, true)
  else if x.delay ≠ 0 then ({ x with iocCount := x.iocCount - 1, dlyArmed := true }, false)
  else ({ x with iocCount := x.iocCount - 1 }, false)

/-- `E_DELAY_TIMEOUT` without its `RAISE` (R391). -/
def delayTimeoutRegs (x : RingRegs) : RingRegs := { x with dlyArmed := false, iocCount := x.thresh.toNat }

/-- `E_FAULT` on the ring's own registers, without its `RAISE` (R392). -/
def faultRegs (cause : Cause) (x : RingRegs) : RingRegs :=
  { x with errInt := x.errInt || cause == .int, errSlv := x.errSlv || cause == .slv, errDec := x.errDec || cause == .dec,
           run := false, tailValid := false, idle := false, stopPending := false, dlyArmed := false }

/-- `E_RESET_DONE` on the ring's own registers (R393): the reset values of R80; `reset_completes` is not a reset value. -/
def resetDoneRegs (x : RingRegs) : RingRegs := { RingRegs.reset with resetCompletes := x.resetCompletes }

/-- `E_STOP_DONE` on the ring's own registers (R397). -/
def stopDoneRegs (x : RingRegs) : RingRegs :=
  { x with stopPending := false, tailValid := false, idle := false, dlyArmed := false }

/-- The end of a descriptor step (R381, R388): `CURDESC` moves along `NEXT`; idle when the tail is done. -/
def advanceRegs (d next : Word) (x : RingRegs) : RingRegs :=
  { x with curdesc := align64 next, idle := x.idle || d == x.taildesc }

end Sys2Proof.Machine
end

