-- ==== Sys2Proof/Machine/Ops.lean ====
section
/-! DEFINITION. The named operations every meaning is made of: access to the state by ring and channel, memory (R15, R104), draws (R85),
ports, barriers (R122), taking an interrupt (`RAISE`, `NOTIFY`, R395, R396) and a controller-level fault (R392), the return
from one (R468), register reads and writes (R330 to R348), and descriptor ownership (R62). -/

namespace Sys2Proof.Machine

/-! ### The state by ring and channel -/

def State.regs (s : State) (r : RingId) : RingRegs := rget s.hw.regs r

def State.setRegs (s : State) (r : RingId) (x : RingRegs) : State :=
  { s with hw := { s.hw with regs := rset s.hw.regs r x } }

def State.ring (s : State) (r : RingId) : RingSw := rget s.sw.rings r

def State.setRing (s : State) (r : RingId) (x : RingSw) : State :=
  { s with sw := { s.sw with rings := rset s.sw.rings r x } }

def State.txe (s : State) (q : Chan) : TxEngine := vget s.hw.txe q

def State.setTxe (s : State) (q : Chan) (x : TxEngine) : State :=
  { s with hw := { s.hw with txe := vset s.hw.txe q x } }

def State.rxe (s : State) (q : Chan) : RxEngine := vget s.hw.rxe q

def State.setRxe (s : State) (q : Chan) (x : RxEngine) : State :=
  { s with hw := { s.hw with rxe := vset s.hw.rxe q x } }

def State.tags (s : State) (q : Chan) : TagState := vget s.sw.tags q

def State.setTags (s : State) (q : Chan) (x : TagState) : State :=
  { s with sw := { s.sw with tags := vset s.sw.tags q x } }

def State.weight (s : State) (c : Chan) : BitVec 4 := vget s.hw.weight c

def State.credit (s : State) (c : Chan) : Nat := vget s.hw.credit c

def State.irq (s : State) (d : Dir) : Bool := match d with | .tx => s.hw.irqTx | .rx => s.hw.irqRx

def State.setIrq (s : State) (d : Dir) (on : Bool) : State :=
  match d with
  | .tx => { s with hw := { s.hw with irqTx := on } }
  | .rx => { s with hw := { s.hw with irqRx := on } }

def State.setGrant (s : State) (g : Option Chan) : State := { s with hw := { s.hw with grant := g } }

def State.emit (s : State) (e : Event) : State := { s with events := s.events ++ [e] }

def State.emits (s : State) (es : List Event) : State := { s with events := s.events ++ es }

def State.setMem (s : State) (m : Memory) : State := { s with mem := m }

def State.setCfg (s : State) (c : Config) : State := { s with cfg := c }

def State.setTasks (s : State) (ts : List Task) : State := { s with tasks := ts }

def State.setSched (s : State) (xs : List Sched) : State := { s with sched := xs }

def State.setCtx (s : State) (on : Bool) : State := { s with sw := { s.sw with ctxPresent := on } }

def State.setLink (s : State) (up : Bool) : State := { s with sw := { s.sw with linkUp := up } }

/-- The offload configuration (R59). -/
def State.setModes (s : State) (c : Caps) : State :=
  { s with sw := { s.sw with txCsum := c.txCsum, rxCsum := c.rxCsum, tsEnabled := c.ts } }

def State.answer (s : State) (id : Nat) (r : Result) : State := { s with answers := s.answers ++ [⟨id, r⟩] }

/-- The ring an operand names, if the hardware has it (R14: q in 0 to `NQ` - 1). -/
def State.ring? (s : State) (d : Dir) (q : Nat) : Option RingId :=
  if h : q < 16 then if q < s.cfg.nq then some ⟨d, ⟨q, h⟩⟩ else none else none

/-- The channels and the rings of the hardware (R30). -/
def State.chans (s : State) : List Chan := chansBelow s.cfg.nq

def State.ringIds (s : State) : List RingId := ringsBelow s.cfg.nq

/-! ### The ring manager's registers of one ring -/

/-- The three cursors of a ring at one index. -/
def RingSw.cursors (w : RingSw) (i : Nat) : RingSw := { w with issue := i, hwTail := i, completion := i }

def RingSw.toIssue (w : RingSw) (i : Nat) : RingSw := { w with issue := i }

def RingSw.toTail (w : RingSw) (i : Nat) : RingSw := { w with hwTail := i }

def RingSw.toCompletion (w : RingSw) (i : Nat) : RingSw := { w with completion := i }

/-- A pool of `n` descriptors at `b`, not armed yet (R190). -/
def RingSw.pool (w : RingSw) (b : Word) (n : Nat) : RingSw :=
  { w with base := b, cap := n, present := true, populated := false }

/-- No pool (R198, R420). The model keeps the base and N the pool had: the spec gives the ring none any more, and no rule reads
them but the depth of the timestamp FIFO (R386, `State.tsPush`; DESIGN CHOICE, log 2). -/
def RingSw.gone (w : RingSw) : RingSw := { w with present := false, populated := false }

/-- A transition of the ring's state machine (R37). -/
def RingSw.become (w : RingSw) (st : RState) : RingSw := { w with rstate := st }

def RingSw.pending (w : RingSw) (on : Bool) : RingSw := { w with recoveryPending := on }

def RingSw.polls (w : RingSw) (n : Nat) : RingSw := { w with retries := n }

/-- `ARM_RX` has armed the pool (R62, R196). -/
def RingSw.populate (w : RingSw) : RingSw := { w with populated := true }

/-- The cause of a ring's fatal state (R38). -/
def RingSw.cause (w : RingSw) (c : ResultCode) : RingSw := { w with fatalCause := some c }

/-! ### Finite maps in one canonical form: keys strictly rising -/

def kvGet {α : Type} : List (Nat × α) → Nat → Option α
  | [], _ => none
  | (k, v) :: m, a => if k = a then some v else if a < k then none else kvGet m a

def kvPut {α : Type} : List (Nat × α) → Nat → α → List (Nat × α)
  | [], a, v => [(a, v)]
  | (k, w) :: m, a, v =>
    if a < k then (a, v) :: (k, w) :: m else if k = a then (a, v) :: m else (k, w) :: kvPut m a v

def kvDel {α : Type} : List (Nat × α) → Nat → List (Nat × α)
  | [], _ => []
  | (k, w) :: m, a => if k = a then m else if a < k then (k, w) :: m else (k, w) :: kvDel m a

/-- The canonical form of a finite map. -/
def kvSorted {α : Type} : List (Nat × α) → Bool
  | [] => true
  | [_] => true
  | (k, _) :: (l, w) :: m => k < l && kvSorted ((l, w) :: m)

/-! ### Memory -/

/-- The canonical form of memory: addresses strictly rising and 32 bits wide. An unlisted address holds no value, so no
entry equals what an unlisted address reads as (log 3). -/
def Memory.wf (m : Memory) : Bool := kvSorted m && m.all fun c => c.1 < 2 ^ 32

/-- The byte at an address: what was last written there, or the free byte of an address nothing has written (R82). -/
def memByte (m : Memory) (a : Word) : Byte := (kvGet m a.toNat).getD (Config.freeByte a.toNat)

def memPutByte (m : Memory) (a : Word) (v : Byte) : Memory := kvPut m a.toNat v

/-- `MemRead(a, 4)`, little-endian (R104). -/
def memWord (m : Memory) (a : Word) : Word :=
  memByte m (a + 3) ++ memByte m (a + 2) ++ memByte m (a + 1) ++ memByte m a

/-- `MemWrite(a, 4, v)`, little-endian (R104). -/
def memPutWord (m : Memory) (a : Word) (v : Word) : Memory :=
  memPutByte (memPutByte (memPutByte (memPutByte m a (v.extractLsb' 0 8)) (a + 1) (v.extractLsb' 8 8))
    (a + 2) (v.extractLsb' 16 8)) (a + 3) (v.extractLsb' 24 8)

/-- `MemBytes(a, n)`, addresses modulo 2^32 (R108). -/
def memBytes (m : Memory) (a : Word) : Nat → List Byte
  | 0 => []
  | n + 1 => memByte m a :: memBytes m (a + 1) n

/-- `MemPut(a, bytes)` (R108). -/
def memPutBytes (m : Memory) (a : Word) : List Byte → Memory
  | [] => m
  | b :: bs => memPutBytes (memPutByte m a b) (a + 1) bs

/-- The address of the word at offset `off` of descriptor `i` of ring `r`. -/
def State.slotAddr (s : State) (r : RingId) (i off : Nat) : Word := daddr (s.ring r).base i + BitVec.ofNat 32 off

/-- `D(r, i).F` (R15). -/
def State.getD (s : State) (r : RingId) (i off : Nat) : Word := memWord s.mem (s.slotAddr r i off)

/-- `D(r, i).F <- v` (R15), without the ordering obligation. -/
def State.putD (s : State) (r : RingId) (i off : Nat) (v : Word) : State :=
  s.setMem (memPutWord s.mem (s.slotAddr r i off) v)

/-- `STATUS` of descriptor `i` of ring `r`. -/
def State.statusD (s : State) (r : RingId) (i : Nat) : Word := s.getD r i (statusOff s.cfg.variant)

/-- Write the five application words of a descriptor. -/
def State.putApp (s : State) (r : RingId) (i : Nat) (a : App) : State :=
  ((((s.putD r i (appOff 0) a.a0).putD r i (appOff 1) a.a1).putD r i (appOff 2) a.a2).putD r i (appOff 3) a.a3).putD
    r i (appOff 4) a.a4

/-- Read the five application words of a descriptor. -/
def State.getApp (s : State) (r : RingId) (i : Nat) : App :=
  ⟨s.getD r i (appOff 0), s.getD r i (appOff 1), s.getD r i (appOff 2), s.getD r i (appOff 3), s.getD r i (appOff 4)⟩

/-! ### Barriers -/

/-- Whether a descriptor of ring `r` has been written since the last `WMB` (R121). -/
def State.unfenced (s : State) (r : RingId) : Bool := rget s.sw.unfenced r

def State.setFences (s : State) (x : PerRing Bool) : State := { s with sw := { s.sw with unfenced := x } }

/-- The ring manager has written a descriptor of `r`: a doorbell of `r` now needs a `WMB` (R121). -/
def State.owe (s : State) (r : RingId) : State := s.setFences (rset s.sw.unfenced r true)

/-- `WMB`: every descriptor write before it, of every ring, is ordered (R122). -/
def State.wmb (s : State) : State := s.setFences allFenced

/-- `RMB` (R123): memory is one shared map and steps are atomic, so it has no effect of its own. -/
def State.rmb (s : State) : State := s

/-! ### Draws (R85) -/

/-- One more free value has been used. -/
def State.used (s : State) : State := { s with env := { s.env with drawn := s.env.drawn + 1 } }

/-- `draw bus_resp`. -/
def State.drawBus (s : State) : BusResp × State :=
  match s.env.busResp with
  | x :: xs => (x, { s with env := { s.env with busResp := xs } })
  | [] => (Config.freeBusResp s.env.drawn, s.used)

/-- `draw ts`. -/
def State.drawTs (s : State) : Long × State :=
  match s.env.ts with
  | x :: xs => (x, { s with env := { s.env with ts := xs } })
  | [] => (Config.freeTs s.env.drawn, s.used)

/-- `draw reset_completes`. -/
def State.drawResetCompletes (s : State) : Bool × State :=
  match s.env.resetCompletes with
  | x :: xs => (x, { s with env := { s.env with resetCompletes := xs } })
  | [] => (Config.freeResetCompletes s.env.drawn, s.used)

/-- A handle is never 0 (R63): 0 stands for none in `SW_FRAME` (R149). -/
def nonzero (h : Word) : Word := if h = 0 then 1 else h

/-- `draw fresh_rx_buffer()`: a nonzero handle and an address (R217). -/
def State.drawRxBuffer (s : State) : (Word × Word) × State :=
  match s.env.rxBuffers with
  | x :: xs => ((nonzero x.1, x.2), { s with env := { s.env with rxBuffers := xs } })
  | [] => ((nonzero (Config.freeRxBuffer s.env.drawn).1, (Config.freeRxBuffer s.env.drawn).2), s.used)

/-- `draw platform_alloc` (R190). -/
def State.drawAlloc (s : State) : Option Word × State :=
  match s.env.allocs with
  | x :: xs => (x, { s with env := { s.env with allocs := xs } })
  | [] => (Config.freeAlloc s.env.drawn, s.used)

/-! ### Taking an interrupt and a controller-level fault -/

/-- `NOTIFY(r)` (R396). -/
def State.notify (s : State) (r : RingId) : State :=
  match s.cfg.variant with
  | .sq => s.setIrq r.dir true
  | .mc =>
    let s' := s.setRegs r { s.regs r with chIsr := true }
    if (s.regs r).chIer then s'.setIrq r.dir true else s'

/-- Store a ring's registers and deliver what they say is delivered. -/
def State.deliver (s : State) (r : RingId) (p : RingRegs × Bool) : State :=
  if p.2 then (s.setRegs r p.1).notify r else s.setRegs r p.1

/-- `RAISE(r, k)` (R395). -/
def State.raise (s : State) (r : RingId) (k : Irq) : State := s.deliver r (raiseRegs k (s.regs r))

/-- `PACKET_DONE(r)` (R394). -/
def State.packetDone (s : State) (r : RingId) : State :=
  let p := packetDoneRegs (s.regs r)
  if p.2 then (s.setRegs r p.1).raise r .ioc else s.setRegs r p.1

/-- `tx_grant <- none` in `MC` when channel q holds it (R253). -/
def State.releaseGrant (s : State) (r : RingId) : State :=
  if s.cfg.variant = .mc ∧ r.dir = .tx ∧ s.hw.grant = some r.q then s.setGrant none else s

/-- The frame being assembled or spread on ring `r` is discarded (R54, R55). -/
def State.dropFrame (s : State) (r : RingId) : State :=
  match r.dir with
  | .tx => s.setTxe r.q { s.txe r.q with asm := asmInactive }
  | .rx => s.setRxe r.q { s.rxe r.q with rem := none }

/-- `E_FAULT(r, cause)`: the controller-level fault, the one exception of the engine (R392, R467). -/
def State.engineFault (s : State) (r : RingId) (cause : Cause) : State :=
  (((s.setRegs r (faultRegs cause (s.regs r))).dropFrame r).releaseGrant r).raise r .err

/-- The return from an interrupt (R468): re-enable the causes in `v`; those still asserted are delivered again (R337). -/
def State.writeIer (s : State) (r : RingId) (v : BitVec 3) : State :=
  if (s.regs r).resetBusy then s else s.deliver r (ierWriteRegs v (s.regs r))

/-- Clear the causes in `v` (R338). -/
def State.writeIcr (s : State) (r : RingId) (v : Word) : State := s.setRegs r (icrWriteRegs v (s.regs r))

/-! ### Register reads (R330 to R348) -/

/-- A bitmap register: bit c from channel c (R158). -/
def bitmapWord (f : Chan → Bool) : Word := (BitVec.ofFnLE f).setWidth 32

/-- The eight weight fields of a register, those of channels the hardware has (R159, R347). -/
def State.weightWord (s : State) (hi : Bool) : Word :=
  allChans.foldl (fun acc c =>
    if decide (c.val < s.cfg.nq) && decide (8 ≤ c.val) == hi then
      acc ||| ((s.weight c).setWidth 32 <<< (4 * (c.val % 8)))
    else acc) 0

/-- `TSF_TAG`, `TSF_LO`, `TSF_HI` of a FIFO (R340 to R342). -/
def tsfTagWord (f : List TsEntry) : Word := match f with | [] => 0xFFFF | e :: _ => e.tag.setWidth 32
def tsfLoWord (f : List TsEntry) : Word := match f with | [] => 0 | e :: _ => e.ts.extractLsb' 0 32
def tsfHiWord (f : List TsEntry) : Word := match f with | [] => 0 | e :: _ => e.ts.extractLsb' 32 32

/-- What a read of a register returns (R331 to R348). -/
def State.regValue (s : State) : Reg → Word
  | .cr r => crWord (s.regs r)
  | .sr r => srWord (s.regs r)
  | .curdesc r => (s.regs r).curdesc
  | .taildesc r => (s.regs r).taildesc
  | .isr r => (s.regs r).isr.setWidth 32
  | .ier r => (s.regs r).ier.setWidth 32
  | .icr _ => 0
  | .tsfCnt q => BitVec.ofNat 32 (s.txe q).tsf.length
  | .tsfTag q => tsfTagWord (s.txe q).tsf
  | .tsfLo q => tsfLoWord (s.txe q).tsf
  | .tsfHi q => tsfHiWord (s.txe q).tsf
  | .chen d => bitmapWord fun c => decide (c.val < s.cfg.nq) && (s.regs ⟨d, c⟩).run
  | .chIer d => bitmapWord fun c => decide (c.val < s.cfg.nq) && (s.regs ⟨d, c⟩).chIer
  | .chIsr d => bitmapWord fun c => decide (c.val < s.cfg.nq) && (s.regs ⟨d, c⟩).chIsr
  | .chIcr _ => 0
  | .weight0 => s.weightWord false
  | .weight1 => s.weightWord true
  | .reserved => 0

/-- The one side effect of a read: `TSF_HI` removes the head entry (R342). -/
def State.afterRead (s : State) : Reg → State
  | .tsfHi q => s.setTxe q { s.txe q with tsf := (s.txe q).tsf.tail }
  | _ => s

/-! ### Register writes -/

/-- A write of `CR` (R331). -/
def State.writeCr (s : State) (r : RingId) (v : Word) : State :=
  if (s.regs r).resetBusy then s
  else if v.getLsbD 2 then
    let (b, s') := s.drawResetCompletes
    (s'.setRegs r { s'.regs r with resetBusy := true, resetCompletes := b }).releaseGrant r
  else
    let x := coalesceRegs v (s.regs r)
    s.setRegs r (if s.cfg.variant = .sq then runWriteRegs (v.getLsbD 0) x else x)

/-- The rings of direction `d` that the hardware has, each changed by `f`. -/
def State.mapDir (s : State) (d : Dir) (f : Chan → RingRegs → RingRegs) : State :=
  { s with hw := { s.hw with regs := rmapDir s.hw.regs d fun c x => if c.val < s.cfg.nq then f c x else x } }

/-- A write of `CHEN[dir]` (R343). -/
def State.writeChen (s : State) (d : Dir) (v : Word) : State := s.mapDir d fun c x => runWriteRegs (v.getLsbD c.val) x

/-- A write of `CH_IER[dir]` (R344): an enabled channel with a recorded event raises the output. -/
def State.writeChIer (s : State) (d : Dir) (v : Word) : State :=
  let s' := s.mapDir d fun c x => { x with chIer := v.getLsbD c.val }
  if s'.chans.any fun c => (s'.regs ⟨d, c⟩).chIer && (s'.regs ⟨d, c⟩).chIsr then s'.setIrq d true else s'

/-- A write of `CH_ICR[dir]` (R346). -/
def State.writeChIcr (s : State) (d : Dir) (v : Word) : State :=
  s.mapDir d fun c x => { x with chIsr := x.chIsr && !v.getLsbD c.val }

/-- A write of `WEIGHT0` (`hi` false) or `WEIGHT1` (R347): only the fields of halted channels the hardware has. -/
def State.writeWeight (s : State) (hi : Bool) (v : Word) : State :=
  { s with hw := { s.hw with
      weight := Vector.ofFn fun c =>
        if decide (c.val < s.cfg.nq) && decide (8 ≤ c.val) == hi && halted (s.regs ⟨.tx, c⟩) then
          v.extractLsb' (4 * (c.val % 8)) 4
        else s.weight c } }

/-- `RegWrite` (R330 to R348). While a ring's reset is busy, a write to its block is ignored (R330). -/
def State.regWrite (s : State) (g : Reg) (v : Word) : State :=
  match g with
  | .cr r => s.writeCr r v
  | .curdesc r => s.setRegs r (curWriteRegs v (s.regs r))
  | .taildesc r => s.setRegs r (tailWriteRegs v (s.regs r))
  | .ier r => s.writeIer r (v.extractLsb' 0 3)
  | .icr r => s.writeIcr r v
  | .chen d => s.writeChen d v
  | .chIer d => s.writeChIer d v
  | .chIcr d => s.writeChIcr d v
  | .weight0 => s.writeWeight false v
  | .weight1 => s.writeWeight true v
  | .sr _ => s
  | .isr _ => s
  | .tsfCnt _ => s
  | .tsfTag _ => s
  | .tsfLo _ => s
  | .tsfHi _ => s
  | .chIsr _ => s
  | .reserved => s

/-- One bit of a bitmap register set by a read and a write in one step (R244). -/
def State.setBit (s : State) (g : Reg) (c : Chan) : State :=
  s.regWrite g (s.regValue g ||| BitVec.ofNat 32 (2 ^ c.val))

/-- One bit of a bitmap register cleared by a read and a write in one step (R244). -/
def State.clearBit (s : State) (g : Reg) (c : Chan) : State :=
  s.regWrite g (s.regValue g &&& ~~~BitVec.ofNat 32 (2 ^ c.val))

/-- A doorbell of ring `r` would ring before a `WMB` orders the ring's descriptor writes (R121). -/
def State.bellUnordered (s : State) (r : RingId) : Bool := rings (s.regs r) && s.unfenced r

/-! ### Descriptor ownership (R62) -/

/-- Index `i` lies in [from, to) modulo `n`. -/
def inRange (n start stop i : Nat) : Bool := (i + (n - start)) % n < (stop + (n - start)) % n

/-- The descriptor addresses in chain order, along the `NEXT` words as the engine follows them (R41), from `a` up to `tail`;
none if `n` descriptors do not reach it. -/
def chainTo (m : Memory) (tail : Word) : Nat → Word → Option (List Word)
  | 0, _ => none
  | n + 1, a =>
    if a = tail then some [a] else (chainTo m tail n (align64 (memWord m (a + BitVec.ofNat 32 nextOff)))).map (a :: ·)

/-- Descriptor `i` lies at or before the tail in chain order from `CURDESC` (R62). -/
def State.beforeTail (s : State) (r : RingId) (i : Nat) : Bool :=
  match chainTo s.mem (s.regs r).taildesc (s.ring r).cap (s.regs r).curdesc with
  | some chain => chain.contains (daddr (s.ring r).base i)
  | none => false

/-- `owner(r, i)` = HW (R62; that a ring whose chain does not lead from `CURDESC` to the tail has no such descriptor is
log 18). -/
def State.engineOwns (s : State) (r : RingId) (i : Nat) : Bool :=
  let w := s.ring r
  !cmpltOf (s.statusD r i) &&
    (match r.dir with
     | .tx => inRange w.cap w.completion w.hwTail i
     | .rx => w.populated && s.beforeTail r i)

/-! ### Commands in progress -/

/-- The ring a command in progress is between two atomic steps of (R296): the bodies of `POLL_RX`, `RECLAIM_TX`,
`IRQ_SERVICE` and `RECOVER_RECONFIG`. An `ATTACH` or a `DETACH` is on every ring, and is tested for by `State.controlBusy`. -/
def taskRing : Task → Option RingId
  | .attach _ _ => none
  | .detach _ => none
  | .poll p => some ⟨.rx, p.q⟩
  | .reclaim p => some ⟨.tx, p.q⟩
  | .reconfig r _ => some r
  | .irq d _ _ st =>
    match st with
    | .readChIsr => none
    | .readChIer _ => none
    | .writeChIcr _ => none
    | .entry => none
    | .maskIer q => some ⟨d, q⟩
    | .maskChIer q => some ⟨d, q⟩
    | .call q _ => some ⟨d, q⟩
    | .poll q _ _ => some ⟨d, q⟩
    | .reclaim q _ _ => some ⟨d, q⟩
    | .deliver q _ _ => some ⟨d, q⟩
    | .writeIcr q _ => some ⟨d, q⟩
    | .readIer q _ => some ⟨d, q⟩
    | .writeIer q _ _ => some ⟨d, q⟩

/-- A body is in progress on ring `r`. -/
def State.bodyBusy (s : State) (r : RingId) : Bool := s.tasks.any fun t => taskRing t == some r

def isControl : Task → Bool
  | .attach _ _ => true
  | .detach _ => true
  | _ => false

/-- An `ATTACH` or `DETACH` is in progress in the control context (R18). -/
def State.controlBusy (s : State) : Bool := s.tasks.any isControl

def isIrq (d : Dir) : Task → Bool
  | .irq d' _ _ _ => d == d'
  | _ => false

/-- An `IRQ_SERVICE` of direction `d` is in progress (R276). -/
def State.irqBusy (s : State) (d : Dir) : Bool := s.tasks.any (isIrq d)

/-- An `IRQ_SERVICE` is in its body on ring `r` (R276). -/
def State.irqBodyBusy (s : State) (r : RingId) : Bool := s.tasks.any fun t => isIrq r.dir t && taskRing t == some r

/-- A command that has more atomic steps to take is in progress from now on. -/
def State.addTask (s : State) (t : Task) : State := s.setTasks (s.tasks ++ [t])

/-- What one atomic step of a command in progress leads to. -/
inductive TaskRes where
  | done (s : State)
  | more (t : Task) (s : State)
  | stop (r : Refusal)
deriving Repr

/-- The first atomic step of a command whose rule is a sequence of steps (R17). -/
def begin (r : TaskRes) : Res :=
  match r with
  | .done s => .next s
  | .more t s => .next (s.addTask t)
  | .stop e => .refused e

/-- Run `k` on the ring an operand names, or refuse (U28). -/
def withRing (d : Dir) (q : Nat) (s : State) (k : RingId → Res) : Res :=
  match s.ring? d q with
  | none => .refused .noSuchRing
  | some r => k r

/-- Commands that need a device context (R461, R81). -/
def withContext (s : State) (k : Res) : Res := if s.sw.ctxPresent then k else .refused .noContext

/-- Operations of the control context, one at a time: none while an `ATTACH` or a `DETACH` is in progress in it (R18 (d)); that
the wait shows as a refusal is log 19's DESIGN CHOICE. -/
def withControl (s : State) (k : Res) : Res := if s.controlBusy then .refused .contextBusy else k

/-- A raw register transaction. Any context may issue one at any time (R330, R470), an `ATTACH` or `DETACH` in progress in the
control context or not. A read answers, a write returns nothing; a doorbell that would ring needs a `WMB` since the last
descriptor write of its ring (R121). -/
def transact (g : Reg) (t : Trans) (s : State) : Res :=
  match t with
  | .read => .next ((s.afterRead g).answer 0x50 (.okValue (s.regValue g)))
  | .write v =>
    match g with
    | .taildesc r => if s.bellUnordered r then .refused .doorbellUnordered else .next (s.regWrite g v)
    | _ => .next (s.regWrite g v)

/-! ### Rings that turn commands away -/

/-- The result that turns a caller away from a ring that is not `Running` (R219, R296, R297). -/
def turnedAway : RState → Option Result
  | .running => none
  | .halting => some .notReady
  | .halted => some .notReady
  | .reconfiguring => some .notReady
  | .fatal => some .fatal

/-- What a ring answers a pool operation with that it turns away: with a context the ring's state decides (R37, R61, R297,
R426), without one there is no ring state (R81). -/
def State.away (s : State) (r : RingId) : Option Result :=
  if s.sw.ctxPresent then turnedAway (s.ring r).rstate else none

/-! ### The numbers of the results (R450) -/

def ResultCode.number : ResultCode → Nat
  | .ok => 0
  | .ringFull => 1
  | .descriptorError => 2
  | .dmaFault => 3
  | .resetTimeout => 4
  | .configError => 5
  | .outOfMemory => 6
  | .invalidConfiguration => 7
  | .notReady => 8
  | .fatal => 9
  | .invalidFrame => 10

def SubCode.number : SubCode → Nat
  | .queueCount => 1
  | .alignment => 2
  | .size => 3
  | .weight => 4
  | .memory => 5

/-- The code a result is returned under. -/
def Result.code : Result → ResultCode
  | .ok => .ok
  | .okRing _ => .ok
  | .okFrames _ => .ok
  | .okHandles _ => .ok
  | .okWords _ => .ok
  | .okRx _ _ _ => .ok
  | .okStats _ => .ok
  | .okValue _ => .ok
  | .ringFull => .ringFull
  | .resetTimeout => .resetTimeout
  | .configError _ => .configError
  | .outOfMemory => .outOfMemory
  | .invalidConfiguration => .invalidConfiguration
  | .notReady => .notReady
  | .fatal => .fatal
  | .invalidFrame => .invalidFrame

/-- The number of a result, and of its subcode where it has one. -/
def Result.numbers (x : Result) : Nat × Option Nat :=
  (x.code.number, match x with | .configError sub => some sub.number | _ => none)

end Sys2Proof.Machine
end

