-- ==== Sys2Proof/Machine/Pool.lean ====
section
/-! DEFINITION. The descriptor pool operations (`40_descriptor_pool.md`): `ALLOCATE` (R190), `RESET_RING` (R193), `ARM_RX` (R196),
`RELEASE_SLOT` (R197) and `FREE_RING` (R198), as shared operations and as commands of their own. -/

namespace Sys2Proof.Machine

/-- `f i` for i = first, first + 1, ..., `n` times. -/
def loopN (f : Nat → State → State) : Nat → Nat → State → State
  | 0, _, s => s
  | n + 1, i, s => loopN f n (i + 1) (f i s)

/-! ### The shared operations -/

/-- One slot of `RESET_RING` (R193): the chain word and the status word. -/
def relinkSlot (r : RingId) (i : Nat) (s : State) : State :=
  (s.putD r i nextOff (daddr (s.ring r).base (incMod (s.ring r).cap i))).putD r i (statusOff s.cfg.variant) 0

/-- `RESET_RING(r)` (R193). -/
def State.resetRing (s : State) (r : RingId) : State :=
  let s' := loopN (relinkSlot r) (s.ring r).cap 0 s
  (s'.setRing r ((s'.ring r).cursors 0)).owe r

/-- Put a fresh buffer into a slot (R196, R217). -/
def State.fillSlot (s : State) (r : RingId) (i : Nat) : State :=
  let (b, s') := s.drawRxBuffer
  ((s'.putD r i bufOff b.2).putD r i swFrameOff b.1).putD r i swMapOff 1

/-- One slot of `ARM_RX` (R196). -/
def armSlot (r : RingId) (i : Nat) (s : State) : State :=
  let s1 := if s.getD r i swFrameOff = 0 then s.fillSlot r i else s
  let s2 := s1.putD r i (ctrlOff s1.cfg.variant) (BitVec.ofNat 32 s1.cfg.rxBufSize)
  ((s2.putD r i (statusOff s2.cfg.variant) 0).putApp r i appZero).putD r i swTagOff 0

/-- `ARM_RX(q)` (R196) with the `WMB` that R122 places in it (log 17); the ring is populated then (R62). -/
def State.armRx (s : State) (q : Chan) : State :=
  let s' := loopN (armSlot ⟨.rx, q⟩) (s.ring ⟨.rx, q⟩).cap 0 s
  (s'.setRing ⟨.rx, q⟩ (s'.ring ⟨.rx, q⟩).populate).wmb

/-- The events of `RELEASE_SLOT` (R197). -/
def State.releaseEvents (s : State) (r : RingId) (i : Nat) : List Event :=
  (if s.getD r i swMapOff = 0 then []
   else [.unmap (s.getD r i bufOff) (lenOf (s.getD r i (ctrlOff s.cfg.variant))) (s.getD r i swMapOff)]) ++
  (if s.getD r i swFrameOff = 0 then [] else [.release (s.getD r i swFrameOff)])

/-- The words `RELEASE_SLOT` clears: all but `NEXT` and `BUF` (R197). -/
def State.clearSlot (s : State) (r : RingId) (i : Nat) : State :=
  let s1 := (s.putD r i (ctrlOff s.cfg.variant) 0).putD r i (statusOff s.cfg.variant) 0
  ((((s1.putApp r i appZero).putD r i swFrameOff 0).putD r i swMapOff 0).putD r i swTagOff 0).owe r

/-- `RELEASE_SLOT(r, i)` (R197): the handle the slot held, 0 for none, and the state after it. -/
def State.releaseSlot (s : State) (r : RingId) (i : Nat) : Word × State :=
  (s.getD r i swFrameOff, (s.emits (s.releaseEvents r i)).clearSlot r i)

/-- One more frame released without completion (R58, R463). -/
def RingSw.drop (w : RingSw) : RingSw := { w with dropped := w.dropped + 1 }

/-- `RELEASE_SLOT` of a TX slot counts its frame as dropped (R198, R293). -/
def State.dropSlot (s : State) (r : RingId) (i : Nat) : State :=
  let (h, s') := s.releaseSlot r i
  if h = 0 then s' else s'.setRing r (s'.ring r).drop

/-- One slot of `FREE_RING` (R198): only a TX frame counts as dropped. -/
def freeSlot (r : RingId) (i : Nat) (s : State) : State :=
  match r.dir with
  | .tx => s.dropSlot r i
  | .rx => (s.releaseSlot r i).2

/-- `FREE_RING(r)` (R198). -/
def State.freeRing (s : State) (r : RingId) : State :=
  let s' := loopN (freeSlot r) (s.ring r).cap 0 s
  s'.setRing r (s'.ring r).gone

/-! ### `ALLOCATE` -/

/-- What `ALLOCATE` comes to (R190). -/
inductive AllocRes where
  | ok (s : State)
  | size
  | present
  | running
  | outOfMemory (s : State)
  | alignment (s : State)
deriving Repr

/-- Whether `ALLOCATE` takes the block at `b` (R190, R191): aligned to 64, not past the top of the address space. -/
def blockOk (b : Word) (n : Nat) : Bool := decide (b.toNat % 64 = 0) && decide (b.toNat + 64 * n ≤ 2 ^ 32)

/-- The pool of ring `r` at `b`: zeroed (R192), recorded, linked (R193). -/
def State.makePool (s : State) (r : RingId) (n : Nat) (b : Word) : State :=
  let s1 := s.setMem (memPutBytes s.mem b (List.replicate (64 * n) 0))
  (s1.setRing r ((s1.ring r).pool b n)).resetRing r

/-- `ALLOCATE(dir, q, N)` (R190). -/
def State.allocate (s : State) (r : RingId) (n : Nat) : AllocRes :=
  if n < 2 || 32768 < n then .size
  else if (s.ring r).present then .present
  else if !halted (s.regs r) then .running
  else
    let (o, s') := s.drawAlloc
    match o with
    | none => .outOfMemory s'
    | some b => if blockOk b n then .ok (s'.makePool r n b) else .alignment s'

/-! ### The commands -/

/-- Pool commands issued alone come from the control context (log 22). A ring of a context that is not `Running` turns them
away (R37, R297, R426), and they may not overlap a body or a recovery on their ring (R470). -/
def withFreeRing (id : Nat) (d : Dir) (q : Nat) (s : State) (k : RingId → Res) : Res :=
  withRing d q s fun r =>
    withControl s <|
      match s.away r with
      | some e => .next (s.answer id e)
      | none => if s.bodyBusy r then .refused .bodyInProgress else k r

/-- Pool commands on a pool need it there and its ring halted (R193, R196, R198). -/
def withPool (id : Nat) (d : Dir) (q : Nat) (s : State) (k : RingId → Res) : Res :=
  withFreeRing id d q s fun r =>
    if !(s.ring r).present then .refused .notAllocated
    else if !halted (s.regs r) then .refused .ringNotHalted
    else k r

/-- `ALLOCATE dir, q, capacity` (R190). -/
def execAllocate (dir : Dir) (q : Nat) (cap : Nat) (s : State) : Res :=
  withFreeRing 0x03 dir q s fun r =>
    match s.allocate r cap with
    | .ok s' => .next (s'.answer 0x03 (.okRing r))
    | .size => .next (s.answer 0x03 (.configError .size))
    | .present => .refused .alreadyAllocated
    | .running => .refused .ringNotHalted
    | .outOfMemory s' => .next (s'.answer 0x03 .outOfMemory)
    | .alignment s' => .next (s'.answer 0x03 (.configError .alignment))

/-- `RESET_RING r` (R193). -/
def execResetRing (dir : Dir) (q : Nat) (s : State) : Res := withPool 0x04 dir q s fun r => .next (s.resetRing r)

/-- `ARM_RX q` (R196). Its operand line asks for a ring just reset by `RESET_RING`; on another halted ring with a pool, which the
spec leaves open, it arms every slot all the same and moves no cursor (DESIGN CHOICE, log 22). -/
def execArmRx (q : Nat) (s : State) : Res := withPool 0x05 .rx q s fun r => .next (s.armRx r.q)

/-- `FREE_RING r` (R198): alone only without a device context; with one it is `DETACH`'s, and only `RECOVER_DRAIN` and
`DETACH` release a frame the engine has not completed (R299). -/
def execFreeRing (dir : Dir) (q : Nat) (s : State) : Res :=
  withPool 0x06 dir q s fun r => if s.sw.ctxPresent then .refused .usedByDetachOnly else .next (s.freeRing r)

end Sys2Proof.Machine
end

