-- ==== Sys2Proof/Machine/Offload.lean ====
section
/-! DEFINITION. The offload annotator (`45_offload_annotator.md`): `OFFLOAD_TX` (R311), `OFFLOAD_RX` (R315) and `TS_CORRELATE` (R318). -/

namespace Sys2Proof.Machine

/-- The checksum words of `OFFLOAD_TX` (R311, R312). -/
def csumApp (m : CsumMode) (f : Frame) : App :=
  if f.csumReq then
    match m with
    | .full => ⟨2, 0, f.csumSeed, 0, 0⟩
    | .part => ⟨1, csumWord f.csumStart f.csumInsert, f.csumSeed, 0, 0⟩
    | .off => appZero
  else appZero

/-- `(tag + 1) mod 0xFFFF` (R311): 0xFFFE is followed by 0. -/
def nextTagOf (tag : BitVec 16) : BitVec 16 := BitVec.ofNat 16 ((tag.toNat + 1) % 0xFFFF)

/-- Whether a frame takes a tag (R311). -/
def State.wantsTag (s : State) (f : Frame) : Bool := f.tsReq && s.sw.tsEnabled

/-- `OFFLOAD_TX(q, F)` (R311): the five words and the state after it; none is `fault TagCollision`. -/
def State.offloadTx (s : State) (q : Chan) (f : Frame) : Option (App × State) :=
  let app := csumApp s.sw.txCsum f
  if s.wantsTag f then
    let g := s.tags q
    match kvGet g.tagmap g.nextTag.toNat with
    | some _ => none
    | none =>
      some ({ app with a4 := tagWord g.nextTag },
            s.setTags q ⟨nextTagOf g.nextTag, kvPut g.tagmap g.nextTag.toNat f.handle⟩)
  else some (app, s)

/-- The outcome for a `CSUM_STS` value (R315). -/
def csumStatusOf (v : BitVec 3) : CsumStatus :=
  if v = 2 ∨ v = 3 then .hardwareVerified else if v = 0 then .unsupported else .softwareVerifyNeeded

/-- `csum_status` of `OFFLOAD_RX(r, i)` (R315). -/
def State.rxCsumOf (s : State) (r : RingId) (i : Nat) : CsumStatus :=
  match s.sw.rxCsum with
  | .off => .unsupported
  | .part => .softwareVerifyNeeded
  | .full => csumStatusOf (csumSts (s.getD r i (appOff 2)))

/-- `raw_csum` of `OFFLOAD_RX(r, i)` (R315). -/
def State.rxRawOf (s : State) (r : RingId) (i : Nat) : BitVec 16 :=
  match s.sw.rxCsum with
  | .off => 0
  | .part => (s.getD r i (appOff 3)).extractLsb' 0 16
  | .full => (s.getD r i (appOff 3)).extractLsb' 0 16

/-- `timestamp` of `OFFLOAD_RX(r, i)` (R315, R316). -/
def State.rxTsOf (s : State) (r : RingId) (i : Nat) : Option Long :=
  if s.sw.tsEnabled then some (s.getD r i (appOff 1) ++ s.getD r i (appOff 0)) else none

/-- The `tx_timestamp` event of a matching entry whose tag is still in the map (R318). -/
def tsEvents (m : List (Nat × Word)) (tag : BitVec 16) (t : Long) : List Event :=
  match kvGet m tag.toNat with
  | some h => [.txTimestamp h t]
  | none => []

/-- `TS_CORRELATE(q, i)` (R318): the head of the FIFO is read through its registers, a matching entry removed by the
read of `TSF_HI` (R342), and the tag forgotten. -/
def State.tsCorrelate (s : State) (q : Chan) (i : Nat) : State :=
  let tag := tagOf (s.getD ⟨.tx, q⟩ i swTagOff)
  let t := (s.regValue (.tsfTag q)).extractLsb' 0 16
  let s1 :=
    if t = tag then
      let ts : Long := s.regValue (.tsfHi q) ++ s.regValue (.tsfLo q)
      (s.afterRead (.tsfHi q)).emits (tsEvents (s.tags q).tagmap tag ts)
    else s
  s1.setTags q { s1.tags q with tagmap := kvDel (s1.tags q).tagmap tag.toNat }

/-! ### The commands -/

/-- `OFFLOAD_TX q, F` called alone (R311); turned away by a ring that is not `Running` (R37, R297). -/
def execOffloadTx (q : Nat) (f : Frame) (s : State) : Res :=
  withContext s <| withRing .tx q s fun r =>
    match turnedAway (s.ring r).rstate with
    | some e => .next (s.answer 0x18 e)
    | none =>
      match s.offloadTx r.q f with
      | none => .fault .tagCollision
      | some (app, s') => .next (s'.answer 0x18 (.okWords app))

/-- `OFFLOAD_RX r, i` called alone (R315): reads only; total on every descriptor of the ring's pool (log 26); turned away by a
ring that is not `Running` (R37, R297). -/
def execOffloadRx (q : Nat) (i : Nat) (s : State) : Res :=
  withContext s <| withRing .rx q s fun r =>
    match turnedAway (s.ring r).rstate with
    | some e => .next (s.answer 0x19 e)
    | none =>
      if !(s.ring r).present then .refused .notAllocated
      else if i < (s.ring r).cap then .next (s.answer 0x19 (.okRx (s.rxCsumOf r i) (s.rxRawOf r i) (s.rxTsOf r i)))
      else .refused .slotOutOfRange

end Sys2Proof.Machine
end

