-- ==== Sys2Proof/Machine/Ring.lean ====
section
/-! DEFINITION. The ring engine operations (`41_single_queue_engine.md`): `SUBMIT_TX` (R210), `POLL_RX` (R215) and `RECLAIM_TX` (R220);
the two loops take one atomic step an iteration (R17). -/

namespace Sys2Proof.Machine

/-! ### `SUBMIT_TX` -/

/-- The total length of a frame (R211). -/
def frameTotal (f : Frame) : Nat := (f.frags.map Frag.len).sum

/-- `VALID_FRAME(F, N)` (R211). -/
def validFrame (f : Frame) (n maxFrame : Nat) : Bool :=
  decide (1 ≤ f.frags.length) && f.frags.all (fun g => decide (1 ≤ g.len)) && decide (1 ≤ frameTotal f) &&
    decide (frameTotal f ≤ maxFrame) && decide (f.frags.length ≤ n - 1) && f.handle != 0

/-- The descriptor of one fragment of a frame (R210, R213). -/
def State.fillTx (s : State) (r : RingId) (i : Nat) (g : Frag) (sof eof : Bool) (app : App) (handle : Word) : State :=
  let s1 := (s.putD r i bufOff g.addr).putD r i (ctrlOff s.cfg.variant) (txCtrl s.cfg.variant g.len sof eof)
  let s2 := (s1.putD r i (statusOff s.cfg.variant) 0).putApp r i (if sof then app else appZero)
  ((s2.putD r i swFrameOff (if eof then handle else 0)).putD r i swMapOff (mapWord g.kind)).putD r i swTagOff
    (if eof && tsReqOf app.a4 then app.a4 else 0)

/-- The descriptors of a frame from slot `i` on (R210, R213); `sof` says that the first is the frame's first; the last
has `EOF`. -/
def fillFrame (r : RingId) (app : App) (handle : Word) : Bool → Nat → List Frag → State → State
  | _, _, [], s => s
  | sof, i, g :: gs, s =>
    fillFrame r app handle false (incMod (s.ring r).cap i) gs (s.fillTx r i g sof gs.isEmpty app handle)

/-- The refusal tests of `SUBMIT_TX` in the order of R210 (R466 (e)). -/
def State.submitCheck (s : State) (r : RingId) (f : Frame) : Option Result :=
  match turnedAway (s.ring r).rstate with
  | some e => some e
  | none =>
    if !s.sw.linkUp then some .notReady
    else if !validFrame f (s.ring r).cap s.cfg.maxFrame then some .invalidFrame
    else if freeTx (s.ring r).cap (s.ring r).issue (s.ring r).completion < f.frags.length then some .ringFull
    else none

/-- `issue` moves on, and the `WMB` before the doorbell (R210). -/
def State.submitMark (s : State) (r : RingId) (next : Nat) : State := (s.setRing r ((s.ring r).toIssue next)).wmb

/-- The one doorbell, at the frame's last descriptor, and `hw_tail` (R210, R214). -/
def State.submitBell (s : State) (r : RingId) (next : Nat) : State :=
  let s' := s.regWrite (.taildesc r) (daddr (s.ring r).base (decMod (s.ring r).cap next))
  s'.setRing r ((s'.ring r).toTail next)

/-- `issue` after a frame of `k` descriptors (R210). -/
def RingSw.after (w : RingSw) (k : Nat) : Nat := (w.issue + k) % w.cap

/-- `SUBMIT_TX` after `OFFLOAD_TX` (R210): descriptors, `issue`, `WMB`, the one doorbell (R214), `hw_tail`. -/
def State.submitFill (s : State) (r : RingId) (f : Frame) (app : App) : State :=
  let next := (s.ring r).after f.frags.length
  ((fillFrame r app f.handle true (s.ring r).issue f.frags s).submitMark r next).submitBell r next

/-- `SUBMIT_TX q, F` (R210). -/
def execSubmitTx (q : Nat) (f : Frame) (s : State) : Res :=
  withContext s <| withRing .tx q s fun r =>
    match s.submitCheck r f with
    | some e => .next (s.answer 0x10 e)
    | none =>
      match s.offloadTx r.q f with
      | none => .fault .tagCollision
      | some (app, s') => .next ((s'.submitFill r f app).answer 0x10 .ok)

/-! ### `POLL_RX` -/

/-- A completed RX descriptor that yields a frame (R216). -/
def goodRx (st : Word) : Bool := errBits st == 0 && rxSofOf st && rxEofOf st

/-- The frame a good RX descriptor yields (R215, R63). -/
def State.rxFrame (s : State) (r : RingId) (i : Nat) (st : Word) : RxFrame :=
  { payload := memBytes s.mem (s.getD r i bufOff) (lenOf st), length := lenOf st, csum := s.rxCsumOf r i,
    raw := s.rxRawOf r i, ts := s.rxTsOf r i, handle := s.getD r i swFrameOff, addr := s.getD r i bufOff }

/-- One more received frame of `n` bytes (R58). -/
def RingSw.countPacket (w : RingSw) (n : Nat) : RingSw :=
  { w with packets := w.packets + 1, bytes := w.bytes + BitVec.ofNat 64 n }

/-- One more descriptor error (R58, R216). -/
def RingSw.countError (w : RingSw) : RingSw := { w with errors := w.errors + 1 }

/-- The part of an iteration that hands a frame on: its buffer leaves the slot, a fresh one comes in (R215, R217). -/
def State.takeFrame (s : State) (r : RingId) (i : Nat) (st : Word) : State :=
  let s1 := s.emit (.unmap (s.getD r i bufOff) s.cfg.rxBufSize 1)
  (s1.setRing r ((s1.ring r).countPacket (lenOf st))).fillSlot r i

/-- Re-arming a slot (R217). -/
def State.rearmSlot (s : State) (r : RingId) (i : Nat) : State :=
  ((s.putD r i (ctrlOff s.cfg.variant) (BitVec.ofNat 32 s.cfg.rxBufSize)).putApp r i appZero).putD r i
    (statusOff s.cfg.variant) 0

/-- One iteration of `POLL_RX` (R215); none when the loop ends, also when a `DETACH` has taken the pool meanwhile (log 16). -/
def pollIter (p : PollSt) (s : State) : Option (PollSt × State) :=
  let r : RingId := ⟨.rx, p.q⟩
  let i := (s.ring r).completion
  let st := s.statusD r i
  if (s.ring r).present && p.n < p.budget && cmpltOf st then
    let s0 := s.rmb
    let s1 := if goodRx st then s0.takeFrame r i st else s0.setRing r (s0.ring r).countError
    let s2 := s1.rearmSlot r i
    let out := if goodRx st then p.out ++ [s0.rxFrame r i st] else p.out
    some ({ p with n := p.n + 1, out := out, last := some i },
          (s2.setRing r ((s2.ring r).cursors (incMod (s2.ring r).cap i))).owe r)
  else none

/-- The end of `POLL_RX`: `WMB` and the doorbell of the last re-armed slot (R215, R217), if the pool is still there. -/
def pollFinish (p : PollSt) (s : State) : State :=
  match p.last with
  | none => s
  | some i =>
    if (s.ring ⟨.rx, p.q⟩).present then
      s.wmb.regWrite (.taildesc ⟨.rx, p.q⟩) (daddr (s.ring ⟨.rx, p.q⟩).base i)
    else s

/-- The return of `POLL_RX` (R215), at the end of its loop or where its consumer abandons it (R218). -/
def pollReturn (p : PollSt) (s : State) : State := (pollFinish p s).answer 0x11 (.okFrames p.out)

/-- One atomic step of a `POLL_RX` (R215): an iteration, or the look that ends the scan. The `WMB`, the doorbell and the return
are in the step of that last look: R17 and D45 make the iterations steps and do not place what follows them (DESIGN CHOICE,
log 6). -/
def pollTask (p : PollSt) (s : State) : TaskRes :=
  match pollIter p s with
  | some (p', s') => .more (.poll p') s'
  | none => .done (pollReturn p s)

/-- Entry of a body of the completion path called directly: turned away (R219), one body a ring (R276). -/
def withBody (id : Nat) (r : RingId) (s : State) (k : Res) : Res :=
  match turnedAway (s.ring r).rstate with
  | some e => .next (s.answer id e)
  | none => if s.bodyBusy r then .refused .bodyInProgress else k

/-- `POLL_RX q, budget` (R215): entry and the first iteration. -/
def execPollRx (q : Nat) (budget : Nat) (s : State) : Res :=
  withContext s <| withRing .rx q s fun r =>
    withBody 0x11 r s (begin (pollTask ⟨r.q, budget, 0, [], none⟩ s))

/-! ### `RECLAIM_TX` -/

/-- The counters of one reclaimed descriptor (R220, R222): status `st`, `SW_FRAME` `h`. -/
def RingSw.countReclaim (w : RingSw) (st h : Word) : RingSw :=
  let w' := { w with bytes := w.bytes + BitVec.ofNat 64 (lenOf st) }
  if h = 0 then w'
  else if errBits st = 0 then { w' with packets := w'.packets + 1 }
  else w'.countError

/-- One iteration of `RECLAIM_TX` (R220, R221); none when the loop ends, also when a `DETACH` has taken the pool meanwhile
(log 16). -/
def reclaimIter (p : ReclaimSt) (s : State) : Option (ReclaimSt × State) :=
  let r : RingId := ⟨.tx, p.q⟩
  let i := (s.ring r).completion
  let st := s.statusD r i
  if (s.ring r).present && i != (s.ring r).issue && cmpltOf st then
    let s0 := s.rmb
    let s1 := if tsReqOf (s0.getD r i swTagOff) then s0.tsCorrelate p.q i else s0
    let s2 := s1.setRing r ((s1.ring r).countReclaim st (s1.getD r i swFrameOff))
    let (h, s3) := s2.releaseSlot r i
    let out := if h = 0 then p.out else p.out ++ [h]
    some ({ p with out := out }, s3.setRing r ((s3.ring r).toCompletion (incMod (s3.ring r).cap i)))
  else none

/-- One atomic step of a `RECLAIM_TX` (R220). -/
def reclaimTask (p : ReclaimSt) (s : State) : TaskRes :=
  match reclaimIter p s with
  | some (p', s') => .more (.reclaim p') s'
  | none => .done (s.answer 0x12 (.okHandles p.out))

/-- `RECLAIM_TX q` (R220): entry and the first iteration. -/
def execReclaimTx (q : Nat) (s : State) : Res :=
  withContext s <| withRing .tx q s fun r =>
    withBody 0x12 r s (begin (reclaimTask ⟨r.q, []⟩ s))

end Sys2Proof.Machine
end

