-- ==== Sys2Proof/Machine/Sched.lean ====
section
/-! DEFINITION. The multi-channel scheduler (`42_multichannel_scheduler.md`): `CONFIGURE_WEIGHT` (R240), `ENABLE_CHANNEL` (R243),
`DISABLE_CHANNEL` (R245) and the arbiter's step `E_ARB_GRANT` (R250). -/

namespace Sys2Proof.Machine

/-- The channel an operand names, if the machine is `MC` and has it (R240, R243, R245). -/
def State.chan? (s : State) (c : Nat) : Option Chan :=
  if s.cfg.variant = .mc then if h : c < 16 then if c < s.cfg.nq then some ⟨c, h⟩ else none else none else none

/-! ### `CONFIGURE_WEIGHT` -/

/-- The register that holds the weight of channel c (R240). -/
def weightReg (c : Chan) : Reg := if c.val < 8 then .weight0 else .weight1

/-- The other enabled channels' weights (R240). -/
def State.otherWeights (s : State) (c : Chan) : Nat :=
  (s.chans.map fun d => if d ≠ c ∧ (s.regs ⟨.tx, d⟩).run then (s.weight d).toNat else 0).sum

/-- `WEIGHT_SUM_LIMIT` holds with weight w for channel c (R240, R241). -/
def State.weightFits (s : State) (c : Chan) (w : Nat) : Bool :=
  match s.cfg.weightSumLimit with
  | none => true
  | some m => w + s.otherWeights c ≤ m

/-- The value `CONFIGURE_WEIGHT` writes back: one field replaced (R240). -/
def weightField (v : Word) (c : Chan) (w : Nat) : Word :=
  (v &&& ~~~((0xF : Word) <<< (4 * (c.val % 8)))) ||| (BitVec.ofNat 32 w <<< (4 * (c.val % 8)))

/-- `CONFIGURE_WEIGHT c, w` (R240). It runs whatever the state of the channel's rings is, `Fatal` too: R297 has every command
operation on a `Fatal` ring return `Fatal`, R240 and R450 give this command no such result (DESIGN CHOICE, log 32). -/
def execConfigureWeight (c : Nat) (w : Nat) (s : State) : Res :=
  withControl s <| withContext s <|
    match s.chan? c with
    | none => .next (s.answer 0x20 .invalidConfiguration)
    | some c =>
      if w < 1 ∨ 15 < w then .next (s.answer 0x20 .invalidConfiguration)
      else if !(s.regValue (.sr ⟨.tx, c⟩)).getLsbD 0 then .next (s.answer 0x20 .invalidConfiguration)
      else if !s.weightFits c w then .next (s.answer 0x20 .invalidConfiguration)
      else .next ((s.regWrite (weightReg c) (weightField (s.regValue (weightReg c)) c w)).answer 0x20 .ok)

/-! ### `ENABLE_CHANNEL`, `DISABLE_CHANNEL` -/

/-- `dirs`, TX before RX. -/
def dirsOf : Dirs → List Dir
  | .both => [.tx, .rx]
  | .txOnly => [.tx]
  | .rxOnly => [.rx]

/-- `CH_ENABLE_BITS(dir, c)` (R243): one atomic step (R244). -/
def State.chEnableBits (s : State) (r : RingId) : State := (s.setBit (.chen r.dir) r.q).setBit (.chIer r.dir) r.q

/-- The two bits of a channel cleared, `CH_IER` first (R245). -/
def State.chDisableBits (s : State) (r : RingId) : State := (s.clearBit (.chIer r.dir) r.q).clearBit (.chen r.dir) r.q

def State.enableDirs (s : State) (c : Chan) : List Dir → State
  | [] => s
  | d :: ds => (s.chEnableBits ⟨d, c⟩).enableDirs c ds

def State.disableDirs (s : State) (c : Chan) : List Dir → State
  | [] => s
  | d :: ds => (s.chDisableBits ⟨d, c⟩).disableDirs c ds

/-- `ENABLE_CHANNEL c, dirs` (R243). -/
def execEnableChannel (c : Nat) (dirs : Dirs) (s : State) : Res :=
  withControl s <| withContext s <|
    match s.chan? c with
    | none => .next (s.answer 0x21 .invalidConfiguration)
    | some c =>
      if (dirsOf dirs).any fun d => (s.ring ⟨d, c⟩).rstate == .fatal then .next (s.answer 0x21 .fatal)
      else if (dirsOf dirs).any fun d => (s.ring ⟨d, c⟩).rstate != .running then .next (s.answer 0x21 .notReady)
      else .next ((s.enableDirs c (dirsOf dirs)).answer 0x21 .ok)

/-- `DISABLE_CHANNEL c, dirs` (R245). It runs whatever the state of the channel's rings is, `Fatal` too: R245 and R450 give it no
other result, though R297 speaks of every command operation (DESIGN CHOICE, log 32). -/
def execDisableChannel (c : Nat) (dirs : Dirs) (s : State) : Res :=
  withControl s <| withContext s <|
    match s.chan? c with
    | none => .next (s.answer 0x22 .invalidConfiguration)
    | some c => .next ((s.disableDirs c (dirsOf dirs)).answer 0x22 .ok)

/-! ### The arbiter -/

/-- `eligible(c)` (R252). -/
def State.eligible (s : State) (c : Chan) : Bool := decide (c.val < s.cfg.nq) && processing (s.regs ⟨.tx, c⟩)

/-- The arbiter's step is enabled (R250). -/
def State.arbEnabled (s : State) : Bool :=
  s.cfg.variant == .mc && s.hw.grant == none && allChans.any fun c => s.eligible c && s.weight c != 0

/-- The credit the arbiter sees: a channel of weight 0 never has credit (R250, R177, U10), whatever a raw write of the weight
has left stored. -/
def State.creditLeft (s : State) (c : Chan) : Nat := if s.weight c = 0 then 0 else s.credit c

/-- A new round when no eligible channel has credit left (R250). -/
def State.reload (s : State) : State :=
  if allChans.all fun c => !s.eligible c || s.creditLeft c == 0 then
    { s with hw := { s.hw with credit := Vector.ofFn fun c => (s.weight c).toNat } }
  else s

/-- The channel after c, and c moved on by k (R250). -/
def chanAdd (c : Chan) (k : Nat) : Chan := ⟨(c.val + k) % 16, Nat.mod_lt _ (by decide)⟩

/-- The channel the scan from `rr_ptr` finds (R250); one of weight 0 is never granted (R177, U10). -/
def State.arbPick (s : State) : Option Chan :=
  (allChans.map fun k => chanAdd s.hw.rrPtr k.val).find? fun c => s.eligible c && decide (0 < s.creditLeft c)

/-- The grant to channel c (R250). -/
def State.grantTo (s : State) (c : Chan) : State :=
  let n := s.credit c - 1
  { s with hw := { s.hw with
      credit := vset s.hw.credit c n, rrPtr := if n = 0 then chanAdd c 1 else c, grant := some c } }

/-- `E_ARB_GRANT` (R250); when it is not enabled the arbiter does nothing (log 7). -/
def execEArbGrant (s : State) : Res :=
  if s.arbEnabled then
    match s.reload.arbPick with
    | some c => .next (s.reload.grantTo c)
    | none => .next s
  else .next s

end Sys2Proof.Machine
end

