-- ==== Sys2Proof/Machine/Irq.lean ====
section
/-! DEFINITION. The completion and interrupt handler `IRQ_SERVICE` (`43_completion_handler.md` R270, R271): a command in progress
whose register accesses and calls are separate atomic steps (log 16). -/

namespace Sys2Proof.Machine

/-- The handler goes on with the next channel, or ends (R271). -/
def irqNext (dir : Dir) (budget : Nat) (todo : List Chan) (s : State) : TaskRes :=
  match todo with
  | [] => .done s
  | q :: qs => .more (.irq dir budget (q :: qs) .entry) s

/-- The error path's bookkeeping (R270, R272): `recovery_pending` and the `schedule_recovery` event. -/
def State.scheduleRecovery (s : State) (r : RingId) : State :=
  (s.setRing r ((s.ring r).pending true)).emit (.scheduleRecovery r)

/-- Entry of `SERVICE_RING` (R270, R277): it waits for another handler's body on the ring (R276); then `ISR` is read, the path
chosen. -/
def irqEntry (dir : Dir) (budget : Nat) (q : Chan) (todo : List Chan) (s : State) : TaskRes :=
  let r : RingId := ⟨dir, q⟩
  if s.irqBodyBusy r then .more (.irq dir budget (q :: todo) .entry) s
  else if !s.sw.ctxPresent || (s.ring r).rstate != .running then irqNext dir budget todo s
  else
    let v := (s.regValue (.isr r)).extractLsb' 0 3
    if v = 0 then irqNext dir budget todo s
    else if v &&& 4 ≠ 0 then .more (.irq dir budget todo (.maskIer q)) s
    else .more (.irq dir budget todo (.call q v)) s

/-- `MASK_RING`, first register write (R270); in `SQ` the error path ends here. -/
def irqMaskIer (dir : Dir) (budget : Nat) (q : Chan) (todo : List Chan) (s : State) : TaskRes :=
  let r : RingId := ⟨dir, q⟩
  match s.cfg.variant with
  | .sq => irqNext dir budget todo ((s.regWrite (.ier r) 0).scheduleRecovery r)
  | .mc => .more (.irq dir budget todo (.maskChIer q)) (s.regWrite (.ier r) 0)

/-- `MASK_RING`, the read-modify-write of `CH_IER` in `MC` (R270, R244). -/
def irqMaskChIer (dir : Dir) (budget : Nat) (q : Chan) (todo : List Chan) (s : State) : TaskRes :=
  irqNext dir budget todo ((s.clearBit (.chIer dir) q).scheduleRecovery ⟨dir, q⟩)

/-- An iteration of the `POLL_RX` inside the handler, or its end (R270, R215). -/
def irqPoll (dir : Dir) (budget : Nat) (q : Chan) (v : BitVec 3) (p : PollSt) (todo : List Chan) (s : State) : TaskRes :=
  match pollIter p s with
  | some (p', s') => .more (.irq dir budget todo (.poll q v p')) s'
  | none => .more (.irq dir budget todo (.deliver q v p.out)) (pollFinish p s)

/-- An iteration of the `RECLAIM_TX` inside the handler, or its end (R270, R220). -/
def irqReclaim (dir : Dir) (budget : Nat) (q : Chan) (v : BitVec 3) (p : ReclaimSt) (todo : List Chan) (s : State) :
    TaskRes :=
  match reclaimIter p s with
  | some (p', s') => .more (.irq dir budget todo (.reclaim q v p')) s'
  | none => .more (.irq dir budget todo (.writeIcr q v)) s

/-- The call of `RECLAIM_TX` or `POLL_RX` (R270): it waits for another body on the ring (R276), and is turned away
with no frame if the ring has left `Running` (R219). Without a context the call is refused (R215, R220), so the body of
this ring ends there (log 16). -/
def irqCall (dir : Dir) (budget : Nat) (q : Chan) (v : BitVec 3) (todo : List Chan) (s : State) : TaskRes :=
  let r : RingId := ⟨dir, q⟩
  if s.bodyBusy r then .more (.irq dir budget todo (.call q v)) s
  else if !s.sw.ctxPresent then irqNext dir budget todo s
  else
    match dir, turnedAway (s.ring r).rstate with
    | .tx, some _ => .more (.irq dir budget todo (.writeIcr q v)) s
    | .tx, none => irqReclaim dir budget q v ⟨q, []⟩ todo s
    | .rx, some _ => .more (.irq dir budget todo (.deliver q v [])) s
    | .rx, none => irqPoll dir budget q v ⟨q, budget, 0, [], none⟩ todo s

/-- Every frame that `POLL_RX` yielded goes upward, in order (R431, R432), and the handler looks whether more are ready (R270,
R274); without a pool none are (log 16). -/
def irqDeliver (dir : Dir) (budget : Nat) (q : Chan) (v : BitVec 3) (fs : List RxFrame) (todo : List Chan) (s : State) :
    TaskRes :=
  let r : RingId := ⟨dir, q⟩
  let s' := s.emits (fs.map (.rxDeliver q))
  if (s'.ring r).present && cmpltOf (s'.statusD r (s'.ring r).completion) then
    .more (.irq dir budget todo (.readIer q v)) s'
  else .more (.irq dir budget todo (.writeIcr q v)) s'

/-- One atomic step of an `IRQ_SERVICE` in progress (R270, R271). -/
def irqTask (dir : Dir) (budget : Nat) (todo : List Chan) (st : IrqStage) (s : State) : TaskRes :=
  match st with
  | .readChIsr => .more (.irq dir budget todo (.readChIer (s.regValue (.chIsr dir)))) s
  | .readChIer v => .more (.irq dir budget todo (.writeChIcr (v &&& s.regValue (.chIer dir)))) s
  | .writeChIcr v => irqNext dir budget (s.chans.filter fun c => v.getLsbD c.val) (s.regWrite (.chIcr dir) v)
  | .entry =>
    match todo with
    | [] => .done s
    | q :: qs => irqEntry dir budget q qs s
  | .maskIer q => irqMaskIer dir budget q todo s
  | .maskChIer q => irqMaskChIer dir budget q todo s
  | .call q v => irqCall dir budget q v todo s
  | .poll q v p => irqPoll dir budget q v p todo s
  | .reclaim q v p => irqReclaim dir budget q v p todo s
  | .deliver q v fs => irqDeliver dir budget q v fs todo s
  | .writeIcr q v => .more (.irq dir budget todo (.readIer q v)) (s.regWrite (.icr ⟨dir, q⟩) (v.setWidth 32))
  | .readIer q v => .more (.irq dir budget todo (.writeIer q v ((s.regValue (.ier ⟨dir, q⟩)).extractLsb' 0 3))) s
  | .writeIer q v e => irqNext dir budget todo (s.regWrite (.ier ⟨dir, q⟩) ((e ||| v).setWidth 32))

/-- The first stage of the handler after it has lowered the output (R270, R271). -/
def State.irqStart (s : State) (dir : Dir) (budget : Nat) : Task :=
  match s.cfg.variant with
  | .sq => .irq dir budget [0] .entry
  | .mc => .irq dir budget [] .readChIsr

/-- `IRQ_SERVICE dir, budget` (R270, R271): lowers the output; its other steps follow. A run begun with the output low is
spurious and changes nothing (R276). A run of the same direction that is in progress excludes it in `SQ`, where both are
bodies of the one ring; in `MC` bodies of different channels interleave and a body waits at its entry (R276; log 19). -/
def execIrqService (dir : Dir) (budget : Nat) (s : State) : Res :=
  if !s.irq dir then .next s
  else if s.cfg.variant = .sq ∧ s.irqBusy dir = true then .refused .bodyInProgress
  else begin (.more (s.irqStart dir budget) (s.setIrq dir false))

end Sys2Proof.Machine
end

