-- ==== Sys2Proof/Machine/Recover.lean ====
section
/-! DEFINITION. The error-recovery task (`44_error_recovery.md`): `RECOVER_BEGIN` (R291), `RECOVER_POLL` (R292), `RECOVER_DRAIN` (R293)
and `RECOVER_RECONFIG` (R294). -/

namespace Sys2Proof.Machine

/-- A recovery sub-operation on a ring in the state its rule names (U28). -/
def withRState (st : RState) (d : Dir) (q : Nat) (s : State) (k : RingId → Res) : Res :=
  withContext s <| withRing d q s fun r => if (s.ring r).rstate = st then k r else .refused .wrongRingState

/-- `CR.RESET` as a written word (R291). -/
def crReset : Word := 0x00000004

/-- `RECOVER_BEGIN r` (R291): no other command operation on the ring is in progress. It waits for a body on the ring (R296), and
for an `ATTACH`, which has registers of every ring to write until it ends (R470; log 21). -/
def execRecoverBegin (dir : Dir) (q : Nat) (s : State) : Res :=
  withRState .running dir q s fun r =>
    if !(s.ring r).recoveryPending then .refused .wrongRingState
    else if s.controlBusy then .refused .contextBusy
    else if s.bodyBusy r then .refused .bodyInProgress
    else
      .next ((s.setRing r ((((s.ring r).become .halting).pending false).polls 0)).regWrite (.cr r)
        crReset)

/-- A poll that found the ring not halted (R292). -/
def State.pollFailed (s : State) (r : RingId) : State :=
  let n := (s.ring r).retries + 1
  if s.cfg.resetRetryMax ≤ n then
    (s.setRing r ((((s.ring r).polls n).become .fatal).cause .resetTimeout)).emit
      (.fatal r .resetTimeout)
  else s.setRing r ((s.ring r).polls n)

/-- `RECOVER_POLL r` (R292). -/
def execRecoverPoll (dir : Dir) (q : Nat) (s : State) : Res :=
  withRState .halting dir q s fun r =>
    if (s.regValue (.sr r)).getLsbD 0 then .next (s.setRing r ((s.ring r).become .halted))
    else .next (s.pollFailed r)

/-- Every slot from `i` up to `issue` released, its frame counted as dropped (R293); the number bounds the loop (log 27). -/
def State.drainFrom (s : State) (r : RingId) (i : Nat) : Nat → State
  | 0 => s
  | n + 1 => if i = (s.ring r).issue then s else (s.dropSlot r i).drainFrom r (incMod (s.ring r).cap i) n

/-- What `RECOVER_DRAIN` releases (R293). -/
def State.drain (s : State) (r : RingId) : State :=
  match r.dir with
  | .rx => s
  | .tx =>
    let s' := s.drainFrom r (s.ring r).completion (s.ring r).cap
    s'.setTags r.q { s'.tags r.q with tagmap := [] }

/-- `RECOVER_DRAIN r` (R293). -/
def execRecoverDrain (dir : Dir) (q : Nat) (s : State) : Res :=
  withRState .halted dir q s fun r =>
    .next ((s.drain r).setRing r (((s.drain r).ring r).become .reconfiguring))

/-- The coalescing values `ATTACH` and recovery write to `CR` (R294, R420). -/
def State.coalWord (s : State) (r : RingId) : Word := crValue (s.cfg.ring r).delay (s.cfg.ring r).thresh

/-- Enabling ring r: `CR.RS` in `SQ`, `CH_ENABLE_BITS` in `MC` (R294, R420). -/
def State.enableRing (s : State) (r : RingId) : State :=
  match s.cfg.variant with
  | .sq => s.regWrite (.cr r) (s.regValue (.cr r) ||| 1)
  | .mc => s.chEnableBits r

/-- The doorbell that gives the engine all N receive buffers (R294, R420). -/
def State.ringRx (s : State) (r : RingId) : State :=
  s.regWrite (.taildesc r) (daddr (s.ring r).base ((s.ring r).cap - 1))

/-- The last step of `RECOVER_RECONFIG`: enable, RX doorbell, release of the lock in one (R294, R515). -/
def State.reenable (s : State) (r : RingId) : State :=
  let s1 := s.enableRing r
  let s2 := match r.dir with | .tx => s1 | .rx => s1.ringRx r
  s2.setRing r ((s2.ring r).become .running)

/-- One atomic step of a `RECOVER_RECONFIG` in progress (R294). The ring stays `Reconfiguring` from its first step to its last
(R37, R296), so the first test never stops one that a run reaches. The RX doorbell of the last step needs the `WMB` after
the last descriptor write (R121); `SQ` and `MC` rings alike run by then. -/
def reconfigTask (r : RingId) (st : ReconfigStage) (s : State) : TaskRes :=
  if (s.ring r).rstate ≠ .reconfiguring then .stop .wrongRingState
  else
    match st with
    | .curdesc => .more (.reconfig r .cr) (s.regWrite (.curdesc r) (s.ring r).base)
    | .cr => .more (.reconfig r .ier) (s.regWrite (.cr r) (s.coalWord r))
    | .ier => .more (.reconfig r .enable) (s.regWrite (.ier r) 7)
    | .enable => if r.dir = .rx ∧ (s.enableRing r).bellUnordered r = true then .stop .doorbellUnordered else .done (s.reenable r)

/-- `RESET_RING`, for an RX ring `ARM_RX`, and `WMB` (R294). They are one atomic step: R294 and D45 make each register write a
step of its own and do not say how these, which access no register, are grouped (DESIGN CHOICE, log 6). -/
def State.rebuild (s : State) (r : RingId) : State :=
  let s1 := s.resetRing r
  let s2 := match r.dir with | .tx => s1 | .rx => s1.armRx r.q
  s2.wmb

/-- `RECOVER_RECONFIG r` (R294): rebuilds the ring; its register writes follow as separate steps. Its `RESET_RING` needs the
engine halted, and a model refuses it on a running ring (R193). A raw write can have started the engine in the meantime
(U31): that this refuses the whole command there, where R512 speaks of a recovery that goes on and leaves the engine at
address 0, is log 30's DESIGN CHOICE. -/
def execRecoverReconfig (dir : Dir) (q : Nat) (s : State) : Res :=
  withRState .reconfiguring dir q s fun r =>
    if s.bodyBusy r then .refused .bodyInProgress
    else if !halted (s.regs r) then .refused .ringNotHalted
    else begin (.more (.reconfig r .curdesc) (s.rebuild r))

end Sys2Proof.Machine
end

