-- ==== Sys2Proof/Machine/Lifecycle.lean ====
section
/-! DEFINITION. `ATTACH` (R420, R422), `DETACH` (R425), `LINK_NOTIFY` (R428) and `STATS_SNAPSHOT` (R429) of
`48_lifecycle_interfaces.md`. -/

namespace Sys2Proof.Machine

/-- A number within bounds. -/
def within (lo hi n : Nat) : Bool := decide (lo ≤ n) && decide (n ≤ hi)

/-! ### `VALIDATE` -/

def queueCountOk (c : Config) : Bool :=
  match c.variant with
  | .sq => c.nq == 1
  | .mc => within 1 16 c.nq

/-- One ring's part of the `SIZE` test. -/
def ringSizeOk (x : RingCfg) : Bool := within 2 32768 x.cap && within 1 255 x.thresh && within 0 255 x.delay

def sizeOk (c : Config) : Bool :=
  ((ringsBelow c.nq).all fun r => ringSizeOk (c.ring r)) && within 1 (2 ^ 23 - 1) c.maxFrame &&
    within c.maxFrame (2 ^ 23 - 1) c.rxBufSize && decide (1 ≤ c.resetRetryMax)

/-- The sum of `INIT_WEIGHT[c]` over c < `NQ`. -/
def weightSum (c : Config) : Nat := ((chansBelow c.nq).map c.weight).sum

def weightsOk (c : Config) : Bool :=
  match c.variant with
  | .sq => true
  | .mc =>
    ((chansBelow c.nq).all fun q => within 1 15 (c.weight q)) &&
      (match c.weightSumLimit with | none => true | some m => decide (weightSum c ≤ m))

/-- `VALIDATE(cfg)` (R422): the first failing test's subcode. -/
def validate (c : Config) : Option SubCode :=
  if !queueCountOk c then some .queueCount
  else if c.regBase.toNat % 4096 ≠ 0 then some .alignment
  else if !sizeOk c then some .size
  else if !weightsOk c then some .weight
  else none

/-! ### `ATTACH` -/

/-- What phase 2 comes to (R420). -/
inductive PoolsRes where
  | ok (s : State)
  | failed (e : SubCode) (s : State)
  | stop (e : Refusal)
deriving Repr

/-- The pools of the rings `rs`, in order; on a failure those already made are given back (R420). The rings given back still owe
the `WMB` for the descriptor writes of their `ALLOCATE`: R121 counts every one, and R423, which leaves the machine as before,
does not say (DESIGN CHOICE, log 31). A ring that has a pool already stops the phase, as R190 has `ALLOCATE` refuse (what
becomes of the `ATTACH` then is a DESIGN CHOICE: `attachTask`, log 31). -/
def allocateAll (made : List RingId) (s : State) : List RingId → PoolsRes
  | [] => .ok s
  | r :: rs =>
    let giveBack (t : State) : State := made.foldl (fun t r' => t.setRing r' (t.ring r').gone) t
    match s.allocate r (s.cfg.ring r).cap with
    | .ok s' => allocateAll (made ++ [r]) s' rs
    | .size => .failed .size (giveBack s)
    | .outOfMemory s' => .failed .memory (giveBack s')
    | .alignment s' => .failed .alignment (giveBack s')
    | .present => .stop .alreadyAllocated
    | .running => .stop .ringNotHalted

/-- Ring-manager values of a ring at `ATTACH`, phase 3 (R420, R81). -/
def RingSw.zeroed (w : RingSw) : RingSw :=
  { w with packets := 0, bytes := 0, errors := 0, dropped := 0, recoveryPending := false, retries := 0 }

/-- The rings `rs`, each changed by `f`, in order. -/
def State.eachRing (s : State) (f : State → RingId → State) (rs : List RingId) : State := rs.foldl f s

/-- Phase 3 of `ATTACH` (R420). -/
def State.attachSoftware (s : State) (c : Config) : State :=
  let s1 := s.eachRing (fun t r => t.setRing r (t.ring r).zeroed) s.ringIds
  let s2 := s.chans.foldl (fun t q => t.setTags q ⟨0, []⟩) s1
  (s2.setLink false).setModes c.caps

/-- Phase 4 of `ATTACH` (R420): receive buffers, then `WMB`. -/
def State.attachArm (s : State) : State :=
  (s.chans.foldl State.armRx s).wmb

/-- The word phase 5 writes to a weight register (R420). -/
def initWeightWord (c : Config) (hi : Bool) : Word :=
  (chansBelow c.nq).foldl
    (fun acc q => if decide (8 ≤ q.val) == hi then acc + (BitVec.ofNat 32 (c.weight q) <<< (4 * (q.val % 8))) else acc) 0

/-! ### Register accesses one by one (D45) -/

/-- The state after a register access. -/
def Access.run (a : Access) (s : State) : State :=
  match a with
  | .curdesc r => s.regWrite (.curdesc r) (s.ring r).base
  | .cr r => s.regWrite (.cr r) (s.coalWord r)
  | .weights hi => s.regWrite (if hi then .weight1 else .weight0) (initWeightWord s.cfg hi)
  | .ier r => s.regWrite (.ier r) 7
  | .readRun _ => s
  | .writeRun r v => s.regWrite (.cr r) (v ||| 1)
  | .enableBits r => s.chEnableBits r
  | .bell r => s.ringRx r
  | .maskIer r => s.regWrite (.ier r) 0
  | .maskChIer r => s.clearBit (.chIer r.dir) r.q
  | .reset r => s.regWrite (.cr r) crReset

/-- The accesses left after `a`: the value read by `v = RegRead(CR)` goes into the write that follows it. -/
def Access.left (a : Access) (s : State) (todo : List Access) : List Access :=
  match a with
  | .readRun r => .writeRun r (s.regValue (.cr r)) :: todo
  | _ => todo

/-- A doorbell that no `WMB` orders is refused (R121). -/
def Access.unordered (a : Access) (s : State) : Bool :=
  match a with
  | .bell r => s.bellUnordered r
  | _ => false

/-- One access of the list, and the command goes on with what is left of it. -/
def accessStep (todo : List Access) (s : State) (k : List Access → State → TaskRes) : TaskRes :=
  match todo with
  | [] => k [] s
  | a :: as => if a.unordered s then .stop .doorbellUnordered else k (a.left s as) (a.run s)

/-- The weight registers phase 5 of `ATTACH` writes (R420). -/
def weightAccesses (v : Variant) (nq : Nat) : List Access :=
  match v with
  | .sq => []
  | .mc => .weights false :: if 8 < nq then [.weights true] else []

/-- Phase 5 of `ATTACH` (R420). -/
def State.programAccesses (s : State) : List Access :=
  (s.ringIds.flatMap fun r => [.curdesc r, .cr r]) ++ weightAccesses s.cfg.variant s.cfg.nq ++ s.ringIds.map .ier

/-- Phase 7 of `ATTACH` (R420). -/
def State.enableAccesses (s : State) : List Access :=
  s.ringIds.map (fun r => match s.cfg.variant with | .sq => .readRun r | .mc => .enableBits r) ++
    s.chans.map fun q => .bell ⟨.rx, q⟩

/-- Phase 2 of `DETACH` (R425): `MASK_RING` (R270) and the reset request of each ring. -/
def State.maskAccesses (s : State) : List Access :=
  s.ringIds.flatMap fun r =>
    match s.cfg.variant with
    | .sq => [.maskIer r, .reset r]
    | .mc => [.maskIer r, .maskChIer r, .reset r]

/-- Phase 6 of `ATTACH` (R420). -/
def State.attachPresent (s : State) : State :=
  (s.setCtx true).eachRing (fun t r => t.setRing r ((t.ring r).become .running)) s.ringIds

/-- Phase 5 of `ATTACH` with these accesses left, or phase 6. -/
def AttachPhase.programs (todo : List Access) : AttachPhase :=
  match todo with
  | [] => .present
  | _ :: _ => .program todo

/-- Phase 7 of `ATTACH` with these accesses left, or its return. -/
def attachEnables (c : Config) (todo : List Access) (s : State) : TaskRes :=
  match todo with
  | [] => .done (s.answer 0x01 .ok)
  | _ :: _ => .more (.attach (.enable todo) c) s

/-- One atomic step of an `ATTACH` in progress (R420); the configuration is the machine's from phase 2 on (log 1). There is no
context until phase 6 (R18 (d), R420), so its test never stops one that a run reaches. Where phase 2 meets a ring that an
`ALLOCATE` alone has given a pool the `ATTACH` stays in progress, refused each time it is resumed, and the control context
stays busy: the spec has `ALLOCATE` refuse (R190) and says nothing of the `ATTACH` (DESIGN CHOICE, log 31). -/
def attachTask (phase : AttachPhase) (c : Config) (s : State) : TaskRes :=
  match phase with
  | .allocate =>
    match allocateAll [] (s.setCfg c) (ringsBelow c.nq) with
    | .ok s' => .more (.attach .software c) s'
    | .failed e s' => .done ((s'.setCfg s.cfg).answer 0x01 (.configError e))
    | .stop e => .stop e
  | .software => .more (.attach .arm c) (s.attachSoftware c)
  | .arm => .more (.attach (.programs s.programAccesses) c) s.attachArm
  | .program todo => accessStep todo s fun as t => .more (.attach (.programs as) c) t
  | .present =>
    if s.sw.ctxPresent then .stop .attachNotEnabled else .more (.attach (.enable s.enableAccesses) c) s.attachPresent
  | .enable todo => accessStep todo s (attachEnables c)

/-- Every ring is halted. -/
def State.allHalted (s : State) : Bool := (ringsBelow 16).all fun r => halted (s.regs r)

/-- `ATTACH cfg` (R420): phase 1; its other phases follow as separate steps. -/
def execAttach (cfg : Config) (s : State) : Res :=
  withControl s <|
    if s.sw.ctxPresent || !s.allHalted then .refused .attachNotEnabled
    else
      match validate cfg with
      | some e => .next (s.answer 0x01 (.configError e))
      | none => begin (.more (.attach .allocate cfg) s)

/-! ### `DETACH` -/

/-- A recovery episode is in progress on a ring in this state (R296). -/
def inRecovery : RState → Bool
  | .running => false
  | .halting => true
  | .halted => true
  | .reconfiguring => true
  | .fatal => false

/-- Phase 2 of `DETACH` with these accesses left, or phase 3. -/
def State.detachMasks (s : State) (todo : List Access) : DetachStage :=
  match todo with
  | [] => .poll s.ringIds 0
  | _ :: _ => .mask todo

/-- One poll of phase 3 of `DETACH` (R425). When the polls run out the ring's `fatal_cause` is `ResetTimeout` (R425, R426, R38;
against a remark of `90_conflicts.md` C17: DEDUCED, log 14). -/
def detachPoll (r : RingId) (rs : List RingId) (k : Nat) (s : State) : TaskRes :=
  if (s.regValue (.sr r)).getLsbD 0 then .more (.detach (.poll rs 0)) s
  else if s.cfg.resetRetryMax ≤ k + 1 then
    .done ((s.setRing r ((s.ring r).cause .resetTimeout)).answer 0x02 .resetTimeout)
  else .more (.detach (.poll (r :: rs) (k + 1))) s

/-- The ring-manager state of a ring after a successful `DETACH`: absent (R81, R425), as before the first `ATTACH`, but for the
four counters, which only `ATTACH` zeroes (R58). The values are the model's (DESIGN CHOICE, log 2). -/
def RingSw.vacant (w : RingSw) : RingSw :=
  { RingSw.absent with packets := w.packets, bytes := w.bytes, errors := w.errors, dropped := w.dropped }

/-- The ring manager without a context: every ring vacant, no tags, the link down, no offload mode (R81; log 2). -/
def State.vacate (s : State) : State :=
  let s1 := s.eachRing (fun t r => t.setRing r (t.ring r).vacant) s.ringIds
  let s2 := s.chans.foldl (fun t q => t.setTags q ⟨0, []⟩) s1
  ((s2.setLink false).setModes ⟨.off, .off, false⟩).setCtx false

/-- Phase 4 of `DETACH` (R425). -/
def State.detachFree (s : State) : State := (s.eachRing State.freeRing s.ringIds).vacate

/-- One atomic step of a `DETACH` in progress (R425). -/
def detachTask (st : DetachStage) (s : State) : TaskRes :=
  match st with
  | .mask todo => accessStep todo s fun as t => .more (.detach (t.detachMasks as)) t
  | .poll (r :: rs) k => detachPoll r rs k s
  | .poll [] _ => .done (s.detachFree.answer 0x02 .ok)

/-- Phase 1 of `DETACH` (R425, R426). -/
def State.quiesce (s : State) : State :=
  s.eachRing (fun t r => t.setRing r (((t.ring r).become .fatal).pending false)) s.ringIds

/-- `DETACH` (R425): phase 1; its other steps follow. It waits for a recovery episode in progress (log 21). -/
def execDetach (s : State) : Res :=
  withControl s <| withContext s <|
    if s.ringIds.any fun r => inRecovery (s.ring r).rstate then .refused .wrongRingState
    else begin (.more (.detach (.mask s.maskAccesses)) s.quiesce)

/-! ### `LINK_NOTIFY`, `STATS_SNAPSHOT` -/

/-- `LINK_NOTIFY up` (R428). -/
def execLinkNotify (up : Bool) (s : State) : Res :=
  withControl s <| withContext s <| .next (s.setLink up)

/-- What `STATS_SNAPSHOT` returns for one ring (R429). -/
def State.stat (s : State) (r : RingId) : Stat :=
  ⟨r, (s.ring r).packets, (s.ring r).bytes, (s.ring r).errors, (s.ring r).dropped, (s.ring r).rstate⟩

/-- `STATS_SNAPSHOT` (R429). -/
def execStatsSnapshot (s : State) : Res :=
  withControl s <| withContext s <| .next (s.answer 0x41 (.okStats (s.ringIds.map s.stat)))

end Sys2Proof.Machine
end

