-- ==== Sys2Proof/Machine/Regs.lean ====
section
/-! DEFINITION. Register transactions (`46_register_interface.md`): `REG_READ` and `REG_WRITE` (R330), and one meaning per register
row: a read or a write of that register of the ring or channel the operand names (R331 to R348, log 9). -/

namespace Sys2Proof.Machine

/-- The register at an offset, if a transaction there is one (R107, R161). -/
def atOff (off : Nat) (s : State) (k : Reg → Res) : Res :=
  if off < 4096 ∧ off % 4 = 0 then k (decodeOff s.cfg.variant s.cfg.nq off) else .refused .badTransaction

/-- A register of the `SQ` variant (R156). -/
def sqReg (g : Reg) (t : Trans) (s : State) : Res :=
  if s.cfg.variant = .sq then transact g t s else .refused .wrongVariant

/-- A register of the `MC` variant that is not a channel's (R158). -/
def mcReg (g : Reg) (t : Trans) (s : State) : Res :=
  if s.cfg.variant = .mc then transact g t s else .refused .wrongVariant

/-- A register of a channel's block in the `MC` variant (R157). -/
def chanReg (d : Dir) (c : Nat) (g : RingId → Reg) (t : Trans) (s : State) : Res :=
  if s.cfg.variant = .mc then withRing d c s fun r => transact (g r) t s else .refused .wrongVariant

/-- `REG_READ off` (R330). -/
def execRegRead (off : Nat) (s : State) : Res := atOff off s fun g => transact g .read s

/-- `REG_WRITE off, v` (R330). -/
def execRegWrite (off : Nat) (v : Word) (s : State) : Res := atOff off s fun g => transact g (.write v) s

/-! ### `SQ` -/

/-- `CR` (R331). -/
def execCrSq (dir : Dir) (t : Trans) (s : State) : Res := sqReg (.cr ⟨dir, 0⟩) t s

/-- `SR` (R333). -/
def execSrSq (dir : Dir) (t : Trans) (s : State) : Res := sqReg (.sr ⟨dir, 0⟩) t s

/-- `CURDESC` (R334). -/
def execCurdescSq (dir : Dir) (t : Trans) (s : State) : Res := sqReg (.curdesc ⟨dir, 0⟩) t s

/-- `TAILDESC` (R335). -/
def execTaildescSq (dir : Dir) (t : Trans) (s : State) : Res := sqReg (.taildesc ⟨dir, 0⟩) t s

/-- `ISR` (R336). -/
def execIsrSq (dir : Dir) (t : Trans) (s : State) : Res := sqReg (.isr ⟨dir, 0⟩) t s

/-- `IER` (R337). -/
def execIerSq (dir : Dir) (t : Trans) (s : State) : Res := sqReg (.ier ⟨dir, 0⟩) t s

/-- `ICR` (R338). -/
def execIcrSq (dir : Dir) (t : Trans) (s : State) : Res := sqReg (.icr ⟨dir, 0⟩) t s

/-- `TSF_CNT` (R339). -/
def execTsfCntSq (t : Trans) (s : State) : Res := sqReg (.tsfCnt 0) t s

/-- `TSF_TAG` (R340). -/
def execTsfTagSq (t : Trans) (s : State) : Res := sqReg (.tsfTag 0) t s

/-- `TSF_LO` (R341). -/
def execTsfLoSq (t : Trans) (s : State) : Res := sqReg (.tsfLo 0) t s

/-- `TSF_HI` (R342). -/
def execTsfHiSq (t : Trans) (s : State) : Res := sqReg (.tsfHi 0) t s

/-! ### `MC` -/

/-- `CR` of a channel (R331). -/
def execCrMc (dir : Dir) (c : Nat) (t : Trans) (s : State) : Res := chanReg dir c .cr t s

/-- `SR` of a channel (R333). -/
def execSrMc (dir : Dir) (c : Nat) (t : Trans) (s : State) : Res := chanReg dir c .sr t s

/-- `CURDESC` of a channel (R334). -/
def execCurdescMc (dir : Dir) (c : Nat) (t : Trans) (s : State) : Res := chanReg dir c .curdesc t s

/-- `TAILDESC` of a channel (R335). -/
def execTaildescMc (dir : Dir) (c : Nat) (t : Trans) (s : State) : Res := chanReg dir c .taildesc t s

/-- `ISR` of a channel (R336). -/
def execIsrMc (dir : Dir) (c : Nat) (t : Trans) (s : State) : Res := chanReg dir c .isr t s

/-- `IER` of a channel (R337). -/
def execIerMc (dir : Dir) (c : Nat) (t : Trans) (s : State) : Res := chanReg dir c .ier t s

/-- `ICR` of a channel (R338). -/
def execIcrMc (dir : Dir) (c : Nat) (t : Trans) (s : State) : Res := chanReg dir c .icr t s

/-- `TSF_CNT` of a channel (R339). -/
def execTsfCntMc (c : Nat) (t : Trans) (s : State) : Res := chanReg .tx c (fun r => .tsfCnt r.q) t s

/-- `TSF_TAG` of a channel (R340). -/
def execTsfTagMc (c : Nat) (t : Trans) (s : State) : Res := chanReg .tx c (fun r => .tsfTag r.q) t s

/-- `TSF_LO` of a channel (R341). -/
def execTsfLoMc (c : Nat) (t : Trans) (s : State) : Res := chanReg .tx c (fun r => .tsfLo r.q) t s

/-- `TSF_HI` of a channel (R342). -/
def execTsfHiMc (c : Nat) (t : Trans) (s : State) : Res := chanReg .tx c (fun r => .tsfHi r.q) t s

/-- `CHEN` (R343). -/
def execChen (dir : Dir) (t : Trans) (s : State) : Res := mcReg (.chen dir) t s

/-- `CH_IER` (R344). -/
def execChIer (dir : Dir) (t : Trans) (s : State) : Res := mcReg (.chIer dir) t s

/-- `CH_ISR` (R345). -/
def execChIsr (dir : Dir) (t : Trans) (s : State) : Res := mcReg (.chIsr dir) t s

/-- `CH_ICR` (R346). -/
def execChIcr (dir : Dir) (t : Trans) (s : State) : Res := mcReg (.chIcr dir) t s

/-- `WEIGHT0` (R347). -/
def execWeight0 (t : Trans) (s : State) : Res := mcReg .weight0 t s

/-- `WEIGHT1` (R347). -/
def execWeight1 (t : Trans) (s : State) : Res := mcReg .weight1 t s

/-! ### Both variants -/

/-- A transaction at a reserved offset (R348): the register the offset decodes to, which is none. -/
def execReservedOffset (off : Nat) (t : Trans) (s : State) : Res := atOff off s fun g => transact g t s

end Sys2Proof.Machine
end

