-- ==== Sys2Proof/Machine/Engine.lean ====
section
/-! DEFINITION. The DMA engine's steps (`47_dma_engine.md`): `E_TX_DESC` (R381), `E_RX_DESC` (R388), `E_DELAY_TIMEOUT` (R391), `E_FAULT`
(R392), `E_RESET_DONE` (R393), `E_STOP_DONE` (R397). A step that is not enabled does nothing (R380, log 7). -/

namespace Sys2Proof.Machine

/-! ### `FETCH` and `WRITE_STATUS` -/

/-- The thirteen hardware words of the descriptor at `d`, named by the variant's layout; the software-only words are
not fetched (R382, R109) and stand as 0, which no engine rule reads. -/
def readDesc (v : Variant) (m : Memory) (d : Word) : Desc :=
  let at_ (off : Nat) : Word := memWord m (d + BitVec.ofNat 32 off)
  { next := at_ nextOff, buf := at_ bufOff, ctrl := at_ (ctrlOff v), status := at_ (statusOff v),
    app := ⟨at_ (appOff 0), at_ (appOff 1), at_ (appOff 2), at_ (appOff 3), at_ (appOff 4)⟩,
    swFrame := 0, swMap := 0, swTag := 0 }

/-- What a fetch comes to (R382). -/
inductive FetchRes where
  | ok (w : Desc) (s : State)
  | faulted (s : State)
deriving Repr

/-- The check of a fetched descriptor: one that is still complete is a controller-level fault (R382). -/
def checkFetched (r : RingId) (w : Desc) (s : State) : FetchRes :=
  if cmpltOf w.status then .faulted (s.engineFault r .int) else .ok w s

/-- `FETCH(r, d)` (R382). -/
def State.fetch (s : State) (r : RingId) (d : Word) : FetchRes :=
  match s.drawBus with
  | (.okay, s') => checkFetched r (readDesc s'.cfg.variant s'.mem d) s'
  | (.slverr, s') => .faulted (s'.engineFault r .slv)
  | (.decerr, s') => .faulted (s'.engineFault r .dec)

/-- `WRITE_STATUS(r, d, w)` (R385); the flag says that the word was written. -/
def State.writeStatus (s : State) (r : RingId) (d w : Word) : Bool × State :=
  match s.drawBus with
  | (.okay, s') => (true, s'.setMem (memPutWord s'.mem (d + BitVec.ofNat 32 (statusOff s'.cfg.variant)) w))
  | (.slverr, s') => (false, s'.engineFault r .slv)
  | (.decerr, s') => (false, s'.engineFault r .dec)

/-! ### Transmit -/

/-- The length and protocol checks and the start of a frame (R381, R383): the error flags so far and `asm[q]`. -/
def txStart (v : Variant) (w : Desc) (a : Asm) : BitVec 3 × Asm :=
  let e0 : BitVec 3 := if lenOf w.ctrl = 0 then errInt else 0
  if sofOf v w.ctrl || !a.active then
    ((if sofOf v w.ctrl == a.active then e0 ||| errInt else e0),
     ⟨true, [], if sofOf v w.ctrl then w.app else appZero, false⟩)
  else (e0, a)

/-- The error flags for the answer to a buffer access (R383). -/
def respErr : BusResp → BitVec 3
  | .okay => 0
  | .slverr => errSlv
  | .decerr => errDec

/-- The read of the buffer, made only for a descriptor and a frame without an error (R381, R384). -/
def txData (w : Desc) (e : BitVec 3) (a : Asm) (s : State) : BitVec 3 × Asm × State :=
  if e = 0 ∧ a.err = false then
    let (b, s') := s.drawBus
    (respErr b, (if b = .okay then { a with bytes := a.bytes ++ memBytes s'.mem w.buf (lenOf w.ctrl) } else a), s')
  else (e, a, s)

/-- A descriptor of a frame with an earlier error, and a frame with an error in this descriptor (R384). -/
def txErr (e : BitVec 3) (a : Asm) : BitVec 3 × Asm :=
  let e' := if e = 0 ∧ a.err then errInt else e
  (e', if e' ≠ 0 then { a with err := true } else a)

/-- `TS_PUSH(q, tag)` (R386): a full FIFO, of `N[TX][q]` - 1 entries, loses the entry. On a ring without a pool, whose engine
only raw register writes can run, the spec gives no N. The model's N is the one it holds for the ring: that of a pool given
back by `FREE_RING` alone or by an `ATTACH` that failed (`RingSw.gone`), else 0, so that the FIFO holds none and the entry
is lost (DESIGN CHOICE, log 2). -/
def State.tsPush (s : State) (q : Chan) (tag : BitVec 16) : State :=
  let (t, s') := s.drawTs
  let x := s'.txe q
  if x.tsf.length < (s'.ring ⟨.tx, q⟩).cap - 1 then s'.setTxe q { x with tsf := x.tsf ++ [⟨tag, t⟩] } else s'

/-- A good frame leaves on the stream port, with its timestamp (R381, R386, R387). -/
def State.txEmit (s : State) (q : Chan) (a : Asm) : State :=
  let s' := s.emit (.txStream q a.bytes a.app)
  if tsReqOf a.app.a4 then s'.tsPush q (tagOf a.app.a4) else s'

/-- In `MC` the grant is given up (R253). -/
def State.dropGrant (s : State) : State := if s.cfg.variant = .mc then s.setGrant none else s

/-- `asm[q]` after the descriptor; at an end of frame the frame leaves (R381). -/
def State.txClose (s : State) (q : Chan) (a : Asm) (eof : Bool) : State :=
  if eof then
    let s1 := if a.err then s else s.txEmit q a
    (s1.setTxe q { s1.txe q with asm := asmInactive }).dropGrant
  else s.setTxe q { s.txe q with asm := a }

/-- The end of a descriptor step (R381, R388): `CURDESC` moves on, the engine goes idle at the tail, a TX grant is
given up there, and `PACKET_DONE` if the frame is done. -/
def State.advance (s : State) (r : RingId) (d next : Word) (done : Bool) : State :=
  let atTail := d == (s.regs r).taildesc
  let s1 := s.setRegs r (advanceRegs d next (s.regs r))
  let s2 := if atTail && r.dir == .tx then s1.dropGrant else s1
  if done then s2.packetDone r else s2

/-- `E_TX_DESC` after its fetch (R381): the engine of `r` processes the descriptor `w` at `d`. -/
def State.runTx (s : State) (r : RingId) (d : Word) (w : Desc) : State :=
  let v := s.cfg.variant
  let eof := eofOf v w.ctrl
  let (e0, a0) := txStart v w (s.txe r.q).asm
  let (e1, a1, s1) := txData w e0 a0 s
  let (e, a) := txErr e1 a1
  let s2 := s1.txClose r.q a eof
  match s2.writeStatus r d (statusWord e false false (lenOf w.ctrl)) with
  | (false, s3) => s3
  | (true, s3) => s3.advance r d w.next eof

/-- `E_TX_DESC` on ring r is enabled (R380). -/
def State.txEnabled (s : State) (r : RingId) : Bool :=
  processing (s.regs r) && (s.cfg.variant == .sq || s.hw.grant == some r.q)

/-! ### Receive -/

/-- The frame being spread, or the next one of the stream (R388). -/
def State.rxTake (s : State) (q : Chan) : Option (RxRem × State) :=
  match (s.rxe q).rem, (s.rxe q).stream with
  | some m, _ => some (m, s)
  | none, f :: fs => some (⟨f.bytes, f.app, true⟩, s.setRxe q ⟨none, fs⟩)
  | none, [] => none

/-- The write of the buffer (R388): error flags, bytes moved, state. -/
def State.rxData (s : State) (w : Desc) (m : RxRem) : BitVec 3 × Nat × State :=
  if lenOf w.ctrl = 0 then (errInt, 0, s)
  else
    let n := min (lenOf w.ctrl) m.bytes.length
    let (b, s') := s.drawBus
    (respErr b, n, if b = .okay then s'.setMem (memPutBytes s'.mem w.buf (m.bytes.take n)) else s')

/-- The write of one application word (R388), an access of the engine with a response of its own (R85, D29). R388 writes the
word and goes on whatever the answer is (DEDUCED, log 29). -/
def State.putAppWord (s : State) (a v : Word) : State :=
  let s' := s.drawBus.2
  s'.setMem (memPutWord s'.mem a v)

/-- The five application words of the descriptor at `d`, written one after the other (R388). -/
def State.writeApp (s : State) (d : Word) (a : App) : State :=
  ((((s.putAppWord (d + BitVec.ofNat 32 (appOff 0)) a.a0).putAppWord (d + BitVec.ofNat 32 (appOff 1)) a.a1).putAppWord
    (d + BitVec.ofNat 32 (appOff 2)) a.a2).putAppWord (d + BitVec.ofNat 32 (appOff 3)) a.a3).putAppWord
    (d + BitVec.ofNat 32 (appOff 4)) a.a4

/-- `E_RX_DESC` after its fetch (R388): the engine of `r` fills the descriptor `w` at `d` from the record `m`. Each of the
accesses draws its response (R85), the five application words' among them (log 29). -/
def State.fillRx (s : State) (r : RingId) (d : Word) (w : Desc) (m : RxRem) : State :=
  let (e, n, s1) := s.rxData w m
  let last := e != 0 || n == m.bytes.length
  let s2 := if last && e == 0 then s1.writeApp d m.app else s1
  let s3 := s2.setRxe r.q { s2.rxe r.q with rem := if last then none else some ⟨m.bytes.drop n, m.app, false⟩ }
  match s3.writeStatus r d (statusWord e m.first last n) with
  | (false, s4) => s4
  | (true, s4) => s4.advance r d w.next last

/-- `E_RX_DESC` after its fetch, the received bytes taken from the record or the stream (R388). -/
def State.runRx (s : State) (r : RingId) (d : Word) (w : Desc) : State :=
  match s.rxTake r.q with
  | none => s
  | some (m, s') => s'.fillRx r d w m

/-- A received frame is waiting (R380). -/
def rxWaiting (x : RxEngine) : Bool := x.rem.isSome || !x.stream.isEmpty

/-- `E_RX_DESC` on ring r is enabled (R380). -/
def State.rxEnabled (s : State) (r : RingId) : Bool := processing (s.regs r) && rxWaiting (s.rxe r.q)

/-! ### The two descriptor steps -/

/-- The engine of ring `r` may process a descriptor (R380). -/
def State.descEnabled (s : State) (r : RingId) : Bool :=
  match r.dir with
  | .tx => s.txEnabled r
  | .rx => s.rxEnabled r

/-- The engine of ring `r` fetches the descriptor at `CURDESC` and processes it in the same step (R381, R382, R388). -/
def State.processNext (s : State) (r : RingId) : State :=
  match s.fetch r (s.regs r).curdesc with
  | .faulted s' => s'
  | .ok w s' =>
    match r.dir with
    | .tx => s'.runTx r (s.regs r).curdesc w
    | .rx => s'.runRx r (s.regs r).curdesc w

/-- `E_TX_DESC q` (R381). -/
def execETxDesc (q : Nat) (s : State) : Res :=
  withRing .tx q s fun r => if s.txEnabled r then .next (s.processNext r) else .next s

/-- `E_RX_DESC q` (R388). -/
def execERxDesc (q : Nat) (s : State) : Res :=
  withRing .rx q s fun r => if s.rxEnabled r then .next (s.processNext r) else .next s

/-! ### The other steps -/

/-- `E_DELAY_TIMEOUT` is enabled (R391). -/
def delayEnabled (x : RingRegs) : Bool := x.dlyArmed && x.run && !x.resetBusy

/-- `E_DELAY_TIMEOUT r` (R391). -/
def execEDelayTimeout (dir : Dir) (q : Nat) (s : State) : Res :=
  withRing dir q s fun r =>
    if delayEnabled (s.regs r) then .next ((s.setRegs r (delayTimeoutRegs (s.regs r))).raise r .dly) else .next s

/-- `E_FAULT` is enabled as a step of its own (R392). -/
def faultEnabled (x : RingRegs) : Bool := x.run && !x.resetBusy

/-- `E_FAULT r, cause` (R392). -/
def execEFault (dir : Dir) (q : Nat) (cause : Cause) (s : State) : Res :=
  withRing dir q s fun r => if faultEnabled (s.regs r) then .next (s.engineFault r cause) else .next s

/-- What a finished reset empties besides the ring's registers (R393). -/
def State.resetEngine (s : State) (r : RingId) : State :=
  match r.dir with
  | .tx => s.setTxe r.q ⟨asmInactive, []⟩
  | .rx => s.setRxe r.q { s.rxe r.q with rem := none }

/-- `E_RESET_DONE` is enabled (R393). -/
def resetDoneEnabled (x : RingRegs) : Bool := x.resetBusy && x.resetCompletes

/-- `E_RESET_DONE r` (R393). -/
def execEResetDone (dir : Dir) (q : Nat) (s : State) : Res :=
  withRing dir q s fun r =>
    if resetDoneEnabled (s.regs r) then
      .next (((s.setRegs r (resetDoneRegs (s.regs r))).resetEngine r).releaseGrant r)
    else .next s

/-- `E_STOP_DONE` is enabled (R397). -/
def stopDoneEnabled (x : RingRegs) : Bool := x.stopPending && !x.resetBusy

/-- `E_STOP_DONE r` (R397). -/
def execEStopDone (dir : Dir) (q : Nat) (s : State) : Res :=
  withRing dir q s fun r =>
    if stopDoneEnabled (s.regs r) then
      .next (((s.setRegs r (stopDoneRegs (s.regs r))).dropFrame r).releaseGrant r)
    else .next s

end Sys2Proof.Machine
end

