-- ==== Sys2Proof/Machine/Desc.lean ====
section
/-! DEFINITION. Descriptors as operations: `DESCRIPTOR_SQ`, `DESCRIPTOR_MC`, the engine's instruction format (R140 to R142, log 10), and
the descriptor words (R143 to R149), each the store `D(r, i).F <- v` of R15 (R152, log 11). -/

namespace Sys2Proof.Machine

/-! ### A whole descriptor -/

/-- The descriptor as the engine fetches it: the software-only words are not fetched (R109, R382). -/
def hwWords (w : Desc) : Desc := { w with swFrame := 0, swMap := 0, swTag := 0 }

/-- The engine of ring `r` stands at the descriptor `w`: the hardware words at `CURDESC` are `w`'s (R41, R382). -/
def State.standsAt (s : State) (r : RingId) (w : Desc) : Bool :=
  decide (readDesc s.cfg.variant s.mem (s.regs r).curdesc = hwWords w)

/-- A descriptor of variant `v` is run where the engine of its ring stands at it, by the step that fetches it from `CURDESC`:
the engine writes no descriptor it has not fetched in the same step (R398). A descriptor that is not the one at `CURDESC`
is none the engine can run now, and nothing happens (DESIGN CHOICE, log 10). -/
def engineDesc (v : Variant) (dir : Dir) (q : Nat) (w : Desc) (s : State) : Res :=
  if s.cfg.variant = v then
    withRing dir q s fun r => if s.descEnabled r && s.standsAt r w then .next (s.processNext r) else .next s
  else .refused .wrongVariant

/-- The `SQ` descriptor (R141). -/
def execDescriptorSq (dir : Dir) (q : Nat) (d : Desc) (s : State) : Res := engineDesc .sq dir q d s

/-- The `MC` descriptor (R142). -/
def execDescriptorMc (dir : Dir) (q : Nat) (d : Desc) (s : State) : Res := engineDesc .mc dir q d s

/-! ### One word -/

/-- Store at a slot of a ring's pool (R15). -/
def onSlot (dir : Dir) (q : Nat) (i : Nat) (s : State) (k : RingId → Res) : Res :=
  withRing dir q s fun r =>
    if !(s.ring r).present then .refused .notAllocated
    else if i < (s.ring r).cap then k r
    else .refused .slotOutOfRange

/-- When the rules of the ring manager write into the descriptor (R152): never into a complete one that nothing has reclaimed
or re-armed yet; into a TX descriptor when it is filled; into an RX one when the ring is reset or armed, which is while it
is halted (R193, R196). -/
def State.openSlot (s : State) (r : RingId) (i : Nat) : Bool :=
  !cmpltOf (s.statusD r i) && (r.dir == .tx || halted (s.regs r))

/-- What the rules of the ring manager write (R152): in an open descriptor, `NEXT` in `RESET_RING` only, so on a halted ring and
as its chain has it (R193); `STATUS` 0 only, and so the application words of a receive ring (R196, R217). The other words
take any value. -/
def State.writable (s : State) (r : RingId) (i off : Nat) (v : Word) : Bool :=
  s.openSlot r i &&
    if off = nextOff then v == daddr (s.ring r).base (incMod (s.ring r).cap i) && halted (s.regs r)
    else if off = statusOff s.cfg.variant || (r.dir == .rx && 0x20 ≤ off && off ≤ 0x30) then v == 0
    else true

/-- `D(r, i).F <- v`: the ring manager writes a word of a descriptor, hardware word or software-only word, only on a ring whose
descriptors do not stay as they are (R37, R61, R297), only while it owns the descriptor (R62, R127), and only when and
what its rules write (R152, log 11). -/
def putWord (dir : Dir) (q : Nat) (i off : Nat) (v : Word) (s : State) : Res :=
  onSlot dir q i s fun r =>
    if (s.away r).isSome then .refused .wrongRingState
    else if s.engineOwns r i then .refused .engineOwnsDescriptor
    else if s.writable r i off v then .next ((s.putD r i off v).owe r)
    else .refused .noSuchWrite

/-- A word whose layout belongs to one variant (R143, R144). -/
def putCtrl (variant : Variant) (dir : Dir) (q : Nat) (i : Nat) (v : Word) (s : State) : Res :=
  if s.cfg.variant = variant then putWord dir q i (ctrlOff variant) v s else .refused .wrongVariant

/-- `NEXT` (R146). -/
def execDescNext (dir : Dir) (q : Nat) (i : Nat) (v : Word) (s : State) : Res := putWord dir q i nextOff v s

/-- `BUF` (R146). -/
def execDescBuf (dir : Dir) (q : Nat) (i : Nat) (v : Word) (s : State) : Res := putWord dir q i bufOff v s

/-- `CTRL` in `SQ` (R143). -/
def execDescCtrlSq (dir : Dir) (q : Nat) (i : Nat) (v : Word) (s : State) : Res := putCtrl .sq dir q i v s

/-- `CTRL` in `MC` (R144). -/
def execDescCtrlMc (dir : Dir) (q : Nat) (i : Nat) (v : Word) (s : State) : Res := putCtrl .mc dir q i v s

/-- `STATUS` (R145). -/
def execDescStatus (dir : Dir) (q : Nat) (i : Nat) (v : Word) (s : State) : Res :=
  putWord dir q i (statusOff s.cfg.variant) v s

/-- TX `APP0` (R147). -/
def execDescApp0Tx (q : Nat) (i : Nat) (v : Word) (s : State) : Res := putWord .tx q i (appOff 0) v s

/-- TX `APP1` (R147). -/
def execDescApp1Tx (q : Nat) (i : Nat) (v : Word) (s : State) : Res := putWord .tx q i (appOff 1) v s

/-- TX `APP2` (R147). -/
def execDescApp2Tx (q : Nat) (i : Nat) (v : Word) (s : State) : Res := putWord .tx q i (appOff 2) v s

/-- TX `APP3` (R147). -/
def execDescApp3Tx (q : Nat) (i : Nat) (v : Word) (s : State) : Res := putWord .tx q i (appOff 3) v s

/-- TX `APP4` (R147). -/
def execDescApp4Tx (q : Nat) (i : Nat) (v : Word) (s : State) : Res := putWord .tx q i (appOff 4) v s

/-- RX `APP0` (R148). -/
def execDescApp0Rx (q : Nat) (i : Nat) (v : Word) (s : State) : Res := putWord .rx q i (appOff 0) v s

/-- RX `APP1` (R148). -/
def execDescApp1Rx (q : Nat) (i : Nat) (v : Word) (s : State) : Res := putWord .rx q i (appOff 1) v s

/-- RX `APP2` (R148). -/
def execDescApp2Rx (q : Nat) (i : Nat) (v : Word) (s : State) : Res := putWord .rx q i (appOff 2) v s

/-- RX `APP3` (R148). -/
def execDescApp3Rx (q : Nat) (i : Nat) (v : Word) (s : State) : Res := putWord .rx q i (appOff 3) v s

/-- RX `APP4` (R148). -/
def execDescApp4Rx (q : Nat) (i : Nat) (v : Word) (s : State) : Res := putWord .rx q i (appOff 4) v s

/-- `SW_FRAME` (R149). -/
def execDescSwFrame (dir : Dir) (q : Nat) (i : Nat) (v : Word) (s : State) : Res := putWord dir q i swFrameOff v s

/-- `SW_MAP` (R149). -/
def execDescSwMap (dir : Dir) (q : Nat) (i : Nat) (v : Word) (s : State) : Res := putWord dir q i swMapOff v s

/-- `SW_TAG` (R149). -/
def execDescSwTag (dir : Dir) (q : Nat) (i : Nat) (v : Word) (s : State) : Res := putWord dir q i swTagOff v s

end Sys2Proof.Machine
end

