-- ==== Sys2Proof/Machine/Tasks.lean ====
section
/-! DEFINITION. Commands in progress (R17): the next atomic step of each kind, and resuming one of them. -/

namespace Sys2Proof.Machine

/-- The next atomic step of a command in progress. -/
def taskStep (t : Task) (s : State) : TaskRes :=
  match t with
  | .attach phase cfg => attachTask phase cfg s
  | .detach st => detachTask st s
  | .poll p => pollTask p s
  | .reclaim p => reclaimTask p s
  | .irq dir budget todo st => irqTask dir budget todo st s
  | .reconfig r st => reconfigTask r st s

/-- What a step of command `k` leaves in the list of commands in progress. -/
def putBack (k : Nat) (r : TaskRes) : Res :=
  match r with
  | .done s => .next s
  | .more t s => .next (s.setTasks (s.tasks.insertIdx k t))
  | .stop e => .refused e

/-- Command number `k` in progress takes its next step; without such a command nothing happens. -/
def resume (k : Nat) (s : State) : Res :=
  match s.tasks[k]? with
  | none => .next s
  | some t =>
    putBack k (taskStep t (s.setTasks (s.tasks.eraseIdx k)))

/-- The consumer of `POLL_RX` number `k` in progress asks for no further frame (R218): the command ends as if its budget were
what it has processed, its doorbell included. Any other command in progress goes on. -/
def abandon (k : Nat) (s : State) : Res :=
  match s.tasks[k]? with
  | some (.poll p) => .next (pollReturn p (s.setTasks (s.tasks.eraseIdx k)))
  | _ => .next s

/-! ### The environment (R18 (g)) -/

/-- A frame arrives on `rx_stream[q]` (R84): of a channel of the hardware, 1 to `MAX_FRAME` bytes long (R388, R389). The
stream side offers no other (log 28). -/
def State.receive (s : State) (q : Chan) (f : StreamFrame) : State :=
  if q.val < s.cfg.nq ∧ 1 ≤ f.bytes.length ∧ f.bytes.length ≤ s.cfg.maxFrame then
    s.setRxe q { s.rxe q with stream := (s.rxe q).stream ++ [f] }
  else s

/-- Address `a` lies in a descriptor pool. -/
def State.inPool (s : State) (a : Word) : Bool :=
  (ringsBelow 16).any fun r => (s.ring r).present && decide ((a - (s.ring r).base).toNat < 64 * (s.ring r).cap)

/-- The environment writes bytes of data buffers (R82, U18); descriptors are written by the two sides of the block only
(R152), so bytes of a pool are none it may write (log 28). -/
def State.poke (s : State) (a : Word) (bytes : List Byte) : State :=
  if (List.range bytes.length).all fun k => !s.inPool (a + BitVec.ofNat 32 k) then s.setMem (memPutBytes s.mem a bytes)
  else s

end Sys2Proof.Machine
end

