-- ==== Sys2Proof/Machine/Dispatch.lean ====
section
/-! DEFINITION. `exec`: one arm per constructor of `Instr`, each one direct call of its meaning. -/

namespace Sys2Proof.Machine

def exec (i : Instr) (s : State) : Host.Outcome State Fault Refusal :=
  match i with
  | .attach cfg => Sys2Proof.Machine.execAttach cfg s
  | .detach => Sys2Proof.Machine.execDetach s
  | .allocate dir q cap => Sys2Proof.Machine.execAllocate dir q cap s
  | .resetRing dir q => Sys2Proof.Machine.execResetRing dir q s
  | .armRx q => Sys2Proof.Machine.execArmRx q s
  | .freeRing dir q => Sys2Proof.Machine.execFreeRing dir q s
  | .submitTx q f => Sys2Proof.Machine.execSubmitTx q f s
  | .pollRx q budget => Sys2Proof.Machine.execPollRx q budget s
  | .reclaimTx q => Sys2Proof.Machine.execReclaimTx q s
  | .offloadTx q f => Sys2Proof.Machine.execOffloadTx q f s
  | .offloadRx q n => Sys2Proof.Machine.execOffloadRx q n s
  | .configureWeight c w => Sys2Proof.Machine.execConfigureWeight c w s
  | .enableChannel c dirs => Sys2Proof.Machine.execEnableChannel c dirs s
  | .disableChannel c dirs => Sys2Proof.Machine.execDisableChannel c dirs s
  | .irqService dir budget => Sys2Proof.Machine.execIrqService dir budget s
  | .recoverBegin dir q => Sys2Proof.Machine.execRecoverBegin dir q s
  | .recoverPoll dir q => Sys2Proof.Machine.execRecoverPoll dir q s
  | .recoverDrain dir q => Sys2Proof.Machine.execRecoverDrain dir q s
  | .recoverReconfig dir q => Sys2Proof.Machine.execRecoverReconfig dir q s
  | .linkNotify up => Sys2Proof.Machine.execLinkNotify up s
  | .statsSnapshot => Sys2Proof.Machine.execStatsSnapshot s
  | .regRead off => Sys2Proof.Machine.execRegRead off s
  | .regWrite off v => Sys2Proof.Machine.execRegWrite off v s
  | .eTxDesc q => Sys2Proof.Machine.execETxDesc q s
  | .eRxDesc q => Sys2Proof.Machine.execERxDesc q s
  | .eArbGrant => Sys2Proof.Machine.execEArbGrant s
  | .eDelayTimeout dir q => Sys2Proof.Machine.execEDelayTimeout dir q s
  | .eFault dir q cause => Sys2Proof.Machine.execEFault dir q cause s
  | .eResetDone dir q => Sys2Proof.Machine.execEResetDone dir q s
  | .eStopDone dir q => Sys2Proof.Machine.execEStopDone dir q s
  | .crSq dir t => Sys2Proof.Machine.execCrSq dir t s
  | .srSq dir t => Sys2Proof.Machine.execSrSq dir t s
  | .curdescSq dir t => Sys2Proof.Machine.execCurdescSq dir t s
  | .taildescSq dir t => Sys2Proof.Machine.execTaildescSq dir t s
  | .isrSq dir t => Sys2Proof.Machine.execIsrSq dir t s
  | .ierSq dir t => Sys2Proof.Machine.execIerSq dir t s
  | .icrSq dir t => Sys2Proof.Machine.execIcrSq dir t s
  | .tsfCntSq t => Sys2Proof.Machine.execTsfCntSq t s
  | .tsfTagSq t => Sys2Proof.Machine.execTsfTagSq t s
  | .tsfLoSq t => Sys2Proof.Machine.execTsfLoSq t s
  | .tsfHiSq t => Sys2Proof.Machine.execTsfHiSq t s
  | .crMc dir c t => Sys2Proof.Machine.execCrMc dir c t s
  | .srMc dir c t => Sys2Proof.Machine.execSrMc dir c t s
  | .curdescMc dir c t => Sys2Proof.Machine.execCurdescMc dir c t s
  | .taildescMc dir c t => Sys2Proof.Machine.execTaildescMc dir c t s
  | .isrMc dir c t => Sys2Proof.Machine.execIsrMc dir c t s
  | .ierMc dir c t => Sys2Proof.Machine.execIerMc dir c t s
  | .icrMc dir c t => Sys2Proof.Machine.execIcrMc dir c t s
  | .tsfCntMc c t => Sys2Proof.Machine.execTsfCntMc c t s
  | .tsfTagMc c t => Sys2Proof.Machine.execTsfTagMc c t s
  | .tsfLoMc c t => Sys2Proof.Machine.execTsfLoMc c t s
  | .tsfHiMc c t => Sys2Proof.Machine.execTsfHiMc c t s
  | .chen dir t => Sys2Proof.Machine.execChen dir t s
  | .chIer dir t => Sys2Proof.Machine.execChIer dir t s
  | .chIsr dir t => Sys2Proof.Machine.execChIsr dir t s
  | .chIcr dir t => Sys2Proof.Machine.execChIcr dir t s
  | .weight0 t => Sys2Proof.Machine.execWeight0 t s
  | .weight1 t => Sys2Proof.Machine.execWeight1 t s
  | .reservedOffset off t => Sys2Proof.Machine.execReservedOffset off t s
  | .descriptorSq dir q d => Sys2Proof.Machine.execDescriptorSq dir q d s
  | .descriptorMc dir q d => Sys2Proof.Machine.execDescriptorMc dir q d s
  | .descNext dir q n v => Sys2Proof.Machine.execDescNext dir q n v s
  | .descBuf dir q n v => Sys2Proof.Machine.execDescBuf dir q n v s
  | .descCtrlSq dir q n v => Sys2Proof.Machine.execDescCtrlSq dir q n v s
  | .descCtrlMc dir q n v => Sys2Proof.Machine.execDescCtrlMc dir q n v s
  | .descStatus dir q n v => Sys2Proof.Machine.execDescStatus dir q n v s
  | .descApp0Tx q n v => Sys2Proof.Machine.execDescApp0Tx q n v s
  | .descApp1Tx q n v => Sys2Proof.Machine.execDescApp1Tx q n v s
  | .descApp2Tx q n v => Sys2Proof.Machine.execDescApp2Tx q n v s
  | .descApp3Tx q n v => Sys2Proof.Machine.execDescApp3Tx q n v s
  | .descApp4Tx q n v => Sys2Proof.Machine.execDescApp4Tx q n v s
  | .descApp0Rx q n v => Sys2Proof.Machine.execDescApp0Rx q n v s
  | .descApp1Rx q n v => Sys2Proof.Machine.execDescApp1Rx q n v s
  | .descApp2Rx q n v => Sys2Proof.Machine.execDescApp2Rx q n v s
  | .descApp3Rx q n v => Sys2Proof.Machine.execDescApp3Rx q n v s
  | .descApp4Rx q n v => Sys2Proof.Machine.execDescApp4Rx q n v s
  | .descSwFrame dir q n v => Sys2Proof.Machine.execDescSwFrame dir q n v s
  | .descSwMap dir q n v => Sys2Proof.Machine.execDescSwMap dir q n v s
  | .descSwTag dir q n v => Sys2Proof.Machine.execDescSwTag dir q n v s

end Sys2Proof.Machine
end

