-- ==== Sys2Proof/Machine/Step.lean ====
section
/-! DEFINITION. The one step: the scheduler's next choice is taken (R17, R18, log 5). -/

namespace Sys2Proof.Machine

/-- One atomic step of the machine: start the operation that is handed over next, let a command in progress go on or be
abandoned, or let the environment act. When nothing is to be done the machine stays as it is. -/
def step (s : State) : Host.Outcome State Fault Refusal :=
  match s.sched with
  | [] => .next s
  | .start op :: rest =>
    match decode s.cfg.variant s.cfg.nq op with
    | .ok i => exec i (s.setSched rest)
    | .error e => .refused (.undecodable e)
  | .resume k :: rest => resume k (s.setSched rest)
  | .abandon k :: rest => abandon k (s.setSched rest)
  | .receive q f :: rest => .next ((s.setSched rest).receive q f)
  | .poke a bytes :: rest => .next ((s.setSched rest).poke a bytes)

/-- The operation whose table bits are `w` is handed over next (log 5). -/
def State.withFetchWord (s : State) (nbits w : Nat) : State := s.setSched (.start (tableOp nbits w) :: s.sched)

end Sys2Proof.Machine
end

