-- ==== Sys2Proof/Safety.lean ====
section
/-! DEFINITION. What a claim about the machine speaks of: one step, the legal values the spec gives the state (`10_state.md`), what a
statement lets change and what it keeps (its frame), and the register and descriptor rows as families. -/

namespace Sys2Proof.Machine

/-- `s'` is the state after one step of `s`. -/
def Steps (s s' : State) : Prop := step s = .next s'

/-- The states of a run: each function is applied to the state before it and must give a next state. -/
def follow : List (State → Res) → State → Option State
  | [], s => some s
  | f :: fs, s =>
    match f s with
    | .next t => follow fs t
    | .fault _ => none
    | .refused _ => none

/-! ### Legal states -/

/-- The registers of a ring hold values the spec allows: pointer registers with bits [5:0] 0 (R40, R41), `THRESH` not 0
(R42), `ioc_count` in 1 to 255 (R53), no stop pending while run is 1 (R332). -/
def regsLegal (x : RingRegs) : Bool :=
  x.curdesc &&& 0x3F == 0 && x.taildesc &&& 0x3F == 0 && x.thresh != 0 && decide (1 ≤ x.iocCount) &&
    decide (x.iocCount ≤ 255) && !(x.run && x.stopPending)

/-- Every ring's registers are legal, and every credit is in 0 to 15 (R57). -/
def State.RegsLegal (s : State) : Prop :=
  (∀ r : RingId, regsLegal (s.regs r) = true) ∧ ∀ c : Chan, s.credit c ≤ 15

/-- A pool as `ALLOCATE` makes it (R36, R190): 2 to 32768 descriptors, aligned, below 2^32. -/
def poolLegal (w : RingSw) : Bool :=
  decide (2 ≤ w.cap) && decide (w.cap ≤ 32768) && decide (w.base.toNat % 64 = 0) &&
    decide (w.base.toNat + 64 * w.cap ≤ 2 ^ 32)

/-- The cursors of a ring between steps: on an RX ring all three agree (R35), on a TX ring `hw_tail` is `issue` (R34); a
ring with a pool has a legal one, and its cursors lie in it (R31 to R33). -/
def cursorsLegal (d : Dir) (w : RingSw) : Bool :=
  w.hwTail == w.issue && (match d with | .tx => true | .rx => w.completion == w.issue) &&
    (!w.present || (poolLegal w && decide (w.issue < w.cap) && decide (w.completion < w.cap)))

/-- Every ring's cursors are legal. -/
def State.CursorsLegal (s : State) : Prop := ∀ r : RingId, cursorsLegal r.dir (s.ring r) = true

/-- The tag state of a TX ring: the next tag is never the invalid one (R60, R177), the map is in its canonical form. -/
def tagsLegal (g : TagState) : Bool := g.nextTag != tagInvalid && kvSorted g.tagmap

/-- Every TX ring's tag state is legal. -/
def State.TagsLegal (s : State) : Prop := ∀ q : Chan, tagsLegal (s.tags q) = true

/-- Ring `r` exists and has a legal pool with its cursors in it. -/
def State.HasPool (s : State) (r : RingId) : Prop :=
  r.q.val < s.cfg.nq ∧ (s.ring r).present = true ∧ cursorsLegal r.dir (s.ring r) = true

/-- Nothing holds ring `r` from a pool operation of its own: no `ATTACH` or `DETACH` is in progress (R18 (d)), no body is in
progress on the ring (R470), and if there is a context the ring is `Running` (R37, R297, R426). -/
def State.RingFree (s : State) (r : RingId) : Prop :=
  s.controlBusy = false ∧ s.bodyBusy r = false ∧ (s.sw.ctxPresent = true → (s.ring r).rstate = .running)

/-! ### Frames -/

/-- What a frame statement lets change; everything it does not name stays. -/
structure Touch where
  regs : RingId → Prop := fun _ => False
  rings : RingId → Prop := fun _ => False
  fences : RingId → Prop := fun _ => False
  tags : Chan → Prop := fun _ => False
  txe : Chan → Prop := fun _ => False
  rxe : Chan → Prop := fun _ => False
  weights : Chan → Prop := fun _ => False
  credits : Prop := False
  grant : Prop := False
  irq : Dir → Prop := fun _ => False
  context : Prop := False
  bytes : Word → Prop := fun _ => False
  events : Prop := False
  answers : Prop := False
  env : Prop := False
  tasks : Prop := False
  cfg : Prop := False

/-- From `s` to `t` nothing changes but what `c` names; bytes of memory are compared as they read. The list of choices
of the scheduler is not part of the claim's machine. -/
structure Keeps (c : Touch) (s t : State) : Prop where
  regs : ∀ r, ¬c.regs r → t.regs r = s.regs r
  rings : ∀ r, ¬c.rings r → t.ring r = s.ring r
  fences : ∀ r, ¬c.fences r → t.unfenced r = s.unfenced r
  tags : ∀ q, ¬c.tags q → t.tags q = s.tags q
  txe : ∀ q, ¬c.txe q → t.txe q = s.txe q
  rxe : ∀ q, ¬c.rxe q → t.rxe q = s.rxe q
  weights : ∀ q, ¬c.weights q → t.weight q = s.weight q
  credits : ¬c.credits → (∀ q, t.credit q = s.credit q) ∧ t.hw.rrPtr = s.hw.rrPtr
  grant : ¬c.grant → t.hw.grant = s.hw.grant
  irq : ∀ d, ¬c.irq d → t.irq d = s.irq d
  context : ¬c.context → t.sw.ctxPresent = s.sw.ctxPresent ∧ t.sw.linkUp = s.sw.linkUp ∧
    t.sw.txCsum = s.sw.txCsum ∧ t.sw.rxCsum = s.sw.rxCsum ∧ t.sw.tsEnabled = s.sw.tsEnabled
  bytes : ∀ a, ¬c.bytes a → memByte t.mem a = memByte s.mem a
  events : ¬c.events → t.events = s.events
  answers : ¬c.answers → t.answers = s.answers
  env : ¬c.env → t.env = s.env
  tasks : ¬c.tasks → t.tasks = s.tasks
  cfg : ¬c.cfg → t.cfg = s.cfg

/-- Address `a` is one of the `n` bytes from `b` on (addresses wrap at 2^32). -/
def within32 (a b : Word) (n : Nat) : Prop := (a - b).toNat < n

/-- Address `a` is a byte of the word at offset `off` of descriptor `i` of ring `r`. -/
def State.inWord (s : State) (r : RingId) (i off : Nat) (a : Word) : Prop := within32 a (s.slotAddr r i off) 4

/-- Address `a` is a byte of one of the words `offs` of descriptor `i` of ring `r`. -/
def State.inWords (s : State) (r : RingId) (i : Nat) (offs : List Nat) (a : Word) : Prop :=
  ∃ off ∈ offs, s.inWord r i off a

/-- The offsets of the application words. -/
def appOffs : List Nat := [0x20, 0x24, 0x28, 0x2C, 0x30]

/-- The words `SUBMIT_TX` writes in a descriptor, and `RELEASE_SLOT` with `BUF` (R210, R197). -/
def filledOffs (v : Variant) : List Nat :=
  [0x08, ctrlOff v, statusOff v, 0x20, 0x24, 0x28, 0x2C, 0x30, 0x34, 0x38, 0x3C]

/-- The words `RELEASE_SLOT` clears (R197). -/
def clearedOffs (v : Variant) : List Nat :=
  [ctrlOff v, statusOff v, 0x20, 0x24, 0x28, 0x2C, 0x30, 0x34, 0x38, 0x3C]

/-- All words of descriptor `i` that `RELEASE_SLOT` clears read 0. -/
def State.slotCleared (s : State) (r : RingId) (i : Nat) : Prop := ∀ off ∈ clearedOffs s.cfg.variant, s.getD r i off = 0

/-! ### A cause that asserts -/

/-- A ring's registers after the cause with `bit` has asserted (R395), with its `CH_ISR` bit in `MC` (R396). -/
def raised (v : Variant) (bit : BitVec 3) (x : RingRegs) : RingRegs :=
  { x with isr := x.isr ||| bit, ier := x.ier &&& ~~~bit,
           chIsr := x.chIsr || (v == .mc && x.ier &&& bit != 0) }

/-- Whether it raises the interrupt output (R396). -/
def raises (v : Variant) (bit : BitVec 3) (x : RingRegs) : Bool := (x.ier &&& bit != 0) && (v == .sq || x.chIer)

/-- One descriptor's end inside a frame, R381, R388: `CURDESC` moves along `NEXT`, the engine is idle after the tail. -/
def movedRegs (next : Word) (x : RingRegs) : RingRegs :=
  { x with curdesc := next &&& 0xFFFFFFC0, idle := x.curdesc == x.taildesc }

/-- One descriptor's end at the end of a frame, R381, R388, R394: `CURDESC` moves along `NEXT`, the engine is idle after the tail, and the count of
frames goes down by one; at 0 it restarts and `IOC` asserts. -/
def doneRegs (v : Variant) (next : Word) (x : RingRegs) : RingRegs :=
  let y := movedRegs next x
  if x.iocCount = 1 then raised v 1 { y with iocCount := x.thresh.toNat, dlyArmed := false }
  else { y with iocCount := x.iocCount - 1, dlyArmed := x.dlyArmed || x.delay != 0 }

/-! ### Rows as families -/

/-- The ids of R165 and R166. -/
def listedIds : List Nat :=
  [0x01, 0x02, 0x03, 0x04, 0x05, 0x06, 0x10, 0x11, 0x12, 0x18, 0x19, 0x20, 0x21, 0x22, 0x30, 0x31, 0x32, 0x33, 0x34,
   0x40, 0x41, 0x50, 0x51, 0x80, 0x81, 0x82, 0x83, 0x84, 0x85, 0x86]

/-- A register row of ring `r` belongs to the machine: in `SQ` ring 0, in `MC` an existing channel (R156, R157). -/
def State.hasBlock (s : State) (r : RingId) : Prop :=
  match s.cfg.variant with
  | .sq => r.q = 0
  | .mc => r.q.val < s.cfg.nq

/-- The row of a register both rings of a queue have. -/
def ringRow (v : Variant) (r : RingId) (sq : Dir → Trans → Instr) (mc : Dir → Nat → Trans → Instr) (t : Trans) : Instr :=
  match v with
  | .sq => sq r.dir t
  | .mc => mc r.dir r.q.val t

/-- The row of a register only TX rings have. -/
def txRow (v : Variant) (q : Chan) (sq : Trans → Instr) (mc : Nat → Trans → Instr) (t : Trans) : Instr :=
  match v with
  | .sq => sq t
  | .mc => mc q.val t

/-- The engine's step on the descriptor it fetches, `E_TX_DESC` or `E_RX_DESC`. -/
def engineRow (r : RingId) : Instr :=
  match r.dir with
  | .tx => .eTxDesc r.q.val
  | .rx => .eRxDesc r.q.val

/-- The row of a whole descriptor. -/
def descriptorRow (v : Variant) (r : RingId) (w : Desc) : Instr :=
  match v with
  | .sq => .descriptorSq r.dir r.q.val w
  | .mc => .descriptorMc r.dir r.q.val w

/-- The rows that store a hardware word of descriptor `i` of ring `r`, each with the offset of its word (R141, R142). -/
def hwWordRows (v : Variant) (r : RingId) (i : Nat) (w : Word) : List (Instr × Nat) :=
  [(.descNext r.dir r.q.val i w, 0x00), (.descBuf r.dir r.q.val i w, 0x08), (.descStatus r.dir r.q.val i w, statusOff v),
   (match v with
    | .sq => (.descCtrlSq r.dir r.q.val i w, 0x18)
    | .mc => (.descCtrlMc r.dir r.q.val i w, 0x14))] ++
  (match r.dir with
   | .tx => [(.descApp0Tx r.q.val i w, 0x20), (.descApp1Tx r.q.val i w, 0x24), (.descApp2Tx r.q.val i w, 0x28),
             (.descApp3Tx r.q.val i w, 0x2C), (.descApp4Tx r.q.val i w, 0x30)]
   | .rx => [(.descApp0Rx r.q.val i w, 0x20), (.descApp1Rx r.q.val i w, 0x24), (.descApp2Rx r.q.val i w, 0x28),
             (.descApp3Rx r.q.val i w, 0x2C), (.descApp4Rx r.q.val i w, 0x30)])

/-- The rows that store a software-only word (R149). -/
def swWordRows (r : RingId) (i : Nat) (w : Word) : List (Instr × Nat) :=
  [(.descSwFrame r.dir r.q.val i w, 0x34), (.descSwMap r.dir r.q.val i w, 0x38), (.descSwTag r.dir r.q.val i w, 0x3C)]

/-- The engine steps (R166), and the rows of whole descriptors, which are the engine's step on that descriptor (log 10). -/
def isEngineStep : Instr → Bool
  | .eTxDesc _ => true
  | .eRxDesc _ => true
  | .eArbGrant => true
  | .eDelayTimeout _ _ => true
  | .eFault _ _ _ => true
  | .eResetDone _ _ => true
  | .eStopDone _ _ => true
  | .descriptorSq _ _ _ => true
  | .descriptorMc _ _ _ => true
  | _ => false

/-- The ring a command or engine step on one ring is given (R165, R166); none for the operations of no single ring. -/
def opRing : Instr → Option (Dir × Nat)
  | .allocate d q _ => some (d, q)
  | .resetRing d q => some (d, q)
  | .armRx q => some (.rx, q)
  | .freeRing d q => some (d, q)
  | .submitTx q _ => some (.tx, q)
  | .pollRx q _ => some (.rx, q)
  | .reclaimTx q => some (.tx, q)
  | .recoverBegin d q => some (d, q)
  | .recoverPoll d q => some (d, q)
  | .recoverDrain d q => some (d, q)
  | .recoverReconfig d q => some (d, q)
  | .eTxDesc q => some (.tx, q)
  | .eRxDesc q => some (.rx, q)
  | .eDelayTimeout d q => some (d, q)
  | .eFault d q _ => some (d, q)
  | .eResetDone d q => some (d, q)
  | .eStopDone d q => some (d, q)
  | .descriptorSq d q _ => some (d, q)
  | .descriptorMc d q _ => some (d, q)
  | _ => none

/-! ### Frames and rounds -/

/-- `VALID_FRAME(F, N)` in the words of R211. -/
def FrameOk (f : Frame) (n maxFrame : Nat) : Prop :=
  1 ≤ f.frags.length ∧ (∀ g ∈ f.frags, 1 ≤ g.len) ∧ 1 ≤ (f.frags.map Frag.len).sum ∧
    (f.frags.map Frag.len).sum ≤ maxFrame ∧ f.frags.length ≤ n - 1 ∧ f.handle ≠ 0

/-- The grants `E_ARB_GRANT` gives in `n` steps, each released before the next, and the state after them. -/
def grantRun : Nat → State → List Chan × State
  | 0, s => ([], s)
  | n + 1, s =>
    match exec .eArbGrant s with
    | .next t =>
      match t.hw.grant with
      | some c => (c :: (grantRun n (t.setGrant none)).1, (grantRun n (t.setGrant none)).2)
      | none => ([], s)
    | .fault _ => ([], s)
    | .refused _ => ([], s)

end Sys2Proof.Machine
end

