-- ==== Sys2Proof/Certificates/Slice0/Obligations.lean ====
section
/-! DEFINITION. The statements for the provers. Where a statement rests on the model's own choice its docstring names the log entry. -/

open Sys2Proof Sys2Proof.Machine

/-! ### Encoding and the step -/

/-- R140 to R166: every operation's encoding decodes to it, with every operand at every value the encoding admits. The
bytes of the operands are the model's (log 8). -/
def Obligations.DecodeEncode : Prop :=
  ∀ (v : Variant) (nq : Nat) (i : Instr), i.wf v nq = true → decode v nq (encode i) = .ok i

/-- Words written out from the encodings: V30-1, V30-5, V30-6, and one descriptor of each layout, `SQ` (R141) and `MC` (R142),
as V30-3 has its words; the operand bytes beside them are the model's (log 8). Two words that are refused: a reserved bit
set (R150), `SW_MAP` 3 (R149, U8). Last the numbers of the results and subcodes (R450). -/
def Obligations.DecodedWords : Prop :=
  decode .sq 1 ⟨.command, [0x86, 0, 0]⟩ = .ok (.eStopDone .tx 0) ∧
  decode .sq 1 ⟨.command, [0x11, 0, 8, 0, 0, 0]⟩ = .ok (.pollRx 0 8) ∧
  decode .sq 1 ⟨.register, [0x50, 0x00, 1, 0x40, 0, 0, 0x10]⟩ = .ok (.taildescSq .rx (.write 0x10000040)) ∧
  decode .mc 4 ⟨.register, [0x10, 0x09, 0]⟩ = .ok (.taildescMc .rx 3 .read) ∧
  decode .mc 2 ⟨.register, [0x10, 0x00, 0]⟩ = .ok (.weight0 .read) ∧
  decode .mc 2 ⟨.register, [0xC0, 0x00, 0]⟩ = .ok (.reservedOffset 0x0C0 .read) ∧
  decode .sq 1 ⟨.descWord, [0x3C, 0, 0, 0x0C, 2, 0, 0, 3, 0]⟩ = .ok (.descCtrlSq .tx 0 3 0x0C00003C) ∧
  decode .sq 1 ⟨.descWord, [0x3C, 0, 0, 0x1C, 2, 0, 0, 3, 0]⟩ = .error .reservedBits ∧
  decode .sq 1 ⟨.descWord, [2, 0, 0, 0, 16, 0, 0, 3, 0]⟩ = .ok (.descSwMap .tx 0 3 2) ∧
  decode .sq 1 ⟨.descWord, [3, 0, 0, 0, 16, 0, 0, 3, 0]⟩ = .error .reservedBits ∧
  decode .sq 1 ⟨.descriptor,
      [0x40, 0, 0, 0x10, 0, 0, 0, 0, 0, 0, 0, 0x20, 0, 0, 0, 0] ++ [0, 0, 0, 0, 0, 0, 0, 0, 0x3C, 0, 0, 0x0C, 0, 0, 0, 0] ++
      [2, 0, 0, 0, 0x32, 0, 0x22, 0, 3, 0, 0, 0, 0, 0, 0, 0] ++ [5, 0, 0, 0x80, 9, 0, 0, 0, 1, 0, 0, 0, 5, 0, 0, 0x80] ++
      [0, 0]⟩ =
    .ok (.descriptorSq .tx 0
      ⟨0x10000040, 0x20000000, 0x0C00003C, 0, ⟨2, 0x00220032, 3, 0, 0x80000005⟩, 9, 1, 0x80000005⟩) ∧
  decode .mc 2 ⟨.descriptor,
      [0x40, 0, 0, 0x10, 0, 0, 0, 0, 0, 0, 0, 0x20, 0, 0, 0, 0] ++ [0, 0, 0, 0, 0x3C, 0, 0, 0xC0, 0x40, 0, 0, 0x80, 0, 0, 0, 0] ++
      [2, 0, 0, 0, 0x32, 0, 0x22, 0, 3, 0, 0, 0, 0, 0, 0, 0] ++ [5, 0, 0, 0x80, 9, 0, 0, 0, 1, 0, 0, 0, 5, 0, 0, 0x80] ++
      [1, 1]⟩ =
    .ok (.descriptorMc .rx 1
      ⟨0x10000040, 0x20000000, 0xC000003C, 0x80000040, ⟨2, 0x00220032, 3, 0, 0x80000005⟩, 9, 1, 0x80000005⟩) ∧
  [ResultCode.ok, .ringFull, .descriptorError, .dmaFault, .resetTimeout, .configError, .outOfMemory, .invalidConfiguration,
    .notReady, .fatal, .invalidFrame].map ResultCode.number = [0, 1, 2, 3, 4, 5, 6, 7, 8, 9, 10] ∧
  [SubCode.queueCount, .alignment, .size, .weight, .memory].map (fun e => Result.numbers (.configError e)) =
    [(5, some 1), (5, some 2), (5, some 3), (5, some 4), (5, some 5)]

/-- R348: the reserved offsets are the listed ones; a read there answers 0, a write does nothing, by the row and by the
commands. -/
def Obligations.ReservedOffsets : Prop :=
  ∀ (s : State) (off : Nat), offWf off = true →
    (decodeOff s.cfg.variant s.cfg.nq off = .reserved ↔ reservedOff s.cfg.variant s.cfg.nq off = true) ∧
    (reservedOff s.cfg.variant s.cfg.nq off = true →
      exec (.reservedOffset off .read) s = .next (s.answer 0x50 (.okValue 0)) ∧
      exec (.regRead off) s = .next (s.answer 0x50 (.okValue 0)) ∧
      ∀ v, exec (.reservedOffset off (.write v)) s = .next s ∧ exec (.regWrite off v) s = .next s)

/-- R178: an id not listed is no operation, whatever follows it; the machine has no transition for it. -/
def Obligations.UnknownIds : Prop :=
  ∀ (s : State) (n : Nat) (bytes : List Byte) (rest : List Sched), n < 256 → n ∉ listedIds →
    decode s.cfg.variant s.cfg.nq ⟨.command, BitVec.ofNat 8 n :: bytes⟩ = .error (.unknownId n) ∧
    (s.sched = .start ⟨.command, BitVec.ofNat 8 n :: bytes⟩ :: rest →
      step s = .refused (.undecodable (.unknownId n)))

/-- A step runs the operation that is handed over and decoded, with nothing around it but its leaving the scheduler's list; it
may instead let a command in progress take its next atomic step (R17; the list and the commands in progress are the
model's, log 5, log 6) or be abandoned (R218), or let the environment act (R18 (g), R84; log 28): a frame of 1 to `MAX_FRAME`
bytes arrives on a channel of the hardware, or bytes outside every pool are written; nothing else moves then. -/
def Obligations.StepRunsDecoded : Prop :=
  (∀ (s : State) (op : RawOp) (rest : List Sched) (i : Instr), s.sched = .start op :: rest →
     decode s.cfg.variant s.cfg.nq op = .ok i →
       i.wf s.cfg.variant s.cfg.nq = true ∧ step s = exec i (s.setSched rest)) ∧
  ((∀ (s : State) (k : Nat) (rest : List Sched), s.sched = .resume k :: rest → step s = resume k (s.setSched rest)) ∧
   (∀ (s : State) (k : Nat) (rest : List Sched), s.sched = .abandon k :: rest → step s = abandon k (s.setSched rest)) ∧
   (∀ s : State, s.sched = [] → step s = .next s) ∧
   (∀ (s : State) (k : Nat) (t : Task), s.tasks[k]? = some t →
     resume k s = putBack k (taskStep t (s.setTasks (s.tasks.eraseIdx k))))) ∧
  ((∀ (s : State) (q : Chan) (f : StreamFrame) (rest : List Sched), s.sched = .receive q f :: rest →
     let offered := q.val < s.cfg.nq ∧ 1 ≤ f.bytes.length ∧ f.bytes.length ≤ s.cfg.maxFrame
     ∃ t, step s = .next t ∧ t.sched = rest ∧
       t.rxe q = (if offered then { s.rxe q with stream := (s.rxe q).stream ++ [f] } else s.rxe q) ∧
       Keeps { rxe := (· = q) } s t) ∧
   (∀ (s : State) (a : Word) (bytes : List Byte) (rest : List Sched), s.sched = .poke a bytes :: rest →
     bytes.length ≤ 2 ^ 32 →
     let inPool := ∃ (k : Nat) (r : RingId), k < bytes.length ∧ (s.ring r).present = true ∧
       within32 (a + BitVec.ofNat 32 k) (s.ring r).base (64 * (s.ring r).cap)
     ∃ t, step s = .next t ∧ t.sched = rest ∧
       (inPool → ∀ b, memByte t.mem b = memByte s.mem b) ∧
       (¬inPool → ∀ k, k < bytes.length → some (memByte t.mem (a + BitVec.ofNat 32 k)) = bytes[k]?) ∧
       Keeps { bytes := fun b => within32 b a bytes.length } s t))

/-! ### Invariants and rules of the whole machine -/

/-- Every step keeps memory in its canonical form. (The form is the model's: log 3.) -/
def Obligations.MemoryKept : Prop :=
  ∀ s t : State, Memory.wf s.mem = true → Steps s t → Memory.wf t.mem = true

/-- Every step keeps the registers legal: R40, R41, R42, R53, R57, R332. -/
def Obligations.RegsKept : Prop := ∀ s t : State, s.RegsLegal → Steps s t → t.RegsLegal

/-- Every step keeps the cursors and the tag state of every ring legal: R31 to R36, R60, R177, R314. -/
def Obligations.RingsKept : Prop :=
  (∀ s t : State, s.CursorsLegal → Steps s t → t.CursorsLegal) ∧ ∀ s t : State, s.TagsLegal → Steps s t → t.TagsLegal

/-- The four invariants hold after power-on of either variant, whatever the number of channels (R80, R500; the values of the
absent ring manager are log 2's), and so at the reset state, which is the power-on of an `SQ` machine (log 1). -/
def Obligations.ResetLegal : Prop :=
  (∀ (v : Variant) (nq : Nat),
    let s := State.powerOn v nq
    Memory.wf s.mem = true ∧ s.RegsLegal ∧ s.CursorsLegal ∧ s.TagsLegal) ∧
  Memory.wf State.reset.mem = true ∧ State.reset.RegsLegal ∧ State.reset.CursorsLegal ∧ State.reset.TagsLegal

/-- R80, R502: the hardware after power-on, of both variants, and one ring after `E_RESET_DONE` (R393), which changes no
memory, no weight, no credit, no interrupt output and nothing of another ring. -/
def Obligations.ResetValues : Prop :=
  (∀ (v : Variant) (nq : Nat) (r : RingId),
    let s := State.powerOn v nq
    let x := s.regs r
    x.run = false ∧ x.resetBusy = false ∧ x.thresh = 1 ∧ x.delay = 0 ∧ x.errInt = false ∧ x.errSlv = false ∧
    x.errDec = false ∧ srWord x = 1 ∧ crWord x = 0x00010000 ∧ x.curdesc = 0 ∧ x.taildesc = 0 ∧ x.isr = 0 ∧ x.ier = 0 ∧
    x.tailValid = false ∧ x.idle = false ∧ x.stopPending = false ∧ x.iocCount = 1 ∧ x.dlyArmed = false ∧
    x.chIer = false ∧ x.chIsr = false ∧ (s.txe r.q).asm = asmInactive ∧ (s.txe r.q).tsf = [] ∧ (s.rxe r.q).rem = none ∧
    s.weight r.q = (if r.q.val < nq then 1 else 0) ∧ s.credit r.q = 0 ∧ s.hw.rrPtr = 0 ∧ s.hw.grant = none ∧
    s.irq r.dir = false ∧ s.sw.ctxPresent = false) ∧
  (∀ (s : State) (r : RingId), r.q.val < s.cfg.nq → (s.regs r).resetBusy = true → (s.regs r).resetCompletes = true →
    ∃ t, exec (.eResetDone r.dir r.q.val) s = .next t ∧
      t.regs r = { RingRegs.reset with resetCompletes := true } ∧
      (r.dir = .tx → t.txe r.q = ⟨asmInactive, []⟩) ∧
      (r.dir = .rx → (t.rxe r.q).rem = none ∧ (t.rxe r.q).stream = (s.rxe r.q).stream) ∧
      t.hw.grant = (if s.cfg.variant = .mc ∧ r.dir = .tx ∧ s.hw.grant = some r.q then none else s.hw.grant) ∧
      Keeps { regs := (· = r), txe := fun q => r = ⟨.tx, q⟩, rxe := fun q => r = ⟨.rx, q⟩, grant := True } s t)

/-- R37, R290: a step changes the state of a ring only by one of the listed transitions: `DETACH`, `RECOVER_BEGIN`,
`RECOVER_POLL`, `RECOVER_DRAIN`, the last step of `RECOVER_RECONFIG` from `Reconfiguring`, and phase 6 of an `ATTACH`, which
runs only without a context. (The end of `DETACH` leaves no ring state, R81; the model's value there is log 2's.) -/
def Obligations.RStateMoves : Prop :=
  ∀ (s t : State) (r : RingId), Steps s t → (t.ring r).rstate ≠ (s.ring r).rstate →
    (∃ op rest i, s.sched = .start op :: rest ∧ decode s.cfg.variant s.cfg.nq op = .ok i ∧
      ((i = .detach ∧ inRecovery (s.ring r).rstate = false ∧ (t.ring r).rstate = .fatal) ∨
       (i = .recoverBegin r.dir r.q.val ∧ (s.ring r).rstate = .running ∧ (t.ring r).rstate = .halting) ∨
       (i = .recoverPoll r.dir r.q.val ∧ (s.ring r).rstate = .halting ∧
          ((t.ring r).rstate = .halted ∨ (t.ring r).rstate = .fatal)) ∨
       (i = .recoverDrain r.dir r.q.val ∧ (s.ring r).rstate = .halted ∧ (t.ring r).rstate = .reconfiguring))) ∨
    (∃ k rest, s.sched = .resume k :: rest ∧
      ((s.tasks[k]? = some (.reconfig r .enable) ∧ (s.ring r).rstate = .reconfiguring ∧ (t.ring r).rstate = .running) ∨
       ((∃ cfg, s.tasks[k]? = some (.attach .present cfg)) ∧ s.sw.ctxPresent = false ∧ t.sw.ctxPresent = true ∧
          (t.ring r).rstate = .running) ∨
       ((∃ n, s.tasks[k]? = some (.detach (.poll [] n))) ∧ t.sw.ctxPresent = false ∧ (t.ring r).rstate = .fatal)))

/-- R398: no engine step changes anything of the ring manager, a weight, the configuration or an answer; none but the end of
a reset changes `TAILDESC`, `THRESH` or `DELAY`. In memory it writes no byte but, in the descriptor at `CURDESC`, `STATUS`
and on receive the application words, and on receive bytes of the buffer that descriptor names: never `NEXT`, `BUF`, `CTRL`
or a software-only word as such. The rows of whole descriptors are engine steps too (log 10). -/
def Obligations.EngineLeavesSoftware : Prop :=
  ∀ (i : Instr) (s t : State), isEngineStep i = true → exec i s = .next t →
    t.sw = s.sw ∧ t.hw.weight = s.hw.weight ∧ t.cfg = s.cfg ∧ t.answers = s.answers ∧ t.tasks = s.tasks ∧
    ((∀ d q, i ≠ .eResetDone d q) → ∀ r, (t.regs r).taildesc = (s.regs r).taildesc ∧
      (t.regs r).thresh = (s.regs r).thresh ∧ (t.regs r).delay = (s.regs r).delay) ∧
    (∀ a, memByte t.mem a ≠ memByte s.mem a →
      ∃ r : RingId, (i = engineRow r ∨
          ∃ w, i = descriptorRow s.cfg.variant r w) ∧
        let d := (s.regs r).curdesc
        let w := readDesc s.cfg.variant s.mem d
        within32 a (d + BitVec.ofNat 32 (statusOff s.cfg.variant)) 4 ∨
        (r.dir = .rx ∧ (within32 a (d + 0x20) 20 ∨ within32 a w.buf (lenOf w.ctrl))))

/-- R246, R295: an operation on one ring changes nothing of another ring, no weight and no credit; it gives up the grant
only if its ring holds it, and raises no output of the other direction. A command on a ring with a pool, other than
`ALLOCATE`, writes no byte outside that pool, so none of another ring's. (Where an engine step writes is
`EngineLeavesSoftware`.) -/
def Obligations.RingIsolation : Prop :=
  ∀ (i : Instr) (s t : State) (d : Dir) (q : Nat), opRing i = some (d, q) → exec i s = .next t →
    (∀ r : RingId, ¬(r.dir = d ∧ r.q.val = q) → t.regs r = s.regs r ∧ t.ring r = s.ring r) ∧
    (∀ c : Chan, ¬(d = .tx ∧ c.val = q) → t.txe c = s.txe c ∧ t.tags c = s.tags c) ∧
    (∀ c : Chan, ¬(d = .rx ∧ c.val = q) → t.rxe c = s.rxe c) ∧
    (∀ c : Chan, t.weight c = s.weight c ∧ t.credit c = s.credit c) ∧ t.hw.rrPtr = s.hw.rrPtr ∧
    (t.hw.grant = s.hw.grant ∨ (t.hw.grant = none ∧ d = .tx ∧ ∃ c : Chan, s.hw.grant = some c ∧ c.val = q)) ∧
    (∀ d', d' ≠ d → t.irq d' = s.irq d') ∧ t.cfg = s.cfg ∧ t.sw.ctxPresent = s.sw.ctxPresent ∧ t.sw.linkUp = s.sw.linkUp ∧
    (isEngineStep i = false → (∀ n, i ≠ .allocate d q n) →
      ∀ (r : RingId) (a : Word), r.dir = d → r.q.val = q → s.HasPool r →
        ¬within32 a (s.ring r).base (64 * (s.ring r).cap) → memByte t.mem a = memByte s.mem a)

/-- R380, R391 to R393, R397, R250, R255: an engine step that is not enabled changes nothing (log 7: such a step completes). -/
def Obligations.NotEnabledDoesNothing : Prop :=
  ∀ (s : State) (r : RingId) (w : Desc), r.q.val < s.cfg.nq →
    (r.dir = .tx → s.txEnabled r = false → exec (.eTxDesc r.q.val) s = .next s) ∧
    (r.dir = .rx → s.rxEnabled r = false → exec (.eRxDesc r.q.val) s = .next s) ∧
    (s.descEnabled r = false → exec (descriptorRow s.cfg.variant r w) s = .next s) ∧
    (¬((s.regs r).dlyArmed = true ∧ (s.regs r).run = true ∧ (s.regs r).resetBusy = false) →
      exec (.eDelayTimeout r.dir r.q.val) s = .next s) ∧
    (∀ cause, ¬((s.regs r).run = true ∧ (s.regs r).resetBusy = false) → exec (.eFault r.dir r.q.val cause) s = .next s) ∧
    (¬((s.regs r).resetBusy = true ∧ (s.regs r).resetCompletes = true) →
      exec (.eResetDone r.dir r.q.val) s = .next s) ∧
    (¬((s.regs r).stopPending = true ∧ (s.regs r).resetBusy = false) → exec (.eStopDone r.dir r.q.val) s = .next s) ∧
    (s.cfg.variant = .sq ∨ s.hw.grant ≠ none ∨ (∀ c, s.eligible c = true → s.weight c = 0) →
      exec .eArbGrant s = .next s)

/-! ### Registers -/

/-- R330: `REG_READ` and `REG_WRITE` are the transaction of the register their offset decodes to (R161), whatever else is in
progress: any context may issue one. A read always answers, a write is refused only as an unordered doorbell (log 12). -/
def Obligations.RegCommands : Prop :=
  ∀ (s : State) (off : Nat) (v : Word), offWf off = true →
    let g := decodeOff s.cfg.variant s.cfg.nq off
    exec (.regRead off) s = exec (regInstr s.cfg.variant off .read g) s ∧
    exec (.regWrite off v) s = exec (regInstr s.cfg.variant off (.write v) g) s ∧
    (∃ t, exec (.regRead off) s = .next t ∧ t.answers = s.answers ++ [⟨0x50, .okValue (s.regValue g)⟩]) ∧
    ((∀ r, g = .taildesc r → s.bellUnordered r = false) → ∃ t, exec (.regWrite off v) s = .next t)

/-- R331, R332: `CR`. A read returns run, `RESET`, `THRESH` and `DELAY`. A write is ignored while a reset is busy; with bit
2 it starts a reset whose end is drawn (R85) and takes nothing else; without it `THRESH` 0 is not stored, the count
restarts, and in `SQ` bit 0 starts or stops the ring. R333: `SR` is read-only. -/
def Obligations.ControlAndStatus : Prop :=
  (∀ (s : State) (r : RingId) (v : Word), s.hasBlock r →
     let x := s.regs r
     (∃ w : Word, exec (ringRow s.cfg.variant r .crSq .crMc .read) s = .next (s.answer 0x50 (.okValue w)) ∧
       w.getLsbD 0 = x.run ∧ w.getLsbD 2 = x.resetBusy ∧ w.extractLsb' 16 8 = x.thresh ∧
       w.extractLsb' 24 8 = x.delay ∧ w &&& 0x0000FFFA = 0) ∧
     (x.resetBusy = true → exec (ringRow s.cfg.variant r .crSq .crMc (.write v)) s = .next s) ∧
     (x.resetBusy = false → v.getLsbD 2 = true →
       ∃ t b, exec (ringRow s.cfg.variant r .crSq .crMc (.write v)) s = .next t ∧
         t.regs r = { x with resetBusy := true, resetCompletes := b } ∧
         (∀ b' bs, s.env.resetCompletes = b' :: bs → b = b' ∧ t.env.resetCompletes = bs) ∧
         t.hw.grant = (if s.cfg.variant = .mc ∧ r.dir = .tx ∧ s.hw.grant = some r.q then none else s.hw.grant) ∧
         Keeps { regs := (· = r), grant := True, env := True } s t) ∧
     (x.resetBusy = false → v.getLsbD 2 = false →
       let th := if v.extractLsb' 16 8 = 0 then x.thresh else v.extractLsb' 16 8
       let sq := s.cfg.variant = .sq ∧ x.stopPending = false
       ∃ t, exec (ringRow s.cfg.variant r .crSq .crMc (.write v)) s = .next t ∧
         t.regs r = { x with
           thresh := th, delay := v.extractLsb' 24 8, iocCount := th.toNat,
           dlyArmed := if v.extractLsb' 24 8 = 0 then false else x.dlyArmed,
           run := if sq then v.getLsbD 0 else x.run,
           stopPending := if sq ∧ v.getLsbD 0 = false ∧ x.run = true then true else x.stopPending,
           tailValid := if sq ∧ v.getLsbD 0 = true ∧ x.run = false then false else x.tailValid,
           idle := if sq ∧ v.getLsbD 0 = true ∧ x.run = false then false else x.idle } ∧
         Keeps { regs := (· = r) } s t)) ∧
  (∀ (s : State) (r : RingId) (v : Word), s.hasBlock r →
     let x := s.regs r
     (∃ w : Word, exec (ringRow s.cfg.variant r .srSq .srMc .read) s = .next (s.answer 0x50 (.okValue w)) ∧
       w.getLsbD 0 = (!x.run && !x.stopPending && !x.resetBusy) ∧ w.getLsbD 1 = (x.run && x.tailValid && x.idle) ∧
       w.getLsbD 4 = x.errInt ∧ w.getLsbD 5 = x.errSlv ∧ w.getLsbD 6 = x.errDec ∧ w &&& 0xFFFFFF8C = 0) ∧
     exec (ringRow s.cfg.variant r .srSq .srMc (.write v)) s = .next s)

/-- R334, R335: `CURDESC` is written only while the ring is halted; `TAILDESC` is the doorbell, which rings on a running
ring; both drop bits [5:0]. A doorbell that would ring before the descriptor writes are ordered is refused (U19). -/
def Obligations.PointerAccess : Prop :=
  ∀ (s : State) (r : RingId) (v : Word), s.hasBlock r →
    let x := s.regs r
    let a := v &&& 0xFFFFFFC0
    exec (ringRow s.cfg.variant r .curdescSq .curdescMc .read) s = .next (s.answer 0x50 (.okValue x.curdesc)) ∧
    exec (ringRow s.cfg.variant r .taildescSq .taildescMc .read) s = .next (s.answer 0x50 (.okValue x.taildesc)) ∧
    (∃ t, exec (ringRow s.cfg.variant r .curdescSq .curdescMc (.write v)) s = .next t ∧
      t.regs r = (if x.run = false ∧ x.stopPending = false ∧ x.resetBusy = false then { x with curdesc := a } else x) ∧
      Keeps { regs := (· = r) } s t) ∧
    (let ringing := x.run = true ∧ x.stopPending = false ∧ x.resetBusy = false
     (ringing → s.unfenced r = true →
       exec (ringRow s.cfg.variant r .taildescSq .taildescMc (.write v)) s = .refused .doorbellUnordered) ∧
     (¬(ringing ∧ s.unfenced r = true) →
       ∃ t, exec (ringRow s.cfg.variant r .taildescSq .taildescMc (.write v)) s = .next t ∧
         t.regs r = (if x.resetBusy = true then x
                     else if ringing then { x with taildesc := a, tailValid := true, idle := false }
                     else { x with taildesc := a }) ∧
         Keeps { regs := (· = r) } s t))

/-- R336, R337, R338: `ISR` is read-only. `IER` written: the three bits are stored, those whose cause is asserted are cleared
again, recorded in `CH_ISR` in `MC`, and delivered. `ICR` reads 0 and clears the bits written 1. -/
def Obligations.InterruptRegisters : Prop :=
  ∀ (s : State) (r : RingId) (v : Word), s.hasBlock r →
    let x := s.regs r
    let e : BitVec 3 := v.extractLsb' 0 3
    exec (ringRow s.cfg.variant r .isrSq .isrMc .read) s = .next (s.answer 0x50 (.okValue (x.isr.setWidth 32))) ∧
    exec (ringRow s.cfg.variant r .isrSq .isrMc (.write v)) s = .next s ∧
    exec (ringRow s.cfg.variant r .ierSq .ierMc .read) s = .next (s.answer 0x50 (.okValue (x.ier.setWidth 32))) ∧
    exec (ringRow s.cfg.variant r .icrSq .icrMc .read) s = .next (s.answer 0x50 (.okValue 0)) ∧
    (∃ t, exec (ringRow s.cfg.variant r .ierSq .ierMc (.write v)) s = .next t ∧
      t.regs r = (if x.resetBusy = true then x
        else { x with ier := e &&& ~~~x.isr, chIsr := x.chIsr || (s.cfg.variant == .mc && e &&& x.isr != 0) }) ∧
      t.irq r.dir = (s.irq r.dir ||
        (!x.resetBusy && (e &&& x.isr != 0) && (s.cfg.variant == .sq || x.chIer))) ∧
      Keeps { regs := (· = r), irq := (· = r.dir) } s t) ∧
    (∃ t, exec (ringRow s.cfg.variant r .icrSq .icrMc (.write v)) s = .next t ∧
      t.regs r = (if x.resetBusy = true then x else { x with isr := x.isr &&& ~~~e }) ∧
      Keeps { regs := (· = r) } s t)

/-- R339 to R342: the timestamp FIFO's registers. Only the read of `TSF_HI` changes anything: it removes the head entry. -/
def Obligations.TsfRegisters : Prop :=
  ∀ (s : State) (q : Chan) (v : Word), s.hasBlock ⟨.tx, q⟩ →
    let f := (s.txe q).tsf
    exec (txRow s.cfg.variant q .tsfCntSq .tsfCntMc .read) s = .next (s.answer 0x50 (.okValue (BitVec.ofNat 32 f.length))) ∧
    exec (txRow s.cfg.variant q .tsfTagSq .tsfTagMc .read) s =
      .next (s.answer 0x50 (.okValue (match f with | [] => 0x0000FFFF | e :: _ => e.tag.setWidth 32))) ∧
    exec (txRow s.cfg.variant q .tsfLoSq .tsfLoMc .read) s =
      .next (s.answer 0x50 (.okValue (match f with | [] => 0 | e :: _ => e.ts.extractLsb' 0 32))) ∧
    (∃ t, exec (txRow s.cfg.variant q .tsfHiSq .tsfHiMc .read) s = .next t ∧
      t.answers = s.answers ++ [⟨0x50, .okValue (match f with | [] => 0 | e :: _ => e.ts.extractLsb' 32 32)⟩] ∧
      t.txe q = { s.txe q with tsf := f.tail } ∧ Keeps { txe := (· = q), answers := True } s t) ∧
    exec (txRow s.cfg.variant q .tsfCntSq .tsfCntMc (.write v)) s = .next s ∧
    exec (txRow s.cfg.variant q .tsfTagSq .tsfTagMc (.write v)) s = .next s ∧
    exec (txRow s.cfg.variant q .tsfLoSq .tsfLoMc (.write v)) s = .next s ∧
    exec (txRow s.cfg.variant q .tsfHiSq .tsfHiMc (.write v)) s = .next s

/-- R343: `CHEN`. A read gives bit c for each channel of the hardware and 0 above; a write starts or stops each channel whose
bit changes, but none that is in a reset or a stop. R344: a write of `CH_IER` stores the bits of the channels of the
hardware and raises the output if an enabled channel has a recorded event. R345, R346: `CH_ISR` is read-only; `CH_ICR`
reads 0 and clears the bits of the channels written 1, no other. -/
def Obligations.BitmapRegisters : Prop :=
  (∀ (s : State) (d : Dir) (v : Word), s.cfg.variant = .mc →
     (∃ w : Word, exec (.chen d .read) s = .next (s.answer 0x50 (.okValue w)) ∧
       (∀ c : Chan, w.getLsbD c.val = (decide (c.val < s.cfg.nq) && (s.regs ⟨d, c⟩).run)) ∧ w.extractLsb' 16 16 = 0) ∧
     (∃ t, exec (.chen d (.write v)) s = .next t ∧
       (∀ c : Chan, c.val < s.cfg.nq →
         let x := s.regs ⟨d, c⟩
         t.regs ⟨d, c⟩ =
           (if x.resetBusy = true ∨ x.stopPending = true ∨ v.getLsbD c.val = x.run then x
            else if x.run = true then { x with run := false, stopPending := true }
            else { x with run := true, tailValid := false, idle := false })) ∧
       Keeps { regs := fun r => r.dir = d ∧ r.q.val < s.cfg.nq } s t)) ∧
  (∀ (s : State) (d : Dir) (v : Word), s.cfg.variant = .mc →
     (∃ w : Word, exec (.chIer d .read) s = .next (s.answer 0x50 (.okValue w)) ∧
       (∀ c : Chan, w.getLsbD c.val = (decide (c.val < s.cfg.nq) && (s.regs ⟨d, c⟩).chIer)) ∧ w.extractLsb' 16 16 = 0) ∧
     (∃ t, exec (.chIer d (.write v)) s = .next t ∧
       (∀ c : Chan, c.val < s.cfg.nq → t.regs ⟨d, c⟩ = { s.regs ⟨d, c⟩ with chIer := v.getLsbD c.val }) ∧
       (t.irq d = true ↔ s.irq d = true ∨
         ∃ c : Chan, c.val < s.cfg.nq ∧ v.getLsbD c.val = true ∧ (s.regs ⟨d, c⟩).chIsr = true) ∧
       Keeps { regs := fun r => r.dir = d ∧ r.q.val < s.cfg.nq, irq := (· = d) } s t)) ∧
  (∀ (s : State) (d : Dir) (v : Word), s.cfg.variant = .mc →
     (∃ w : Word, exec (.chIsr d .read) s = .next (s.answer 0x50 (.okValue w)) ∧
       (∀ c : Chan, w.getLsbD c.val = (decide (c.val < s.cfg.nq) && (s.regs ⟨d, c⟩).chIsr)) ∧ w.extractLsb' 16 16 = 0) ∧
     exec (.chIsr d (.write v)) s = .next s ∧
     exec (.chIcr d .read) s = .next (s.answer 0x50 (.okValue 0)) ∧
     (∃ t, exec (.chIcr d (.write v)) s = .next t ∧
       (∀ c : Chan, c.val < s.cfg.nq →
         t.regs ⟨d, c⟩ = { s.regs ⟨d, c⟩ with chIsr := (s.regs ⟨d, c⟩).chIsr && !v.getLsbD c.val }) ∧
       Keeps { regs := fun r => r.dir = d ∧ r.q.val < s.cfg.nq } s t))

/-- R159, R347: `WEIGHT0` (`hi` false) and `WEIGHT1`. A read packs eight fields; a write changes only the fields of existing
channels that are halted, and neither credit nor `rr_ptr`. -/
def Obligations.WeightAccess : Prop :=
  ∀ (s : State) (hi : Bool) (v : Word), s.cfg.variant = .mc →
    let row (t : Trans) : Instr := if hi then .weight1 t else .weight0 t
    (∃ w : Word, exec (row .read) s = .next (s.answer 0x50 (.okValue w)) ∧
      ∀ c : Chan, (8 ≤ c.val ↔ hi = true) →
        w.extractLsb' (4 * (c.val % 8)) 4 = (if c.val < s.cfg.nq then s.weight c else 0)) ∧
    (∃ t, exec (row (.write v)) s = .next t ∧
      (∀ c : Chan, t.weight c =
        (if (8 ≤ c.val ↔ hi = true) ∧ c.val < s.cfg.nq ∧ (s.regs ⟨.tx, c⟩).run = false ∧
            (s.regs ⟨.tx, c⟩).stopPending = false ∧ (s.regs ⟨.tx, c⟩).resetBusy = false
         then v.extractLsb' (4 * (c.val % 8)) 4 else s.weight c)) ∧
      Keeps { weights := fun _ => True } s t)

/-! ### Interrupt causes -/

/-- R395, R396: a cause that asserts sets its `ISR` bit; an enabled one is masked and delivered: in `SQ` the output of the
direction is raised, in `MC` the channel's `CH_ISR` bit is set and the output raised if its `CH_IER` bit is set. -/
def Obligations.CauseAsserts : Prop :=
  ∀ (s : State) (r : RingId) (k : Irq),
    let x := s.regs r
    let on := x.ier &&& k.bit != 0
    (s.raise r k).regs r = { x with isr := x.isr ||| k.bit, ier := x.ier &&& ~~~k.bit,
                                    chIsr := x.chIsr || (on && s.cfg.variant == .mc) } ∧
    (s.raise r k).irq r.dir = (s.irq r.dir || (on && (s.cfg.variant == .sq || x.chIer))) ∧
    Keeps { regs := (· = r), irq := (· = r.dir) } s (s.raise r k)

/-- R391: the delay timer of a ring expires. -/
def Obligations.DelayTimeout : Prop :=
  ∀ (s : State) (r : RingId), r.q.val < s.cfg.nq → (s.regs r).dlyArmed = true → (s.regs r).run = true →
    (s.regs r).resetBusy = false →
    ∃ t, exec (.eDelayTimeout r.dir r.q.val) s = .next t ∧
      t.regs r = raised s.cfg.variant 2 { s.regs r with dlyArmed := false, iocCount := (s.regs r).thresh.toNat } ∧
      t.irq r.dir = (s.irq r.dir || raises s.cfg.variant 2 (s.regs r)) ∧
      Keeps { regs := (· = r), irq := (· = r.dir) } s t

/-- R392, R464, R467: a controller-level fault. It records the cause, halts the ring, drops the frame in hand, gives up the
grant the ring holds, and asserts `ERR`; `CURDESC` keeps its value and no memory is written. -/
def Obligations.FaultTaken : Prop :=
  ∀ (s : State) (r : RingId) (cause : Cause), r.q.val < s.cfg.nq → (s.regs r).run = true →
    (s.regs r).resetBusy = false →
    let x := s.regs r
    ∃ t, exec (.eFault r.dir r.q.val cause) s = .next t ∧
      t.regs r = raised s.cfg.variant 4 { x with
        errInt := x.errInt || cause == .int, errSlv := x.errSlv || cause == .slv, errDec := x.errDec || cause == .dec,
        run := false, tailValid := false, idle := false, stopPending := false, dlyArmed := false } ∧
      halted (t.regs r) = true ∧ (t.regs r).isr.getLsbD 2 = true ∧
      t.irq r.dir = (s.irq r.dir || raises s.cfg.variant 4 x) ∧
      (r.dir = .tx → t.txe r.q = { s.txe r.q with asm := asmInactive }) ∧
      (r.dir = .rx → t.rxe r.q = { s.rxe r.q with rem := none }) ∧
      t.hw.grant = (if s.cfg.variant = .mc ∧ r.dir = .tx ∧ s.hw.grant = some r.q then none else s.hw.grant) ∧
      Keeps { regs := (· = r), txe := fun q => r = ⟨.tx, q⟩, rxe := fun q => r = ⟨.rx, q⟩, grant := True,
              irq := (· = r.dir) } s t

/-- R397: a requested stop is confirmed; the ring is halted and keeps its pointers, causes and coalescing values. -/
def Obligations.StopDone : Prop :=
  ∀ (s : State) (r : RingId), r.q.val < s.cfg.nq → (s.regs r).stopPending = true → (s.regs r).resetBusy = false →
    ∃ t, exec (.eStopDone r.dir r.q.val) s = .next t ∧
      t.regs r = { s.regs r with stopPending := false, tailValid := false, idle := false, dlyArmed := false } ∧
      (regsLegal (s.regs r) = true → (srWord (t.regs r)).getLsbD 0 = true) ∧
      (r.dir = .tx → t.txe r.q = { s.txe r.q with asm := asmInactive }) ∧
      (r.dir = .rx → t.rxe r.q = { s.rxe r.q with rem := none }) ∧
      t.hw.grant = (if s.cfg.variant = .mc ∧ r.dir = .tx ∧ s.hw.grant = some r.q then none else s.hw.grant) ∧
      Keeps { regs := (· = r), txe := fun q => r = ⟨.tx, q⟩, rxe := fun q => r = ⟨.rx, q⟩, grant := True } s t

/-! ### The engine -/

/-- R381 to R387, R394: `E_TX_DESC` on a good descriptor of a frame, the first of several, one in the middle, the last, or
the only one, every response OKAY, and the row of the descriptor the engine stands at (log 10). A `SOF` descriptor starts
the frame and gives its five words; the bytes at `BUF` join those collected so far; at `EOF` the frame leaves on the stream
with all its bytes, a requested timestamp (the environment's next, or a free value where it has given none, log 4) enters
the FIFO if there is room, and the frame counts for the interrupt. The room is N - 1 entries (R386); a ring without a pool
has no N in the spec, and the model's is then that of a pool given back alone, else 0, and there is no room: that is log 2's
DESIGN CHOICE. The one word written is `STATUS`. In `MC` the grant is given up at `EOF` and at the tail. -/
def Obligations.TxFrameSent : Prop :=
  ∀ (s : State) (q : Chan) (i : Instr) (rest : List BusResp), q.val < s.cfg.nq →
    let r : RingId := ⟨.tx, q⟩
    let v := s.cfg.variant
    let x := s.regs r
    let w := readDesc v s.mem x.curdesc
    let a := (s.txe q).asm
    let bytes := (if a.active = true then a.bytes else []) ++ memBytes s.mem w.buf (lenOf w.ctrl)
    let app := if a.active = true then a.app else w.app
    (i = .eTxDesc q.val ∨ ∃ h k g, i = descriptorRow v r { w with swFrame := h, swMap := k, swTag := g }) →
    s.env.busResp = .okay :: .okay :: .okay :: rest →
    processing x = true → (v = .mc → s.hw.grant = some q) → 1 ≤ x.iocCount →
    cmpltOf w.status = false → lenOf w.ctrl ≠ 0 → sofOf v w.ctrl = !a.active → (a.active = true → a.err = false) →
    ∃ t, exec i s = .next t ∧
      memWord t.mem (x.curdesc + BitVec.ofNat 32 (statusOff v)) = 0x80000000 ||| BitVec.ofNat 32 (lenOf w.ctrl) ∧
      t.env.busResp = rest ∧
      (eofOf v w.ctrl = true →
        t.events = s.events ++ [.txStream q bytes app] ∧ (t.txe q).asm = asmInactive ∧ t.regs r = doneRegs v w.next x ∧
        t.irq .tx = (s.irq .tx || (x.iocCount == 1 && raises v 1 x)) ∧
        (tsReqOf app.a4 = false → (t.txe q).tsf = (s.txe q).tsf) ∧
        (tsReqOf app.a4 = true →
          let ts := match s.env.ts with | x :: _ => x | [] => Config.freeTs s.env.drawn
          (t.txe q).tsf = (if (s.txe q).tsf.length < (s.ring r).cap - 1
                           then (s.txe q).tsf ++ [⟨tagOf app.a4, ts⟩] else (s.txe q).tsf)) ∧
        t.hw.grant = (if v = .mc then none else s.hw.grant)) ∧
      (eofOf v w.ctrl = false →
        t.events = s.events ∧ t.txe q = { s.txe q with asm := ⟨true, bytes, app, false⟩ } ∧
        t.regs r = movedRegs w.next x ∧ t.irq .tx = s.irq .tx ∧
        t.hw.grant = (if v = .mc ∧ x.curdesc = x.taildesc then none else s.hw.grant)) ∧
      Keeps { regs := (· = r), txe := (· = q), grant := True, irq := (· = .tx), events := True, env := True,
              bytes := fun a => within32 a (x.curdesc + BitVec.ofNat 32 (statusOff v)) 4 } s t

/-- R383, R384, R385: a descriptor with an error of its own (length 0; `SOF` inside a frame, or none at a start; a bad
answer to the read of its buffer) and one of a frame that already has an error, which is completed with `ERR_INT` without
its buffer being read. Nothing leaves on the stream, at `EOF` either; `STATUS` carries the flag and length 0; the frame is
marked, up to its `EOF`; the engine goes on. -/
def Obligations.TxFrameDropped : Prop :=
  ∀ (s : State) (q : Chan) (rest : List BusResp) (b : BusResp), q.val < s.cfg.nq →
    let r : RingId := ⟨.tx, q⟩
    let v := s.cfg.variant
    let x := s.regs r
    let w := readDesc v s.mem x.curdesc
    let a := (s.txe q).asm
    let broken := lenOf w.ctrl = 0 ∨ sofOf v w.ctrl = a.active
    let marked := sofOf v w.ctrl = false ∧ a.active = true ∧ a.err = true
    processing x = true → (v = .mc → s.hw.grant = some q) → 1 ≤ x.iocCount → cmpltOf w.status = false →
    ((broken ∨ marked) ∧ b = .okay ∧ s.env.busResp = .okay :: .okay :: rest ∨
     ¬broken ∧ ¬marked ∧ b ≠ .okay ∧ s.env.busResp = .okay :: b :: .okay :: rest) →
    ∃ t, exec (.eTxDesc q.val) s = .next t ∧ t.events = s.events ∧
      memWord t.mem (x.curdesc + BitVec.ofNat 32 (statusOff v)) =
        (match b with | .okay => 0x90000000 | .slverr => 0xA0000000 | .decerr => 0xC0000000) ∧
      t.env.busResp = rest ∧ (t.txe q).tsf = (s.txe q).tsf ∧
      (eofOf v w.ctrl = true →
        (t.txe q).asm = asmInactive ∧ t.regs r = doneRegs v w.next x ∧
        t.irq .tx = (s.irq .tx || (x.iocCount == 1 && raises v 1 x)) ∧
        t.hw.grant = (if v = .mc then none else s.hw.grant)) ∧
      (eofOf v w.ctrl = false →
        (t.txe q).asm = (if sofOf v w.ctrl = true then ⟨true, [], w.app, true⟩
                         else if a.active = true then { a with err := true } else ⟨true, [], appZero, true⟩) ∧
        t.regs r = movedRegs w.next x ∧ t.irq .tx = s.irq .tx ∧
        t.hw.grant = (if v = .mc ∧ x.curdesc = x.taildesc then none else s.hw.grant)) ∧
      Keeps { regs := (· = r), txe := (· = q), grant := True, irq := (· = .tx), env := True,
              bytes := fun a => within32 a (x.curdesc + BitVec.ofNat 32 (statusOff v)) 4 } s t

/-- R388, R389, R394: `E_RX_DESC` on received bytes, the rest of a frame that spans descriptors or the next frame of the
stream, and the row of the descriptor the engine stands at (log 10). The buffer apart from the descriptor, its write
answered OKAY: as many bytes as the buffer takes land at `BUF`; `STATUS`, written last, says whether they begin and end the
frame; the five words are written with the last bytes, and what is left stays for the next descriptor. Each access draws its
response (R85), with the last bytes the five words' writes too, between the buffer's and `STATUS`'s, and the words are
written whatever those answers are, as R388 has it (log 29: that they are five accesses, and that their answers change
nothing, is DEDUCED). With no room, or a bad answer to the write of the buffer, no memory but `STATUS` is written, with the
flag, and the rest of the frame is gone. -/
def Obligations.RxFrameStored : Prop :=
  ∀ (s : State) (q : Chan) (i : Instr) (rest apps : List BusResp) (b : BusResp) (m : RxRem) (fs : List StreamFrame),
    q.val < s.cfg.nq → apps.length = 5 →
    let r : RingId := ⟨.rx, q⟩
    let v := s.cfg.variant
    let x := s.regs r
    let w := readDesc v s.mem x.curdesc
    let n := min (lenOf w.ctrl) m.bytes.length
    let first : Word := if m.first = true then 0x08000000 else 0
    let last := m.bytes.length ≤ lenOf w.ctrl
    let answers := if lenOf w.ctrl = 0 then .okay :: rest
      else if b = .okay ∧ last then b :: (apps ++ .okay :: rest) else b :: .okay :: rest
    (i = .eRxDesc q.val ∨ ∃ h k g, i = descriptorRow v r { w with swFrame := h, swMap := k, swTag := g }) →
    s.env.busResp = .okay :: answers →
    processing x = true → 1 ≤ x.iocCount → cmpltOf w.status = false →
    (s.rxe q = ⟨some m, fs⟩ ∨ ∃ f, s.rxe q = ⟨none, f :: fs⟩ ∧ m = ⟨f.bytes, f.app, true⟩) →
    (lenOf w.ctrl ≠ 0 → b = .okay → (∀ a, within32 a w.buf n → ¬within32 a x.curdesc 64) →
      ∃ t, exec i s = .next t ∧ t.events = s.events ∧ t.env.busResp = rest ∧
        (∀ k, k < n → some (memByte t.mem (w.buf + BitVec.ofNat 32 k)) = m.bytes[k]?) ∧
        (readDesc v t.mem x.curdesc).status =
          0x80000000 ||| first ||| (if last then 0x04000000 else 0) ||| BitVec.ofNat 32 n ∧
        (last → (readDesc v t.mem x.curdesc).app = m.app ∧ t.rxe q = ⟨none, fs⟩ ∧ t.regs r = doneRegs v w.next x ∧
          t.irq .rx = (s.irq .rx || (x.iocCount == 1 && raises v 1 x))) ∧
        (¬last → t.rxe q = ⟨some ⟨m.bytes.drop n, m.app, false⟩, fs⟩ ∧ t.regs r = movedRegs w.next x ∧
          t.irq .rx = s.irq .rx) ∧
        Keeps { regs := (· = r), rxe := (· = q), irq := (· = .rx), env := True,
                bytes := fun a => within32 a w.buf n ∨ within32 a (x.curdesc + BitVec.ofNat 32 (statusOff v)) 4 ∨
                  (last ∧ within32 a (x.curdesc + 0x20) 20) } s t) ∧
    (lenOf w.ctrl = 0 ∨ b ≠ .okay →
      ∃ t, exec i s = .next t ∧ t.events = s.events ∧ t.env.busResp = rest ∧
        memWord t.mem (x.curdesc + BitVec.ofNat 32 (statusOff v)) = 0x84000000 ||| first |||
          (if lenOf w.ctrl = 0 then 0x10000000 else match b with | .okay => 0 | .slverr => 0x20000000 | .decerr => 0x40000000) ∧
        t.rxe q = ⟨none, fs⟩ ∧ t.regs r = doneRegs v w.next x ∧
        t.irq .rx = (s.irq .rx || (x.iocCount == 1 && raises v 1 x)) ∧
        Keeps { regs := (· = r), rxe := (· = q), irq := (· = .rx), env := True,
                bytes := fun a => within32 a (x.curdesc + BitVec.ofNat 32 (statusOff v)) 4 } s t)

/-- R382, R392: a bad answer to the descriptor fetch, and a fetched descriptor that is still complete, are the
controller-level fault of that ring, in both directions. R398, R140, R109: the row of a descriptor is that step where the
hardware words at `CURDESC` are the descriptor's, its software-only words whatever they are; no engine runs one that is not
there to be fetched (that nothing happens then is log 10's DESIGN CHOICE). R385, R392: a bad answer to the write of `STATUS`
is that fault too: `STATUS` is not written, `CURDESC` stays at the descriptor, the frame in hand and the grant are given up.
On receive, where the bytes end the frame, the answers to the five application words' writes come before that of `STATUS`
(R85; that they are five accesses, and that their answers stop nothing, is DEDUCED, log 29). -/
def Obligations.EngineFetches : Prop :=
  (∀ (s : State) (r : RingId) (b : BusResp) (rest : List BusResp), r.q.val < s.cfg.nq → s.descEnabled r = true →
     s.env.busResp = b :: rest →
     let i := engineRow r
     let u : State := { s with env := { s.env with busResp := rest } }
     (b = .slverr → exec i s = exec (.eFault r.dir r.q.val .slv) u) ∧
     (b = .decerr → exec i s = exec (.eFault r.dir r.q.val .dec) u) ∧
     (b = .okay → cmpltOf (readDesc s.cfg.variant s.mem (s.regs r).curdesc).status = true →
       exec i s = exec (.eFault r.dir r.q.val .int) u) ∧
     ∃ t, exec i s = .next t) ∧
  (∀ (s : State) (r : RingId) (w : Desc), r.q.val < s.cfg.nq →
     let held := readDesc s.cfg.variant s.mem (s.regs r).curdesc
     let there := ∃ h k g, w = { held with swFrame := h, swMap := k, swTag := g }
     (there → exec (descriptorRow s.cfg.variant r w) s =
       exec (engineRow r) s) ∧
     (¬there → exec (descriptorRow s.cfg.variant r w) s = .next s) ∧
     ∃ t, exec (descriptorRow s.cfg.variant r w) s = .next t) ∧
  (∀ (s : State) (r : RingId) (b c : BusResp) (apps rest : List BusResp), r.q.val < s.cfg.nq →
     let v := s.cfg.variant
     let x := s.regs r
     let w := readDesc v s.mem x.curdesc
     s.descEnabled r = true → cmpltOf w.status = false → c ≠ .okay →
     let a := (s.txe r.q).asm
     let moves : Prop := match r.dir with
       | .tx => lenOf w.ctrl ≠ 0 ∧ sofOf v w.ctrl = !a.active ∧ (a.active = true → a.err = false)
       | .rx => lenOf w.ctrl ≠ 0
     let inHand : Nat := match (s.rxe r.q).rem, (s.rxe r.q).stream with
       | some m, _ => m.bytes.length
       | none, f :: _ => f.bytes.length
       | none, [] => 0
     let wordsToo : Prop := r.dir = .rx ∧ b = .okay ∧ inHand ≤ lenOf w.ctrl
     apps.length = (if wordsToo then 5 else 0) →
     (moves ∧ s.env.busResp = .okay :: b :: (apps ++ c :: rest) ∨ ¬moves ∧ s.env.busResp = .okay :: c :: rest) →
     ∃ t, exec (engineRow r) s = .next t ∧ t.env.busResp = rest ∧
       t.regs r = raised v 4 { x with
         errSlv := x.errSlv || c == .slverr, errDec := x.errDec || c == .decerr,
         run := false, tailValid := false, idle := false, stopPending := false, dlyArmed := false } ∧
       t.irq r.dir = (s.irq r.dir || raises v 4 x) ∧
       (r.dir = .tx → (t.txe r.q).asm = asmInactive) ∧ (r.dir = .rx → (t.rxe r.q).rem = none) ∧
       t.hw.grant = (if v = .mc ∧ r.dir = .tx then none else s.hw.grant) ∧
       Keeps { regs := (· = r), txe := fun q => r = ⟨.tx, q⟩, rxe := fun q => r = ⟨.rx, q⟩, grant := True,
               irq := (· = r.dir), events := r.dir = .tx, env := True,
               bytes := fun a => r.dir = .rx ∧ (within32 a w.buf (lenOf w.ctrl) ∨ within32 a (x.curdesc + 0x20) 20) } s t)

/-- R141 to R149, R15, R121: a descriptor word's row stores the word at its place in the variant's layout, little-endian,
and no other byte, while the engine does not own the descriptor; a word of a descriptor it owns is not rewritten (R62, R127,
R152, U17). R297: the descriptors of a ring that is not `Running`, `Fatal` or in recovery, stay as they were: the store is
refused. R152: no write exists but those of the ring manager's rules: none into a complete descriptor; into a receive
descriptor only while the ring is halted, to be reset or armed; `NEXT` only as `RESET_RING` writes it, on a halted ring
(R193), `STATUS` and the receive application words only 0; another store is refused (when and what each row stores is log
11's reading of R152; that states short of `Fatal` refuse it too is log 11's reading of R37 and R61). The ring then owes a
`WMB` (log 12). R62: the engine owns a TX descriptor exactly when it is not complete and lies in [completion, hw_tail)
modulo N, an RX descriptor exactly when it is not complete, the ring has been populated and it lies, in chain order from
`CURDESC`, at or before the tail. -/
def Obligations.DescriptorWords : Prop :=
  (∀ (s : State) (r : RingId) (i : Nat) (w : Word) (p : Instr × Nat), r.q.val < s.cfg.nq →
     (s.ring r).present = true → i < (s.ring r).cap → p ∈ hwWordRows s.cfg.variant r i w ++ swWordRows r i w →
     let stays : Prop := s.sw.ctxPresent = true ∧ (s.ring r).rstate ≠ .running
     let ruled : Prop :=
       ((s.statusD r i).getLsbD 31 = false ∧ (r.dir = .rx → halted (s.regs r) = true)) ∧
       (p.2 = 0x00 → w = daddr (s.ring r).base ((i + 1) % (s.ring r).cap) ∧ halted (s.regs r) = true) ∧
       (p.2 = statusOff s.cfg.variant → w = 0) ∧ (r.dir = .rx → 0x20 ≤ p.2 → p.2 ≤ 0x30 → w = 0)
     (stays → exec p.1 s = .refused .wrongRingState) ∧
     (¬stays → s.engineOwns r i = false → ruled →
       ∃ t, exec p.1 s = .next t ∧ t.getD r i p.2 = w ∧ t.unfenced r = true ∧
         Keeps { fences := (· = r), bytes := s.inWord r i p.2 } s t) ∧
     (¬stays → s.engineOwns r i = false → ¬ruled → exec p.1 s = .refused .noSuchWrite) ∧
     (¬stays → s.engineOwns r i = true → exec p.1 s = .refused .engineOwnsDescriptor)) ∧
  (∀ (s : State) (r : RingId) (i : Nat), s.HasPool r → i < (s.ring r).cap →
     let w := s.ring r
     let complete := (s.statusD r i).getLsbD 31
     (r.dir = .tx → (s.engineOwns r i = true ↔
       complete = false ∧ ∃ k, k < (w.hwTail + (w.cap - w.completion)) % w.cap ∧ i = (w.completion + k) % w.cap)) ∧
     (r.dir = .rx → (∀ j, j < w.cap → s.getD r j 0x00 = daddr w.base ((j + 1) % w.cap)) →
       ∀ c n, c < w.cap → n < w.cap → (s.regs r).curdesc = daddr w.base c →
         (s.regs r).taildesc = daddr w.base ((c + n) % w.cap) →
         (s.engineOwns r i = true ↔
           complete = false ∧ w.populated = true ∧ ∃ k, k ≤ n ∧ i = (c + k) % w.cap)))

/-! ### Descriptor pools -/

/-- R190 to R193: a successful `ALLOCATE`. Every byte of the pool is 0 but the `NEXT` words, which close the chain; nothing
outside the pool is written. The other outcomes make no pool: a size out of range before anything is drawn, no memory, a
misplaced block; a second pool and a running ring are refused (R461). The ring then owes a `WMB` for its descriptor writes
(R121; that a flag of each ring says so is log 12's DESIGN CHOICE). (When it runs alone at all: log 22.) -/
def Obligations.AllocateOutcomes : Prop :=
  (∀ (s : State) (r : RingId) (n : Nat) (b : Word) (rest : List (Option Word)), r.q.val < s.cfg.nq →
     s.RingFree r → (s.ring r).present = false → halted (s.regs r) = true → 2 ≤ n → n ≤ 32768 →
     s.env.allocs = some b :: rest → b.toNat % 64 = 0 → b.toNat + 64 * n ≤ 2 ^ 32 →
     ∃ t, exec (.allocate r.dir r.q.val n) s = .next t ∧ t.answers = s.answers ++ [⟨0x03, .okRing r⟩] ∧
       t.ring r = { s.ring r with base := b, cap := n, present := true, populated := false,
                                  issue := 0, hwTail := 0, completion := 0 } ∧ t.unfenced r = true ∧
       (∀ i, i < n → t.getD r i 0x00 = daddr b ((i + 1) % n)) ∧
       (∀ i k, i < n → 4 ≤ k → k < 64 → memByte t.mem (daddr b i + BitVec.ofNat 32 k) = 0) ∧
       t.env.allocs = rest ∧
       Keeps { rings := (· = r), fences := (· = r), bytes := fun a => within32 a b (64 * n), answers := True,
               env := True } s t) ∧
  (∀ (s : State) (r : RingId) (n : Nat), r.q.val < s.cfg.nq → s.RingFree r →
     (n < 2 ∨ 32768 < n → exec (.allocate r.dir r.q.val n) s = .next (s.answer 0x03 (.configError .size))) ∧
     (2 ≤ n → n ≤ 32768 → (s.ring r).present = true →
       exec (.allocate r.dir r.q.val n) s = .refused .alreadyAllocated) ∧
     (2 ≤ n → n ≤ 32768 → (s.ring r).present = false → halted (s.regs r) = false →
       exec (.allocate r.dir r.q.val n) s = .refused .ringNotHalted) ∧
     (∀ rest, 2 ≤ n → n ≤ 32768 → (s.ring r).present = false → halted (s.regs r) = true → s.env.allocs = none :: rest →
       exec (.allocate r.dir r.q.val n) s =
         .next ({ s with env := { s.env with allocs := rest } }.answer 0x03 .outOfMemory)) ∧
     (∀ b rest, 2 ≤ n → n ≤ 32768 → (s.ring r).present = false → halted (s.regs r) = true →
       s.env.allocs = some b :: rest → b.toNat % 64 ≠ 0 ∨ 2 ^ 32 < b.toNat + 64 * n →
       exec (.allocate r.dir r.q.val n) s =
         .next ({ s with env := { s.env with allocs := rest } }.answer 0x03 (.configError .alignment))))

/-- R193, R195: `RESET_RING` relinks the chain and zeroes the cursors and the status words, and nothing else; the ring then
owes a `WMB` (log 12). -/
def Obligations.ResetRingRelinks : Prop :=
  ∀ (s : State) (r : RingId), s.HasPool r → s.RingFree r → halted (s.regs r) = true →
    ∃ t, exec (.resetRing r.dir r.q.val) s = .next t ∧
      t.ring r = { s.ring r with issue := 0, hwTail := 0, completion := 0 } ∧ t.unfenced r = true ∧
      (∀ i, i < (s.ring r).cap → t.getD r i 0x00 = daddr (s.ring r).base ((i + 1) % (s.ring r).cap) ∧
        t.getD r i (statusOff s.cfg.variant) = 0) ∧
      Keeps { rings := (· = r), fences := (· = r),
              bytes := fun a => ∃ i, i < (s.ring r).cap ∧ s.inWords r i [0x00, statusOff s.cfg.variant] a } s t

/-- R194: `RESET_RING` twice is `RESET_RING` once. -/
def Obligations.ResetRingTwice : Prop :=
  ∀ (s : State) (r : RingId), s.HasPool r → s.RingFree r → halted (s.regs r) = true →
    ∃ t u, exec (.resetRing r.dir r.q.val) s = .next t ∧ exec (.resetRing r.dir r.q.val) t = .next u ∧
      u.ring r = t.ring r ∧ (∀ a, memByte u.mem a = memByte t.mem a) ∧ Keeps {} t u

/-- R196, R217: `ARM_RX` arms every slot of a halted ring with a pool. R196 runs it right after `RESET_RING`; that it arms
any other halted ring too, and moves no cursor there, is log 22's DESIGN CHOICE. A slot with a buffer keeps it; the others,
in slot order, take the fresh buffers the environment supplies one after the other, each in `BUF` and `SW_FRAME`, and no
more are drawn; no register is written and no cursor moves. The ring is populated then (R62), and the `WMB` in it orders all
earlier descriptor writes (R122; that it stands in `ARM_RX` is log 17). A handle is never 0 (R63). -/
def Obligations.ArmRxArms : Prop :=
  ∀ (s : State) (q : Chan), s.HasPool ⟨.rx, q⟩ → s.RingFree ⟨.rx, q⟩ → halted (s.regs ⟨.rx, q⟩) = true →
    let r : RingId := ⟨.rx, q⟩
    let v := s.cfg.variant
    let n := (s.ring r).cap
    let empty := (List.range n).filter fun i => s.getD r i 0x34 == 0
    ∃ t, exec (.armRx q.val) s = .next t ∧ t.ring r = { s.ring r with populated := true } ∧ (∀ r', t.unfenced r' = false) ∧
      (∀ i, i < n →
        t.getD r i (ctrlOff v) = BitVec.ofNat 32 s.cfg.rxBufSize ∧ t.getD r i (statusOff v) = 0 ∧
        t.getApp r i = appZero ∧ t.getD r i 0x3C = 0 ∧ t.getD r i 0x34 ≠ 0 ∧
        (s.getD r i 0x34 ≠ 0 → t.getD r i 0x34 = s.getD r i 0x34 ∧ t.getD r i 0x08 = s.getD r i 0x08 ∧
          t.getD r i 0x38 = s.getD r i 0x38) ∧
        (s.getD r i 0x34 = 0 → t.getD r i 0x38 = 1)) ∧
      (∀ (k i : Nat) (h a : Word), empty[k]? = some i → s.env.rxBuffers[k]? = some (h, a) →
        t.getD r i 0x08 = a ∧ (h ≠ 0 → t.getD r i 0x34 = h)) ∧
      t.env.rxBuffers = s.env.rxBuffers.drop empty.length ∧ (empty = [] → t.env = s.env) ∧
      Keeps { rings := (· = r), fences := fun _ => True, env := True,
              bytes := fun a => ∃ i, i < n ∧ s.inWords r i (filledOffs v) a } s t

/-- R197, R198: `FREE_RING` gives up what every slot holds, in order, counts the frames of a TX ring as dropped, and the
pool is gone (the base and N the ring then holds are log 2's DESIGN CHOICE). `NEXT` and `BUF` stay as they were. It runs
alone on a ring of no context (log 22); while there is one only `DETACH` uses it (R198, R299). -/
def Obligations.FreeRingReleases : Prop :=
  ∀ (s : State) (r : RingId), s.HasPool r → s.RingFree r → halted (s.regs r) = true →
    let n := (s.ring r).cap
    let held := ((List.range n).filter fun i => s.getD r i 0x34 != 0).length
    (s.sw.ctxPresent = true → exec (.freeRing r.dir r.q.val) s = .refused .usedByDetachOnly) ∧
    (s.sw.ctxPresent = false → ∃ t, exec (.freeRing r.dir r.q.val) s = .next t ∧
      t.ring r = { s.ring r with
        present := false, populated := false,
        dropped := (s.ring r).dropped + (match r.dir with | .tx => BitVec.ofNat 64 held | .rx => 0) } ∧
      (∀ i, i < n → t.slotCleared r i) ∧
      t.events = s.events ++ (List.range n).flatMap (s.releaseEvents r) ∧
      Keeps { rings := (· = r), fences := (· = r), events := True,
              bytes := fun a => ∃ i, i < n ∧ s.inWords r i (clearedOffs s.cfg.variant) a } s t)

/-! ### Offload -/

/-- R311, R312, R317: the five words of `OFFLOAD_TX`, the tag it issues, and the collision, the one fault (R462). -/
def Obligations.OffloadTxWords : Prop :=
  ∀ (s : State) (q : Chan) (f : Frame), s.sw.ctxPresent = true → q.val < s.cfg.nq →
    (s.ring ⟨.tx, q⟩).rstate = .running →
    let g := s.tags q
    let full := f.csumReq = true ∧ s.sw.txCsum = .full
    let part := f.csumReq = true ∧ s.sw.txCsum = .part
    let ts := f.tsReq = true ∧ s.sw.tsEnabled = true
    let app (a4 : Word) : App :=
      ⟨if full then 2 else if part then 1 else 0,
       if part then f.csumStart ++ f.csumInsert else 0,
       if full ∨ part then f.csumSeed else 0, 0, a4⟩
    (¬ts → exec (.offloadTx q.val f) s = .next (s.answer 0x18 (.okWords (app 0)))) ∧
    (ts → kvGet g.tagmap g.nextTag.toNat ≠ none → exec (.offloadTx q.val f) s = .fault .tagCollision) ∧
    (ts → kvGet g.tagmap g.nextTag.toNat = none →
      ∃ t, exec (.offloadTx q.val f) s = .next t ∧
        t.answers = s.answers ++ [⟨0x18, .okWords (app (0x80000000 ||| g.nextTag.setWidth 32))⟩] ∧
        (t.tags q).nextTag.toNat = (g.nextTag.toNat + 1) % 0xFFFF ∧
        kvGet (t.tags q).tagmap g.nextTag.toNat = some f.handle ∧
        (kvSorted g.tagmap = true → ∀ k, k ≠ g.nextTag.toNat → kvGet (t.tags q).tagmap k = kvGet g.tagmap k) ∧
        Keeps { tags := (· = q), answers := True } s t)

/-- R315, R316: what `OFFLOAD_RX` decodes from `APP0` to `APP3`, by the checksum mode and the timestamp switch. R315 gives the
operand only as a completed descriptor without an error and with `RXSOF` and `RXEOF`; that the operation answers for every
descriptor of the pool in the same way is the model's reading (log 26). -/
def Obligations.OffloadRxDecodes : Prop :=
  ∀ (s : State) (q : Chan) (i : Nat), s.sw.ctxPresent = true → q.val < s.cfg.nq →
    (s.ring ⟨.rx, q⟩).rstate = .running → (s.ring ⟨.rx, q⟩).present = true → i < (s.ring ⟨.rx, q⟩).cap →
    let r : RingId := ⟨.rx, q⟩
    let sts : BitVec 3 := (s.getD r i 0x28).extractLsb' 3 3
    exec (.offloadRx q.val i) s = .next (s.answer 0x19 (.okRx
      (match s.sw.rxCsum with
       | .off => .unsupported
       | .part => .softwareVerifyNeeded
       | .full => if sts = 0b010 ∨ sts = 0b011 then .hardwareVerified
                  else if sts = 0b000 then .unsupported else .softwareVerifyNeeded)
      (if s.sw.rxCsum = .off then 0 else (s.getD r i 0x2C).extractLsb' 0 16)
      (if s.sw.tsEnabled = true then some (s.getD r i 0x24 ++ s.getD r i 0x20) else none)))

/-! ### The ring engine operations -/

/-- R210, R212, R213, R214: an accepted frame, for which the ring has room (arithmetic modulo N). Fragment j is in slot
(issue + j) mod N with its address, length, kind and the flags of its place; the five words are `OFFLOAD_TX`'s (R311), in
the first; its `WMB` orders every earlier descriptor write (R122); one doorbell, at the last. -/
def Obligations.SubmitWrites : Prop :=
  ∀ (s s' : State) (q : Chan) (f : Frame) (app : App),
    let r : RingId := ⟨.tx, q⟩
    let w := s.ring r
    let v := s.cfg.variant
    let x := s.regs r
    let k := f.frags.length
    let slot (j : Nat) : Nat := (w.issue + j) % w.cap
    s.HasPool r → s.sw.ctxPresent = true → w.rstate = .running → s.sw.linkUp = true →
    FrameOk f w.cap s.cfg.maxFrame → (k : Int) ≤ ((w.completion : Int) - w.issue - 1) % w.cap →
    s.offloadTx q f = some (app, s') →
    ∃ t, exec (.submitTx q.val f) s = .next t ∧ t.answers = s.answers ++ [⟨0x10, .ok⟩] ∧
      t.ring r = { w with issue := slot k, hwTail := slot k } ∧ (∀ r', t.unfenced r' = false) ∧
      t.regs r = (if x.resetBusy = true then x
        else if x.run = true ∧ x.stopPending = false then
          { x with taildesc := daddr w.base (slot (k - 1)), tailValid := true, idle := false }
        else { x with taildesc := daddr w.base (slot (k - 1)) }) ∧
      (∀ j g, f.frags[j]? = some g →
        t.getD r (slot j) 0x08 = g.addr ∧
        t.getD r (slot j) (ctrlOff v) = (BitVec.ofNat 32 g.len ||| (if j = 0 then bitIf true (sofPos v) else 0) |||
          (if j = k - 1 then bitIf true (eofPos v) else 0)) ∧
        t.getD r (slot j) (statusOff v) = 0 ∧
        t.getApp r (slot j) = (if j = 0 then app else appZero) ∧
        t.getD r (slot j) 0x34 = (if j = k - 1 then f.handle else 0) ∧
        t.getD r (slot j) 0x38 = (match g.kind with | .single => 1 | .page => 2) ∧
        t.getD r (slot j) 0x3C = (if j = k - 1 ∧ app.a4.getLsbD 31 = true then app.a4 else 0)) ∧
      t.tags q = s'.tags q ∧
      Keeps { regs := (· = r), rings := (· = r), fences := fun _ => True, tags := (· = q), answers := True,
              bytes := fun a => ∃ j, j < k ∧ s.inWords r (slot j) (filledOffs v) a } s t

/-- R210, R211, R212, R466 (e): `SUBMIT_TX` tests its refusals in order and then changes nothing but the answer. -/
def Obligations.SubmitRefusals : Prop :=
  ∀ (s : State) (q : Chan) (f : Frame), s.sw.ctxPresent = true → q.val < s.cfg.nq →
    let w := s.ring ⟨.tx, q⟩
    (w.rstate = .fatal → exec (.submitTx q.val f) s = .next (s.answer 0x10 .fatal)) ∧
    (w.rstate ≠ .fatal → w.rstate ≠ .running → exec (.submitTx q.val f) s = .next (s.answer 0x10 .notReady)) ∧
    (w.rstate = .running → s.sw.linkUp = false → exec (.submitTx q.val f) s = .next (s.answer 0x10 .notReady)) ∧
    (w.rstate = .running → s.sw.linkUp = true → ¬FrameOk f w.cap s.cfg.maxFrame →
      exec (.submitTx q.val f) s = .next (s.answer 0x10 .invalidFrame)) ∧
    (w.rstate = .running → s.sw.linkUp = true → FrameOk f w.cap s.cfg.maxFrame → s.HasPool ⟨.tx, q⟩ →
      ((w.completion : Int) - w.issue - 1) % w.cap < f.frags.length →
      exec (.submitTx q.val f) s = .next (s.answer 0x10 .ringFull))

/-- On a ring that is not `Running` every command on the ring alone answers at once, `NotReady` or `Fatal`, and changes
nothing else. R219 says it of `SUBMIT_TX`, `POLL_RX` and `RECLAIM_TX`. For `ALLOCATE`, `RESET_RING`, `ARM_RX` and
`FREE_RING` it is the model's reading of R37, R61, R297 and R426, the ids of the answers included (DEDUCED, log 22); for
`OFFLOAD_TX` and `OFFLOAD_RX` likewise (DEDUCED, log 26). -/
def Obligations.TurnedAway : Prop :=
  ∀ (s : State) (q : Chan) (f : Frame) (budget i n : Nat) (e : Result), s.sw.ctxPresent = true → q.val < s.cfg.nq →
    let away (r : RingId) : Prop :=
      ((s.ring r).rstate = .halting ∨ (s.ring r).rstate = .halted ∨ (s.ring r).rstate = .reconfiguring) ∧ e = .notReady ∨
      (s.ring r).rstate = .fatal ∧ e = .fatal
    (away ⟨.tx, q⟩ → exec (.submitTx q.val f) s = .next (s.answer 0x10 e) ∧
      exec (.reclaimTx q.val) s = .next (s.answer 0x12 e) ∧ exec (.offloadTx q.val f) s = .next (s.answer 0x18 e)) ∧
    (away ⟨.rx, q⟩ → exec (.pollRx q.val budget) s = .next (s.answer 0x11 e) ∧
      exec (.offloadRx q.val i) s = .next (s.answer 0x19 e) ∧
      (s.controlBusy = false → exec (.armRx q.val) s = .next (s.answer 0x05 e))) ∧
    (∀ d, away ⟨d, q⟩ → s.controlBusy = false →
      exec (.allocate d q.val n) s = .next (s.answer 0x03 e) ∧ exec (.resetRing d q.val) s = .next (s.answer 0x04 e) ∧
      exec (.freeRing d q.val) s = .next (s.answer 0x06 e))

/-- R215, R216, R217: an iteration of `POLL_RX` on a completed descriptor, the first, in the command's own step, and each
later one, in a step of the command in progress. A good descriptor yields its frame and gets a fresh buffer; one with an
error bit, or without `RXSOF` or `RXEOF`, counts one error and keeps its buffer; both are re-armed and the cursors move on
by one. The same holds of the iterations of the `POLL_RX` that the handler calls (R270), the first in the step of its call.
(The commands in progress are log 6's and log 16's, the `WMB` owed log 12's.) -/
def Obligations.PollTakes : Prop :=
  ∀ (s : State) (q : Chan) (p : PollSt) (run : State → Res) (left : PollSt → List Task) (h a : Word)
    (rest : List (Word × Word)),
    let r : RingId := ⟨.rx, q⟩
    let w := s.ring r
    let v := s.cfg.variant
    let i := w.completion
    let st := s.statusD r i
    let good := errBits st = 0 ∧ rxSofOf st = true ∧ rxEofOf st = true
    (s.sw.ctxPresent = true ∧ w.rstate = .running ∧ s.bodyBusy r = false ∧ p = ⟨q, p.budget, 0, [], none⟩ ∧
        run = exec (.pollRx q.val p.budget) ∧ left = (fun p' => s.tasks ++ [.poll p']) ∨
      (∃ k, s.tasks[k]? = some (.poll p) ∧ run = resume k ∧ left = fun p' => s.tasks.set k (.poll p')) ∨
      ∃ k b qs c, run = resume k ∧ left = (fun p' => s.tasks.set k (.irq .rx b qs (.poll q c p'))) ∧
        (s.tasks[k]? = some (.irq .rx b qs (.poll q c p)) ∨
          s.tasks[k]? = some (.irq .rx b qs (.call q c)) ∧ p = ⟨q, b, 0, [], none⟩ ∧ s.sw.ctxPresent = true ∧
            w.rstate = .running ∧ (s.setTasks (s.tasks.eraseIdx k)).bodyBusy r = false)) →
    s.HasPool r → p.q = q → p.n < p.budget → cmpltOf st = true → s.env.rxBuffers = (h, a) :: rest → h ≠ 0 →
    ∃ t, run s = .next t ∧
      t.getD r i (ctrlOff v) = BitVec.ofNat 32 s.cfg.rxBufSize ∧ t.getApp r i = appZero ∧ t.getD r i (statusOff v) = 0 ∧
      t.getD r i 0x00 = s.getD r i 0x00 ∧ t.getD r i 0x3C = s.getD r i 0x3C ∧ t.unfenced r = true ∧
      (good →
        t.getD r i 0x08 = a ∧ t.getD r i 0x34 = h ∧ t.getD r i 0x38 = 1 ∧
        t.ring r = { w with
          issue := incMod w.cap i, hwTail := incMod w.cap i, completion := incMod w.cap i,
          packets := w.packets + 1, bytes := w.bytes + BitVec.ofNat 64 (lenOf st) } ∧
        t.events = s.events ++ [.unmap (s.getD r i 0x08) s.cfg.rxBufSize 1] ∧ t.env.rxBuffers = rest ∧
        t.tasks = left ⟨q, p.budget, p.n + 1,
          p.out ++ [⟨memBytes s.mem (s.getD r i 0x08) (lenOf st), lenOf st, s.rxCsumOf r i, s.rxRawOf r i, s.rxTsOf r i,
            s.getD r i 0x34, s.getD r i 0x08⟩], some i⟩) ∧
      (¬good →
        t.getD r i 0x08 = s.getD r i 0x08 ∧ t.getD r i 0x34 = s.getD r i 0x34 ∧ t.getD r i 0x38 = s.getD r i 0x38 ∧
        t.ring r = { w with
          issue := incMod w.cap i, hwTail := incMod w.cap i, completion := incMod w.cap i, errors := w.errors + 1 } ∧
        t.events = s.events ∧ t.env = s.env ∧ t.tasks = left ⟨q, p.budget, p.n + 1, p.out, some i⟩) ∧
      Keeps { rings := (· = r), fences := (· = r), events := True, env := True, tasks := True,
              bytes := s.inWords r i (filledOffs v) } s t

/-- R215, R217, R218: the end of `POLL_RX`, of a call that finds nothing to do, of a call in progress whose scan stops, at
its budget, at a descriptor that is not complete or without a pool (log 16), and of one that its consumer abandons. It rings
once, with the last re-armed slot, after a `WMB` that orders every earlier descriptor write (R122), and answers its frames;
without a re-armed slot it rings nothing. That the `WMB`, the doorbell and the answer stand in the one step of the look that
ends the scan is log 6's DESIGN CHOICE, and that a scan without a pool ends is log 16's. R220: the scan of `RECLAIM_TX`
stops at `issue`, at the first descriptor that is not complete and without a pool, and answers the handles released. R270:
inside the handler they end in the same way, and their results stay with the handler. -/
def Obligations.ScansEnd : Prop :=
  (∀ (s : State) (p : PollSt) (run : State → Res) (ends : State → State),
     let r : RingId := ⟨.rx, p.q⟩
     let w := s.ring r
     let x := s.regs r
     let fresh := s.sw.ctxPresent = true ∧ w.rstate = .running ∧ p = ⟨p.q, p.budget, 0, [], none⟩
     let stops := p.budget ≤ p.n ∨ cmpltOf (s.statusD r w.completion) = false ∨ w.present = false
     (stops ∧ p.q.val < s.cfg.nq ∧ fresh ∧ s.bodyBusy r = false ∧ run = exec (.pollRx p.q.val p.budget) ∧
         ends = (fun u => u.answer 0x11 (.okFrames [])) ∨
       (∃ k, s.tasks[k]? = some (.poll p) ∧ (stops ∧ run = resume k ∨ run = abandon k) ∧
         ends = fun u => (u.setTasks (s.tasks.eraseIdx k)).answer 0x11 (.okFrames p.out)) ∨
       ∃ k b qs c, stops ∧ run = resume k ∧
         ends = (fun u => u.setTasks (s.tasks.set k (.irq .rx b qs (.deliver p.q c p.out)))) ∧
         (s.tasks[k]? = some (.irq .rx b qs (.poll p.q c p)) ∨
           s.tasks[k]? = some (.irq .rx b qs (.call p.q c)) ∧ p.budget = b ∧ fresh ∧
             (s.setTasks (s.tasks.eraseIdx k)).bodyBusy r = false)) →
     (p.last = none ∨ w.present = false → run s = .next (ends s)) ∧
     (∀ i, p.last = some i → w.present = true →
       ∃ u, run s = .next (ends u) ∧ (∀ r', u.unfenced r' = false) ∧
         u.regs r = (if x.resetBusy = true then x
           else if x.run = true ∧ x.stopPending = false then
             { x with taildesc := daddr w.base i &&& 0xFFFFFFC0, tailValid := true, idle := false }
           else { x with taildesc := daddr w.base i &&& 0xFFFFFFC0 }) ∧
         Keeps { regs := (· = r), fences := fun _ => True } s u)) ∧
  (∀ (s : State) (q : Chan) (out : List Word),
     let r : RingId := ⟨.tx, q⟩
     let w := s.ring r
     w.completion = w.issue ∨ cmpltOf (s.statusD r w.completion) = false ∨ w.present = false →
     (q.val < s.cfg.nq → s.sw.ctxPresent = true → w.rstate = .running → s.bodyBusy r = false →
       exec (.reclaimTx q.val) s = .next (s.answer 0x12 (.okHandles []))) ∧
     (∀ k, s.tasks[k]? = some (.reclaim ⟨q, out⟩) →
       resume k s = .next ((s.setTasks (s.tasks.eraseIdx k)).answer 0x12 (.okHandles out))) ∧
     (∀ k b qs c, s.tasks[k]? = some (.irq .tx b qs (.reclaim q c ⟨q, out⟩)) ∨
         s.tasks[k]? = some (.irq .tx b qs (.call q c)) ∧ s.sw.ctxPresent = true ∧ w.rstate = .running ∧
           (s.setTasks (s.tasks.eraseIdx k)).bodyBusy r = false →
       resume k s = .next (s.setTasks (s.tasks.set k (.irq .tx b qs (.writeIcr q c))))))

/-- R220, R221, R222, R318: an iteration of `RECLAIM_TX` on a completed descriptor, the first, in the command's own step,
and each later one, in a step of the command in progress (log 6): the timestamp is correlated, the counters grow, the slot
is released, `completion` moves on by one. The same holds of the iterations of the `RECLAIM_TX` that the handler calls
(R270, log 16), the first in the step of its call. -/
def Obligations.ReclaimTakes : Prop :=
  ∀ (s : State) (q : Chan) (out : List Word) (run : State → Res) (left : ReclaimSt → List Task),
    let r : RingId := ⟨.tx, q⟩
    let w := s.ring r
    let i := w.completion
    let st := s.statusD r i
    let h := s.getD r i 0x34
    let sw := s.getD r i 0x3C
    let tag : BitVec 16 := sw.extractLsb' 0 16
    let stamped := sw.getLsbD 31 = true
    (s.sw.ctxPresent = true ∧ w.rstate = .running ∧ s.bodyBusy r = false ∧ out = [] ∧ run = exec (.reclaimTx q.val) ∧
        left = (fun p => s.tasks ++ [.reclaim p]) ∨
      (∃ k, s.tasks[k]? = some (.reclaim ⟨q, out⟩) ∧ run = resume k ∧ left = fun p => s.tasks.set k (.reclaim p)) ∨
      ∃ k b qs c, run = resume k ∧ left = (fun p => s.tasks.set k (.irq .tx b qs (.reclaim q c p))) ∧
        (s.tasks[k]? = some (.irq .tx b qs (.reclaim q c ⟨q, out⟩)) ∨
          s.tasks[k]? = some (.irq .tx b qs (.call q c)) ∧ out = [] ∧ s.sw.ctxPresent = true ∧ w.rstate = .running ∧
            (s.setTasks (s.tasks.eraseIdx k)).bodyBusy r = false)) →
    s.HasPool r → i ≠ w.issue → cmpltOf st = true →
    ∃ t, run s = .next t ∧
      t.ring r = { w with
        completion := incMod w.cap i, bytes := w.bytes + BitVec.ofNat 64 (lenOf st),
        packets := if h ≠ 0 ∧ errBits st = 0 then w.packets + 1 else w.packets,
        errors := if h ≠ 0 ∧ errBits st ≠ 0 then w.errors + 1 else w.errors } ∧
      t.slotCleared r i ∧ t.tasks = left ⟨q, out ++ if h = 0 then [] else [h]⟩ ∧
      (¬stamped → t.events = s.events ++ s.releaseEvents r i ∧ t.tags q = s.tags q ∧ t.txe q = s.txe q) ∧
      (∀ e es, stamped → (s.txe q).tsf = e :: es → e.tag = tag →
        t.events = s.events ++ (match kvGet (s.tags q).tagmap tag.toNat with | some x => [.txTimestamp x e.ts] | none => []) ++
          s.releaseEvents r i ∧
        t.txe q = { s.txe q with tsf := es }) ∧
      (stamped → ((s.txe q).tsf.head?.map TsEntry.tag) ≠ some tag → tag ≠ 0xFFFF →
        t.events = s.events ++ s.releaseEvents r i ∧ t.txe q = s.txe q) ∧
      (stamped → t.tags q = { s.tags q with tagmap := kvDel (s.tags q).tagmap tag.toNat }) ∧
      Keeps { rings := (· = r), fences := (· = r), tags := (· = q), txe := (· = q), events := True, tasks := True,
              bytes := s.inWords r i (clearedOffs s.cfg.variant) } s t

/-! ### The scheduler -/

/-- R240, R241, R242: `CONFIGURE_WEIGHT` changes the one weight, of a halted channel, to a value that fits; every other call
answers `InvalidConfiguration` and changes nothing else. That it does so on a `Fatal` ring too is log 32's DESIGN CHOICE
(R297). While an `ATTACH` or a `DETACH` is in progress in the one control context (R18 (d)) it has to wait; that the wait is
a refusal is the model's DESIGN CHOICE (log 19). -/
def Obligations.WeightConfigured : Prop :=
  ∀ (s : State) (c w : Nat), s.sw.ctxPresent = true →
    (s.controlBusy = true → exec (.configureWeight c w) s = .refused .contextBusy) ∧
    (s.controlBusy = false →
    let others (c : Nat) : Nat :=
      (((chansBelow s.cfg.nq).filter fun d => d.val ≠ c ∧ (s.regs ⟨.tx, d⟩).run = true).map fun d => (s.weight d).toNat).sum
    let allowed := s.cfg.variant = .mc ∧ c < s.cfg.nq ∧ c < 16 ∧ 1 ≤ w ∧ w ≤ 15 ∧
      (∀ d : Chan, d.val = c → halted (s.regs ⟨.tx, d⟩) = true) ∧ ∀ m, s.cfg.weightSumLimit = some m → w + others c ≤ m
    (¬allowed → exec (.configureWeight c w) s = .next (s.answer 0x20 .invalidConfiguration)) ∧
    (allowed → ∃ t, exec (.configureWeight c w) s = .next t ∧ t.answers = s.answers ++ [⟨0x20, .ok⟩] ∧
      (∀ d : Chan, t.weight d = if d.val = c then BitVec.ofNat 4 w else s.weight d) ∧
      Keeps { weights := fun d => d.val = c, answers := True } s t))

/-- R243, R244: `ENABLE_CHANNEL` starts the ring of each direction asked for and sets its `CH_IER` bit, in one step; an
enabled channel's recorded event raises the output. Otherwise the answer says why, and nothing else changes. While an
`ATTACH` or a `DETACH` is in progress in the one control context (R18 (d)) it has to wait; that the wait is a refusal is the
model's DESIGN CHOICE (log 19). -/
def Obligations.ChannelEnabled : Prop :=
  ∀ (s : State) (c : Chan) (n : Nat) (dirs : Dirs), s.sw.ctxPresent = true →
    (s.controlBusy = true → exec (.enableChannel n dirs) s = .refused .contextBusy) ∧
    (s.controlBusy = false →
    let asked (r : RingId) : Prop := r.q = c ∧ r.dir ∈ dirsOf dirs
    (s.cfg.variant = .sq ∨ s.cfg.nq ≤ n ∨ 16 ≤ n →
      exec (.enableChannel n dirs) s = .next (s.answer 0x21 .invalidConfiguration)) ∧
    (s.cfg.variant = .mc → c.val < s.cfg.nq →
      ((∃ r, asked r ∧ (s.ring r).rstate = .fatal) →
        exec (.enableChannel c.val dirs) s = .next (s.answer 0x21 .fatal)) ∧
      ((∀ r, asked r → (s.ring r).rstate ≠ .fatal) → (∃ r, asked r ∧ (s.ring r).rstate ≠ .running) →
        exec (.enableChannel c.val dirs) s = .next (s.answer 0x21 .notReady)) ∧
      ((∀ r, asked r → (s.ring r).rstate = .running) →
        ∃ t, exec (.enableChannel c.val dirs) s = .next t ∧ t.answers = s.answers ++ [⟨0x21, .ok⟩] ∧
          (∀ r, asked r →
            let x := s.regs r
            t.regs r = (if x.resetBusy = true ∨ x.stopPending = true ∨ x.run = true then { x with chIer := true }
              else { x with chIer := true, run := true, tailValid := false, idle := false }) ∧
            (t.irq r.dir = true ↔ s.irq r.dir = true ∨ x.chIsr = true ∨
              ∃ d : Chan, d.val < s.cfg.nq ∧ (s.regs ⟨r.dir, d⟩).chIer = true ∧ (s.regs ⟨r.dir, d⟩).chIsr = true)) ∧
          Keeps { regs := asked, irq := (· ∈ dirsOf dirs), answers := True } s t)))

/-- R245: `DISABLE_CHANNEL` clears the channel's two bits in each direction asked for: its ring gets a stop request, its
events are no longer passed on. That it does so on a `Fatal` ring too is log 32's DESIGN CHOICE (R297). While an `ATTACH` or
a `DETACH` is in progress in the one control context (R18 (d)) it has to wait; that the wait is a refusal is the model's
DESIGN CHOICE (log 19). -/
def Obligations.ChannelDisabled : Prop :=
  ∀ (s : State) (c : Chan) (n : Nat) (dirs : Dirs), s.sw.ctxPresent = true →
    (s.controlBusy = true → exec (.disableChannel n dirs) s = .refused .contextBusy) ∧
    (s.controlBusy = false →
    let asked (r : RingId) : Prop := r.q = c ∧ r.dir ∈ dirsOf dirs
    (s.cfg.variant = .sq ∨ s.cfg.nq ≤ n ∨ 16 ≤ n →
      exec (.disableChannel n dirs) s = .next (s.answer 0x22 .invalidConfiguration)) ∧
    (s.cfg.variant = .mc → c.val < s.cfg.nq →
      ∃ t, exec (.disableChannel c.val dirs) s = .next t ∧ t.answers = s.answers ++ [⟨0x22, .ok⟩] ∧
        (∀ r, asked r →
          let x := s.regs r
          t.regs r = (if x.resetBusy = true ∨ x.stopPending = true ∨ x.run = false then { x with chIer := false }
            else { x with chIer := false, run := false, stopPending := true }) ∧
          (t.irq r.dir = true ↔ s.irq r.dir = true ∨
            ∃ d : Chan, d ≠ c ∧ d.val < s.cfg.nq ∧ (s.regs ⟨r.dir, d⟩).chIer = true ∧ (s.regs ⟨r.dir, d⟩).chIsr = true)) ∧
        Keeps { regs := asked, irq := (· ∈ dirsOf dirs), answers := True } s t))

/-- R250, R252: a grant goes to the first eligible channel from `rr_ptr` on that has credit, after a reload when none has; its
credit goes down by one, and `rr_ptr` stays with it until it has none. A channel of weight 0 never has credit and is never
granted (R177, U10), also when a raw write has taken its weight inside a round. That is R250's arbiter, the reference one:
of an implementation R251 asks (a) to (d) only; that this model has R250's order is its choice (DESIGN CHOICE, log 20). -/
def Obligations.ArbiterGrants : Prop :=
  ∀ s : State, s.cfg.variant = .mc → s.hw.grant = none → (∃ c, s.eligible c = true ∧ s.weight c ≠ 0) →
    let used := ∀ d, s.eligible d = true → s.weight d ≠ 0 → s.credit d = 0
    let credit (c : Chan) : Nat := if used then (s.weight c).toNat else s.credit c
    let grantable (c : Chan) : Prop := s.eligible c = true ∧ s.weight c ≠ 0 ∧ 0 < credit c
    ∃ t k, exec .eArbGrant s = .next t ∧ k < 16 ∧
      let c := chanAdd s.hw.rrPtr k
      grantable c ∧ (∀ j, j < k → ¬grantable (chanAdd s.hw.rrPtr j)) ∧
      t.hw.grant = some c ∧ (∀ d, t.credit d = if d = c then credit c - 1 else credit d) ∧
      t.hw.rrPtr = (if credit c = 1 then chanAdd c 1 else c) ∧ Keeps { credits := True, grant := True } s t

/-- R254: in a round, from a reload until the credits are used up, each of the channels that stay eligible is granted
exactly its weight, and then the next round begins. Exact shares are those of R250's arbiter (R254: under rule R250), which
this model has by its choice (DESIGN CHOICE, log 20). -/
def Obligations.RoundIsProportional : Prop :=
  ∀ s : State, s.cfg.variant = .mc → s.hw.grant = none → (∀ c, s.eligible c = true → s.credit c = 0) →
    let n := ((allChans.filter s.eligible).map fun c => (s.weight c).toNat).sum
    (∀ c, (grantRun n s).1.count c = if s.eligible c = true then (s.weight c).toNat else 0) ∧
    (∀ c, s.eligible c = true → (grantRun n s).2.credit c = 0)

/-! ### The interrupt handler -/

/-- R270, R271, R276: `IRQ_SERVICE` lowers the output of its direction and goes on in its later steps (log 16). A run begun
with the output low is spurious and changes nothing (R276). In `SQ` a second run of one direction waits for the first (log
19: the wait is a refusal, DESIGN CHOICE); in `MC` runs interleave. In `MC` the handler clears in `CH_ISR` exactly the
channels that are recorded and enabled, and services them in ascending order (R275). -/
def Obligations.HandlerStarts : Prop :=
  (∀ (s : State) (d : Dir) (budget : Nat),
     (s.irq d = false → exec (.irqService d budget) s = .next s) ∧
     (s.irq d = true → s.cfg.variant = .sq → s.irqBusy d = true →
       exec (.irqService d budget) s = .refused .bodyInProgress) ∧
     (s.irq d = true → s.cfg.variant = .mc ∨ s.irqBusy d = false →
       ∃ t, exec (.irqService d budget) s = .next t ∧ t.irq d = false ∧
         t.tasks = s.tasks ++ [match s.cfg.variant with | .sq => .irq d budget [0] .entry | .mc => .irq d budget [] .readChIsr] ∧
         Keeps { irq := (· = d), tasks := True } s t)) ∧
  (∀ (s : State) (k : Nat) (d : Dir) (budget : Nat), s.cfg.variant = .mc →
     s.tasks[k]? = some (.irq d budget [] .readChIsr) →
     let served (c : Chan) : Bool := decide (c.val < s.cfg.nq) && (s.regs ⟨d, c⟩).chIsr && (s.regs ⟨d, c⟩).chIer
     ∃ t, follow [resume k, resume k, resume k] s = some t ∧
       (∀ c : Chan, c.val < s.cfg.nq →
         t.regs ⟨d, c⟩ = { s.regs ⟨d, c⟩ with chIsr := (s.regs ⟨d, c⟩).chIsr && !(s.regs ⟨d, c⟩).chIer }) ∧
       (allChans.filter served ≠ [] → t.tasks[k]? = some (.irq d budget (allChans.filter served) .entry)) ∧
       (allChans.filter served = [] → t.tasks = s.tasks.eraseIdx k) ∧
       Keeps { regs := fun r => r.dir = d ∧ r.q.val < s.cfg.nq, tasks := True } s t)

/-- R272, R270, R277: what the handler does on entry. It waits for another handler's body on the ring (R276; that the wait
is a step in which nothing happens is log 19's DESIGN CHOICE). On `ERR` it masks the ring, in `MC` the channel too, marks
the recovery pending and schedules it, clears nothing and reclaims nothing, and goes on. Other causes lead to the ring's
call. A ring that is not `Running` or without a cause, and every ring without a context, is passed over. -/
def Obligations.HandlerOnError : Prop :=
  ∀ (s : State) (k : Nat) (d : Dir) (budget : Nat) (q : Chan) (qs : List Chan), q.val < s.cfg.nq →
    s.tasks[k]? = some (.irq d budget (q :: qs) .entry) →
    let r : RingId := ⟨d, q⟩
    let x := s.regs r
    let goesOn (t : State) : Prop :=
      t.tasks = match qs with | [] => s.tasks.eraseIdx k | _ :: _ => s.tasks.set k (.irq d budget qs .entry)
    (s.irqBodyBusy r = true → resume k s = .next s) ∧
    (s.irqBodyBusy r = false →
      (s.sw.ctxPresent = false ∨ (s.ring r).rstate ≠ .running ∨ x.isr = 0 →
        ∃ t, resume k s = .next t ∧ goesOn t ∧ Keeps { tasks := True } s t) ∧
      (s.sw.ctxPresent = true → (s.ring r).rstate = .running → x.isr ≠ 0 → x.isr.getLsbD 2 = false →
        ∃ t, resume k s = .next t ∧ t.tasks = s.tasks.set k (.irq d budget qs (.call q x.isr)) ∧
          Keeps { tasks := True } s t) ∧
      (s.sw.ctxPresent = true → (s.ring r).rstate = .running → x.isr.getLsbD 2 = true → x.resetBusy = false →
        let steps := match s.cfg.variant with | .sq => [resume k, resume k] | .mc => [resume k, resume k, resume k]
        ∃ t, follow steps s = some t ∧ goesOn t ∧
          t.regs r = { x with ier := 0, chIer := x.chIer && s.cfg.variant == .sq } ∧
          t.ring r = { s.ring r with recoveryPending := true } ∧ t.events = s.events ++ [.scheduleRecovery r] ∧
          Keeps { regs := (· = r), rings := (· = r), events := True, tasks := True, irq := (· = d) } s t))

/-- R270, R273, R274, R279, R431: the handler between its entry on a ring and its return. The call of `POLL_RX` or
`RECLAIM_TX` waits for another body on the ring (R276); that the wait is a step in which nothing changes is log 19's DESIGN
CHOICE. Without a context the body ends there: log 16's DESIGN CHOICE. It takes no frame from a ring that has left `Running`
(R219); its iterations and its end are `PollTakes`, `ReclaimTakes` and `ScansEnd`. Every frame `POLL_RX` yielded goes
upward, in order; with more frames ready the causes are not cleared (the budget's end, R274), else those served are, and no
other. Then the causes served are enabled again; one that is asserted and enabled by then is delivered at once (R337). -/
def Obligations.HandlerReturns : Prop :=
  ∀ (s : State) (k : Nat) (d : Dir) (budget : Nat) (q : Chan) (v : BitVec 3) (qs : List Chan),
    let r : RingId := ⟨d, q⟩
    let x := s.regs r
    let goesOn (t : State) : Prop :=
      t.tasks = match qs with | [] => s.tasks.eraseIdx k | _ :: _ => s.tasks.set k (.irq d budget qs .entry)
    let others := s.setTasks (s.tasks.eraseIdx k)
    (s.tasks[k]? = some (.irq d budget qs (.call q v)) →
      (others.bodyBusy r = true → resume k s = .next s) ∧
      (others.bodyBusy r = false → s.sw.ctxPresent = false →
        ∃ t, resume k s = .next t ∧ goesOn t ∧ Keeps { tasks := True } s t) ∧
      (others.bodyBusy r = false → s.sw.ctxPresent = true → (s.ring r).rstate ≠ .running →
        ∃ t, resume k s = .next t ∧ Keeps { tasks := True } s t ∧
          t.tasks = s.tasks.set k (.irq d budget qs (match d with | .tx => .writeIcr q v | .rx => .deliver q v [])))) ∧
    (∀ fs, s.tasks[k]? = some (.irq d budget qs (.deliver q v fs)) →
      let more := (s.ring r).present = true ∧ cmpltOf (s.statusD r (s.ring r).completion) = true
      ∃ t, resume k s = .next t ∧ t.events = s.events ++ fs.map (Event.rxDeliver q) ∧
        t.tasks = s.tasks.set k (.irq d budget qs (if more then .readIer q v else .writeIcr q v)) ∧
        Keeps { events := True, tasks := True } s t) ∧
    (∀ steps left,
      (s.tasks[k]? = some (.irq d budget qs (.writeIcr q v)) ∧ steps = [resume k, resume k, resume k] ∧
          left = x.isr &&& ~~~v ∨
        s.tasks[k]? = some (.irq d budget qs (.readIer q v)) ∧ steps = [resume k, resume k] ∧ left = x.isr) →
      x.resetBusy = false →
      ∃ t, follow steps s = some t ∧
        t.regs r = { x with isr := left, ier := (x.ier ||| v) &&& ~~~left,
                            chIsr := x.chIsr || (s.cfg.variant == .mc && (x.ier ||| v) &&& left != 0) } ∧
        t.irq d = (s.irq d || (((x.ier ||| v) &&& left != 0) && (s.cfg.variant == .sq || x.chIer))) ∧ goesOn t ∧
        Keeps { regs := (· = r), irq := (· = d), tasks := True } s t)

/-! ### Recovery -/

/-- R291: `RECOVER_BEGIN` takes the ring's lock and asks for a reset of the ring, when no other command operation on the
ring is in progress: it waits for a body on the ring (R296) and for an `ATTACH` that is still in progress (R470); that a
wait is a refusal is the model's DESIGN CHOICE (log 19, log 21). -/
def Obligations.RecoveryBegins : Prop :=
  ∀ (s : State) (r : RingId), r.q.val < s.cfg.nq → s.sw.ctxPresent = true → (s.ring r).rstate = .running →
    (s.ring r).recoveryPending = true →
    (s.controlBusy = true → exec (.recoverBegin r.dir r.q.val) s = .refused .contextBusy) ∧
    (s.controlBusy = false → s.bodyBusy r = true → exec (.recoverBegin r.dir r.q.val) s = .refused .bodyInProgress) ∧
    (s.controlBusy = false → s.bodyBusy r = false →
      ∃ t b, exec (.recoverBegin r.dir r.q.val) s = .next t ∧
        t.ring r = { s.ring r with rstate := .halting, recoveryPending := false, retries := 0 } ∧
        t.regs r = (if (s.regs r).resetBusy = true then s.regs r
          else { s.regs r with resetBusy := true, resetCompletes := b }) ∧
        (srWord (t.regs r)).getLsbD 0 = false ∧
        (∀ b' bs, s.env.resetCompletes = b' :: bs → b = b') ∧
        t.hw.grant = (if (s.regs r).resetBusy = false ∧ s.cfg.variant = .mc ∧ r.dir = .tx ∧ s.hw.grant = some r.q
          then none else s.hw.grant) ∧
        Keeps { regs := (· = r), rings := (· = r), grant := True, env := True } s t)

/-- R292: one poll of the halted status. Seen: `Halted`. Not seen: one more retry; at `RESET_RETRY_MAX` the ring is `Fatal`
with the cause recorded and surfaced. -/
def Obligations.RecoveryPolls : Prop :=
  ∀ (s : State) (r : RingId), r.q.val < s.cfg.nq → s.sw.ctxPresent = true → (s.ring r).rstate = .halting →
    let w := s.ring r
    let n := w.retries + 1
    let seen := (srWord (s.regs r)).getLsbD 0 = true
    ∃ t, exec (.recoverPoll r.dir r.q.val) s = .next t ∧
      t.ring r = (if seen then { w with rstate := .halted }
        else if s.cfg.resetRetryMax ≤ n then { w with retries := n, rstate := .fatal, fatalCause := some .resetTimeout }
        else { w with retries := n }) ∧
      t.events = s.events ++ (if ¬seen ∧ s.cfg.resetRetryMax ≤ n then [.fatal r .resetTimeout] else []) ∧
      Keeps { rings := (· = r), events := True } s t

/-- R293: `RECOVER_DRAIN` of a TX ring releases every slot in flight, in order, one drop a frame, and forgets the tags; of
an RX ring it releases nothing. No counter of completed frames moves. (The `WMB` owed is log 12's.) -/
def Obligations.RecoveryDrains : Prop :=
  ∀ (s : State) (r : RingId), s.HasPool r → s.sw.ctxPresent = true → (s.ring r).rstate = .halted →
    let w := s.ring r
    let m := (w.issue + (w.cap - w.completion)) % w.cap
    let slots := (List.range m).map fun j => (w.completion + j) % w.cap
    let held := (slots.filter fun i => s.getD r i 0x34 != 0).length
    ∃ t, exec (.recoverDrain r.dir r.q.val) s = .next t ∧
      (r.dir = .tx →
        t.ring r = { w with rstate := .reconfiguring, dropped := w.dropped + BitVec.ofNat 64 held } ∧
        t.unfenced r = (s.unfenced r || decide (0 < m)) ∧
        (∀ i ∈ slots, t.slotCleared r i) ∧ t.events = s.events ++ slots.flatMap (s.releaseEvents r) ∧
        t.tags r.q = { s.tags r.q with tagmap := [] }) ∧
      (r.dir = .rx → t.ring r = { w with rstate := .reconfiguring } ∧ t.events = s.events ∧ t.unfenced r = s.unfenced r ∧
        ∀ a, memByte t.mem a = memByte s.mem a) ∧
      Keeps { rings := (· = r), fences := (· = r), tags := fun q => r = ⟨.tx, q⟩, events := True,
              bytes := fun a => ∃ i ∈ slots, s.inWords r i (clearedOffs s.cfg.variant) a } s t

/-- R294: the first step of `RECOVER_RECONFIG` rebuilds the ring: cursors at 0, the chain linked, no descriptor complete,
and its `WMB` (R122). Of a TX ring `RESET_RING` changes `NEXT` and `STATUS` only (R195); of an RX ring `ARM_RX` writes
`CTRL`, and a slot keeps the buffer it has (R196). That all this is one step is log 6's DESIGN CHOICE. Its register writes
are its later steps (`RecoveryRestores`). -/
def Obligations.RecoveryRebuilds : Prop :=
  ∀ (s : State) (r : RingId), s.HasPool r → s.sw.ctxPresent = true → (s.ring r).rstate = .reconfiguring →
    s.bodyBusy r = false → halted (s.regs r) = true →
    let v := s.cfg.variant
    let w := s.ring r
    ∃ t, exec (.recoverReconfig r.dir r.q.val) s = .next t ∧
      t.ring r = { w with issue := 0, hwTail := 0, completion := 0, populated := w.populated || r.dir == .rx } ∧
      (∀ r', t.unfenced r' = false) ∧
      (∀ i, i < w.cap → t.getD r i 0x00 = daddr w.base ((i + 1) % w.cap) ∧ t.getD r i (statusOff v) = 0) ∧
      (r.dir = .rx → ∀ i, i < w.cap →
        t.getD r i (ctrlOff v) = BitVec.ofNat 32 s.cfg.rxBufSize ∧ t.getApp r i = appZero ∧ t.getD r i 0x3C = 0 ∧
        t.getD r i 0x34 ≠ 0 ∧
        (s.getD r i 0x34 ≠ 0 → t.getD r i 0x34 = s.getD r i 0x34 ∧ t.getD r i 0x08 = s.getD r i 0x08 ∧
          t.getD r i 0x38 = s.getD r i 0x38)) ∧
      (r.dir = .tx → t.env = s.env) ∧ t.tasks = s.tasks ++ [.reconfig r .curdesc] ∧
      Keeps { rings := (· = r), fences := fun _ => True, env := True, tasks := True,
              bytes := fun a => ∃ i, i < w.cap ∧ s.inWords r i
                (match r.dir with | .tx => [0x00, statusOff v] | .rx => 0x00 :: filledOffs v) a } s t

/-- R300, R290 to R294: a recovery whose halt is confirmed, from the pending fault to the ring in service again: cursors 0,
the engine at the ring's base and running, the causes enabled, the ring `Running`; a receive ring has its doorbell. -/
def Obligations.RecoveryRestores : Prop :=
  ∀ (s : State) (r : RingId) (bs : List Bool), s.HasPool r → s.sw.ctxPresent = true → (s.ring r).rstate = .running →
    (s.ring r).recoveryPending = true → s.tasks = [] → (s.regs r).resetBusy = false →
    s.env.resetCompletes = true :: bs →
    1 ≤ (s.cfg.ring r).thresh → (s.cfg.ring r).thresh ≤ 255 → (s.cfg.ring r).delay ≤ 255 →
    let d := r.dir
    let q := r.q.val
    ∃ t, follow [exec (.recoverBegin d q), exec (.eResetDone d q), exec (.recoverPoll d q), exec (.recoverDrain d q),
        exec (.recoverReconfig d q), resume 0, resume 0, resume 0, resume 0] s = some t ∧
      (t.ring r).issue = 0 ∧ (t.ring r).hwTail = 0 ∧ (t.ring r).completion = 0 ∧ (t.ring r).rstate = .running ∧
      (t.ring r).recoveryPending = false ∧ (t.ring r).packets = (s.ring r).packets ∧
      (t.ring r).bytes = (s.ring r).bytes ∧ (t.ring r).errors = (s.ring r).errors ∧
      (t.regs r).run = true ∧ (t.regs r).stopPending = false ∧ (t.regs r).resetBusy = false ∧
      (t.regs r).curdesc = (s.ring r).base ∧ (t.regs r).isr = 0 ∧ (t.regs r).ier = 7 ∧
      (t.regs r).thresh = BitVec.ofNat 8 (s.cfg.ring r).thresh ∧ (t.regs r).delay = BitVec.ofNat 8 (s.cfg.ring r).delay ∧
      (s.cfg.variant = .mc → (t.regs r).chIer = true) ∧
      (d = .tx → (t.regs r).tailValid = false ∧ (t.tags r.q).tagmap = [] ∧
        (t.tags r.q).nextTag = (s.tags r.q).nextTag) ∧
      (d = .rx → (t.regs r).tailValid = true ∧ (t.regs r).idle = false ∧
        (t.regs r).taildesc = daddr (s.ring r).base ((s.ring r).cap - 1)) ∧
      (∀ r', r' ≠ r → t.regs r' = s.regs r' ∧ t.ring r' = s.ring r') ∧ t.tasks = [] ∧ t.answers = s.answers

/-! ### Attach, detach, link, statistics -/

/-- R422: `VALIDATE` names the first test that fails, in the order of the rule. R420, R423: the first phase of `ATTACH`: a
configuration that fails is answered with its subcode and changes nothing; a valid one goes on in the later phases (log 6,
log 15). With a context, or with a ring that runs, `ATTACH` is refused. -/
def Obligations.AttachValidates : Prop :=
  (∀ c : Config,
     let count := match c.variant with | .sq => c.nq = 1 | .mc => 1 ≤ c.nq ∧ c.nq ≤ 16
     let aligned := c.regBase.toNat % 4096 = 0
     let size :=
       (∀ r : RingId, r.q.val < c.nq → 2 ≤ (c.ring r).cap ∧ (c.ring r).cap ≤ 32768 ∧ 1 ≤ (c.ring r).thresh ∧
         (c.ring r).thresh ≤ 255 ∧ (c.ring r).delay ≤ 255) ∧
       1 ≤ c.maxFrame ∧ c.maxFrame ≤ 2 ^ 23 - 1 ∧ c.maxFrame ≤ c.rxBufSize ∧ c.rxBufSize ≤ 2 ^ 23 - 1 ∧ 1 ≤ c.resetRetryMax
     let weight := c.variant = .mc →
       (∀ q : Chan, q.val < c.nq → 1 ≤ c.weight q ∧ c.weight q ≤ 15) ∧
       ∀ m, c.weightSumLimit = some m → ((allChans.filter fun q => q.val < c.nq).map c.weight).sum ≤ m
     (¬count → validate c = some .queueCount) ∧ (count → ¬aligned → validate c = some .alignment) ∧
     (count → aligned → ¬size → validate c = some .size) ∧
     (count → aligned → size → ¬weight → validate c = some .weight) ∧
     (count → aligned → size → weight → validate c = none)) ∧
  (∀ (s : State) (c : Config), s.controlBusy = false →
     (s.sw.ctxPresent = true ∨ (∃ r, halted (s.regs r) = false) → exec (.attach c) s = .refused .attachNotEnabled) ∧
     (s.sw.ctxPresent = false → (∀ r, halted (s.regs r) = true) →
       (∀ e, validate c = some e → exec (.attach c) s = .next (s.answer 0x01 (.configError e))) ∧
       (validate c = none → exec (.attach c) s = .next (s.addTask (.attach .allocate c)))))

/-- R420, R81, R196, R505: a whole `ATTACH` of an `SQ` device whose two pools are granted apart from each other: its first
step and the fifteen after it (each register access one, D45; the commands in progress are log 6's and log 15's) bring both
engines up at their ring's base, both chains linked, every receive slot armed with a buffer, the k-th with the k-th the
environment supplies, the receive ring rung, the link down, and answer `Ok`. That the configuration is the machine's then is
log 1 (DESIGN CHOICE). -/
def Obligations.AttachBringsUp : Prop :=
  ∀ (s : State) (c : Config) (b1 b2 : Word) (rest : List (Option Word)), s.tasks = [] → s.sw.ctxPresent = false →
    (∀ r, halted (s.regs r) = true ∧ (s.ring r).present = false) →
    (∀ d, (s.regs ⟨d, 0⟩).isr = 0) → c.variant = .sq → validate c = none → s.env.allocs = some b1 :: some b2 :: rest →
    let cap (d : Dir) : Nat := (c.ring ⟨d, 0⟩).cap
    let base (d : Dir) : Word := match d with | .tx => b1 | .rx => b2
    let rx : RingId := ⟨.rx, 0⟩
    blockOk b1 (cap .tx) = true → blockOk b2 (cap .rx) = true →
    b1.toNat + 64 * cap .tx ≤ b2.toNat ∨ b2.toNat + 64 * cap .rx ≤ b1.toNat →
    ∃ t, follow (exec (.attach c) :: List.replicate 15 (resume 0)) s = some t ∧
      t.cfg = c ∧ t.tasks = [] ∧ t.sw.ctxPresent = true ∧ t.sw.linkUp = false ∧ t.sw.txCsum = c.caps.txCsum ∧
      t.sw.rxCsum = c.caps.rxCsum ∧ t.sw.tsEnabled = c.caps.ts ∧ t.answers = s.answers ++ [⟨0x01, .ok⟩] ∧
      t.events = s.events ∧ t.tags 0 = ⟨0, []⟩ ∧ (∀ d, t.irq d = s.irq d) ∧
      (∀ d,
        let w := t.ring ⟨d, 0⟩
        let x := t.regs ⟨d, 0⟩
        w.present = true ∧ w.base = base d ∧ w.cap = cap d ∧ w.issue = 0 ∧ w.hwTail = 0 ∧ w.completion = 0 ∧
        w.rstate = .running ∧ w.recoveryPending = false ∧ w.retries = 0 ∧ w.packets = 0 ∧ w.bytes = 0 ∧ w.errors = 0 ∧
        w.dropped = 0 ∧ w.populated = (d == .rx) ∧
        x.run = true ∧ x.stopPending = false ∧ x.curdesc = base d ∧ x.ier = 7 ∧ x.isr = 0 ∧
        x.thresh = BitVec.ofNat 8 (c.ring ⟨d, 0⟩).thresh ∧ x.delay = BitVec.ofNat 8 (c.ring ⟨d, 0⟩).delay ∧
        x.idle = false ∧ x.tailValid = (d == .rx) ∧
        ∀ i, i < cap d → t.getD ⟨d, 0⟩ i 0x00 = daddr (base d) ((i + 1) % cap d) ∧
          t.getD ⟨d, 0⟩ i (statusOff .sq) = 0) ∧
      (∀ i, i < cap .rx →
        t.getD rx i (ctrlOff .sq) = BitVec.ofNat 32 c.rxBufSize ∧ t.getD rx i 0x34 ≠ 0 ∧ t.getD rx i 0x38 = 1 ∧
        ∀ h a, s.env.rxBuffers[i]? = some (h, a) → t.getD rx i 0x08 = a ∧ (h ≠ 0 → t.getD rx i 0x34 = h)) ∧
      (t.regs rx).taildesc = daddr b2 (cap .rx - 1)

/-- R425, R426: `DETACH` starts by making every ring `Fatal`; while a recovery is in progress it waits (log 21: the wait is
a refusal, DESIGN CHOICE), and so it does while another `ATTACH` or `DETACH` is in progress in the one control context (R18
(d); log 19: the wait is a refusal, DESIGN CHOICE). Then, one access a step (log 15), it masks every ring (R270) and asks
for its reset. A poll that sees a halted ring goes on to the next; one that does not, and is the last allowed, ends with
`ResetTimeout`, gives nothing back and records the cause of that ring alone (R425, R426, R38; a remark of `90_conflicts.md`
C17 denies it, and that the rules hold is the model's reading: DEDUCED, log 14). With every ring seen halted, every slot of
pools that are apart from each other gives up what it holds, in order, TX frames counted as dropped, and the ring-manager
state is absent: the values it then has are the model's (DESIGN CHOICE, log 2). -/
def Obligations.DetachProceeds : Prop :=
  (∀ s : State, s.sw.ctxPresent = true →
     (s.controlBusy = true → exec .detach s = .refused .contextBusy) ∧
     (s.controlBusy = false → (∃ r : RingId, r.q.val < s.cfg.nq ∧ inRecovery (s.ring r).rstate = true) →
       exec .detach s = .refused .wrongRingState) ∧
     (s.controlBusy = false → (∀ r : RingId, r.q.val < s.cfg.nq → inRecovery (s.ring r).rstate = false) →
       ∃ t, exec .detach s = .next t ∧
         t.tasks = s.tasks ++ [.detach (.mask ((ringsBelow s.cfg.nq).flatMap fun r =>
           match s.cfg.variant with
           | .sq => [.maskIer r, .reset r]
           | .mc => [.maskIer r, .maskChIer r, .reset r]))] ∧
         (∀ r : RingId, r.q.val < s.cfg.nq → t.ring r = { s.ring r with rstate := .fatal, recoveryPending := false }) ∧
         Keeps { rings := fun r => r.q.val < s.cfg.nq, tasks := True } s t)) ∧
  (∀ (s : State) (k : Nat) (r : RingId) (a : Access) (as : List Access), s.tasks[k]? = some (.detach (.mask (a :: as))) →
     let x := s.regs r
     let left := match as with | [] => DetachStage.poll (ringsBelow s.cfg.nq) 0 | _ :: _ => .mask as
     r.q.val < s.cfg.nq → a = .maskIer r ∨ (s.cfg.variant = .mc ∧ a = .maskChIer r) ∨ a = .reset r →
     ∃ t b, resume k s = .next t ∧ t.tasks = s.tasks.set k (.detach left) ∧
       (a = .maskIer r → t.regs r = if x.resetBusy = true then x else { x with ier := 0 }) ∧
       (a = .maskChIer r → t.regs r = { x with chIer := false } ∧
         (t.irq r.dir = true ↔ s.irq r.dir = true ∨ ∃ c : Chan, c ≠ r.q ∧ c.val < s.cfg.nq ∧
           (s.regs ⟨r.dir, c⟩).chIer = true ∧ (s.regs ⟨r.dir, c⟩).chIsr = true)) ∧
       (a = .reset r →
         t.regs r = (if x.resetBusy = true then x else { x with resetBusy := true, resetCompletes := b }) ∧
         (∀ b' bs, s.env.resetCompletes = b' :: bs → b = b') ∧
         t.hw.grant = (if x.resetBusy = false ∧ s.cfg.variant = .mc ∧ r.dir = .tx ∧ s.hw.grant = some r.q
           then none else s.hw.grant)) ∧
       Keeps { regs := (· = r), irq := fun d => a = .maskChIer r ∧ d = r.dir, grant := a = .reset r, env := a = .reset r,
               tasks := True } s t) ∧
  (∀ (s : State) (k n : Nat) (r : RingId) (rs : List RingId), s.tasks[k]? = some (.detach (.poll (r :: rs) n)) →
     (halted (s.regs r) = true →
       ∃ t, resume k s = .next t ∧ t.tasks = s.tasks.set k (.detach (.poll rs 0)) ∧ Keeps { tasks := True } s t) ∧
     (halted (s.regs r) = false → n + 1 < s.cfg.resetRetryMax →
       ∃ t, resume k s = .next t ∧ t.tasks = s.tasks.set k (.detach (.poll (r :: rs) (n + 1))) ∧
         Keeps { tasks := True } s t) ∧
     (halted (s.regs r) = false → s.cfg.resetRetryMax ≤ n + 1 →
       ∃ t, resume k s = .next t ∧ t.tasks = s.tasks.eraseIdx k ∧ t.answers = s.answers ++ [⟨0x02, .resetTimeout⟩] ∧
         t.ring r = { s.ring r with fatalCause := some .resetTimeout } ∧
         Keeps { rings := (· = r), answers := True, tasks := True } s t)) ∧
  (∀ (s : State) (k n : Nat), s.tasks[k]? = some (.detach (.poll [] n)) →
     let here (r : RingId) : Prop := r.q.val < s.cfg.nq
     let cap (r : RingId) : Nat := (s.ring r).cap
     let low (r : RingId) : Nat := (s.ring r).base.toNat
     let held (r : RingId) : Nat := ((List.range (cap r)).filter fun i => s.getD r i 0x34 != 0).length
     (∀ r, here r → s.HasPool r) →
     (∀ r r', here r → here r' → r ≠ r' → low r + 64 * cap r ≤ low r' ∨ low r' + 64 * cap r' ≤ low r) →
     ∃ t, resume k s = .next t ∧ t.tasks = s.tasks.eraseIdx k ∧ t.answers = s.answers ++ [⟨0x02, .ok⟩] ∧
       t.events = s.events ++ (ringsBelow s.cfg.nq).flatMap (fun r => (List.range (cap r)).flatMap (s.releaseEvents r)) ∧
       (∀ r, here r → ∀ off ∈ clearedOffs s.cfg.variant, ∀ i, i < cap r → memWord t.mem (s.slotAddr r i off) = 0) ∧
       (∀ r, here r → t.ring r = { RingSw.absent with
         packets := (s.ring r).packets, bytes := (s.ring r).bytes, errors := (s.ring r).errors,
         dropped := (s.ring r).dropped + (match r.dir with | .tx => BitVec.ofNat 64 (held r) | .rx => 0) }) ∧
       (∀ q : Chan, q.val < s.cfg.nq → t.tags q = ⟨0, []⟩) ∧
       t.sw.ctxPresent = false ∧ t.sw.linkUp = false ∧ t.sw.txCsum = .off ∧ t.sw.rxCsum = .off ∧ t.sw.tsEnabled = false ∧
       Keeps { rings := here, fences := here, tags := fun q => q.val < s.cfg.nq, context := True, events := True,
               answers := True, tasks := True,
               bytes := fun a => ∃ r i, here r ∧ i < cap r ∧ s.inWords r i (clearedOffs s.cfg.variant) a } s t)

/-- R428: the link gate; nothing but the gate changes. R429: the statistics of every ring of the hardware, TX before RX, and
nothing changes. While an `ATTACH` or a `DETACH` is in progress in the one control context (R18 (d)) both have to wait; that
the wait is a refusal is the model's DESIGN CHOICE (log 19). -/
def Obligations.LinkAndStatistics : Prop :=
  (∀ (s : State) (up : Bool), s.sw.ctxPresent = true → s.controlBusy = false →
     ∃ t, exec (.linkNotify up) s = .next t ∧ t.sw = { s.sw with linkUp := up } ∧ Keeps { context := True } s t) ∧
  (∀ s : State, s.sw.ctxPresent = true → s.controlBusy = false →
     ∃ xs, exec .statsSnapshot s = .next (s.answer 0x41 (.okStats xs)) ∧
       xs = (ringsBelow s.cfg.nq).map (fun r => ⟨r, (s.ring r).packets, (s.ring r).bytes, (s.ring r).errors,
         (s.ring r).dropped, (s.ring r).rstate⟩) ∧
       ∀ r : RingId, r ∈ ringsBelow s.cfg.nq ↔ r.q.val < s.cfg.nq) ∧
  (∀ (s : State) (up : Bool), s.controlBusy = true →
     exec (.linkNotify up) s = .refused .contextBusy ∧ exec .statsSnapshot s = .refused .contextBusy)
end

