-- ==== Sys2Proof/Laws/State.lean ====
section
/-! SUPPORT. What each update of the state changes: one lemma per field per update. -/

namespace Sys2Proof

/-! ### The two containers -/

@[simp] theorem vget_vset_self {α : Type} (v : PerChan α) (c : Chan) (x : α) : vget (vset v c x) c = x := by
  simp [vget, vset]

theorem vget_vset_ne {α : Type} (v : PerChan α) {c d : Chan} (x : α) (h : d ≠ c) : vget (vset v c x) d = vget v d := by
  have h' : ¬ c.val = d.val := fun e => h (Fin.ext e.symm)
  simp [vget, vset, h']

theorem vget_vset {α : Type} (v : PerChan α) (c d : Chan) (x : α) :
    vget (vset v c x) d = if d = c then x else vget v d := by
  by_cases h : d = c
  · simp [h]
  · simp [h, vget_vset_ne]

@[simp] theorem vget_ofFn {α : Type} (f : Chan → α) (c : Chan) : vget (Vector.ofFn f) c = f c := by simp [vget]

@[simp] theorem vget_replicate {α : Type} (x : α) (c : Chan) : vget (Vector.replicate 16 x) c = x := by simp [vget]

@[simp] theorem rget_rset_self {α : Type} (m : PerRing α) (r : RingId) (x : α) : rget (rset m r x) r = x := by
  obtain ⟨d, q⟩ := r
  cases d <;> simp [rget, rset]

theorem rget_rset_ne {α : Type} (m : PerRing α) {r t : RingId} (x : α) (h : t ≠ r) : rget (rset m r x) t = rget m t := by
  obtain ⟨d, q⟩ := r
  obtain ⟨d', q'⟩ := t
  cases d <;> cases d' <;> simp_all [rget, rset, vget_vset_ne]

theorem rget_rset {α : Type} (m : PerRing α) (r t : RingId) (x : α) :
    rget (rset m r x) t = if t = r then x else rget m t := by
  by_cases h : t = r
  · simp [h]
  · simp [h, rget_rset_ne]

theorem rget_rmapDir {α : Type} (m : PerRing α) (d : Dir) (f : Chan → α → α) (r : RingId) :
    rget (rmapDir m d f) r = if r.dir = d then f r.q (rget m r) else rget m r := by
  obtain ⟨d', q⟩ := r
  cases d <;> cases d' <;> simp [rget, rmapDir]

@[simp] theorem mem_allChans (c : Chan) : c ∈ allChans := by
  revert c
  decide

@[simp] theorem mem_chansBelow (n : Nat) (c : Chan) : c ∈ chansBelow n ↔ c.val < n := by simp [chansBelow]

@[simp] theorem mem_ringsBelow (n : Nat) (r : RingId) : r ∈ ringsBelow n ↔ r.q.val < n := by
  obtain ⟨d, q⟩ := r
  cases d <;> simp [ringsBelow]

end Sys2Proof

namespace Sys2Proof.Machine

/-! ### `setRegs` -/

@[simp] theorem State.setRegs_cfg (s : State) (r : RingId) (x : RingRegs) : (s.setRegs r x).cfg = s.cfg := (rfl)

@[simp] theorem State.setRegs_regs (s : State) (r : RingId) (x : RingRegs) (t : RingId) :
    (s.setRegs r x).regs t = if t = r then x else s.regs t := by
  simp [State.regs, State.setRegs, rget_rset]

@[simp] theorem State.setRegs_txe (s : State) (r : RingId) (x : RingRegs) (c : Chan) :
    (s.setRegs r x).txe c = s.txe c := (rfl)

@[simp] theorem State.setRegs_rxe (s : State) (r : RingId) (x : RingRegs) (c : Chan) :
    (s.setRegs r x).rxe c = s.rxe c := (rfl)

@[simp] theorem State.setRegs_weight (s : State) (r : RingId) (x : RingRegs) (c : Chan) :
    (s.setRegs r x).weight c = s.weight c := (rfl)

@[simp] theorem State.setRegs_credit (s : State) (r : RingId) (x : RingRegs) (c : Chan) :
    (s.setRegs r x).credit c = s.credit c := (rfl)

@[simp] theorem State.setRegs_rrPtr (s : State) (r : RingId) (x : RingRegs) :
    (s.setRegs r x).hw.rrPtr = s.hw.rrPtr := (rfl)

@[simp] theorem State.setRegs_grant (s : State) (r : RingId) (x : RingRegs) :
    (s.setRegs r x).hw.grant = s.hw.grant := (rfl)

@[simp] theorem State.setRegs_irq (s : State) (r : RingId) (x : RingRegs) (e : Dir) :
    (s.setRegs r x).irq e = s.irq e := (rfl)

@[simp] theorem State.setRegs_ring (s : State) (r : RingId) (x : RingRegs) (t : RingId) :
    (s.setRegs r x).ring t = s.ring t := (rfl)

@[simp] theorem State.setRegs_unfenced (s : State) (r : RingId) (x : RingRegs) (t : RingId) :
    (s.setRegs r x).unfenced t = s.unfenced t := (rfl)

@[simp] theorem State.setRegs_tags (s : State) (r : RingId) (x : RingRegs) (c : Chan) :
    (s.setRegs r x).tags c = s.tags c := (rfl)

@[simp] theorem State.setRegs_ctxPresent (s : State) (r : RingId) (x : RingRegs) :
    (s.setRegs r x).sw.ctxPresent = s.sw.ctxPresent := (rfl)

@[simp] theorem State.setRegs_linkUp (s : State) (r : RingId) (x : RingRegs) :
    (s.setRegs r x).sw.linkUp = s.sw.linkUp := (rfl)

@[simp] theorem State.setRegs_txCsum (s : State) (r : RingId) (x : RingRegs) :
    (s.setRegs r x).sw.txCsum = s.sw.txCsum := (rfl)

@[simp] theorem State.setRegs_rxCsum (s : State) (r : RingId) (x : RingRegs) :
    (s.setRegs r x).sw.rxCsum = s.sw.rxCsum := (rfl)

@[simp] theorem State.setRegs_tsEnabled (s : State) (r : RingId) (x : RingRegs) :
    (s.setRegs r x).sw.tsEnabled = s.sw.tsEnabled := (rfl)

@[simp] theorem State.setRegs_sw (s : State) (r : RingId) (x : RingRegs) : (s.setRegs r x).sw = s.sw := (rfl)

@[simp] theorem State.setRegs_mem (s : State) (r : RingId) (x : RingRegs) : (s.setRegs r x).mem = s.mem := (rfl)

@[simp] theorem State.setRegs_events (s : State) (r : RingId) (x : RingRegs) :
    (s.setRegs r x).events = s.events := (rfl)

@[simp] theorem State.setRegs_answers (s : State) (r : RingId) (x : RingRegs) :
    (s.setRegs r x).answers = s.answers := (rfl)

@[simp] theorem State.setRegs_env (s : State) (r : RingId) (x : RingRegs) : (s.setRegs r x).env = s.env := (rfl)

@[simp] theorem State.setRegs_tasks (s : State) (r : RingId) (x : RingRegs) : (s.setRegs r x).tasks = s.tasks := (rfl)

@[simp] theorem State.setRegs_sched (s : State) (r : RingId) (x : RingRegs) : (s.setRegs r x).sched = s.sched := (rfl)

/-! ### `setRing` -/

@[simp] theorem State.setRing_cfg (s : State) (r : RingId) (x : RingSw) : (s.setRing r x).cfg = s.cfg := (rfl)

@[simp] theorem State.setRing_regs (s : State) (r : RingId) (x : RingSw) (t : RingId) :
    (s.setRing r x).regs t = s.regs t := (rfl)

@[simp] theorem State.setRing_txe (s : State) (r : RingId) (x : RingSw) (c : Chan) :
    (s.setRing r x).txe c = s.txe c := (rfl)

@[simp] theorem State.setRing_rxe (s : State) (r : RingId) (x : RingSw) (c : Chan) :
    (s.setRing r x).rxe c = s.rxe c := (rfl)

@[simp] theorem State.setRing_weight (s : State) (r : RingId) (x : RingSw) (c : Chan) :
    (s.setRing r x).weight c = s.weight c := (rfl)

@[simp] theorem State.setRing_credit (s : State) (r : RingId) (x : RingSw) (c : Chan) :
    (s.setRing r x).credit c = s.credit c := (rfl)

@[simp] theorem State.setRing_rrPtr (s : State) (r : RingId) (x : RingSw) :
    (s.setRing r x).hw.rrPtr = s.hw.rrPtr := (rfl)

@[simp] theorem State.setRing_grant (s : State) (r : RingId) (x : RingSw) :
    (s.setRing r x).hw.grant = s.hw.grant := (rfl)

@[simp] theorem State.setRing_irq (s : State) (r : RingId) (x : RingSw) (e : Dir) :
    (s.setRing r x).irq e = s.irq e := (rfl)

@[simp] theorem State.setRing_ring (s : State) (r : RingId) (x : RingSw) (t : RingId) :
    (s.setRing r x).ring t = if t = r then x else s.ring t := by
  simp [State.ring, State.setRing, rget_rset]

@[simp] theorem State.setRing_unfenced (s : State) (r : RingId) (x : RingSw) (t : RingId) :
    (s.setRing r x).unfenced t = s.unfenced t := (rfl)

@[simp] theorem State.setRing_tags (s : State) (r : RingId) (x : RingSw) (c : Chan) :
    (s.setRing r x).tags c = s.tags c := (rfl)

@[simp] theorem State.setRing_ctxPresent (s : State) (r : RingId) (x : RingSw) :
    (s.setRing r x).sw.ctxPresent = s.sw.ctxPresent := (rfl)

@[simp] theorem State.setRing_linkUp (s : State) (r : RingId) (x : RingSw) :
    (s.setRing r x).sw.linkUp = s.sw.linkUp := (rfl)

@[simp] theorem State.setRing_txCsum (s : State) (r : RingId) (x : RingSw) :
    (s.setRing r x).sw.txCsum = s.sw.txCsum := (rfl)

@[simp] theorem State.setRing_rxCsum (s : State) (r : RingId) (x : RingSw) :
    (s.setRing r x).sw.rxCsum = s.sw.rxCsum := (rfl)

@[simp] theorem State.setRing_tsEnabled (s : State) (r : RingId) (x : RingSw) :
    (s.setRing r x).sw.tsEnabled = s.sw.tsEnabled := (rfl)

@[simp] theorem State.setRing_mem (s : State) (r : RingId) (x : RingSw) : (s.setRing r x).mem = s.mem := (rfl)

@[simp] theorem State.setRing_events (s : State) (r : RingId) (x : RingSw) : (s.setRing r x).events = s.events := (rfl)

@[simp] theorem State.setRing_answers (s : State) (r : RingId) (x : RingSw) :
    (s.setRing r x).answers = s.answers := (rfl)

@[simp] theorem State.setRing_env (s : State) (r : RingId) (x : RingSw) : (s.setRing r x).env = s.env := (rfl)

@[simp] theorem State.setRing_tasks (s : State) (r : RingId) (x : RingSw) : (s.setRing r x).tasks = s.tasks := (rfl)

@[simp] theorem State.setRing_sched (s : State) (r : RingId) (x : RingSw) : (s.setRing r x).sched = s.sched := (rfl)

/-! ### `setTxe` -/

@[simp] theorem State.setTxe_cfg (s : State) (q : Chan) (x : TxEngine) : (s.setTxe q x).cfg = s.cfg := (rfl)

@[simp] theorem State.setTxe_regs (s : State) (q : Chan) (x : TxEngine) (t : RingId) :
    (s.setTxe q x).regs t = s.regs t := (rfl)

@[simp] theorem State.setTxe_txe (s : State) (q : Chan) (x : TxEngine) (c : Chan) :
    (s.setTxe q x).txe c = if c = q then x else s.txe c := by
  simp [State.txe, State.setTxe, vget_vset]

@[simp] theorem State.setTxe_rxe (s : State) (q : Chan) (x : TxEngine) (c : Chan) :
    (s.setTxe q x).rxe c = s.rxe c := (rfl)

@[simp] theorem State.setTxe_weight (s : State) (q : Chan) (x : TxEngine) (c : Chan) :
    (s.setTxe q x).weight c = s.weight c := (rfl)

@[simp] theorem State.setTxe_credit (s : State) (q : Chan) (x : TxEngine) (c : Chan) :
    (s.setTxe q x).credit c = s.credit c := (rfl)

@[simp] theorem State.setTxe_rrPtr (s : State) (q : Chan) (x : TxEngine) : (s.setTxe q x).hw.rrPtr = s.hw.rrPtr := (rfl)

@[simp] theorem State.setTxe_grant (s : State) (q : Chan) (x : TxEngine) : (s.setTxe q x).hw.grant = s.hw.grant := (rfl)

@[simp] theorem State.setTxe_irq (s : State) (q : Chan) (x : TxEngine) (e : Dir) :
    (s.setTxe q x).irq e = s.irq e := (rfl)

@[simp] theorem State.setTxe_ring (s : State) (q : Chan) (x : TxEngine) (t : RingId) :
    (s.setTxe q x).ring t = s.ring t := (rfl)

@[simp] theorem State.setTxe_unfenced (s : State) (q : Chan) (x : TxEngine) (t : RingId) :
    (s.setTxe q x).unfenced t = s.unfenced t := (rfl)

@[simp] theorem State.setTxe_tags (s : State) (q : Chan) (x : TxEngine) (c : Chan) :
    (s.setTxe q x).tags c = s.tags c := (rfl)

@[simp] theorem State.setTxe_ctxPresent (s : State) (q : Chan) (x : TxEngine) :
    (s.setTxe q x).sw.ctxPresent = s.sw.ctxPresent := (rfl)

@[simp] theorem State.setTxe_linkUp (s : State) (q : Chan) (x : TxEngine) :
    (s.setTxe q x).sw.linkUp = s.sw.linkUp := (rfl)

@[simp] theorem State.setTxe_txCsum (s : State) (q : Chan) (x : TxEngine) :
    (s.setTxe q x).sw.txCsum = s.sw.txCsum := (rfl)

@[simp] theorem State.setTxe_rxCsum (s : State) (q : Chan) (x : TxEngine) :
    (s.setTxe q x).sw.rxCsum = s.sw.rxCsum := (rfl)

@[simp] theorem State.setTxe_tsEnabled (s : State) (q : Chan) (x : TxEngine) :
    (s.setTxe q x).sw.tsEnabled = s.sw.tsEnabled := (rfl)

@[simp] theorem State.setTxe_sw (s : State) (q : Chan) (x : TxEngine) : (s.setTxe q x).sw = s.sw := (rfl)

@[simp] theorem State.setTxe_mem (s : State) (q : Chan) (x : TxEngine) : (s.setTxe q x).mem = s.mem := (rfl)

@[simp] theorem State.setTxe_events (s : State) (q : Chan) (x : TxEngine) : (s.setTxe q x).events = s.events := (rfl)

@[simp] theorem State.setTxe_answers (s : State) (q : Chan) (x : TxEngine) : (s.setTxe q x).answers = s.answers := (rfl)

@[simp] theorem State.setTxe_env (s : State) (q : Chan) (x : TxEngine) : (s.setTxe q x).env = s.env := (rfl)

@[simp] theorem State.setTxe_tasks (s : State) (q : Chan) (x : TxEngine) : (s.setTxe q x).tasks = s.tasks := (rfl)

@[simp] theorem State.setTxe_sched (s : State) (q : Chan) (x : TxEngine) : (s.setTxe q x).sched = s.sched := (rfl)

/-! ### `setRxe` -/

@[simp] theorem State.setRxe_cfg (s : State) (q : Chan) (x : RxEngine) : (s.setRxe q x).cfg = s.cfg := (rfl)

@[simp] theorem State.setRxe_regs (s : State) (q : Chan) (x : RxEngine) (t : RingId) :
    (s.setRxe q x).regs t = s.regs t := (rfl)

@[simp] theorem State.setRxe_txe (s : State) (q : Chan) (x : RxEngine) (c : Chan) :
    (s.setRxe q x).txe c = s.txe c := (rfl)

@[simp] theorem State.setRxe_rxe (s : State) (q : Chan) (x : RxEngine) (c : Chan) :
    (s.setRxe q x).rxe c = if c = q then x else s.rxe c := by
  simp [State.rxe, State.setRxe, vget_vset]

@[simp] theorem State.setRxe_weight (s : State) (q : Chan) (x : RxEngine) (c : Chan) :
    (s.setRxe q x).weight c = s.weight c := (rfl)

@[simp] theorem State.setRxe_credit (s : State) (q : Chan) (x : RxEngine) (c : Chan) :
    (s.setRxe q x).credit c = s.credit c := (rfl)

@[simp] theorem State.setRxe_rrPtr (s : State) (q : Chan) (x : RxEngine) : (s.setRxe q x).hw.rrPtr = s.hw.rrPtr := (rfl)

@[simp] theorem State.setRxe_grant (s : State) (q : Chan) (x : RxEngine) : (s.setRxe q x).hw.grant = s.hw.grant := (rfl)

@[simp] theorem State.setRxe_irq (s : State) (q : Chan) (x : RxEngine) (e : Dir) :
    (s.setRxe q x).irq e = s.irq e := (rfl)

@[simp] theorem State.setRxe_ring (s : State) (q : Chan) (x : RxEngine) (t : RingId) :
    (s.setRxe q x).ring t = s.ring t := (rfl)

@[simp] theorem State.setRxe_unfenced (s : State) (q : Chan) (x : RxEngine) (t : RingId) :
    (s.setRxe q x).unfenced t = s.unfenced t := (rfl)

@[simp] theorem State.setRxe_tags (s : State) (q : Chan) (x : RxEngine) (c : Chan) :
    (s.setRxe q x).tags c = s.tags c := (rfl)

@[simp] theorem State.setRxe_ctxPresent (s : State) (q : Chan) (x : RxEngine) :
    (s.setRxe q x).sw.ctxPresent = s.sw.ctxPresent := (rfl)

@[simp] theorem State.setRxe_linkUp (s : State) (q : Chan) (x : RxEngine) :
    (s.setRxe q x).sw.linkUp = s.sw.linkUp := (rfl)

@[simp] theorem State.setRxe_txCsum (s : State) (q : Chan) (x : RxEngine) :
    (s.setRxe q x).sw.txCsum = s.sw.txCsum := (rfl)

@[simp] theorem State.setRxe_rxCsum (s : State) (q : Chan) (x : RxEngine) :
    (s.setRxe q x).sw.rxCsum = s.sw.rxCsum := (rfl)

@[simp] theorem State.setRxe_tsEnabled (s : State) (q : Chan) (x : RxEngine) :
    (s.setRxe q x).sw.tsEnabled = s.sw.tsEnabled := (rfl)

@[simp] theorem State.setRxe_sw (s : State) (q : Chan) (x : RxEngine) : (s.setRxe q x).sw = s.sw := (rfl)

@[simp] theorem State.setRxe_mem (s : State) (q : Chan) (x : RxEngine) : (s.setRxe q x).mem = s.mem := (rfl)

@[simp] theorem State.setRxe_events (s : State) (q : Chan) (x : RxEngine) : (s.setRxe q x).events = s.events := (rfl)

@[simp] theorem State.setRxe_answers (s : State) (q : Chan) (x : RxEngine) : (s.setRxe q x).answers = s.answers := (rfl)

@[simp] theorem State.setRxe_env (s : State) (q : Chan) (x : RxEngine) : (s.setRxe q x).env = s.env := (rfl)

@[simp] theorem State.setRxe_tasks (s : State) (q : Chan) (x : RxEngine) : (s.setRxe q x).tasks = s.tasks := (rfl)

@[simp] theorem State.setRxe_sched (s : State) (q : Chan) (x : RxEngine) : (s.setRxe q x).sched = s.sched := (rfl)

/-! ### `setFences` -/

@[simp] theorem State.setFences_cfg (s : State) (x : PerRing Bool) : (s.setFences x).cfg = s.cfg := (rfl)

@[simp] theorem State.setFences_regs (s : State) (x : PerRing Bool) (t : RingId) :
    (s.setFences x).regs t = s.regs t := (rfl)

@[simp] theorem State.setFences_txe (s : State) (x : PerRing Bool) (c : Chan) : (s.setFences x).txe c = s.txe c := (rfl)

@[simp] theorem State.setFences_rxe (s : State) (x : PerRing Bool) (c : Chan) : (s.setFences x).rxe c = s.rxe c := (rfl)

@[simp] theorem State.setFences_weight (s : State) (x : PerRing Bool) (c : Chan) :
    (s.setFences x).weight c = s.weight c := (rfl)

@[simp] theorem State.setFences_credit (s : State) (x : PerRing Bool) (c : Chan) :
    (s.setFences x).credit c = s.credit c := (rfl)

@[simp] theorem State.setFences_rrPtr (s : State) (x : PerRing Bool) : (s.setFences x).hw.rrPtr = s.hw.rrPtr := (rfl)

@[simp] theorem State.setFences_grant (s : State) (x : PerRing Bool) : (s.setFences x).hw.grant = s.hw.grant := (rfl)

@[simp] theorem State.setFences_irq (s : State) (x : PerRing Bool) (e : Dir) : (s.setFences x).irq e = s.irq e := (rfl)

@[simp] theorem State.setFences_ring (s : State) (x : PerRing Bool) (t : RingId) :
    (s.setFences x).ring t = s.ring t := (rfl)

@[simp] theorem State.setFences_unfenced (s : State) (x : PerRing Bool) (t : RingId) :
    (s.setFences x).unfenced t = rget x t := (rfl)

@[simp] theorem State.setFences_tags (s : State) (x : PerRing Bool) (c : Chan) :
    (s.setFences x).tags c = s.tags c := (rfl)

@[simp] theorem State.setFences_ctxPresent (s : State) (x : PerRing Bool) :
    (s.setFences x).sw.ctxPresent = s.sw.ctxPresent := (rfl)

@[simp] theorem State.setFences_linkUp (s : State) (x : PerRing Bool) : (s.setFences x).sw.linkUp = s.sw.linkUp := (rfl)

@[simp] theorem State.setFences_txCsum (s : State) (x : PerRing Bool) : (s.setFences x).sw.txCsum = s.sw.txCsum := (rfl)

@[simp] theorem State.setFences_rxCsum (s : State) (x : PerRing Bool) : (s.setFences x).sw.rxCsum = s.sw.rxCsum := (rfl)

@[simp] theorem State.setFences_tsEnabled (s : State) (x : PerRing Bool) :
    (s.setFences x).sw.tsEnabled = s.sw.tsEnabled := (rfl)

@[simp] theorem State.setFences_mem (s : State) (x : PerRing Bool) : (s.setFences x).mem = s.mem := (rfl)

@[simp] theorem State.setFences_events (s : State) (x : PerRing Bool) : (s.setFences x).events = s.events := (rfl)

@[simp] theorem State.setFences_answers (s : State) (x : PerRing Bool) : (s.setFences x).answers = s.answers := (rfl)

@[simp] theorem State.setFences_env (s : State) (x : PerRing Bool) : (s.setFences x).env = s.env := (rfl)

@[simp] theorem State.setFences_tasks (s : State) (x : PerRing Bool) : (s.setFences x).tasks = s.tasks := (rfl)

@[simp] theorem State.setFences_sched (s : State) (x : PerRing Bool) : (s.setFences x).sched = s.sched := (rfl)

/-! ### `owe` -/

@[simp] theorem State.owe_cfg (s : State) (r : RingId) : (s.owe r).cfg = s.cfg := (rfl)

@[simp] theorem State.owe_regs (s : State) (r : RingId) (t : RingId) : (s.owe r).regs t = s.regs t := (rfl)

@[simp] theorem State.owe_txe (s : State) (r : RingId) (c : Chan) : (s.owe r).txe c = s.txe c := (rfl)

@[simp] theorem State.owe_rxe (s : State) (r : RingId) (c : Chan) : (s.owe r).rxe c = s.rxe c := (rfl)

@[simp] theorem State.owe_weight (s : State) (r : RingId) (c : Chan) : (s.owe r).weight c = s.weight c := (rfl)

@[simp] theorem State.owe_credit (s : State) (r : RingId) (c : Chan) : (s.owe r).credit c = s.credit c := (rfl)

@[simp] theorem State.owe_rrPtr (s : State) (r : RingId) : (s.owe r).hw.rrPtr = s.hw.rrPtr := (rfl)

@[simp] theorem State.owe_grant (s : State) (r : RingId) : (s.owe r).hw.grant = s.hw.grant := (rfl)

@[simp] theorem State.owe_irq (s : State) (r : RingId) (e : Dir) : (s.owe r).irq e = s.irq e := (rfl)

@[simp] theorem State.owe_ring (s : State) (r : RingId) (t : RingId) : (s.owe r).ring t = s.ring t := (rfl)

@[simp] theorem State.owe_unfenced (s : State) (r : RingId) (t : RingId) :
    (s.owe r).unfenced t = if t = r then true else s.unfenced t := by
  simp [State.unfenced, State.owe, State.setFences, rget_rset]

@[simp] theorem State.owe_tags (s : State) (r : RingId) (c : Chan) : (s.owe r).tags c = s.tags c := (rfl)

@[simp] theorem State.owe_ctxPresent (s : State) (r : RingId) : (s.owe r).sw.ctxPresent = s.sw.ctxPresent := (rfl)

@[simp] theorem State.owe_linkUp (s : State) (r : RingId) : (s.owe r).sw.linkUp = s.sw.linkUp := (rfl)

@[simp] theorem State.owe_txCsum (s : State) (r : RingId) : (s.owe r).sw.txCsum = s.sw.txCsum := (rfl)

@[simp] theorem State.owe_rxCsum (s : State) (r : RingId) : (s.owe r).sw.rxCsum = s.sw.rxCsum := (rfl)

@[simp] theorem State.owe_tsEnabled (s : State) (r : RingId) : (s.owe r).sw.tsEnabled = s.sw.tsEnabled := (rfl)

@[simp] theorem State.owe_mem (s : State) (r : RingId) : (s.owe r).mem = s.mem := (rfl)

@[simp] theorem State.owe_events (s : State) (r : RingId) : (s.owe r).events = s.events := (rfl)

@[simp] theorem State.owe_answers (s : State) (r : RingId) : (s.owe r).answers = s.answers := (rfl)

@[simp] theorem State.owe_env (s : State) (r : RingId) : (s.owe r).env = s.env := (rfl)

@[simp] theorem State.owe_tasks (s : State) (r : RingId) : (s.owe r).tasks = s.tasks := (rfl)

@[simp] theorem State.owe_sched (s : State) (r : RingId) : (s.owe r).sched = s.sched := (rfl)

/-! ### `wmb` -/

@[simp] theorem State.wmb_cfg (s : State) : (s.wmb).cfg = s.cfg := (rfl)

@[simp] theorem State.wmb_regs (s : State) (t : RingId) : (s.wmb).regs t = s.regs t := (rfl)

@[simp] theorem State.wmb_txe (s : State) (c : Chan) : (s.wmb).txe c = s.txe c := (rfl)

@[simp] theorem State.wmb_rxe (s : State) (c : Chan) : (s.wmb).rxe c = s.rxe c := (rfl)

@[simp] theorem State.wmb_weight (s : State) (c : Chan) : (s.wmb).weight c = s.weight c := (rfl)

@[simp] theorem State.wmb_credit (s : State) (c : Chan) : (s.wmb).credit c = s.credit c := (rfl)

@[simp] theorem State.wmb_rrPtr (s : State) : (s.wmb).hw.rrPtr = s.hw.rrPtr := (rfl)

@[simp] theorem State.wmb_grant (s : State) : (s.wmb).hw.grant = s.hw.grant := (rfl)

@[simp] theorem State.wmb_irq (s : State) (e : Dir) : (s.wmb).irq e = s.irq e := (rfl)

@[simp] theorem State.wmb_ring (s : State) (t : RingId) : (s.wmb).ring t = s.ring t := (rfl)

@[simp] theorem State.wmb_unfenced (s : State) (t : RingId) : (s.wmb).unfenced t = false := by
  obtain ⟨d, q⟩ := t
  cases d <;> simp [State.unfenced, State.wmb, State.setFences, allFenced, rget]

@[simp] theorem State.wmb_tags (s : State) (c : Chan) : (s.wmb).tags c = s.tags c := (rfl)

@[simp] theorem State.wmb_ctxPresent (s : State) : (s.wmb).sw.ctxPresent = s.sw.ctxPresent := (rfl)

@[simp] theorem State.wmb_linkUp (s : State) : (s.wmb).sw.linkUp = s.sw.linkUp := (rfl)

@[simp] theorem State.wmb_txCsum (s : State) : (s.wmb).sw.txCsum = s.sw.txCsum := (rfl)

@[simp] theorem State.wmb_rxCsum (s : State) : (s.wmb).sw.rxCsum = s.sw.rxCsum := (rfl)

@[simp] theorem State.wmb_tsEnabled (s : State) : (s.wmb).sw.tsEnabled = s.sw.tsEnabled := (rfl)

@[simp] theorem State.wmb_mem (s : State) : (s.wmb).mem = s.mem := (rfl)

@[simp] theorem State.wmb_events (s : State) : (s.wmb).events = s.events := (rfl)

@[simp] theorem State.wmb_answers (s : State) : (s.wmb).answers = s.answers := (rfl)

@[simp] theorem State.wmb_env (s : State) : (s.wmb).env = s.env := (rfl)

@[simp] theorem State.wmb_tasks (s : State) : (s.wmb).tasks = s.tasks := (rfl)

@[simp] theorem State.wmb_sched (s : State) : (s.wmb).sched = s.sched := (rfl)

/-! ### `setTags` -/

@[simp] theorem State.setTags_cfg (s : State) (q : Chan) (x : TagState) : (s.setTags q x).cfg = s.cfg := (rfl)

@[simp] theorem State.setTags_regs (s : State) (q : Chan) (x : TagState) (t : RingId) :
    (s.setTags q x).regs t = s.regs t := (rfl)

@[simp] theorem State.setTags_txe (s : State) (q : Chan) (x : TagState) (c : Chan) :
    (s.setTags q x).txe c = s.txe c := (rfl)

@[simp] theorem State.setTags_rxe (s : State) (q : Chan) (x : TagState) (c : Chan) :
    (s.setTags q x).rxe c = s.rxe c := (rfl)

@[simp] theorem State.setTags_weight (s : State) (q : Chan) (x : TagState) (c : Chan) :
    (s.setTags q x).weight c = s.weight c := (rfl)

@[simp] theorem State.setTags_credit (s : State) (q : Chan) (x : TagState) (c : Chan) :
    (s.setTags q x).credit c = s.credit c := (rfl)

@[simp] theorem State.setTags_rrPtr (s : State) (q : Chan) (x : TagState) :
    (s.setTags q x).hw.rrPtr = s.hw.rrPtr := (rfl)

@[simp] theorem State.setTags_grant (s : State) (q : Chan) (x : TagState) :
    (s.setTags q x).hw.grant = s.hw.grant := (rfl)

@[simp] theorem State.setTags_irq (s : State) (q : Chan) (x : TagState) (e : Dir) :
    (s.setTags q x).irq e = s.irq e := (rfl)

@[simp] theorem State.setTags_ring (s : State) (q : Chan) (x : TagState) (t : RingId) :
    (s.setTags q x).ring t = s.ring t := (rfl)

@[simp] theorem State.setTags_unfenced (s : State) (q : Chan) (x : TagState) (t : RingId) :
    (s.setTags q x).unfenced t = s.unfenced t := (rfl)

@[simp] theorem State.setTags_tags (s : State) (q : Chan) (x : TagState) (c : Chan) :
    (s.setTags q x).tags c = if c = q then x else s.tags c := by
  simp [State.tags, State.setTags, vget_vset]

@[simp] theorem State.setTags_ctxPresent (s : State) (q : Chan) (x : TagState) :
    (s.setTags q x).sw.ctxPresent = s.sw.ctxPresent := (rfl)

@[simp] theorem State.setTags_linkUp (s : State) (q : Chan) (x : TagState) :
    (s.setTags q x).sw.linkUp = s.sw.linkUp := (rfl)

@[simp] theorem State.setTags_txCsum (s : State) (q : Chan) (x : TagState) :
    (s.setTags q x).sw.txCsum = s.sw.txCsum := (rfl)

@[simp] theorem State.setTags_rxCsum (s : State) (q : Chan) (x : TagState) :
    (s.setTags q x).sw.rxCsum = s.sw.rxCsum := (rfl)

@[simp] theorem State.setTags_tsEnabled (s : State) (q : Chan) (x : TagState) :
    (s.setTags q x).sw.tsEnabled = s.sw.tsEnabled := (rfl)

@[simp] theorem State.setTags_mem (s : State) (q : Chan) (x : TagState) : (s.setTags q x).mem = s.mem := (rfl)

@[simp] theorem State.setTags_events (s : State) (q : Chan) (x : TagState) : (s.setTags q x).events = s.events := (rfl)

@[simp] theorem State.setTags_answers (s : State) (q : Chan) (x : TagState) :
    (s.setTags q x).answers = s.answers := (rfl)

@[simp] theorem State.setTags_env (s : State) (q : Chan) (x : TagState) : (s.setTags q x).env = s.env := (rfl)

@[simp] theorem State.setTags_tasks (s : State) (q : Chan) (x : TagState) : (s.setTags q x).tasks = s.tasks := (rfl)

@[simp] theorem State.setTags_sched (s : State) (q : Chan) (x : TagState) : (s.setTags q x).sched = s.sched := (rfl)

/-! ### `setIrq` -/

@[simp] theorem State.setIrq_cfg (s : State) (d : Dir) (on : Bool) : (s.setIrq d on).cfg = s.cfg := by
  cases d <;> exact (rfl)

@[simp] theorem State.setIrq_regs (s : State) (d : Dir) (on : Bool) (t : RingId) :
    (s.setIrq d on).regs t = s.regs t := by
  cases d <;> exact (rfl)

@[simp] theorem State.setIrq_txe (s : State) (d : Dir) (on : Bool) (c : Chan) : (s.setIrq d on).txe c = s.txe c := by
  cases d <;> exact (rfl)

@[simp] theorem State.setIrq_rxe (s : State) (d : Dir) (on : Bool) (c : Chan) : (s.setIrq d on).rxe c = s.rxe c := by
  cases d <;> exact (rfl)

@[simp] theorem State.setIrq_weight (s : State) (d : Dir) (on : Bool) (c : Chan) :
    (s.setIrq d on).weight c = s.weight c := by
  cases d <;> exact (rfl)

@[simp] theorem State.setIrq_credit (s : State) (d : Dir) (on : Bool) (c : Chan) :
    (s.setIrq d on).credit c = s.credit c := by
  cases d <;> exact (rfl)

@[simp] theorem State.setIrq_rrPtr (s : State) (d : Dir) (on : Bool) : (s.setIrq d on).hw.rrPtr = s.hw.rrPtr := by
  cases d <;> exact (rfl)

@[simp] theorem State.setIrq_grant (s : State) (d : Dir) (on : Bool) : (s.setIrq d on).hw.grant = s.hw.grant := by
  cases d <;> exact (rfl)

@[simp] theorem State.setIrq_irq (s : State) (d : Dir) (on : Bool) (e : Dir) :
    (s.setIrq d on).irq e = if e = d then on else s.irq e := by
  cases d <;> cases e <;> simp [State.irq, State.setIrq]

@[simp] theorem State.setIrq_ring (s : State) (d : Dir) (on : Bool) (t : RingId) :
    (s.setIrq d on).ring t = s.ring t := by
  cases d <;> exact (rfl)

@[simp] theorem State.setIrq_unfenced (s : State) (d : Dir) (on : Bool) (t : RingId) :
    (s.setIrq d on).unfenced t = s.unfenced t := by
  cases d <;> exact (rfl)

@[simp] theorem State.setIrq_tags (s : State) (d : Dir) (on : Bool) (c : Chan) : (s.setIrq d on).tags c = s.tags c := by
  cases d <;> exact (rfl)

@[simp] theorem State.setIrq_ctxPresent (s : State) (d : Dir) (on : Bool) :
    (s.setIrq d on).sw.ctxPresent = s.sw.ctxPresent := by
  cases d <;> exact (rfl)

@[simp] theorem State.setIrq_linkUp (s : State) (d : Dir) (on : Bool) : (s.setIrq d on).sw.linkUp = s.sw.linkUp := by
  cases d <;> exact (rfl)

@[simp] theorem State.setIrq_txCsum (s : State) (d : Dir) (on : Bool) : (s.setIrq d on).sw.txCsum = s.sw.txCsum := by
  cases d <;> exact (rfl)

@[simp] theorem State.setIrq_rxCsum (s : State) (d : Dir) (on : Bool) : (s.setIrq d on).sw.rxCsum = s.sw.rxCsum := by
  cases d <;> exact (rfl)

@[simp] theorem State.setIrq_tsEnabled (s : State) (d : Dir) (on : Bool) :
    (s.setIrq d on).sw.tsEnabled = s.sw.tsEnabled := by
  cases d <;> exact (rfl)

@[simp] theorem State.setIrq_sw (s : State) (d : Dir) (on : Bool) : (s.setIrq d on).sw = s.sw := by
  cases d <;> exact (rfl)

@[simp] theorem State.setIrq_mem (s : State) (d : Dir) (on : Bool) : (s.setIrq d on).mem = s.mem := by
  cases d <;> exact (rfl)

@[simp] theorem State.setIrq_events (s : State) (d : Dir) (on : Bool) : (s.setIrq d on).events = s.events := by
  cases d <;> exact (rfl)

@[simp] theorem State.setIrq_answers (s : State) (d : Dir) (on : Bool) : (s.setIrq d on).answers = s.answers := by
  cases d <;> exact (rfl)

@[simp] theorem State.setIrq_env (s : State) (d : Dir) (on : Bool) : (s.setIrq d on).env = s.env := by
  cases d <;> exact (rfl)

@[simp] theorem State.setIrq_tasks (s : State) (d : Dir) (on : Bool) : (s.setIrq d on).tasks = s.tasks := by
  cases d <;> exact (rfl)

@[simp] theorem State.setIrq_sched (s : State) (d : Dir) (on : Bool) : (s.setIrq d on).sched = s.sched := by
  cases d <;> exact (rfl)

/-! ### `setGrant` -/

@[simp] theorem State.setGrant_cfg (s : State) (g : Option Chan) : (s.setGrant g).cfg = s.cfg := (rfl)

@[simp] theorem State.setGrant_regs (s : State) (g : Option Chan) (t : RingId) :
    (s.setGrant g).regs t = s.regs t := (rfl)

@[simp] theorem State.setGrant_txe (s : State) (g : Option Chan) (c : Chan) : (s.setGrant g).txe c = s.txe c := (rfl)

@[simp] theorem State.setGrant_rxe (s : State) (g : Option Chan) (c : Chan) : (s.setGrant g).rxe c = s.rxe c := (rfl)

@[simp] theorem State.setGrant_weight (s : State) (g : Option Chan) (c : Chan) :
    (s.setGrant g).weight c = s.weight c := (rfl)

@[simp] theorem State.setGrant_credit (s : State) (g : Option Chan) (c : Chan) :
    (s.setGrant g).credit c = s.credit c := (rfl)

@[simp] theorem State.setGrant_rrPtr (s : State) (g : Option Chan) : (s.setGrant g).hw.rrPtr = s.hw.rrPtr := (rfl)

@[simp] theorem State.setGrant_grant (s : State) (g : Option Chan) : (s.setGrant g).hw.grant = g := (rfl)

@[simp] theorem State.setGrant_irq (s : State) (g : Option Chan) (e : Dir) : (s.setGrant g).irq e = s.irq e := (rfl)

@[simp] theorem State.setGrant_ring (s : State) (g : Option Chan) (t : RingId) :
    (s.setGrant g).ring t = s.ring t := (rfl)

@[simp] theorem State.setGrant_unfenced (s : State) (g : Option Chan) (t : RingId) :
    (s.setGrant g).unfenced t = s.unfenced t := (rfl)

@[simp] theorem State.setGrant_tags (s : State) (g : Option Chan) (c : Chan) : (s.setGrant g).tags c = s.tags c := (rfl)

@[simp] theorem State.setGrant_ctxPresent (s : State) (g : Option Chan) :
    (s.setGrant g).sw.ctxPresent = s.sw.ctxPresent := (rfl)

@[simp] theorem State.setGrant_linkUp (s : State) (g : Option Chan) : (s.setGrant g).sw.linkUp = s.sw.linkUp := (rfl)

@[simp] theorem State.setGrant_txCsum (s : State) (g : Option Chan) : (s.setGrant g).sw.txCsum = s.sw.txCsum := (rfl)

@[simp] theorem State.setGrant_rxCsum (s : State) (g : Option Chan) : (s.setGrant g).sw.rxCsum = s.sw.rxCsum := (rfl)

@[simp] theorem State.setGrant_tsEnabled (s : State) (g : Option Chan) :
    (s.setGrant g).sw.tsEnabled = s.sw.tsEnabled := (rfl)

@[simp] theorem State.setGrant_sw (s : State) (g : Option Chan) : (s.setGrant g).sw = s.sw := (rfl)

@[simp] theorem State.setGrant_mem (s : State) (g : Option Chan) : (s.setGrant g).mem = s.mem := (rfl)

@[simp] theorem State.setGrant_events (s : State) (g : Option Chan) : (s.setGrant g).events = s.events := (rfl)

@[simp] theorem State.setGrant_answers (s : State) (g : Option Chan) : (s.setGrant g).answers = s.answers := (rfl)

@[simp] theorem State.setGrant_env (s : State) (g : Option Chan) : (s.setGrant g).env = s.env := (rfl)

@[simp] theorem State.setGrant_tasks (s : State) (g : Option Chan) : (s.setGrant g).tasks = s.tasks := (rfl)

@[simp] theorem State.setGrant_sched (s : State) (g : Option Chan) : (s.setGrant g).sched = s.sched := (rfl)

/-! ### `emit` -/

@[simp] theorem State.emit_cfg (s : State) (x : Event) : (s.emit x).cfg = s.cfg := (rfl)

@[simp] theorem State.emit_regs (s : State) (x : Event) (t : RingId) : (s.emit x).regs t = s.regs t := (rfl)

@[simp] theorem State.emit_txe (s : State) (x : Event) (c : Chan) : (s.emit x).txe c = s.txe c := (rfl)

@[simp] theorem State.emit_rxe (s : State) (x : Event) (c : Chan) : (s.emit x).rxe c = s.rxe c := (rfl)

@[simp] theorem State.emit_weight (s : State) (x : Event) (c : Chan) : (s.emit x).weight c = s.weight c := (rfl)

@[simp] theorem State.emit_credit (s : State) (x : Event) (c : Chan) : (s.emit x).credit c = s.credit c := (rfl)

@[simp] theorem State.emit_rrPtr (s : State) (x : Event) : (s.emit x).hw.rrPtr = s.hw.rrPtr := (rfl)

@[simp] theorem State.emit_grant (s : State) (x : Event) : (s.emit x).hw.grant = s.hw.grant := (rfl)

@[simp] theorem State.emit_irq (s : State) (x : Event) (e : Dir) : (s.emit x).irq e = s.irq e := (rfl)

@[simp] theorem State.emit_ring (s : State) (x : Event) (t : RingId) : (s.emit x).ring t = s.ring t := (rfl)

@[simp] theorem State.emit_unfenced (s : State) (x : Event) (t : RingId) : (s.emit x).unfenced t = s.unfenced t := (rfl)

@[simp] theorem State.emit_tags (s : State) (x : Event) (c : Chan) : (s.emit x).tags c = s.tags c := (rfl)

@[simp] theorem State.emit_ctxPresent (s : State) (x : Event) : (s.emit x).sw.ctxPresent = s.sw.ctxPresent := (rfl)

@[simp] theorem State.emit_linkUp (s : State) (x : Event) : (s.emit x).sw.linkUp = s.sw.linkUp := (rfl)

@[simp] theorem State.emit_txCsum (s : State) (x : Event) : (s.emit x).sw.txCsum = s.sw.txCsum := (rfl)

@[simp] theorem State.emit_rxCsum (s : State) (x : Event) : (s.emit x).sw.rxCsum = s.sw.rxCsum := (rfl)

@[simp] theorem State.emit_tsEnabled (s : State) (x : Event) : (s.emit x).sw.tsEnabled = s.sw.tsEnabled := (rfl)

@[simp] theorem State.emit_sw (s : State) (x : Event) : (s.emit x).sw = s.sw := (rfl)

@[simp] theorem State.emit_mem (s : State) (x : Event) : (s.emit x).mem = s.mem := (rfl)

@[simp] theorem State.emit_events (s : State) (x : Event) : (s.emit x).events = s.events ++ [x] := (rfl)

@[simp] theorem State.emit_answers (s : State) (x : Event) : (s.emit x).answers = s.answers := (rfl)

@[simp] theorem State.emit_env (s : State) (x : Event) : (s.emit x).env = s.env := (rfl)

@[simp] theorem State.emit_tasks (s : State) (x : Event) : (s.emit x).tasks = s.tasks := (rfl)

@[simp] theorem State.emit_sched (s : State) (x : Event) : (s.emit x).sched = s.sched := (rfl)

/-! ### `emits` -/

@[simp] theorem State.emits_cfg (s : State) (xs : List Event) : (s.emits xs).cfg = s.cfg := (rfl)

@[simp] theorem State.emits_regs (s : State) (xs : List Event) (t : RingId) : (s.emits xs).regs t = s.regs t := (rfl)

@[simp] theorem State.emits_txe (s : State) (xs : List Event) (c : Chan) : (s.emits xs).txe c = s.txe c := (rfl)

@[simp] theorem State.emits_rxe (s : State) (xs : List Event) (c : Chan) : (s.emits xs).rxe c = s.rxe c := (rfl)

@[simp] theorem State.emits_weight (s : State) (xs : List Event) (c : Chan) :
    (s.emits xs).weight c = s.weight c := (rfl)

@[simp] theorem State.emits_credit (s : State) (xs : List Event) (c : Chan) :
    (s.emits xs).credit c = s.credit c := (rfl)

@[simp] theorem State.emits_rrPtr (s : State) (xs : List Event) : (s.emits xs).hw.rrPtr = s.hw.rrPtr := (rfl)

@[simp] theorem State.emits_grant (s : State) (xs : List Event) : (s.emits xs).hw.grant = s.hw.grant := (rfl)

@[simp] theorem State.emits_irq (s : State) (xs : List Event) (e : Dir) : (s.emits xs).irq e = s.irq e := (rfl)

@[simp] theorem State.emits_ring (s : State) (xs : List Event) (t : RingId) : (s.emits xs).ring t = s.ring t := (rfl)

@[simp] theorem State.emits_unfenced (s : State) (xs : List Event) (t : RingId) :
    (s.emits xs).unfenced t = s.unfenced t := (rfl)

@[simp] theorem State.emits_tags (s : State) (xs : List Event) (c : Chan) : (s.emits xs).tags c = s.tags c := (rfl)

@[simp] theorem State.emits_ctxPresent (s : State) (xs : List Event) :
    (s.emits xs).sw.ctxPresent = s.sw.ctxPresent := (rfl)

@[simp] theorem State.emits_linkUp (s : State) (xs : List Event) : (s.emits xs).sw.linkUp = s.sw.linkUp := (rfl)

@[simp] theorem State.emits_txCsum (s : State) (xs : List Event) : (s.emits xs).sw.txCsum = s.sw.txCsum := (rfl)

@[simp] theorem State.emits_rxCsum (s : State) (xs : List Event) : (s.emits xs).sw.rxCsum = s.sw.rxCsum := (rfl)

@[simp] theorem State.emits_tsEnabled (s : State) (xs : List Event) :
    (s.emits xs).sw.tsEnabled = s.sw.tsEnabled := (rfl)

@[simp] theorem State.emits_sw (s : State) (xs : List Event) : (s.emits xs).sw = s.sw := (rfl)

@[simp] theorem State.emits_mem (s : State) (xs : List Event) : (s.emits xs).mem = s.mem := (rfl)

@[simp] theorem State.emits_events (s : State) (xs : List Event) : (s.emits xs).events = s.events ++ xs := (rfl)

@[simp] theorem State.emits_answers (s : State) (xs : List Event) : (s.emits xs).answers = s.answers := (rfl)

@[simp] theorem State.emits_env (s : State) (xs : List Event) : (s.emits xs).env = s.env := (rfl)

@[simp] theorem State.emits_tasks (s : State) (xs : List Event) : (s.emits xs).tasks = s.tasks := (rfl)

@[simp] theorem State.emits_sched (s : State) (xs : List Event) : (s.emits xs).sched = s.sched := (rfl)

/-! ### `setMem` -/

@[simp] theorem State.setMem_cfg (s : State) (m : Memory) : (s.setMem m).cfg = s.cfg := (rfl)

@[simp] theorem State.setMem_regs (s : State) (m : Memory) (t : RingId) : (s.setMem m).regs t = s.regs t := (rfl)

@[simp] theorem State.setMem_txe (s : State) (m : Memory) (c : Chan) : (s.setMem m).txe c = s.txe c := (rfl)

@[simp] theorem State.setMem_rxe (s : State) (m : Memory) (c : Chan) : (s.setMem m).rxe c = s.rxe c := (rfl)

@[simp] theorem State.setMem_weight (s : State) (m : Memory) (c : Chan) : (s.setMem m).weight c = s.weight c := (rfl)

@[simp] theorem State.setMem_credit (s : State) (m : Memory) (c : Chan) : (s.setMem m).credit c = s.credit c := (rfl)

@[simp] theorem State.setMem_rrPtr (s : State) (m : Memory) : (s.setMem m).hw.rrPtr = s.hw.rrPtr := (rfl)

@[simp] theorem State.setMem_grant (s : State) (m : Memory) : (s.setMem m).hw.grant = s.hw.grant := (rfl)

@[simp] theorem State.setMem_irq (s : State) (m : Memory) (e : Dir) : (s.setMem m).irq e = s.irq e := (rfl)

@[simp] theorem State.setMem_ring (s : State) (m : Memory) (t : RingId) : (s.setMem m).ring t = s.ring t := (rfl)

@[simp] theorem State.setMem_unfenced (s : State) (m : Memory) (t : RingId) :
    (s.setMem m).unfenced t = s.unfenced t := (rfl)

@[simp] theorem State.setMem_tags (s : State) (m : Memory) (c : Chan) : (s.setMem m).tags c = s.tags c := (rfl)

@[simp] theorem State.setMem_ctxPresent (s : State) (m : Memory) : (s.setMem m).sw.ctxPresent = s.sw.ctxPresent := (rfl)

@[simp] theorem State.setMem_linkUp (s : State) (m : Memory) : (s.setMem m).sw.linkUp = s.sw.linkUp := (rfl)

@[simp] theorem State.setMem_txCsum (s : State) (m : Memory) : (s.setMem m).sw.txCsum = s.sw.txCsum := (rfl)

@[simp] theorem State.setMem_rxCsum (s : State) (m : Memory) : (s.setMem m).sw.rxCsum = s.sw.rxCsum := (rfl)

@[simp] theorem State.setMem_tsEnabled (s : State) (m : Memory) : (s.setMem m).sw.tsEnabled = s.sw.tsEnabled := (rfl)

@[simp] theorem State.setMem_sw (s : State) (m : Memory) : (s.setMem m).sw = s.sw := (rfl)

@[simp] theorem State.setMem_mem (s : State) (m : Memory) : (s.setMem m).mem = m := (rfl)

@[simp] theorem State.setMem_events (s : State) (m : Memory) : (s.setMem m).events = s.events := (rfl)

@[simp] theorem State.setMem_answers (s : State) (m : Memory) : (s.setMem m).answers = s.answers := (rfl)

@[simp] theorem State.setMem_env (s : State) (m : Memory) : (s.setMem m).env = s.env := (rfl)

@[simp] theorem State.setMem_tasks (s : State) (m : Memory) : (s.setMem m).tasks = s.tasks := (rfl)

@[simp] theorem State.setMem_sched (s : State) (m : Memory) : (s.setMem m).sched = s.sched := (rfl)

/-! ### `setCfg` -/

@[simp] theorem State.setCfg_cfg (s : State) (x : Config) : (s.setCfg x).cfg = x := (rfl)

@[simp] theorem State.setCfg_regs (s : State) (x : Config) (t : RingId) : (s.setCfg x).regs t = s.regs t := (rfl)

@[simp] theorem State.setCfg_txe (s : State) (x : Config) (c : Chan) : (s.setCfg x).txe c = s.txe c := (rfl)

@[simp] theorem State.setCfg_rxe (s : State) (x : Config) (c : Chan) : (s.setCfg x).rxe c = s.rxe c := (rfl)

@[simp] theorem State.setCfg_weight (s : State) (x : Config) (c : Chan) : (s.setCfg x).weight c = s.weight c := (rfl)

@[simp] theorem State.setCfg_credit (s : State) (x : Config) (c : Chan) : (s.setCfg x).credit c = s.credit c := (rfl)

@[simp] theorem State.setCfg_rrPtr (s : State) (x : Config) : (s.setCfg x).hw.rrPtr = s.hw.rrPtr := (rfl)

@[simp] theorem State.setCfg_grant (s : State) (x : Config) : (s.setCfg x).hw.grant = s.hw.grant := (rfl)

@[simp] theorem State.setCfg_irq (s : State) (x : Config) (e : Dir) : (s.setCfg x).irq e = s.irq e := (rfl)

@[simp] theorem State.setCfg_ring (s : State) (x : Config) (t : RingId) : (s.setCfg x).ring t = s.ring t := (rfl)

@[simp] theorem State.setCfg_unfenced (s : State) (x : Config) (t : RingId) :
    (s.setCfg x).unfenced t = s.unfenced t := (rfl)

@[simp] theorem State.setCfg_tags (s : State) (x : Config) (c : Chan) : (s.setCfg x).tags c = s.tags c := (rfl)

@[simp] theorem State.setCfg_ctxPresent (s : State) (x : Config) : (s.setCfg x).sw.ctxPresent = s.sw.ctxPresent := (rfl)

@[simp] theorem State.setCfg_linkUp (s : State) (x : Config) : (s.setCfg x).sw.linkUp = s.sw.linkUp := (rfl)

@[simp] theorem State.setCfg_txCsum (s : State) (x : Config) : (s.setCfg x).sw.txCsum = s.sw.txCsum := (rfl)

@[simp] theorem State.setCfg_rxCsum (s : State) (x : Config) : (s.setCfg x).sw.rxCsum = s.sw.rxCsum := (rfl)

@[simp] theorem State.setCfg_tsEnabled (s : State) (x : Config) : (s.setCfg x).sw.tsEnabled = s.sw.tsEnabled := (rfl)

@[simp] theorem State.setCfg_sw (s : State) (x : Config) : (s.setCfg x).sw = s.sw := (rfl)

@[simp] theorem State.setCfg_mem (s : State) (x : Config) : (s.setCfg x).mem = s.mem := (rfl)

@[simp] theorem State.setCfg_events (s : State) (x : Config) : (s.setCfg x).events = s.events := (rfl)

@[simp] theorem State.setCfg_answers (s : State) (x : Config) : (s.setCfg x).answers = s.answers := (rfl)

@[simp] theorem State.setCfg_env (s : State) (x : Config) : (s.setCfg x).env = s.env := (rfl)

@[simp] theorem State.setCfg_tasks (s : State) (x : Config) : (s.setCfg x).tasks = s.tasks := (rfl)

@[simp] theorem State.setCfg_sched (s : State) (x : Config) : (s.setCfg x).sched = s.sched := (rfl)

/-! ### `setTasks` -/

@[simp] theorem State.setTasks_cfg (s : State) (ts : List Task) : (s.setTasks ts).cfg = s.cfg := (rfl)

@[simp] theorem State.setTasks_regs (s : State) (ts : List Task) (t : RingId) :
    (s.setTasks ts).regs t = s.regs t := (rfl)

@[simp] theorem State.setTasks_txe (s : State) (ts : List Task) (c : Chan) : (s.setTasks ts).txe c = s.txe c := (rfl)

@[simp] theorem State.setTasks_rxe (s : State) (ts : List Task) (c : Chan) : (s.setTasks ts).rxe c = s.rxe c := (rfl)

@[simp] theorem State.setTasks_weight (s : State) (ts : List Task) (c : Chan) :
    (s.setTasks ts).weight c = s.weight c := (rfl)

@[simp] theorem State.setTasks_credit (s : State) (ts : List Task) (c : Chan) :
    (s.setTasks ts).credit c = s.credit c := (rfl)

@[simp] theorem State.setTasks_rrPtr (s : State) (ts : List Task) : (s.setTasks ts).hw.rrPtr = s.hw.rrPtr := (rfl)

@[simp] theorem State.setTasks_grant (s : State) (ts : List Task) : (s.setTasks ts).hw.grant = s.hw.grant := (rfl)

@[simp] theorem State.setTasks_irq (s : State) (ts : List Task) (e : Dir) : (s.setTasks ts).irq e = s.irq e := (rfl)

@[simp] theorem State.setTasks_ring (s : State) (ts : List Task) (t : RingId) :
    (s.setTasks ts).ring t = s.ring t := (rfl)

@[simp] theorem State.setTasks_unfenced (s : State) (ts : List Task) (t : RingId) :
    (s.setTasks ts).unfenced t = s.unfenced t := (rfl)

@[simp] theorem State.setTasks_tags (s : State) (ts : List Task) (c : Chan) : (s.setTasks ts).tags c = s.tags c := (rfl)

@[simp] theorem State.setTasks_ctxPresent (s : State) (ts : List Task) :
    (s.setTasks ts).sw.ctxPresent = s.sw.ctxPresent := (rfl)

@[simp] theorem State.setTasks_linkUp (s : State) (ts : List Task) : (s.setTasks ts).sw.linkUp = s.sw.linkUp := (rfl)

@[simp] theorem State.setTasks_txCsum (s : State) (ts : List Task) : (s.setTasks ts).sw.txCsum = s.sw.txCsum := (rfl)

@[simp] theorem State.setTasks_rxCsum (s : State) (ts : List Task) : (s.setTasks ts).sw.rxCsum = s.sw.rxCsum := (rfl)

@[simp] theorem State.setTasks_tsEnabled (s : State) (ts : List Task) :
    (s.setTasks ts).sw.tsEnabled = s.sw.tsEnabled := (rfl)

@[simp] theorem State.setTasks_sw (s : State) (ts : List Task) : (s.setTasks ts).sw = s.sw := (rfl)

@[simp] theorem State.setTasks_mem (s : State) (ts : List Task) : (s.setTasks ts).mem = s.mem := (rfl)

@[simp] theorem State.setTasks_events (s : State) (ts : List Task) : (s.setTasks ts).events = s.events := (rfl)

@[simp] theorem State.setTasks_answers (s : State) (ts : List Task) : (s.setTasks ts).answers = s.answers := (rfl)

@[simp] theorem State.setTasks_env (s : State) (ts : List Task) : (s.setTasks ts).env = s.env := (rfl)

@[simp] theorem State.setTasks_tasks (s : State) (ts : List Task) : (s.setTasks ts).tasks = ts := (rfl)

@[simp] theorem State.setTasks_sched (s : State) (ts : List Task) : (s.setTasks ts).sched = s.sched := (rfl)

/-! ### `setSched` -/

@[simp] theorem State.setSched_cfg (s : State) (xs : List Sched) : (s.setSched xs).cfg = s.cfg := (rfl)

@[simp] theorem State.setSched_regs (s : State) (xs : List Sched) (t : RingId) :
    (s.setSched xs).regs t = s.regs t := (rfl)

@[simp] theorem State.setSched_txe (s : State) (xs : List Sched) (c : Chan) : (s.setSched xs).txe c = s.txe c := (rfl)

@[simp] theorem State.setSched_rxe (s : State) (xs : List Sched) (c : Chan) : (s.setSched xs).rxe c = s.rxe c := (rfl)

@[simp] theorem State.setSched_weight (s : State) (xs : List Sched) (c : Chan) :
    (s.setSched xs).weight c = s.weight c := (rfl)

@[simp] theorem State.setSched_credit (s : State) (xs : List Sched) (c : Chan) :
    (s.setSched xs).credit c = s.credit c := (rfl)

@[simp] theorem State.setSched_rrPtr (s : State) (xs : List Sched) : (s.setSched xs).hw.rrPtr = s.hw.rrPtr := (rfl)

@[simp] theorem State.setSched_grant (s : State) (xs : List Sched) : (s.setSched xs).hw.grant = s.hw.grant := (rfl)

@[simp] theorem State.setSched_irq (s : State) (xs : List Sched) (e : Dir) : (s.setSched xs).irq e = s.irq e := (rfl)

@[simp] theorem State.setSched_ring (s : State) (xs : List Sched) (t : RingId) :
    (s.setSched xs).ring t = s.ring t := (rfl)

@[simp] theorem State.setSched_unfenced (s : State) (xs : List Sched) (t : RingId) :
    (s.setSched xs).unfenced t = s.unfenced t := (rfl)

@[simp] theorem State.setSched_tags (s : State) (xs : List Sched) (c : Chan) :
    (s.setSched xs).tags c = s.tags c := (rfl)

@[simp] theorem State.setSched_ctxPresent (s : State) (xs : List Sched) :
    (s.setSched xs).sw.ctxPresent = s.sw.ctxPresent := (rfl)

@[simp] theorem State.setSched_linkUp (s : State) (xs : List Sched) : (s.setSched xs).sw.linkUp = s.sw.linkUp := (rfl)

@[simp] theorem State.setSched_txCsum (s : State) (xs : List Sched) : (s.setSched xs).sw.txCsum = s.sw.txCsum := (rfl)

@[simp] theorem State.setSched_rxCsum (s : State) (xs : List Sched) : (s.setSched xs).sw.rxCsum = s.sw.rxCsum := (rfl)

@[simp] theorem State.setSched_tsEnabled (s : State) (xs : List Sched) :
    (s.setSched xs).sw.tsEnabled = s.sw.tsEnabled := (rfl)

@[simp] theorem State.setSched_sw (s : State) (xs : List Sched) : (s.setSched xs).sw = s.sw := (rfl)

@[simp] theorem State.setSched_mem (s : State) (xs : List Sched) : (s.setSched xs).mem = s.mem := (rfl)

@[simp] theorem State.setSched_events (s : State) (xs : List Sched) : (s.setSched xs).events = s.events := (rfl)

@[simp] theorem State.setSched_answers (s : State) (xs : List Sched) : (s.setSched xs).answers = s.answers := (rfl)

@[simp] theorem State.setSched_env (s : State) (xs : List Sched) : (s.setSched xs).env = s.env := (rfl)

@[simp] theorem State.setSched_tasks (s : State) (xs : List Sched) : (s.setSched xs).tasks = s.tasks := (rfl)

@[simp] theorem State.setSched_sched (s : State) (xs : List Sched) : (s.setSched xs).sched = xs := (rfl)

/-! ### `setCtx` -/

@[simp] theorem State.setCtx_cfg (s : State) (on : Bool) : (s.setCtx on).cfg = s.cfg := (rfl)

@[simp] theorem State.setCtx_regs (s : State) (on : Bool) (t : RingId) : (s.setCtx on).regs t = s.regs t := (rfl)

@[simp] theorem State.setCtx_txe (s : State) (on : Bool) (c : Chan) : (s.setCtx on).txe c = s.txe c := (rfl)

@[simp] theorem State.setCtx_rxe (s : State) (on : Bool) (c : Chan) : (s.setCtx on).rxe c = s.rxe c := (rfl)

@[simp] theorem State.setCtx_weight (s : State) (on : Bool) (c : Chan) : (s.setCtx on).weight c = s.weight c := (rfl)

@[simp] theorem State.setCtx_credit (s : State) (on : Bool) (c : Chan) : (s.setCtx on).credit c = s.credit c := (rfl)

@[simp] theorem State.setCtx_rrPtr (s : State) (on : Bool) : (s.setCtx on).hw.rrPtr = s.hw.rrPtr := (rfl)

@[simp] theorem State.setCtx_grant (s : State) (on : Bool) : (s.setCtx on).hw.grant = s.hw.grant := (rfl)

@[simp] theorem State.setCtx_irq (s : State) (on : Bool) (e : Dir) : (s.setCtx on).irq e = s.irq e := (rfl)

@[simp] theorem State.setCtx_ring (s : State) (on : Bool) (t : RingId) : (s.setCtx on).ring t = s.ring t := (rfl)

@[simp] theorem State.setCtx_unfenced (s : State) (on : Bool) (t : RingId) :
    (s.setCtx on).unfenced t = s.unfenced t := (rfl)

@[simp] theorem State.setCtx_tags (s : State) (on : Bool) (c : Chan) : (s.setCtx on).tags c = s.tags c := (rfl)

@[simp] theorem State.setCtx_ctxPresent (s : State) (on : Bool) : (s.setCtx on).sw.ctxPresent = on := (rfl)

@[simp] theorem State.setCtx_linkUp (s : State) (on : Bool) : (s.setCtx on).sw.linkUp = s.sw.linkUp := (rfl)

@[simp] theorem State.setCtx_txCsum (s : State) (on : Bool) : (s.setCtx on).sw.txCsum = s.sw.txCsum := (rfl)

@[simp] theorem State.setCtx_rxCsum (s : State) (on : Bool) : (s.setCtx on).sw.rxCsum = s.sw.rxCsum := (rfl)

@[simp] theorem State.setCtx_tsEnabled (s : State) (on : Bool) : (s.setCtx on).sw.tsEnabled = s.sw.tsEnabled := (rfl)

@[simp] theorem State.setCtx_mem (s : State) (on : Bool) : (s.setCtx on).mem = s.mem := (rfl)

@[simp] theorem State.setCtx_events (s : State) (on : Bool) : (s.setCtx on).events = s.events := (rfl)

@[simp] theorem State.setCtx_answers (s : State) (on : Bool) : (s.setCtx on).answers = s.answers := (rfl)

@[simp] theorem State.setCtx_env (s : State) (on : Bool) : (s.setCtx on).env = s.env := (rfl)

@[simp] theorem State.setCtx_tasks (s : State) (on : Bool) : (s.setCtx on).tasks = s.tasks := (rfl)

@[simp] theorem State.setCtx_sched (s : State) (on : Bool) : (s.setCtx on).sched = s.sched := (rfl)

/-! ### `setLink` -/

@[simp] theorem State.setLink_cfg (s : State) (up : Bool) : (s.setLink up).cfg = s.cfg := (rfl)

@[simp] theorem State.setLink_regs (s : State) (up : Bool) (t : RingId) : (s.setLink up).regs t = s.regs t := (rfl)

@[simp] theorem State.setLink_txe (s : State) (up : Bool) (c : Chan) : (s.setLink up).txe c = s.txe c := (rfl)

@[simp] theorem State.setLink_rxe (s : State) (up : Bool) (c : Chan) : (s.setLink up).rxe c = s.rxe c := (rfl)

@[simp] theorem State.setLink_weight (s : State) (up : Bool) (c : Chan) : (s.setLink up).weight c = s.weight c := (rfl)

@[simp] theorem State.setLink_credit (s : State) (up : Bool) (c : Chan) : (s.setLink up).credit c = s.credit c := (rfl)

@[simp] theorem State.setLink_rrPtr (s : State) (up : Bool) : (s.setLink up).hw.rrPtr = s.hw.rrPtr := (rfl)

@[simp] theorem State.setLink_grant (s : State) (up : Bool) : (s.setLink up).hw.grant = s.hw.grant := (rfl)

@[simp] theorem State.setLink_irq (s : State) (up : Bool) (e : Dir) : (s.setLink up).irq e = s.irq e := (rfl)

@[simp] theorem State.setLink_ring (s : State) (up : Bool) (t : RingId) : (s.setLink up).ring t = s.ring t := (rfl)

@[simp] theorem State.setLink_unfenced (s : State) (up : Bool) (t : RingId) :
    (s.setLink up).unfenced t = s.unfenced t := (rfl)

@[simp] theorem State.setLink_tags (s : State) (up : Bool) (c : Chan) : (s.setLink up).tags c = s.tags c := (rfl)

@[simp] theorem State.setLink_ctxPresent (s : State) (up : Bool) :
    (s.setLink up).sw.ctxPresent = s.sw.ctxPresent := (rfl)

@[simp] theorem State.setLink_linkUp (s : State) (up : Bool) : (s.setLink up).sw.linkUp = up := (rfl)

@[simp] theorem State.setLink_txCsum (s : State) (up : Bool) : (s.setLink up).sw.txCsum = s.sw.txCsum := (rfl)

@[simp] theorem State.setLink_rxCsum (s : State) (up : Bool) : (s.setLink up).sw.rxCsum = s.sw.rxCsum := (rfl)

@[simp] theorem State.setLink_tsEnabled (s : State) (up : Bool) : (s.setLink up).sw.tsEnabled = s.sw.tsEnabled := (rfl)

@[simp] theorem State.setLink_mem (s : State) (up : Bool) : (s.setLink up).mem = s.mem := (rfl)

@[simp] theorem State.setLink_events (s : State) (up : Bool) : (s.setLink up).events = s.events := (rfl)

@[simp] theorem State.setLink_answers (s : State) (up : Bool) : (s.setLink up).answers = s.answers := (rfl)

@[simp] theorem State.setLink_env (s : State) (up : Bool) : (s.setLink up).env = s.env := (rfl)

@[simp] theorem State.setLink_tasks (s : State) (up : Bool) : (s.setLink up).tasks = s.tasks := (rfl)

@[simp] theorem State.setLink_sched (s : State) (up : Bool) : (s.setLink up).sched = s.sched := (rfl)

/-! ### `setModes` -/

@[simp] theorem State.setModes_cfg (s : State) (x : Caps) : (s.setModes x).cfg = s.cfg := (rfl)

@[simp] theorem State.setModes_regs (s : State) (x : Caps) (t : RingId) : (s.setModes x).regs t = s.regs t := (rfl)

@[simp] theorem State.setModes_txe (s : State) (x : Caps) (c : Chan) : (s.setModes x).txe c = s.txe c := (rfl)

@[simp] theorem State.setModes_rxe (s : State) (x : Caps) (c : Chan) : (s.setModes x).rxe c = s.rxe c := (rfl)

@[simp] theorem State.setModes_weight (s : State) (x : Caps) (c : Chan) : (s.setModes x).weight c = s.weight c := (rfl)

@[simp] theorem State.setModes_credit (s : State) (x : Caps) (c : Chan) : (s.setModes x).credit c = s.credit c := (rfl)

@[simp] theorem State.setModes_rrPtr (s : State) (x : Caps) : (s.setModes x).hw.rrPtr = s.hw.rrPtr := (rfl)

@[simp] theorem State.setModes_grant (s : State) (x : Caps) : (s.setModes x).hw.grant = s.hw.grant := (rfl)

@[simp] theorem State.setModes_irq (s : State) (x : Caps) (e : Dir) : (s.setModes x).irq e = s.irq e := (rfl)

@[simp] theorem State.setModes_ring (s : State) (x : Caps) (t : RingId) : (s.setModes x).ring t = s.ring t := (rfl)

@[simp] theorem State.setModes_unfenced (s : State) (x : Caps) (t : RingId) :
    (s.setModes x).unfenced t = s.unfenced t := (rfl)

@[simp] theorem State.setModes_tags (s : State) (x : Caps) (c : Chan) : (s.setModes x).tags c = s.tags c := (rfl)

@[simp] theorem State.setModes_ctxPresent (s : State) (x : Caps) :
    (s.setModes x).sw.ctxPresent = s.sw.ctxPresent := (rfl)

@[simp] theorem State.setModes_linkUp (s : State) (x : Caps) : (s.setModes x).sw.linkUp = s.sw.linkUp := (rfl)

@[simp] theorem State.setModes_txCsum (s : State) (x : Caps) : (s.setModes x).sw.txCsum = x.txCsum := (rfl)

@[simp] theorem State.setModes_rxCsum (s : State) (x : Caps) : (s.setModes x).sw.rxCsum = x.rxCsum := (rfl)

@[simp] theorem State.setModes_tsEnabled (s : State) (x : Caps) : (s.setModes x).sw.tsEnabled = x.ts := (rfl)

@[simp] theorem State.setModes_mem (s : State) (x : Caps) : (s.setModes x).mem = s.mem := (rfl)

@[simp] theorem State.setModes_events (s : State) (x : Caps) : (s.setModes x).events = s.events := (rfl)

@[simp] theorem State.setModes_answers (s : State) (x : Caps) : (s.setModes x).answers = s.answers := (rfl)

@[simp] theorem State.setModes_env (s : State) (x : Caps) : (s.setModes x).env = s.env := (rfl)

@[simp] theorem State.setModes_tasks (s : State) (x : Caps) : (s.setModes x).tasks = s.tasks := (rfl)

@[simp] theorem State.setModes_sched (s : State) (x : Caps) : (s.setModes x).sched = s.sched := (rfl)

/-! ### `answer` -/

@[simp] theorem State.answer_cfg (s : State) (id : Nat) (a : Result) : (s.answer id a).cfg = s.cfg := (rfl)

@[simp] theorem State.answer_regs (s : State) (id : Nat) (a : Result) (t : RingId) :
    (s.answer id a).regs t = s.regs t := (rfl)

@[simp] theorem State.answer_txe (s : State) (id : Nat) (a : Result) (c : Chan) :
    (s.answer id a).txe c = s.txe c := (rfl)

@[simp] theorem State.answer_rxe (s : State) (id : Nat) (a : Result) (c : Chan) :
    (s.answer id a).rxe c = s.rxe c := (rfl)

@[simp] theorem State.answer_weight (s : State) (id : Nat) (a : Result) (c : Chan) :
    (s.answer id a).weight c = s.weight c := (rfl)

@[simp] theorem State.answer_credit (s : State) (id : Nat) (a : Result) (c : Chan) :
    (s.answer id a).credit c = s.credit c := (rfl)

@[simp] theorem State.answer_rrPtr (s : State) (id : Nat) (a : Result) : (s.answer id a).hw.rrPtr = s.hw.rrPtr := (rfl)

@[simp] theorem State.answer_grant (s : State) (id : Nat) (a : Result) : (s.answer id a).hw.grant = s.hw.grant := (rfl)

@[simp] theorem State.answer_irq (s : State) (id : Nat) (a : Result) (e : Dir) :
    (s.answer id a).irq e = s.irq e := (rfl)

@[simp] theorem State.answer_ring (s : State) (id : Nat) (a : Result) (t : RingId) :
    (s.answer id a).ring t = s.ring t := (rfl)

@[simp] theorem State.answer_unfenced (s : State) (id : Nat) (a : Result) (t : RingId) :
    (s.answer id a).unfenced t = s.unfenced t := (rfl)

@[simp] theorem State.answer_tags (s : State) (id : Nat) (a : Result) (c : Chan) :
    (s.answer id a).tags c = s.tags c := (rfl)

@[simp] theorem State.answer_ctxPresent (s : State) (id : Nat) (a : Result) :
    (s.answer id a).sw.ctxPresent = s.sw.ctxPresent := (rfl)

@[simp] theorem State.answer_linkUp (s : State) (id : Nat) (a : Result) :
    (s.answer id a).sw.linkUp = s.sw.linkUp := (rfl)

@[simp] theorem State.answer_txCsum (s : State) (id : Nat) (a : Result) :
    (s.answer id a).sw.txCsum = s.sw.txCsum := (rfl)

@[simp] theorem State.answer_rxCsum (s : State) (id : Nat) (a : Result) :
    (s.answer id a).sw.rxCsum = s.sw.rxCsum := (rfl)

@[simp] theorem State.answer_tsEnabled (s : State) (id : Nat) (a : Result) :
    (s.answer id a).sw.tsEnabled = s.sw.tsEnabled := (rfl)

@[simp] theorem State.answer_sw (s : State) (id : Nat) (a : Result) : (s.answer id a).sw = s.sw := (rfl)

@[simp] theorem State.answer_mem (s : State) (id : Nat) (a : Result) : (s.answer id a).mem = s.mem := (rfl)

@[simp] theorem State.answer_events (s : State) (id : Nat) (a : Result) : (s.answer id a).events = s.events := (rfl)

@[simp] theorem State.answer_answers (s : State) (id : Nat) (a : Result) :
    (s.answer id a).answers = s.answers ++ [⟨id, a⟩] := (rfl)

@[simp] theorem State.answer_env (s : State) (id : Nat) (a : Result) : (s.answer id a).env = s.env := (rfl)

@[simp] theorem State.answer_tasks (s : State) (id : Nat) (a : Result) : (s.answer id a).tasks = s.tasks := (rfl)

@[simp] theorem State.answer_sched (s : State) (id : Nat) (a : Result) : (s.answer id a).sched = s.sched := (rfl)

/-! ### `used` -/

@[simp] theorem State.used_cfg (s : State) : (s.used).cfg = s.cfg := (rfl)

@[simp] theorem State.used_regs (s : State) (t : RingId) : (s.used).regs t = s.regs t := (rfl)

@[simp] theorem State.used_txe (s : State) (c : Chan) : (s.used).txe c = s.txe c := (rfl)

@[simp] theorem State.used_rxe (s : State) (c : Chan) : (s.used).rxe c = s.rxe c := (rfl)

@[simp] theorem State.used_weight (s : State) (c : Chan) : (s.used).weight c = s.weight c := (rfl)

@[simp] theorem State.used_credit (s : State) (c : Chan) : (s.used).credit c = s.credit c := (rfl)

@[simp] theorem State.used_rrPtr (s : State) : (s.used).hw.rrPtr = s.hw.rrPtr := (rfl)

@[simp] theorem State.used_grant (s : State) : (s.used).hw.grant = s.hw.grant := (rfl)

@[simp] theorem State.used_irq (s : State) (e : Dir) : (s.used).irq e = s.irq e := (rfl)

@[simp] theorem State.used_ring (s : State) (t : RingId) : (s.used).ring t = s.ring t := (rfl)

@[simp] theorem State.used_unfenced (s : State) (t : RingId) : (s.used).unfenced t = s.unfenced t := (rfl)

@[simp] theorem State.used_tags (s : State) (c : Chan) : (s.used).tags c = s.tags c := (rfl)

@[simp] theorem State.used_ctxPresent (s : State) : (s.used).sw.ctxPresent = s.sw.ctxPresent := (rfl)

@[simp] theorem State.used_linkUp (s : State) : (s.used).sw.linkUp = s.sw.linkUp := (rfl)

@[simp] theorem State.used_txCsum (s : State) : (s.used).sw.txCsum = s.sw.txCsum := (rfl)

@[simp] theorem State.used_rxCsum (s : State) : (s.used).sw.rxCsum = s.sw.rxCsum := (rfl)

@[simp] theorem State.used_tsEnabled (s : State) : (s.used).sw.tsEnabled = s.sw.tsEnabled := (rfl)

@[simp] theorem State.used_sw (s : State) : (s.used).sw = s.sw := (rfl)

@[simp] theorem State.used_mem (s : State) : (s.used).mem = s.mem := (rfl)

@[simp] theorem State.used_events (s : State) : (s.used).events = s.events := (rfl)

@[simp] theorem State.used_answers (s : State) : (s.used).answers = s.answers := (rfl)

@[simp] theorem State.used_env (s : State) : (s.used).env = { s.env with drawn := s.env.drawn + 1 } := (rfl)

@[simp] theorem State.used_tasks (s : State) : (s.used).tasks = s.tasks := (rfl)

@[simp] theorem State.used_sched (s : State) : (s.used).sched = s.sched := (rfl)

/-! ### `putD` -/

@[simp] theorem State.putD_cfg (s : State) (r : RingId) (i off : Nat) (v : Word) :
    (s.putD r i off v).cfg = s.cfg := (rfl)

@[simp] theorem State.putD_regs (s : State) (r : RingId) (i off : Nat) (v : Word) (t : RingId) :
    (s.putD r i off v).regs t = s.regs t := (rfl)

@[simp] theorem State.putD_txe (s : State) (r : RingId) (i off : Nat) (v : Word) (c : Chan) :
    (s.putD r i off v).txe c = s.txe c := (rfl)

@[simp] theorem State.putD_rxe (s : State) (r : RingId) (i off : Nat) (v : Word) (c : Chan) :
    (s.putD r i off v).rxe c = s.rxe c := (rfl)

@[simp] theorem State.putD_weight (s : State) (r : RingId) (i off : Nat) (v : Word) (c : Chan) :
    (s.putD r i off v).weight c = s.weight c := (rfl)

@[simp] theorem State.putD_credit (s : State) (r : RingId) (i off : Nat) (v : Word) (c : Chan) :
    (s.putD r i off v).credit c = s.credit c := (rfl)

@[simp] theorem State.putD_rrPtr (s : State) (r : RingId) (i off : Nat) (v : Word) :
    (s.putD r i off v).hw.rrPtr = s.hw.rrPtr := (rfl)

@[simp] theorem State.putD_grant (s : State) (r : RingId) (i off : Nat) (v : Word) :
    (s.putD r i off v).hw.grant = s.hw.grant := (rfl)

@[simp] theorem State.putD_irq (s : State) (r : RingId) (i off : Nat) (v : Word) (e : Dir) :
    (s.putD r i off v).irq e = s.irq e := (rfl)

@[simp] theorem State.putD_ring (s : State) (r : RingId) (i off : Nat) (v : Word) (t : RingId) :
    (s.putD r i off v).ring t = s.ring t := (rfl)

@[simp] theorem State.putD_unfenced (s : State) (r : RingId) (i off : Nat) (v : Word) (t : RingId) :
    (s.putD r i off v).unfenced t = s.unfenced t := (rfl)

@[simp] theorem State.putD_tags (s : State) (r : RingId) (i off : Nat) (v : Word) (c : Chan) :
    (s.putD r i off v).tags c = s.tags c := (rfl)

@[simp] theorem State.putD_ctxPresent (s : State) (r : RingId) (i off : Nat) (v : Word) :
    (s.putD r i off v).sw.ctxPresent = s.sw.ctxPresent := (rfl)

@[simp] theorem State.putD_linkUp (s : State) (r : RingId) (i off : Nat) (v : Word) :
    (s.putD r i off v).sw.linkUp = s.sw.linkUp := (rfl)

@[simp] theorem State.putD_txCsum (s : State) (r : RingId) (i off : Nat) (v : Word) :
    (s.putD r i off v).sw.txCsum = s.sw.txCsum := (rfl)

@[simp] theorem State.putD_rxCsum (s : State) (r : RingId) (i off : Nat) (v : Word) :
    (s.putD r i off v).sw.rxCsum = s.sw.rxCsum := (rfl)

@[simp] theorem State.putD_tsEnabled (s : State) (r : RingId) (i off : Nat) (v : Word) :
    (s.putD r i off v).sw.tsEnabled = s.sw.tsEnabled := (rfl)

@[simp] theorem State.putD_sw (s : State) (r : RingId) (i off : Nat) (v : Word) : (s.putD r i off v).sw = s.sw := (rfl)

@[simp] theorem State.putD_mem (s : State) (r : RingId) (i off : Nat) (v : Word) :
    (s.putD r i off v).mem = memPutWord s.mem (s.slotAddr r i off) v := (rfl)

@[simp] theorem State.putD_events (s : State) (r : RingId) (i off : Nat) (v : Word) :
    (s.putD r i off v).events = s.events := (rfl)

@[simp] theorem State.putD_answers (s : State) (r : RingId) (i off : Nat) (v : Word) :
    (s.putD r i off v).answers = s.answers := (rfl)

@[simp] theorem State.putD_env (s : State) (r : RingId) (i off : Nat) (v : Word) :
    (s.putD r i off v).env = s.env := (rfl)

@[simp] theorem State.putD_tasks (s : State) (r : RingId) (i off : Nat) (v : Word) :
    (s.putD r i off v).tasks = s.tasks := (rfl)

@[simp] theorem State.putD_sched (s : State) (r : RingId) (i off : Nat) (v : Word) :
    (s.putD r i off v).sched = s.sched := (rfl)

/-! ### `putApp` -/

@[simp] theorem State.putApp_cfg (s : State) (r : RingId) (i : Nat) (a : App) : (s.putApp r i a).cfg = s.cfg := by
  simp only [State.putApp, State.putD_cfg]

@[simp] theorem State.putApp_regs (s : State) (r : RingId) (i : Nat) (a : App) (t : RingId) :
    (s.putApp r i a).regs t = s.regs t := by
  simp only [State.putApp, State.putD_regs]

@[simp] theorem State.putApp_txe (s : State) (r : RingId) (i : Nat) (a : App) (c : Chan) :
    (s.putApp r i a).txe c = s.txe c := by
  simp only [State.putApp, State.putD_txe]

@[simp] theorem State.putApp_rxe (s : State) (r : RingId) (i : Nat) (a : App) (c : Chan) :
    (s.putApp r i a).rxe c = s.rxe c := by
  simp only [State.putApp, State.putD_rxe]

@[simp] theorem State.putApp_weight (s : State) (r : RingId) (i : Nat) (a : App) (c : Chan) :
    (s.putApp r i a).weight c = s.weight c := by
  simp only [State.putApp, State.putD_weight]

@[simp] theorem State.putApp_credit (s : State) (r : RingId) (i : Nat) (a : App) (c : Chan) :
    (s.putApp r i a).credit c = s.credit c := by
  simp only [State.putApp, State.putD_credit]

@[simp] theorem State.putApp_rrPtr (s : State) (r : RingId) (i : Nat) (a : App) :
    (s.putApp r i a).hw.rrPtr = s.hw.rrPtr := by
  simp only [State.putApp, State.putD_rrPtr]

@[simp] theorem State.putApp_grant (s : State) (r : RingId) (i : Nat) (a : App) :
    (s.putApp r i a).hw.grant = s.hw.grant := by
  simp only [State.putApp, State.putD_grant]

@[simp] theorem State.putApp_irq (s : State) (r : RingId) (i : Nat) (a : App) (e : Dir) :
    (s.putApp r i a).irq e = s.irq e := by
  simp only [State.putApp, State.putD_irq]

@[simp] theorem State.putApp_ring (s : State) (r : RingId) (i : Nat) (a : App) (t : RingId) :
    (s.putApp r i a).ring t = s.ring t := by
  simp only [State.putApp, State.putD_ring]

@[simp] theorem State.putApp_unfenced (s : State) (r : RingId) (i : Nat) (a : App) (t : RingId) :
    (s.putApp r i a).unfenced t = s.unfenced t := by
  simp only [State.putApp, State.putD_unfenced]

@[simp] theorem State.putApp_tags (s : State) (r : RingId) (i : Nat) (a : App) (c : Chan) :
    (s.putApp r i a).tags c = s.tags c := by
  simp only [State.putApp, State.putD_tags]

@[simp] theorem State.putApp_ctxPresent (s : State) (r : RingId) (i : Nat) (a : App) :
    (s.putApp r i a).sw.ctxPresent = s.sw.ctxPresent := by
  simp only [State.putApp, State.putD_ctxPresent]

@[simp] theorem State.putApp_linkUp (s : State) (r : RingId) (i : Nat) (a : App) :
    (s.putApp r i a).sw.linkUp = s.sw.linkUp := by
  simp only [State.putApp, State.putD_linkUp]

@[simp] theorem State.putApp_txCsum (s : State) (r : RingId) (i : Nat) (a : App) :
    (s.putApp r i a).sw.txCsum = s.sw.txCsum := by
  simp only [State.putApp, State.putD_txCsum]

@[simp] theorem State.putApp_rxCsum (s : State) (r : RingId) (i : Nat) (a : App) :
    (s.putApp r i a).sw.rxCsum = s.sw.rxCsum := by
  simp only [State.putApp, State.putD_rxCsum]

@[simp] theorem State.putApp_tsEnabled (s : State) (r : RingId) (i : Nat) (a : App) :
    (s.putApp r i a).sw.tsEnabled = s.sw.tsEnabled := by
  simp only [State.putApp, State.putD_tsEnabled]

@[simp] theorem State.putApp_sw (s : State) (r : RingId) (i : Nat) (a : App) : (s.putApp r i a).sw = s.sw := by
  simp only [State.putApp, State.putD_sw]

@[simp] theorem State.putApp_events (s : State) (r : RingId) (i : Nat) (a : App) :
    (s.putApp r i a).events = s.events := by
  simp only [State.putApp, State.putD_events]

@[simp] theorem State.putApp_answers (s : State) (r : RingId) (i : Nat) (a : App) :
    (s.putApp r i a).answers = s.answers := by
  simp only [State.putApp, State.putD_answers]

@[simp] theorem State.putApp_env (s : State) (r : RingId) (i : Nat) (a : App) : (s.putApp r i a).env = s.env := by
  simp only [State.putApp, State.putD_env]

@[simp] theorem State.putApp_tasks (s : State) (r : RingId) (i : Nat) (a : App) : (s.putApp r i a).tasks = s.tasks := by
  simp only [State.putApp, State.putD_tasks]

@[simp] theorem State.putApp_sched (s : State) (r : RingId) (i : Nat) (a : App) : (s.putApp r i a).sched = s.sched := by
  simp only [State.putApp, State.putD_sched]

/-! ### `addTask` -/

@[simp] theorem State.addTask_cfg (s : State) (k : Task) : (s.addTask k).cfg = s.cfg := (rfl)

@[simp] theorem State.addTask_regs (s : State) (k : Task) (t : RingId) : (s.addTask k).regs t = s.regs t := (rfl)

@[simp] theorem State.addTask_txe (s : State) (k : Task) (c : Chan) : (s.addTask k).txe c = s.txe c := (rfl)

@[simp] theorem State.addTask_rxe (s : State) (k : Task) (c : Chan) : (s.addTask k).rxe c = s.rxe c := (rfl)

@[simp] theorem State.addTask_weight (s : State) (k : Task) (c : Chan) : (s.addTask k).weight c = s.weight c := (rfl)

@[simp] theorem State.addTask_credit (s : State) (k : Task) (c : Chan) : (s.addTask k).credit c = s.credit c := (rfl)

@[simp] theorem State.addTask_rrPtr (s : State) (k : Task) : (s.addTask k).hw.rrPtr = s.hw.rrPtr := (rfl)

@[simp] theorem State.addTask_grant (s : State) (k : Task) : (s.addTask k).hw.grant = s.hw.grant := (rfl)

@[simp] theorem State.addTask_irq (s : State) (k : Task) (e : Dir) : (s.addTask k).irq e = s.irq e := (rfl)

@[simp] theorem State.addTask_ring (s : State) (k : Task) (t : RingId) : (s.addTask k).ring t = s.ring t := (rfl)

@[simp] theorem State.addTask_unfenced (s : State) (k : Task) (t : RingId) :
    (s.addTask k).unfenced t = s.unfenced t := (rfl)

@[simp] theorem State.addTask_tags (s : State) (k : Task) (c : Chan) : (s.addTask k).tags c = s.tags c := (rfl)

@[simp] theorem State.addTask_ctxPresent (s : State) (k : Task) : (s.addTask k).sw.ctxPresent = s.sw.ctxPresent := (rfl)

@[simp] theorem State.addTask_linkUp (s : State) (k : Task) : (s.addTask k).sw.linkUp = s.sw.linkUp := (rfl)

@[simp] theorem State.addTask_txCsum (s : State) (k : Task) : (s.addTask k).sw.txCsum = s.sw.txCsum := (rfl)

@[simp] theorem State.addTask_rxCsum (s : State) (k : Task) : (s.addTask k).sw.rxCsum = s.sw.rxCsum := (rfl)

@[simp] theorem State.addTask_tsEnabled (s : State) (k : Task) : (s.addTask k).sw.tsEnabled = s.sw.tsEnabled := (rfl)

@[simp] theorem State.addTask_sw (s : State) (k : Task) : (s.addTask k).sw = s.sw := (rfl)

@[simp] theorem State.addTask_mem (s : State) (k : Task) : (s.addTask k).mem = s.mem := (rfl)

@[simp] theorem State.addTask_events (s : State) (k : Task) : (s.addTask k).events = s.events := (rfl)

@[simp] theorem State.addTask_answers (s : State) (k : Task) : (s.addTask k).answers = s.answers := (rfl)

@[simp] theorem State.addTask_env (s : State) (k : Task) : (s.addTask k).env = s.env := (rfl)

@[simp] theorem State.addTask_tasks (s : State) (k : Task) : (s.addTask k).tasks = s.tasks ++ [k] := (rfl)

@[simp] theorem State.addTask_sched (s : State) (k : Task) : (s.addTask k).sched = s.sched := (rfl)

end Sys2Proof.Machine
end

