-- ==== Sys2Proof/Laws/Memory.lean ====
section
/-! SUPPORT. Laws of the finite maps and of memory: reads after writes, and the canonical form kept by every write. -/

namespace Sys2Proof.Machine

/-! ### Finite maps -/

theorem kvGet_kvPut_self {α : Type} (m : List (Nat × α)) (a : Nat) (v : α) : kvGet (kvPut m a v) a = some v := by
  induction m with
  | nil => simp [kvPut, kvGet]
  | cons c m ih =>
    obtain ⟨k, w⟩ := c
    by_cases h1 : a < k
    · simp [kvPut, kvGet, h1]
    · by_cases h2 : k = a
      · simp [kvPut, kvGet, h2]
      · simp [kvPut, kvGet, h1, h2, ih]

theorem kvGet_kvPut_ne {α : Type} (m : List (Nat × α)) {a b : Nat} (v : α) (h : b ≠ a) :
    kvGet (kvPut m a v) b = kvGet m b := by
  induction m with
  | nil => simp [kvPut, kvGet, Ne.symm h]
  | cons c m ih =>
    obtain ⟨k, w⟩ := c
    by_cases h1 : a < k
    · by_cases h3 : b < a
      · have h4 : ¬ k = b := by omega
        have h5 : b < k := by omega
        simp [kvPut, kvGet, h1, h3, h4, h5, Ne.symm h]
      · simp [kvPut, kvGet, h1, h3, Ne.symm h]
    · by_cases h2 : k = a
      · subst h2
        simp [kvPut, kvGet, Ne.symm h]
      · simp [kvPut, kvGet, h1, h2, ih]

/-- Every key of the map is above k, told from its first key. -/
def kvAbove {α : Type} (k : Nat) : List (Nat × α) → Bool
  | [] => true
  | (l, _) :: _ => k < l

theorem kvSorted_cons {α : Type} (k : Nat) (w : α) (m : List (Nat × α)) :
    kvSorted ((k, w) :: m) = (kvAbove k m && kvSorted m) := by
  cases m <;> simp [kvSorted, kvAbove]

theorem kvAbove_kvPut {α : Type} (k : Nat) (m : List (Nat × α)) (a : Nat) (v : α) (h1 : k < a)
    (h2 : kvAbove k m = true) : kvAbove k (kvPut m a v) = true := by
  cases m with
  | nil => simpa [kvPut, kvAbove] using h1
  | cons c m =>
    obtain ⟨l, w⟩ := c
    simp only [kvPut]
    split
    · simpa [kvAbove] using h1
    · split
      · simpa [kvAbove] using h1
      · simpa [kvAbove] using h2

/-- `kvPut` keeps the canonical form. -/
theorem kvSorted_kvPut {α : Type} (m : List (Nat × α)) (a : Nat) (v : α) (h : kvSorted m = true) :
    kvSorted (kvPut m a v) = true := by
  induction m with
  | nil => simp [kvPut, kvSorted]
  | cons c m ih =>
    obtain ⟨k, w⟩ := c
    simp only [kvSorted_cons, Bool.and_eq_true] at h
    simp only [kvPut]
    split
    · next h1 =>
      have h2 : kvAbove a ((k, w) :: m) = true := by simpa [kvAbove] using h1
      simp only [kvSorted_cons, Bool.and_eq_true, h2, h, and_self]
    · split
      · next h2 => simpa [kvSorted_cons, h2] using h2 ▸ h
      · next h1 h2 =>
        simp only [kvSorted_cons, Bool.and_eq_true]
        exact ⟨kvAbove_kvPut _ _ _ _ (by omega) h.1, ih h.2⟩

theorem kvAbove_trans {α : Type} {j k : Nat} (m : List (Nat × α)) (h1 : j < k) (h2 : kvAbove k m = true) :
    kvAbove j m = true := by
  cases m with
  | nil => rfl
  | cons c m =>
    obtain ⟨l, w⟩ := c
    simp only [kvAbove, decide_eq_true_eq] at h2 ⊢
    omega

theorem kvAbove_kvDel {α : Type} (k : Nat) (m : List (Nat × α)) (a : Nat) (h : kvAbove k m = true)
    (hs : kvSorted m = true) : kvAbove k (kvDel m a) = true := by
  cases m with
  | nil => simp [kvDel, kvAbove]
  | cons c m =>
    obtain ⟨l, w⟩ := c
    simp only [kvSorted_cons, Bool.and_eq_true] at hs
    simp only [kvAbove, decide_eq_true_eq] at h
    simp only [kvDel]
    split
    · exact kvAbove_trans m h hs.1
    · split <;> simpa [kvAbove] using h

/-- `kvDel` keeps the canonical form. -/
theorem kvSorted_kvDel {α : Type} (m : List (Nat × α)) (a : Nat) (h : kvSorted m = true) :
    kvSorted (kvDel m a) = true := by
  induction m with
  | nil => simp [kvDel, kvSorted]
  | cons c m ih =>
    obtain ⟨k, w⟩ := c
    have h' := h
    simp only [kvSorted_cons, Bool.and_eq_true] at h'
    simp only [kvDel]
    split
    · exact h'.2
    · split
      · exact h
      · simp only [kvSorted_cons, Bool.and_eq_true]
        exact ⟨kvAbove_kvDel _ _ _ h'.1 h'.2, ih h'.2⟩

theorem kvPut_all {α : Type} (p : Nat × α → Bool) (m : List (Nat × α)) (a : Nat) (v : α) (h : m.all p = true)
    (ha : p (a, v) = true) : (kvPut m a v).all p = true := by
  induction m with
  | nil => simpa [kvPut] using ha
  | cons c m ih =>
    obtain ⟨k, w⟩ := c
    simp only [List.all_cons, Bool.and_eq_true] at h
    simp only [kvPut]
    split
    · simp only [List.all_cons, Bool.and_eq_true]
      exact ⟨ha, h⟩
    · split
      · simp only [List.all_cons, Bool.and_eq_true]
        exact ⟨ha, h.2⟩
      · simp only [List.all_cons, Bool.and_eq_true]
        exact ⟨h.1, ih h.2⟩

/-! ### The canonical form of memory -/

theorem memPutByte_wf (m : Memory) (a : Word) (v : Byte) (h : Memory.wf m = true) :
    Memory.wf (memPutByte m a v) = true := by
  simp only [Memory.wf, Bool.and_eq_true, memPutByte] at h ⊢
  refine ⟨kvSorted_kvPut _ _ _ h.1, kvPut_all _ _ _ _ h.2 ?_⟩
  simpa using a.isLt

theorem memPutWord_wf (m : Memory) (a v : Word) (h : Memory.wf m = true) : Memory.wf (memPutWord m a v) = true :=
  memPutByte_wf _ _ _ (memPutByte_wf _ _ _ (memPutByte_wf _ _ _ (memPutByte_wf _ _ _ h)))

theorem memPutBytes_wf (bs : List Byte) (m : Memory) (a : Word) (h : Memory.wf m = true) :
    Memory.wf (memPutBytes m a bs) = true := by
  induction bs generalizing m a with
  | nil => exact h
  | cons b bs ih => exact ih _ _ (memPutByte_wf _ _ _ h)

/-! ### Reads after writes -/

theorem memByte_memPutByte (m : Memory) (a b : Word) (v : Byte) :
    memByte (memPutByte m a v) b = if b = a then v else memByte m b := by
  by_cases h : b = a
  · simp [memByte, memPutByte, h, kvGet_kvPut_self]
  · have h' : b.toNat ≠ a.toNat := fun e => h (BitVec.eq_of_toNat_eq e)
    simp [memByte, memPutByte, h, kvGet_kvPut_ne _ _ h']

/-- A byte outside the four of a word write keeps its value. -/
theorem memByte_memPutWord_ne (m : Memory) (a v b : Word) (h0 : b ≠ a) (h1 : b ≠ a + 1) (h2 : b ≠ a + 2)
    (h3 : b ≠ a + 3) : memByte (memPutWord m a v) b = memByte m b := by
  simp only [memPutWord, memByte_memPutByte, if_neg h0, if_neg h1, if_neg h2, if_neg h3]

/-- A word read back at its own address is what was written. -/
theorem memWord_memPutWord_self (m : Memory) (a v : Word) : memWord (memPutWord m a v) a = v := by
  have h1 : a + 1 ≠ a := by bv_omega
  have h2 : a + 2 ≠ a := by bv_omega
  have h3 : a + 3 ≠ a := by bv_omega
  have h4 : a + 2 ≠ a + 1 := by bv_omega
  have h5 : a + 3 ≠ a + 1 := by bv_omega
  have h6 : a + 3 ≠ a + 2 := by bv_omega
  simp only [memWord, memPutWord, memByte_memPutByte, h1, h2, h3, h4, h5, h6, h1.symm, h2.symm, h3.symm, h4.symm,
    h5.symm, h6.symm, if_true, if_false]
  apply BitVec.eq_of_getLsbD_eq
  intro i hi
  simp only [BitVec.getLsbD_append, BitVec.getLsbD_extractLsb']
  by_cases a1 : i < 8
  · simp [a1]
  · by_cases a2 : i < 16
    · have : i - 8 < 8 := by omega
      simp [a1, this, show 8 + (i - 8) = i by omega]
    · by_cases a3 : i < 24
      · have b1 : ¬ i - 8 < 8 := by omega
        have b2 : i - 8 - 8 < 8 := by omega
        simp [a1, b1, b2, show 16 + (i - 8 - 8) = i by omega]
      · have b1 : ¬ i - 8 < 8 := by omega
        have b2 : ¬ i - 8 - 8 < 8 := by omega
        have b3 : i - 8 - 8 - 8 < 8 := by omega
        simp [a1, b1, b2, b3, show 24 + (i - 8 - 8 - 8) = i by omega]

/-- Two words four or more bytes apart do not overlap. -/
def apart (a b : Word) : Prop := 4 ≤ (a - b).toNat ∧ 4 ≤ (b - a).toNat

theorem memWord_memPutWord_apart (m : Memory) (a b v : Word) (h : apart a b) :
    memWord (memPutWord m a v) b = memWord m b := by
  obtain ⟨h1, h2⟩ := h
  simp only [memWord]
  rw [memByte_memPutWord_ne m a v (b + 3), memByte_memPutWord_ne m a v (b + 2), memByte_memPutWord_ne m a v (b + 1),
    memByte_memPutWord_ne m a v b] <;> bv_omega

/-! ### The application words of a received frame -/

/-- The write of an application word: the word at `a` holds `v` (R388). -/
@[simp] theorem State.putAppWord_mem (s : State) (a v : Word) : (s.putAppWord a v).mem = memPutWord s.mem a v := by
  unfold State.putAppWord State.drawBus
  cases s.env.busResp <;> rfl

/-- It takes one answer (R85). -/
theorem State.putAppWord_busResp {s : State} {c : BusResp} {rest : List BusResp} (a v : Word)
    (h : s.env.busResp = c :: rest) : (s.putAppWord a v).env.busResp = rest := by
  unfold State.putAppWord State.drawBus
  rw [h]
  rfl

/-- The five words are written whatever the answers are (R388, R148). -/
@[simp] theorem State.writeApp_mem (s : State) (d : Word) (a : App) :
    (s.writeApp d a).mem =
      memPutWord (memPutWord (memPutWord (memPutWord (memPutWord s.mem (d + 0x20) a.a0) (d + 0x24) a.a1) (d + 0x28) a.a2)
        (d + 0x2C) a.a3) (d + 0x30) a.a4 := by
  unfold State.writeApp
  simp [appOff]

/-- They take five answers (R85). -/
theorem State.writeApp_busResp {s : State} {c0 c1 c2 c3 c4 : BusResp} {rest : List BusResp} (d : Word) (a : App)
    (h : s.env.busResp = c0 :: c1 :: c2 :: c3 :: c4 :: rest) : (s.writeApp d a).env.busResp = rest :=
  putAppWord_busResp _ _ (putAppWord_busResp _ _ (putAppWord_busResp _ _ (putAppWord_busResp _ _ (putAppWord_busResp _ _ h))))

end Sys2Proof.Machine
end

