-- ==== Sys2Proof/Laws/Ops.lean ====
section
/-! SUPPORT. What each shared operation leaves alone, said once for each: everything it can change is what its lemma does not
name. -/

namespace Sys2Proof.Machine

@[simp] theorem State.notify_keeps (s : State) (r : RingId) :
    (s.notify r).cfg = s.cfg ∧ (s.notify r).sw = s.sw ∧ (∀ t, (s.notify r).ring t = s.ring t) ∧ (∀ t, (s.notify
    r).unfenced t = s.unfenced t) ∧ (∀ c, (s.notify r).tags c = s.tags c) ∧ (∀ c, (s.notify r).txe c = s.txe c) ∧ (∀
    c, (s.notify r).rxe c = s.rxe c) ∧ (∀ c, (s.notify r).weight c = s.weight c) ∧ (∀ c, (s.notify r).credit c =
    s.credit c) ∧ (s.notify r).hw.rrPtr = s.hw.rrPtr ∧ (s.notify r).hw.grant = s.hw.grant ∧ (s.notify r).mem = s.mem ∧
    (s.notify r).events = s.events ∧ (s.notify r).answers = s.answers ∧ (s.notify r).env = s.env ∧ (s.notify r).tasks
    = s.tasks ∧ (s.notify r).sched = s.sched := by
  unfold State.notify
  split
  · simp
  · dsimp only
    split <;> simp

@[simp] theorem State.deliver_keeps (s : State) (r : RingId) (p : RingRegs × Bool) :
    (s.deliver r p).cfg = s.cfg ∧ (s.deliver r p).sw = s.sw ∧ (∀ t, (s.deliver r p).ring t = s.ring t) ∧ (∀ t,
    (s.deliver r p).unfenced t = s.unfenced t) ∧ (∀ c, (s.deliver r p).tags c = s.tags c) ∧ (∀ c, (s.deliver r p).txe
    c = s.txe c) ∧ (∀ c, (s.deliver r p).rxe c = s.rxe c) ∧ (∀ c, (s.deliver r p).weight c = s.weight c) ∧ (∀ c,
    (s.deliver r p).credit c = s.credit c) ∧ (s.deliver r p).hw.rrPtr = s.hw.rrPtr ∧ (s.deliver r p).hw.grant =
    s.hw.grant ∧ (s.deliver r p).mem = s.mem ∧ (s.deliver r p).events = s.events ∧ (s.deliver r p).answers = s.answers
    ∧ (s.deliver r p).env = s.env ∧ (s.deliver r p).tasks = s.tasks ∧ (s.deliver r p).sched = s.sched := by
  unfold State.deliver
  split <;> simp

@[simp] theorem State.raise_keeps (s : State) (r : RingId) (k : Irq) :
    (s.raise r k).cfg = s.cfg ∧ (s.raise r k).sw = s.sw ∧ (∀ t, (s.raise r k).ring t = s.ring t) ∧ (∀ t, (s.raise r
    k).unfenced t = s.unfenced t) ∧ (∀ c, (s.raise r k).tags c = s.tags c) ∧ (∀ c, (s.raise r k).txe c = s.txe c) ∧ (∀
    c, (s.raise r k).rxe c = s.rxe c) ∧ (∀ c, (s.raise r k).weight c = s.weight c) ∧ (∀ c, (s.raise r k).credit c =
    s.credit c) ∧ (s.raise r k).hw.rrPtr = s.hw.rrPtr ∧ (s.raise r k).hw.grant = s.hw.grant ∧ (s.raise r k).mem =
    s.mem ∧ (s.raise r k).events = s.events ∧ (s.raise r k).answers = s.answers ∧ (s.raise r k).env = s.env ∧ (s.raise
    r k).tasks = s.tasks ∧ (s.raise r k).sched = s.sched := by
  unfold State.raise
  simp

@[simp] theorem State.packetDone_keeps (s : State) (r : RingId) :
    (s.packetDone r).cfg = s.cfg ∧ (s.packetDone r).sw = s.sw ∧ (∀ t, (s.packetDone r).ring t = s.ring t) ∧ (∀ t,
    (s.packetDone r).unfenced t = s.unfenced t) ∧ (∀ c, (s.packetDone r).tags c = s.tags c) ∧ (∀ c, (s.packetDone
    r).txe c = s.txe c) ∧ (∀ c, (s.packetDone r).rxe c = s.rxe c) ∧ (∀ c, (s.packetDone r).weight c = s.weight c) ∧ (∀
    c, (s.packetDone r).credit c = s.credit c) ∧ (s.packetDone r).hw.rrPtr = s.hw.rrPtr ∧ (s.packetDone r).hw.grant =
    s.hw.grant ∧ (s.packetDone r).mem = s.mem ∧ (s.packetDone r).events = s.events ∧ (s.packetDone r).answers =
    s.answers ∧ (s.packetDone r).env = s.env ∧ (s.packetDone r).tasks = s.tasks ∧ (s.packetDone r).sched = s.sched :=
    by
  unfold State.packetDone
  dsimp only
  split <;> simp

@[simp] theorem State.releaseGrant_keeps (s : State) (r : RingId) :
    (s.releaseGrant r).cfg = s.cfg ∧ (s.releaseGrant r).sw = s.sw ∧ (∀ t, (s.releaseGrant r).regs t = s.regs t) ∧ (∀
    t, (s.releaseGrant r).ring t = s.ring t) ∧ (∀ t, (s.releaseGrant r).unfenced t = s.unfenced t) ∧ (∀ c,
    (s.releaseGrant r).tags c = s.tags c) ∧ (∀ c, (s.releaseGrant r).txe c = s.txe c) ∧ (∀ c, (s.releaseGrant r).rxe c
    = s.rxe c) ∧ (∀ c, (s.releaseGrant r).weight c = s.weight c) ∧ (∀ c, (s.releaseGrant r).credit c = s.credit c) ∧
    (s.releaseGrant r).hw.rrPtr = s.hw.rrPtr ∧ (∀ k, (s.releaseGrant r).irq k = s.irq k) ∧ (s.releaseGrant r).mem =
    s.mem ∧ (s.releaseGrant r).events = s.events ∧ (s.releaseGrant r).answers = s.answers ∧ (s.releaseGrant r).env =
    s.env ∧ (s.releaseGrant r).tasks = s.tasks ∧ (s.releaseGrant r).sched = s.sched := by
  unfold State.releaseGrant
  split <;> simp

@[simp] theorem State.dropGrant_keeps (s : State) :
    (s.dropGrant).cfg = s.cfg ∧ (s.dropGrant).sw = s.sw ∧ (∀ t, (s.dropGrant).regs t = s.regs t) ∧ (∀ t,
    (s.dropGrant).ring t = s.ring t) ∧ (∀ t, (s.dropGrant).unfenced t = s.unfenced t) ∧ (∀ c, (s.dropGrant).tags c =
    s.tags c) ∧ (∀ c, (s.dropGrant).txe c = s.txe c) ∧ (∀ c, (s.dropGrant).rxe c = s.rxe c) ∧ (∀ c,
    (s.dropGrant).weight c = s.weight c) ∧ (∀ c, (s.dropGrant).credit c = s.credit c) ∧ (s.dropGrant).hw.rrPtr =
    s.hw.rrPtr ∧ (∀ k, (s.dropGrant).irq k = s.irq k) ∧ (s.dropGrant).mem = s.mem ∧ (s.dropGrant).events = s.events ∧
    (s.dropGrant).answers = s.answers ∧ (s.dropGrant).env = s.env ∧ (s.dropGrant).tasks = s.tasks ∧
    (s.dropGrant).sched = s.sched := by
  unfold State.dropGrant
  split <;> simp

@[simp] theorem State.dropFrame_keeps (s : State) (r : RingId) :
    (s.dropFrame r).cfg = s.cfg ∧ (s.dropFrame r).sw = s.sw ∧ (∀ t, (s.dropFrame r).regs t = s.regs t) ∧ (∀ t,
    (s.dropFrame r).ring t = s.ring t) ∧ (∀ t, (s.dropFrame r).unfenced t = s.unfenced t) ∧ (∀ c, (s.dropFrame r).tags
    c = s.tags c) ∧ (∀ c, (s.dropFrame r).weight c = s.weight c) ∧ (∀ c, (s.dropFrame r).credit c = s.credit c) ∧
    (s.dropFrame r).hw.rrPtr = s.hw.rrPtr ∧ (s.dropFrame r).hw.grant = s.hw.grant ∧ (∀ k, (s.dropFrame r).irq k =
    s.irq k) ∧ (s.dropFrame r).mem = s.mem ∧ (s.dropFrame r).events = s.events ∧ (s.dropFrame r).answers = s.answers ∧
    (s.dropFrame r).env = s.env ∧ (s.dropFrame r).tasks = s.tasks ∧ (s.dropFrame r).sched = s.sched := by
  unfold State.dropFrame
  split <;> simp

@[simp] theorem State.engineFault_keeps (s : State) (r : RingId) (x : Cause) :
    (s.engineFault r x).cfg = s.cfg ∧ (s.engineFault r x).sw = s.sw ∧ (∀ t, (s.engineFault r x).ring t = s.ring t) ∧
    (∀ t, (s.engineFault r x).unfenced t = s.unfenced t) ∧ (∀ c, (s.engineFault r x).tags c = s.tags c) ∧ (∀ c,
    (s.engineFault r x).weight c = s.weight c) ∧ (∀ c, (s.engineFault r x).credit c = s.credit c) ∧ (s.engineFault r
    x).hw.rrPtr = s.hw.rrPtr ∧ (s.engineFault r x).mem = s.mem ∧ (s.engineFault r x).events = s.events ∧
    (s.engineFault r x).answers = s.answers ∧ (s.engineFault r x).env = s.env ∧ (s.engineFault r x).tasks = s.tasks ∧
    (s.engineFault r x).sched = s.sched := by
  unfold State.engineFault
  simp

@[simp] theorem State.writeIer_keeps (s : State) (r : RingId) (v : BitVec 3) :
    (s.writeIer r v).cfg = s.cfg ∧ (s.writeIer r v).sw = s.sw ∧ (∀ t, (s.writeIer r v).ring t = s.ring t) ∧ (∀ t,
    (s.writeIer r v).unfenced t = s.unfenced t) ∧ (∀ c, (s.writeIer r v).tags c = s.tags c) ∧ (∀ c, (s.writeIer r
    v).txe c = s.txe c) ∧ (∀ c, (s.writeIer r v).rxe c = s.rxe c) ∧ (∀ c, (s.writeIer r v).weight c = s.weight c) ∧ (∀
    c, (s.writeIer r v).credit c = s.credit c) ∧ (s.writeIer r v).hw.rrPtr = s.hw.rrPtr ∧ (s.writeIer r v).hw.grant =
    s.hw.grant ∧ (s.writeIer r v).mem = s.mem ∧ (s.writeIer r v).events = s.events ∧ (s.writeIer r v).answers =
    s.answers ∧ (s.writeIer r v).env = s.env ∧ (s.writeIer r v).tasks = s.tasks ∧ (s.writeIer r v).sched = s.sched :=
    by
  unfold State.writeIer
  split <;> simp

@[simp] theorem State.writeIcr_keeps (s : State) (r : RingId) (v : Word) :
    (s.writeIcr r v).cfg = s.cfg ∧ (s.writeIcr r v).sw = s.sw ∧ (∀ t, (s.writeIcr r v).ring t = s.ring t) ∧ (∀ t,
    (s.writeIcr r v).unfenced t = s.unfenced t) ∧ (∀ c, (s.writeIcr r v).tags c = s.tags c) ∧ (∀ c, (s.writeIcr r
    v).txe c = s.txe c) ∧ (∀ c, (s.writeIcr r v).rxe c = s.rxe c) ∧ (∀ c, (s.writeIcr r v).weight c = s.weight c) ∧ (∀
    c, (s.writeIcr r v).credit c = s.credit c) ∧ (s.writeIcr r v).hw.rrPtr = s.hw.rrPtr ∧ (s.writeIcr r v).hw.grant =
    s.hw.grant ∧ (∀ k, (s.writeIcr r v).irq k = s.irq k) ∧ (s.writeIcr r v).mem = s.mem ∧ (s.writeIcr r v).events =
    s.events ∧ (s.writeIcr r v).answers = s.answers ∧ (s.writeIcr r v).env = s.env ∧ (s.writeIcr r v).tasks = s.tasks
    ∧ (s.writeIcr r v).sched = s.sched := by
  unfold State.writeIcr
  simp

@[simp] theorem State.drawBus_keeps (s : State) :
    (s.drawBus.2).cfg = s.cfg ∧ (s.drawBus.2).sw = s.sw ∧ (∀ t, (s.drawBus.2).regs t = s.regs t) ∧ (∀ t,
    (s.drawBus.2).ring t = s.ring t) ∧ (∀ t, (s.drawBus.2).unfenced t = s.unfenced t) ∧ (∀ c, (s.drawBus.2).tags c =
    s.tags c) ∧ (∀ c, (s.drawBus.2).txe c = s.txe c) ∧ (∀ c, (s.drawBus.2).rxe c = s.rxe c) ∧ (∀ c,
    (s.drawBus.2).weight c = s.weight c) ∧ (∀ c, (s.drawBus.2).credit c = s.credit c) ∧ (s.drawBus.2).hw.rrPtr =
    s.hw.rrPtr ∧ (s.drawBus.2).hw.grant = s.hw.grant ∧ (∀ k, (s.drawBus.2).irq k = s.irq k) ∧ (s.drawBus.2).mem =
    s.mem ∧ (s.drawBus.2).events = s.events ∧ (s.drawBus.2).answers = s.answers ∧ (s.drawBus.2).tasks = s.tasks ∧
    (s.drawBus.2).sched = s.sched := by
  unfold State.drawBus
  split <;>
    simp [State.used, State.regs, State.ring, State.unfenced, State.tags, State.txe, State.rxe, State.weight, State.credit, State.irq]

@[simp] theorem State.drawTs_keeps (s : State) :
    (s.drawTs.2).cfg = s.cfg ∧ (s.drawTs.2).sw = s.sw ∧ (∀ t, (s.drawTs.2).regs t = s.regs t) ∧ (∀ t,
    (s.drawTs.2).ring t = s.ring t) ∧ (∀ t, (s.drawTs.2).unfenced t = s.unfenced t) ∧ (∀ c, (s.drawTs.2).tags c =
    s.tags c) ∧ (∀ c, (s.drawTs.2).txe c = s.txe c) ∧ (∀ c, (s.drawTs.2).rxe c = s.rxe c) ∧ (∀ c, (s.drawTs.2).weight
    c = s.weight c) ∧ (∀ c, (s.drawTs.2).credit c = s.credit c) ∧ (s.drawTs.2).hw.rrPtr = s.hw.rrPtr ∧
    (s.drawTs.2).hw.grant = s.hw.grant ∧ (∀ k, (s.drawTs.2).irq k = s.irq k) ∧ (s.drawTs.2).mem = s.mem ∧
    (s.drawTs.2).events = s.events ∧ (s.drawTs.2).answers = s.answers ∧ (s.drawTs.2).tasks = s.tasks ∧
    (s.drawTs.2).sched = s.sched := by
  unfold State.drawTs
  split <;>
    simp [State.used, State.regs, State.ring, State.unfenced, State.tags, State.txe, State.rxe, State.weight, State.credit, State.irq]

@[simp] theorem State.drawResetCompletes_keeps (s : State) :
    (s.drawResetCompletes.2).cfg = s.cfg ∧ (s.drawResetCompletes.2).sw = s.sw ∧ (∀ t, (s.drawResetCompletes.2).regs t
    = s.regs t) ∧ (∀ t, (s.drawResetCompletes.2).ring t = s.ring t) ∧ (∀ t, (s.drawResetCompletes.2).unfenced t =
    s.unfenced t) ∧ (∀ c, (s.drawResetCompletes.2).tags c = s.tags c) ∧ (∀ c, (s.drawResetCompletes.2).txe c = s.txe
    c) ∧ (∀ c, (s.drawResetCompletes.2).rxe c = s.rxe c) ∧ (∀ c, (s.drawResetCompletes.2).weight c = s.weight c) ∧ (∀
    c, (s.drawResetCompletes.2).credit c = s.credit c) ∧ (s.drawResetCompletes.2).hw.rrPtr = s.hw.rrPtr ∧
    (s.drawResetCompletes.2).hw.grant = s.hw.grant ∧ (∀ k, (s.drawResetCompletes.2).irq k = s.irq k) ∧
    (s.drawResetCompletes.2).mem = s.mem ∧ (s.drawResetCompletes.2).events = s.events ∧
    (s.drawResetCompletes.2).answers = s.answers ∧ (s.drawResetCompletes.2).tasks = s.tasks ∧
    (s.drawResetCompletes.2).sched = s.sched := by
  unfold State.drawResetCompletes
  split <;>
    simp [State.used, State.regs, State.ring, State.unfenced, State.tags, State.txe, State.rxe, State.weight, State.credit, State.irq]

@[simp] theorem State.drawRxBuffer_keeps (s : State) :
    (s.drawRxBuffer.2).cfg = s.cfg ∧ (s.drawRxBuffer.2).sw = s.sw ∧ (∀ t, (s.drawRxBuffer.2).regs t = s.regs t) ∧ (∀
    t, (s.drawRxBuffer.2).ring t = s.ring t) ∧ (∀ t, (s.drawRxBuffer.2).unfenced t = s.unfenced t) ∧ (∀ c,
    (s.drawRxBuffer.2).tags c = s.tags c) ∧ (∀ c, (s.drawRxBuffer.2).txe c = s.txe c) ∧ (∀ c, (s.drawRxBuffer.2).rxe c
    = s.rxe c) ∧ (∀ c, (s.drawRxBuffer.2).weight c = s.weight c) ∧ (∀ c, (s.drawRxBuffer.2).credit c = s.credit c) ∧
    (s.drawRxBuffer.2).hw.rrPtr = s.hw.rrPtr ∧ (s.drawRxBuffer.2).hw.grant = s.hw.grant ∧ (∀ k, (s.drawRxBuffer.2).irq
    k = s.irq k) ∧ (s.drawRxBuffer.2).mem = s.mem ∧ (s.drawRxBuffer.2).events = s.events ∧ (s.drawRxBuffer.2).answers
    = s.answers ∧ (s.drawRxBuffer.2).tasks = s.tasks ∧ (s.drawRxBuffer.2).sched = s.sched := by
  unfold State.drawRxBuffer
  split <;>
    simp [State.used, State.regs, State.ring, State.unfenced, State.tags, State.txe, State.rxe, State.weight, State.credit, State.irq]

@[simp] theorem State.drawAlloc_keeps (s : State) :
    (s.drawAlloc.2).cfg = s.cfg ∧ (s.drawAlloc.2).sw = s.sw ∧ (∀ t, (s.drawAlloc.2).regs t = s.regs t) ∧ (∀ t,
    (s.drawAlloc.2).ring t = s.ring t) ∧ (∀ t, (s.drawAlloc.2).unfenced t = s.unfenced t) ∧ (∀ c, (s.drawAlloc.2).tags
    c = s.tags c) ∧ (∀ c, (s.drawAlloc.2).txe c = s.txe c) ∧ (∀ c, (s.drawAlloc.2).rxe c = s.rxe c) ∧ (∀ c,
    (s.drawAlloc.2).weight c = s.weight c) ∧ (∀ c, (s.drawAlloc.2).credit c = s.credit c) ∧ (s.drawAlloc.2).hw.rrPtr =
    s.hw.rrPtr ∧ (s.drawAlloc.2).hw.grant = s.hw.grant ∧ (∀ k, (s.drawAlloc.2).irq k = s.irq k) ∧ (s.drawAlloc.2).mem
    = s.mem ∧ (s.drawAlloc.2).events = s.events ∧ (s.drawAlloc.2).answers = s.answers ∧ (s.drawAlloc.2).tasks =
    s.tasks ∧ (s.drawAlloc.2).sched = s.sched := by
  unfold State.drawAlloc
  split <;>
    simp [State.used, State.regs, State.ring, State.unfenced, State.tags, State.txe, State.rxe, State.weight, State.credit, State.irq]

@[simp] theorem State.writeCr_keeps (s : State) (r : RingId) (v : Word) :
    (s.writeCr r v).cfg = s.cfg ∧ (s.writeCr r v).sw = s.sw ∧ (∀ t, (s.writeCr r v).ring t = s.ring t) ∧ (∀ t,
    (s.writeCr r v).unfenced t = s.unfenced t) ∧ (∀ c, (s.writeCr r v).tags c = s.tags c) ∧ (∀ c, (s.writeCr r v).txe
    c = s.txe c) ∧ (∀ c, (s.writeCr r v).rxe c = s.rxe c) ∧ (∀ c, (s.writeCr r v).weight c = s.weight c) ∧ (∀ c,
    (s.writeCr r v).credit c = s.credit c) ∧ (s.writeCr r v).hw.rrPtr = s.hw.rrPtr ∧ (∀ k, (s.writeCr r v).irq k =
    s.irq k) ∧ (s.writeCr r v).mem = s.mem ∧ (s.writeCr r v).events = s.events ∧ (s.writeCr r v).answers = s.answers ∧
    (s.writeCr r v).tasks = s.tasks ∧ (s.writeCr r v).sched = s.sched := by
  unfold State.writeCr
  split
  · simp
  · split <;> simp

@[simp] theorem State.mapDir_keeps (s : State) (d : Dir) (f : Chan → RingRegs → RingRegs) :
    (s.mapDir d f).cfg = s.cfg ∧ (s.mapDir d f).sw = s.sw ∧ (∀ t, (s.mapDir d f).ring t = s.ring t) ∧ (∀ t, (s.mapDir
    d f).unfenced t = s.unfenced t) ∧ (∀ c, (s.mapDir d f).tags c = s.tags c) ∧ (∀ c, (s.mapDir d f).txe c = s.txe c)
    ∧ (∀ c, (s.mapDir d f).rxe c = s.rxe c) ∧ (∀ c, (s.mapDir d f).weight c = s.weight c) ∧ (∀ c, (s.mapDir d
    f).credit c = s.credit c) ∧ (s.mapDir d f).hw.rrPtr = s.hw.rrPtr ∧ (s.mapDir d f).hw.grant = s.hw.grant ∧ (∀ k,
    (s.mapDir d f).irq k = s.irq k) ∧ (s.mapDir d f).mem = s.mem ∧ (s.mapDir d f).events = s.events ∧ (s.mapDir d
    f).answers = s.answers ∧ (s.mapDir d f).env = s.env ∧ (s.mapDir d f).tasks = s.tasks ∧ (s.mapDir d f).sched =
    s.sched := by
  simp only [State.mapDir, State.ring, State.unfenced, State.tags, State.txe, State.rxe, State.weight, State.credit, State.irq,
    implies_true, and_self]

@[simp] theorem State.writeChen_keeps (s : State) (d : Dir) (v : Word) :
    (s.writeChen d v).cfg = s.cfg ∧ (s.writeChen d v).sw = s.sw ∧ (∀ t, (s.writeChen d v).ring t = s.ring t) ∧ (∀ t,
    (s.writeChen d v).unfenced t = s.unfenced t) ∧ (∀ c, (s.writeChen d v).tags c = s.tags c) ∧ (∀ c, (s.writeChen d
    v).txe c = s.txe c) ∧ (∀ c, (s.writeChen d v).rxe c = s.rxe c) ∧ (∀ c, (s.writeChen d v).weight c = s.weight c) ∧
    (∀ c, (s.writeChen d v).credit c = s.credit c) ∧ (s.writeChen d v).hw.rrPtr = s.hw.rrPtr ∧ (s.writeChen d
    v).hw.grant = s.hw.grant ∧ (∀ k, (s.writeChen d v).irq k = s.irq k) ∧ (s.writeChen d v).mem = s.mem ∧ (s.writeChen
    d v).events = s.events ∧ (s.writeChen d v).answers = s.answers ∧ (s.writeChen d v).env = s.env ∧ (s.writeChen d
    v).tasks = s.tasks ∧ (s.writeChen d v).sched = s.sched := by
  unfold State.writeChen
  simp

@[simp] theorem State.writeChIer_keeps (s : State) (d : Dir) (v : Word) :
    (s.writeChIer d v).cfg = s.cfg ∧ (s.writeChIer d v).sw = s.sw ∧ (∀ t, (s.writeChIer d v).ring t = s.ring t) ∧ (∀
    t, (s.writeChIer d v).unfenced t = s.unfenced t) ∧ (∀ c, (s.writeChIer d v).tags c = s.tags c) ∧ (∀ c,
    (s.writeChIer d v).txe c = s.txe c) ∧ (∀ c, (s.writeChIer d v).rxe c = s.rxe c) ∧ (∀ c, (s.writeChIer d v).weight
    c = s.weight c) ∧ (∀ c, (s.writeChIer d v).credit c = s.credit c) ∧ (s.writeChIer d v).hw.rrPtr = s.hw.rrPtr ∧
    (s.writeChIer d v).hw.grant = s.hw.grant ∧ (s.writeChIer d v).mem = s.mem ∧ (s.writeChIer d v).events = s.events ∧
    (s.writeChIer d v).answers = s.answers ∧ (s.writeChIer d v).env = s.env ∧ (s.writeChIer d v).tasks = s.tasks ∧
    (s.writeChIer d v).sched = s.sched := by
  unfold State.writeChIer
  dsimp only
  split <;> simp

@[simp] theorem State.writeChIcr_keeps (s : State) (d : Dir) (v : Word) :
    (s.writeChIcr d v).cfg = s.cfg ∧ (s.writeChIcr d v).sw = s.sw ∧ (∀ t, (s.writeChIcr d v).ring t = s.ring t) ∧ (∀
    t, (s.writeChIcr d v).unfenced t = s.unfenced t) ∧ (∀ c, (s.writeChIcr d v).tags c = s.tags c) ∧ (∀ c,
    (s.writeChIcr d v).txe c = s.txe c) ∧ (∀ c, (s.writeChIcr d v).rxe c = s.rxe c) ∧ (∀ c, (s.writeChIcr d v).weight
    c = s.weight c) ∧ (∀ c, (s.writeChIcr d v).credit c = s.credit c) ∧ (s.writeChIcr d v).hw.rrPtr = s.hw.rrPtr ∧
    (s.writeChIcr d v).hw.grant = s.hw.grant ∧ (∀ k, (s.writeChIcr d v).irq k = s.irq k) ∧ (s.writeChIcr d v).mem =
    s.mem ∧ (s.writeChIcr d v).events = s.events ∧ (s.writeChIcr d v).answers = s.answers ∧ (s.writeChIcr d v).env =
    s.env ∧ (s.writeChIcr d v).tasks = s.tasks ∧ (s.writeChIcr d v).sched = s.sched := by
  unfold State.writeChIcr
  simp

@[simp] theorem State.writeWeight_keeps (s : State) (hi : Bool) (v : Word) :
    (s.writeWeight hi v).cfg = s.cfg ∧ (s.writeWeight hi v).sw = s.sw ∧ (∀ t, (s.writeWeight hi v).regs t = s.regs t)
    ∧ (∀ t, (s.writeWeight hi v).ring t = s.ring t) ∧ (∀ t, (s.writeWeight hi v).unfenced t = s.unfenced t) ∧ (∀ c,
    (s.writeWeight hi v).tags c = s.tags c) ∧ (∀ c, (s.writeWeight hi v).txe c = s.txe c) ∧ (∀ c, (s.writeWeight hi
    v).rxe c = s.rxe c) ∧ (∀ c, (s.writeWeight hi v).credit c = s.credit c) ∧ (s.writeWeight hi v).hw.rrPtr =
    s.hw.rrPtr ∧ (s.writeWeight hi v).hw.grant = s.hw.grant ∧ (∀ k, (s.writeWeight hi v).irq k = s.irq k) ∧
    (s.writeWeight hi v).mem = s.mem ∧ (s.writeWeight hi v).events = s.events ∧ (s.writeWeight hi v).answers =
    s.answers ∧ (s.writeWeight hi v).env = s.env ∧ (s.writeWeight hi v).tasks = s.tasks ∧ (s.writeWeight hi v).sched =
    s.sched := by
  simp only [State.writeWeight, State.regs, State.ring, State.unfenced, State.tags, State.txe, State.rxe, State.credit, State.irq,
    implies_true, and_self]

@[simp] theorem State.regWrite_keeps (s : State) (g : Reg) (v : Word) :
    (s.regWrite g v).cfg = s.cfg ∧ (s.regWrite g v).sw = s.sw ∧ (∀ t, (s.regWrite g v).ring t = s.ring t) ∧ (∀ t,
    (s.regWrite g v).unfenced t = s.unfenced t) ∧ (∀ c, (s.regWrite g v).tags c = s.tags c) ∧ (∀ c, (s.regWrite g
    v).txe c = s.txe c) ∧ (∀ c, (s.regWrite g v).rxe c = s.rxe c) ∧ (∀ c, (s.regWrite g v).credit c = s.credit c) ∧
    (s.regWrite g v).hw.rrPtr = s.hw.rrPtr ∧ (s.regWrite g v).mem = s.mem ∧ (s.regWrite g v).events = s.events ∧
    (s.regWrite g v).answers = s.answers ∧ (s.regWrite g v).tasks = s.tasks ∧ (s.regWrite g v).sched = s.sched := by
  cases g <;> simp [State.regWrite]

@[simp] theorem State.afterRead_keeps (s : State) (g : Reg) :
    (s.afterRead g).cfg = s.cfg ∧ (s.afterRead g).sw = s.sw ∧ (∀ t, (s.afterRead g).regs t = s.regs t) ∧ (∀ t,
    (s.afterRead g).ring t = s.ring t) ∧ (∀ t, (s.afterRead g).unfenced t = s.unfenced t) ∧ (∀ c, (s.afterRead g).tags
    c = s.tags c) ∧ (∀ c, (s.afterRead g).rxe c = s.rxe c) ∧ (∀ c, (s.afterRead g).weight c = s.weight c) ∧ (∀ c,
    (s.afterRead g).credit c = s.credit c) ∧ (s.afterRead g).hw.rrPtr = s.hw.rrPtr ∧ (s.afterRead g).hw.grant =
    s.hw.grant ∧ (∀ k, (s.afterRead g).irq k = s.irq k) ∧ (s.afterRead g).mem = s.mem ∧ (s.afterRead g).events =
    s.events ∧ (s.afterRead g).answers = s.answers ∧ (s.afterRead g).env = s.env ∧ (s.afterRead g).tasks = s.tasks ∧
    (s.afterRead g).sched = s.sched := by
  cases g <;> simp [State.afterRead]

@[simp] theorem State.setBit_keeps (s : State) (g : Reg) (q : Chan) :
    (s.setBit g q).cfg = s.cfg ∧ (s.setBit g q).sw = s.sw ∧ (∀ t, (s.setBit g q).ring t = s.ring t) ∧ (∀ t, (s.setBit
    g q).unfenced t = s.unfenced t) ∧ (∀ c, (s.setBit g q).tags c = s.tags c) ∧ (∀ c, (s.setBit g q).txe c = s.txe c)
    ∧ (∀ c, (s.setBit g q).rxe c = s.rxe c) ∧ (∀ c, (s.setBit g q).credit c = s.credit c) ∧ (s.setBit g q).hw.rrPtr =
    s.hw.rrPtr ∧ (s.setBit g q).mem = s.mem ∧ (s.setBit g q).events = s.events ∧ (s.setBit g q).answers = s.answers ∧
    (s.setBit g q).tasks = s.tasks ∧ (s.setBit g q).sched = s.sched := by
  unfold State.setBit
  simp

@[simp] theorem State.clearBit_keeps (s : State) (g : Reg) (q : Chan) :
    (s.clearBit g q).cfg = s.cfg ∧ (s.clearBit g q).sw = s.sw ∧ (∀ t, (s.clearBit g q).ring t = s.ring t) ∧ (∀ t,
    (s.clearBit g q).unfenced t = s.unfenced t) ∧ (∀ c, (s.clearBit g q).tags c = s.tags c) ∧ (∀ c, (s.clearBit g
    q).txe c = s.txe c) ∧ (∀ c, (s.clearBit g q).rxe c = s.rxe c) ∧ (∀ c, (s.clearBit g q).credit c = s.credit c) ∧
    (s.clearBit g q).hw.rrPtr = s.hw.rrPtr ∧ (s.clearBit g q).mem = s.mem ∧ (s.clearBit g q).events = s.events ∧
    (s.clearBit g q).answers = s.answers ∧ (s.clearBit g q).tasks = s.tasks ∧ (s.clearBit g q).sched = s.sched := by
  unfold State.clearBit
  simp

@[simp] theorem State.fillSlot_keeps (s : State) (r : RingId) (i : Nat) :
    (s.fillSlot r i).cfg = s.cfg ∧ (s.fillSlot r i).sw = s.sw ∧ (∀ t, (s.fillSlot r i).regs t = s.regs t) ∧ (∀ t,
    (s.fillSlot r i).ring t = s.ring t) ∧ (∀ t, (s.fillSlot r i).unfenced t = s.unfenced t) ∧ (∀ c, (s.fillSlot r
    i).tags c = s.tags c) ∧ (∀ c, (s.fillSlot r i).txe c = s.txe c) ∧ (∀ c, (s.fillSlot r i).rxe c = s.rxe c) ∧ (∀ c,
    (s.fillSlot r i).weight c = s.weight c) ∧ (∀ c, (s.fillSlot r i).credit c = s.credit c) ∧ (s.fillSlot r
    i).hw.rrPtr = s.hw.rrPtr ∧ (s.fillSlot r i).hw.grant = s.hw.grant ∧ (∀ k, (s.fillSlot r i).irq k = s.irq k) ∧
    (s.fillSlot r i).events = s.events ∧ (s.fillSlot r i).answers = s.answers ∧ (s.fillSlot r i).tasks = s.tasks ∧
    (s.fillSlot r i).sched = s.sched := by
  unfold State.fillSlot
  simp

@[simp] theorem relinkSlot_keeps (s : State) (r : RingId) (i : Nat) :
    (relinkSlot r i s).cfg = s.cfg ∧ (relinkSlot r i s).sw = s.sw ∧ (∀ t, (relinkSlot r i s).regs t = s.regs t) ∧ (∀
    t, (relinkSlot r i s).ring t = s.ring t) ∧ (∀ t, (relinkSlot r i s).unfenced t = s.unfenced t) ∧ (∀ c, (relinkSlot
    r i s).tags c = s.tags c) ∧ (∀ c, (relinkSlot r i s).txe c = s.txe c) ∧ (∀ c, (relinkSlot r i s).rxe c = s.rxe c)
    ∧ (∀ c, (relinkSlot r i s).weight c = s.weight c) ∧ (∀ c, (relinkSlot r i s).credit c = s.credit c) ∧ (relinkSlot
    r i s).hw.rrPtr = s.hw.rrPtr ∧ (relinkSlot r i s).hw.grant = s.hw.grant ∧ (∀ k, (relinkSlot r i s).irq k = s.irq
    k) ∧ (relinkSlot r i s).events = s.events ∧ (relinkSlot r i s).answers = s.answers ∧ (relinkSlot r i s).env =
    s.env ∧ (relinkSlot r i s).tasks = s.tasks ∧ (relinkSlot r i s).sched = s.sched := by
  unfold relinkSlot
  simp

@[simp] theorem armSlot_keeps (s : State) (r : RingId) (i : Nat) :
    (armSlot r i s).cfg = s.cfg ∧ (armSlot r i s).sw = s.sw ∧ (∀ t, (armSlot r i s).regs t = s.regs t) ∧ (∀ t,
    (armSlot r i s).ring t = s.ring t) ∧ (∀ t, (armSlot r i s).unfenced t = s.unfenced t) ∧ (∀ c, (armSlot r i s).tags
    c = s.tags c) ∧ (∀ c, (armSlot r i s).txe c = s.txe c) ∧ (∀ c, (armSlot r i s).rxe c = s.rxe c) ∧ (∀ c, (armSlot r
    i s).weight c = s.weight c) ∧ (∀ c, (armSlot r i s).credit c = s.credit c) ∧ (armSlot r i s).hw.rrPtr = s.hw.rrPtr
    ∧ (armSlot r i s).hw.grant = s.hw.grant ∧ (∀ k, (armSlot r i s).irq k = s.irq k) ∧ (armSlot r i s).events =
    s.events ∧ (armSlot r i s).answers = s.answers ∧ (armSlot r i s).tasks = s.tasks ∧ (armSlot r i s).sched = s.sched
    := by
  unfold armSlot
  dsimp only
  split <;> simp

@[simp] theorem relinkSlots_keeps (s : State) (r : RingId) (n i : Nat) :
    (loopN (relinkSlot r) n i s).cfg = s.cfg ∧ (loopN (relinkSlot r) n i s).sw = s.sw ∧ (∀ t, (loopN (relinkSlot r) n
    i s).regs t = s.regs t) ∧ (∀ t, (loopN (relinkSlot r) n i s).ring t = s.ring t) ∧ (∀ t, (loopN (relinkSlot r) n i
    s).unfenced t = s.unfenced t) ∧ (∀ c, (loopN (relinkSlot r) n i s).tags c = s.tags c) ∧ (∀ c, (loopN (relinkSlot
    r) n i s).txe c = s.txe c) ∧ (∀ c, (loopN (relinkSlot r) n i s).rxe c = s.rxe c) ∧ (∀ c, (loopN (relinkSlot r) n i
    s).weight c = s.weight c) ∧ (∀ c, (loopN (relinkSlot r) n i s).credit c = s.credit c) ∧ (loopN (relinkSlot r) n i
    s).hw.rrPtr = s.hw.rrPtr ∧ (loopN (relinkSlot r) n i s).hw.grant = s.hw.grant ∧ (∀ k, (loopN (relinkSlot r) n i
    s).irq k = s.irq k) ∧ (loopN (relinkSlot r) n i s).events = s.events ∧ (loopN (relinkSlot r) n i s).answers =
    s.answers ∧ (loopN (relinkSlot r) n i s).env = s.env ∧ (loopN (relinkSlot r) n i s).tasks = s.tasks ∧ (loopN
    (relinkSlot r) n i s).sched = s.sched := by
  induction n generalizing s i with
  | zero => simp [loopN]
  | succ n ih => simp [loopN, ih]

@[simp] theorem armSlots_keeps (s : State) (r : RingId) (n i : Nat) :
    (loopN (armSlot r) n i s).cfg = s.cfg ∧ (loopN (armSlot r) n i s).sw = s.sw ∧ (∀ t, (loopN (armSlot r) n i s).regs
    t = s.regs t) ∧ (∀ t, (loopN (armSlot r) n i s).ring t = s.ring t) ∧ (∀ t, (loopN (armSlot r) n i s).unfenced t =
    s.unfenced t) ∧ (∀ c, (loopN (armSlot r) n i s).tags c = s.tags c) ∧ (∀ c, (loopN (armSlot r) n i s).txe c = s.txe
    c) ∧ (∀ c, (loopN (armSlot r) n i s).rxe c = s.rxe c) ∧ (∀ c, (loopN (armSlot r) n i s).weight c = s.weight c) ∧
    (∀ c, (loopN (armSlot r) n i s).credit c = s.credit c) ∧ (loopN (armSlot r) n i s).hw.rrPtr = s.hw.rrPtr ∧ (loopN
    (armSlot r) n i s).hw.grant = s.hw.grant ∧ (∀ k, (loopN (armSlot r) n i s).irq k = s.irq k) ∧ (loopN (armSlot r) n
    i s).events = s.events ∧ (loopN (armSlot r) n i s).answers = s.answers ∧ (loopN (armSlot r) n i s).tasks = s.tasks
    ∧ (loopN (armSlot r) n i s).sched = s.sched := by
  induction n generalizing s i with
  | zero => simp [loopN]
  | succ n ih => simp [loopN, ih]

@[simp] theorem State.resetRing_keeps (s : State) (r : RingId) :
    (s.resetRing r).cfg = s.cfg ∧ (∀ t, (s.resetRing r).regs t = s.regs t) ∧ (∀ c, (s.resetRing r).tags c = s.tags c)
    ∧ (s.resetRing r).sw.ctxPresent = s.sw.ctxPresent ∧ (s.resetRing r).sw.linkUp = s.sw.linkUp ∧ (s.resetRing
    r).sw.txCsum = s.sw.txCsum ∧ (s.resetRing r).sw.rxCsum = s.sw.rxCsum ∧ (s.resetRing r).sw.tsEnabled =
    s.sw.tsEnabled ∧ (∀ c, (s.resetRing r).txe c = s.txe c) ∧ (∀ c, (s.resetRing r).rxe c = s.rxe c) ∧ (∀ c,
    (s.resetRing r).weight c = s.weight c) ∧ (∀ c, (s.resetRing r).credit c = s.credit c) ∧ (s.resetRing r).hw.rrPtr =
    s.hw.rrPtr ∧ (s.resetRing r).hw.grant = s.hw.grant ∧ (∀ k, (s.resetRing r).irq k = s.irq k) ∧ (s.resetRing
    r).events = s.events ∧ (s.resetRing r).answers = s.answers ∧ (s.resetRing r).env = s.env ∧ (s.resetRing r).tasks =
    s.tasks ∧ (s.resetRing r).sched = s.sched := by
  unfold State.resetRing
  simp

@[simp] theorem State.armRx_keeps (s : State) (q : Chan) :
    (s.armRx q).cfg = s.cfg ∧ (∀ t, (s.armRx q).regs t = s.regs t) ∧ (∀ c, (s.armRx q).tags c = s.tags c) ∧ (s.armRx
    q).sw.ctxPresent = s.sw.ctxPresent ∧ (s.armRx q).sw.linkUp = s.sw.linkUp ∧ (s.armRx q).sw.txCsum = s.sw.txCsum ∧
    (s.armRx q).sw.rxCsum = s.sw.rxCsum ∧ (s.armRx q).sw.tsEnabled = s.sw.tsEnabled ∧ (∀ c, (s.armRx q).txe c = s.txe
    c) ∧ (∀ c, (s.armRx q).rxe c = s.rxe c) ∧ (∀ c, (s.armRx q).weight c = s.weight c) ∧ (∀ c, (s.armRx q).credit c =
    s.credit c) ∧ (s.armRx q).hw.rrPtr = s.hw.rrPtr ∧ (s.armRx q).hw.grant = s.hw.grant ∧ (∀ k, (s.armRx q).irq k =
    s.irq k) ∧ (s.armRx q).events = s.events ∧ (s.armRx q).answers = s.answers ∧ (s.armRx q).tasks = s.tasks ∧
    (s.armRx q).sched = s.sched := by
  unfold State.armRx
  simp

@[simp] theorem State.clearSlot_keeps (s : State) (r : RingId) (i : Nat) :
    (s.clearSlot r i).cfg = s.cfg ∧ (∀ t, (s.clearSlot r i).regs t = s.regs t) ∧ (∀ t, (s.clearSlot r i).ring t =
    s.ring t) ∧ (∀ c, (s.clearSlot r i).tags c = s.tags c) ∧ (s.clearSlot r i).sw.ctxPresent = s.sw.ctxPresent ∧
    (s.clearSlot r i).sw.linkUp = s.sw.linkUp ∧ (s.clearSlot r i).sw.txCsum = s.sw.txCsum ∧ (s.clearSlot r
    i).sw.rxCsum = s.sw.rxCsum ∧ (s.clearSlot r i).sw.tsEnabled = s.sw.tsEnabled ∧ (∀ c, (s.clearSlot r i).txe c =
    s.txe c) ∧ (∀ c, (s.clearSlot r i).rxe c = s.rxe c) ∧ (∀ c, (s.clearSlot r i).weight c = s.weight c) ∧ (∀ c,
    (s.clearSlot r i).credit c = s.credit c) ∧ (s.clearSlot r i).hw.rrPtr = s.hw.rrPtr ∧ (s.clearSlot r i).hw.grant =
    s.hw.grant ∧ (∀ k, (s.clearSlot r i).irq k = s.irq k) ∧ (s.clearSlot r i).events = s.events ∧ (s.clearSlot r
    i).answers = s.answers ∧ (s.clearSlot r i).env = s.env ∧ (s.clearSlot r i).tasks = s.tasks ∧ (s.clearSlot r
    i).sched = s.sched := by
  unfold State.clearSlot
  simp

@[simp] theorem State.releaseSlot_keeps (s : State) (r : RingId) (i : Nat) :
    ((s.releaseSlot r i).2).cfg = s.cfg ∧ (∀ t, ((s.releaseSlot r i).2).regs t = s.regs t) ∧ (∀ t, ((s.releaseSlot r
    i).2).ring t = s.ring t) ∧ (∀ c, ((s.releaseSlot r i).2).tags c = s.tags c) ∧ ((s.releaseSlot r
    i).2).sw.ctxPresent = s.sw.ctxPresent ∧ ((s.releaseSlot r i).2).sw.linkUp = s.sw.linkUp ∧ ((s.releaseSlot r
    i).2).sw.txCsum = s.sw.txCsum ∧ ((s.releaseSlot r i).2).sw.rxCsum = s.sw.rxCsum ∧ ((s.releaseSlot r
    i).2).sw.tsEnabled = s.sw.tsEnabled ∧ (∀ c, ((s.releaseSlot r i).2).txe c = s.txe c) ∧ (∀ c, ((s.releaseSlot r
    i).2).rxe c = s.rxe c) ∧ (∀ c, ((s.releaseSlot r i).2).weight c = s.weight c) ∧ (∀ c, ((s.releaseSlot r
    i).2).credit c = s.credit c) ∧ ((s.releaseSlot r i).2).hw.rrPtr = s.hw.rrPtr ∧ ((s.releaseSlot r i).2).hw.grant =
    s.hw.grant ∧ (∀ k, ((s.releaseSlot r i).2).irq k = s.irq k) ∧ ((s.releaseSlot r i).2).answers = s.answers ∧
    ((s.releaseSlot r i).2).env = s.env ∧ ((s.releaseSlot r i).2).tasks = s.tasks ∧ ((s.releaseSlot r i).2).sched =
    s.sched := by
  unfold State.releaseSlot
  simp

@[simp] theorem State.dropSlot_keeps (s : State) (r : RingId) (i : Nat) :
    (s.dropSlot r i).cfg = s.cfg ∧ (∀ t, (s.dropSlot r i).regs t = s.regs t) ∧ (∀ c, (s.dropSlot r i).tags c = s.tags
    c) ∧ (s.dropSlot r i).sw.ctxPresent = s.sw.ctxPresent ∧ (s.dropSlot r i).sw.linkUp = s.sw.linkUp ∧ (s.dropSlot r
    i).sw.txCsum = s.sw.txCsum ∧ (s.dropSlot r i).sw.rxCsum = s.sw.rxCsum ∧ (s.dropSlot r i).sw.tsEnabled =
    s.sw.tsEnabled ∧ (∀ c, (s.dropSlot r i).txe c = s.txe c) ∧ (∀ c, (s.dropSlot r i).rxe c = s.rxe c) ∧ (∀ c,
    (s.dropSlot r i).weight c = s.weight c) ∧ (∀ c, (s.dropSlot r i).credit c = s.credit c) ∧ (s.dropSlot r
    i).hw.rrPtr = s.hw.rrPtr ∧ (s.dropSlot r i).hw.grant = s.hw.grant ∧ (∀ k, (s.dropSlot r i).irq k = s.irq k) ∧
    (s.dropSlot r i).answers = s.answers ∧ (s.dropSlot r i).env = s.env ∧ (s.dropSlot r i).tasks = s.tasks ∧
    (s.dropSlot r i).sched = s.sched := by
  unfold State.dropSlot
  dsimp only
  split <;> simp

@[simp] theorem freeSlot_keeps (s : State) (r : RingId) (i : Nat) :
    (freeSlot r i s).cfg = s.cfg ∧ (∀ t, (freeSlot r i s).regs t = s.regs t) ∧ (∀ c, (freeSlot r i s).tags c = s.tags
    c) ∧ (freeSlot r i s).sw.ctxPresent = s.sw.ctxPresent ∧ (freeSlot r i s).sw.linkUp = s.sw.linkUp ∧ (freeSlot r i
    s).sw.txCsum = s.sw.txCsum ∧ (freeSlot r i s).sw.rxCsum = s.sw.rxCsum ∧ (freeSlot r i s).sw.tsEnabled =
    s.sw.tsEnabled ∧ (∀ c, (freeSlot r i s).txe c = s.txe c) ∧ (∀ c, (freeSlot r i s).rxe c = s.rxe c) ∧ (∀ c,
    (freeSlot r i s).weight c = s.weight c) ∧ (∀ c, (freeSlot r i s).credit c = s.credit c) ∧ (freeSlot r i
    s).hw.rrPtr = s.hw.rrPtr ∧ (freeSlot r i s).hw.grant = s.hw.grant ∧ (∀ k, (freeSlot r i s).irq k = s.irq k) ∧
    (freeSlot r i s).answers = s.answers ∧ (freeSlot r i s).env = s.env ∧ (freeSlot r i s).tasks = s.tasks ∧ (freeSlot
    r i s).sched = s.sched := by
  unfold freeSlot
  split <;> simp

@[simp] theorem freeSlots_keeps (s : State) (r : RingId) (n i : Nat) :
    (loopN (freeSlot r) n i s).cfg = s.cfg ∧ (∀ t, (loopN (freeSlot r) n i s).regs t = s.regs t) ∧ (∀ c, (loopN
    (freeSlot r) n i s).tags c = s.tags c) ∧ (loopN (freeSlot r) n i s).sw.ctxPresent = s.sw.ctxPresent ∧ (loopN
    (freeSlot r) n i s).sw.linkUp = s.sw.linkUp ∧ (loopN (freeSlot r) n i s).sw.txCsum = s.sw.txCsum ∧ (loopN
    (freeSlot r) n i s).sw.rxCsum = s.sw.rxCsum ∧ (loopN (freeSlot r) n i s).sw.tsEnabled = s.sw.tsEnabled ∧ (∀ c,
    (loopN (freeSlot r) n i s).txe c = s.txe c) ∧ (∀ c, (loopN (freeSlot r) n i s).rxe c = s.rxe c) ∧ (∀ c, (loopN
    (freeSlot r) n i s).weight c = s.weight c) ∧ (∀ c, (loopN (freeSlot r) n i s).credit c = s.credit c) ∧ (loopN
    (freeSlot r) n i s).hw.rrPtr = s.hw.rrPtr ∧ (loopN (freeSlot r) n i s).hw.grant = s.hw.grant ∧ (∀ k, (loopN
    (freeSlot r) n i s).irq k = s.irq k) ∧ (loopN (freeSlot r) n i s).answers = s.answers ∧ (loopN (freeSlot r) n i
    s).env = s.env ∧ (loopN (freeSlot r) n i s).tasks = s.tasks ∧ (loopN (freeSlot r) n i s).sched = s.sched := by
  induction n generalizing s i with
  | zero => simp [loopN]
  | succ n ih => simp [loopN, ih]

@[simp] theorem State.freeRing_keeps (s : State) (r : RingId) :
    (s.freeRing r).cfg = s.cfg ∧ (∀ t, (s.freeRing r).regs t = s.regs t) ∧ (∀ c, (s.freeRing r).tags c = s.tags c) ∧
    (s.freeRing r).sw.ctxPresent = s.sw.ctxPresent ∧ (s.freeRing r).sw.linkUp = s.sw.linkUp ∧ (s.freeRing r).sw.txCsum
    = s.sw.txCsum ∧ (s.freeRing r).sw.rxCsum = s.sw.rxCsum ∧ (s.freeRing r).sw.tsEnabled = s.sw.tsEnabled ∧ (∀ c,
    (s.freeRing r).txe c = s.txe c) ∧ (∀ c, (s.freeRing r).rxe c = s.rxe c) ∧ (∀ c, (s.freeRing r).weight c = s.weight
    c) ∧ (∀ c, (s.freeRing r).credit c = s.credit c) ∧ (s.freeRing r).hw.rrPtr = s.hw.rrPtr ∧ (s.freeRing r).hw.grant
    = s.hw.grant ∧ (∀ k, (s.freeRing r).irq k = s.irq k) ∧ (s.freeRing r).answers = s.answers ∧ (s.freeRing r).env =
    s.env ∧ (s.freeRing r).tasks = s.tasks ∧ (s.freeRing r).sched = s.sched := by
  unfold State.freeRing
  simp

@[simp] theorem State.makePool_keeps (s : State) (r : RingId) (n : Nat) (b : Word) :
    (s.makePool r n b).cfg = s.cfg ∧ (∀ t, (s.makePool r n b).regs t = s.regs t) ∧ (∀ c, (s.makePool r n b).tags c =
    s.tags c) ∧ (s.makePool r n b).sw.ctxPresent = s.sw.ctxPresent ∧ (s.makePool r n b).sw.linkUp = s.sw.linkUp ∧
    (s.makePool r n b).sw.txCsum = s.sw.txCsum ∧ (s.makePool r n b).sw.rxCsum = s.sw.rxCsum ∧ (s.makePool r n
    b).sw.tsEnabled = s.sw.tsEnabled ∧ (∀ c, (s.makePool r n b).txe c = s.txe c) ∧ (∀ c, (s.makePool r n b).rxe c =
    s.rxe c) ∧ (∀ c, (s.makePool r n b).weight c = s.weight c) ∧ (∀ c, (s.makePool r n b).credit c = s.credit c) ∧
    (s.makePool r n b).hw.rrPtr = s.hw.rrPtr ∧ (s.makePool r n b).hw.grant = s.hw.grant ∧ (∀ k, (s.makePool r n b).irq
    k = s.irq k) ∧ (s.makePool r n b).events = s.events ∧ (s.makePool r n b).answers = s.answers ∧ (s.makePool r n
    b).env = s.env ∧ (s.makePool r n b).tasks = s.tasks ∧ (s.makePool r n b).sched = s.sched := by
  unfold State.makePool
  simp

@[simp] theorem State.tsCorrelate_keeps (s : State) (q : Chan) (i : Nat) :
    (s.tsCorrelate q i).cfg = s.cfg ∧ (∀ t, (s.tsCorrelate q i).regs t = s.regs t) ∧ (∀ t, (s.tsCorrelate q i).ring t
    = s.ring t) ∧ (∀ t, (s.tsCorrelate q i).unfenced t = s.unfenced t) ∧ (s.tsCorrelate q i).sw.ctxPresent =
    s.sw.ctxPresent ∧ (s.tsCorrelate q i).sw.linkUp = s.sw.linkUp ∧ (s.tsCorrelate q i).sw.txCsum = s.sw.txCsum ∧
    (s.tsCorrelate q i).sw.rxCsum = s.sw.rxCsum ∧ (s.tsCorrelate q i).sw.tsEnabled = s.sw.tsEnabled ∧ (∀ c,
    (s.tsCorrelate q i).rxe c = s.rxe c) ∧ (∀ c, (s.tsCorrelate q i).weight c = s.weight c) ∧ (∀ c, (s.tsCorrelate q
    i).credit c = s.credit c) ∧ (s.tsCorrelate q i).hw.rrPtr = s.hw.rrPtr ∧ (s.tsCorrelate q i).hw.grant = s.hw.grant
    ∧ (∀ k, (s.tsCorrelate q i).irq k = s.irq k) ∧ (s.tsCorrelate q i).mem = s.mem ∧ (s.tsCorrelate q i).answers =
    s.answers ∧ (s.tsCorrelate q i).env = s.env ∧ (s.tsCorrelate q i).tasks = s.tasks ∧ (s.tsCorrelate q i).sched =
    s.sched := by
  unfold State.tsCorrelate
  dsimp only
  split <;> simp

@[simp] theorem State.fillTx_keeps (s : State) (r : RingId) (i : Nat) (g : Frag) (sof eof : Bool) (app : App) (h : Word) :
    (s.fillTx r i g sof eof app h).cfg = s.cfg ∧ (s.fillTx r i g sof eof app h).sw = s.sw ∧ (∀ t, (s.fillTx r i g sof
    eof app h).regs t = s.regs t) ∧ (∀ t, (s.fillTx r i g sof eof app h).ring t = s.ring t) ∧ (∀ t, (s.fillTx r i g
    sof eof app h).unfenced t = s.unfenced t) ∧ (∀ c, (s.fillTx r i g sof eof app h).tags c = s.tags c) ∧ (∀ c,
    (s.fillTx r i g sof eof app h).txe c = s.txe c) ∧ (∀ c, (s.fillTx r i g sof eof app h).rxe c = s.rxe c) ∧ (∀ c,
    (s.fillTx r i g sof eof app h).weight c = s.weight c) ∧ (∀ c, (s.fillTx r i g sof eof app h).credit c = s.credit
    c) ∧ (s.fillTx r i g sof eof app h).hw.rrPtr = s.hw.rrPtr ∧ (s.fillTx r i g sof eof app h).hw.grant = s.hw.grant ∧
    (∀ k, (s.fillTx r i g sof eof app h).irq k = s.irq k) ∧ (s.fillTx r i g sof eof app h).events = s.events ∧
    (s.fillTx r i g sof eof app h).answers = s.answers ∧ (s.fillTx r i g sof eof app h).env = s.env ∧ (s.fillTx r i g
    sof eof app h).tasks = s.tasks ∧ (s.fillTx r i g sof eof app h).sched = s.sched := by
  unfold State.fillTx
  simp

@[simp] theorem fillFrame_keeps (s : State) (r : RingId) (app : App) (h : Word) (sof : Bool) (i : Nat) (gs : List Frag) :
    (fillFrame r app h sof i gs s).cfg = s.cfg ∧ (fillFrame r app h sof i gs s).sw = s.sw ∧ (∀ t, (fillFrame r app h
    sof i gs s).regs t = s.regs t) ∧ (∀ t, (fillFrame r app h sof i gs s).ring t = s.ring t) ∧ (∀ t, (fillFrame r app
    h sof i gs s).unfenced t = s.unfenced t) ∧ (∀ c, (fillFrame r app h sof i gs s).tags c = s.tags c) ∧ (∀ c,
    (fillFrame r app h sof i gs s).txe c = s.txe c) ∧ (∀ c, (fillFrame r app h sof i gs s).rxe c = s.rxe c) ∧ (∀ c,
    (fillFrame r app h sof i gs s).weight c = s.weight c) ∧ (∀ c, (fillFrame r app h sof i gs s).credit c = s.credit
    c) ∧ (fillFrame r app h sof i gs s).hw.rrPtr = s.hw.rrPtr ∧ (fillFrame r app h sof i gs s).hw.grant = s.hw.grant ∧
    (∀ k, (fillFrame r app h sof i gs s).irq k = s.irq k) ∧ (fillFrame r app h sof i gs s).events = s.events ∧
    (fillFrame r app h sof i gs s).answers = s.answers ∧ (fillFrame r app h sof i gs s).env = s.env ∧ (fillFrame r app
    h sof i gs s).tasks = s.tasks ∧ (fillFrame r app h sof i gs s).sched = s.sched := by
  induction gs generalizing s i sof with
  | nil => simp [fillFrame]
  | cons g gs ih => simp [fillFrame, ih]

@[simp] theorem State.submitMark_keeps (s : State) (r : RingId) (n : Nat) :
    (s.submitMark r n).cfg = s.cfg ∧ (∀ t, (s.submitMark r n).regs t = s.regs t) ∧ (∀ c, (s.submitMark r n).tags c =
    s.tags c) ∧ (s.submitMark r n).sw.ctxPresent = s.sw.ctxPresent ∧ (s.submitMark r n).sw.linkUp = s.sw.linkUp ∧
    (s.submitMark r n).sw.txCsum = s.sw.txCsum ∧ (s.submitMark r n).sw.rxCsum = s.sw.rxCsum ∧ (s.submitMark r
    n).sw.tsEnabled = s.sw.tsEnabled ∧ (∀ c, (s.submitMark r n).txe c = s.txe c) ∧ (∀ c, (s.submitMark r n).rxe c =
    s.rxe c) ∧ (∀ c, (s.submitMark r n).weight c = s.weight c) ∧ (∀ c, (s.submitMark r n).credit c = s.credit c) ∧
    (s.submitMark r n).hw.rrPtr = s.hw.rrPtr ∧ (s.submitMark r n).hw.grant = s.hw.grant ∧ (∀ k, (s.submitMark r n).irq
    k = s.irq k) ∧ (s.submitMark r n).mem = s.mem ∧ (s.submitMark r n).events = s.events ∧ (s.submitMark r n).answers
    = s.answers ∧ (s.submitMark r n).env = s.env ∧ (s.submitMark r n).tasks = s.tasks ∧ (s.submitMark r n).sched =
    s.sched := by
  unfold State.submitMark
  simp

@[simp] theorem State.submitBell_keeps (s : State) (r : RingId) (n : Nat) :
    (s.submitBell r n).cfg = s.cfg ∧ (∀ t, (s.submitBell r n).unfenced t = s.unfenced t) ∧ (∀ c, (s.submitBell r
    n).tags c = s.tags c) ∧ (s.submitBell r n).sw.ctxPresent = s.sw.ctxPresent ∧ (s.submitBell r n).sw.linkUp =
    s.sw.linkUp ∧ (s.submitBell r n).sw.txCsum = s.sw.txCsum ∧ (s.submitBell r n).sw.rxCsum = s.sw.rxCsum ∧
    (s.submitBell r n).sw.tsEnabled = s.sw.tsEnabled ∧ (∀ c, (s.submitBell r n).txe c = s.txe c) ∧ (∀ c, (s.submitBell
    r n).rxe c = s.rxe c) ∧ (∀ c, (s.submitBell r n).credit c = s.credit c) ∧ (s.submitBell r n).hw.rrPtr = s.hw.rrPtr
    ∧ (s.submitBell r n).mem = s.mem ∧ (s.submitBell r n).events = s.events ∧ (s.submitBell r n).answers = s.answers ∧
    (s.submitBell r n).tasks = s.tasks ∧ (s.submitBell r n).sched = s.sched := by
  unfold State.submitBell
  simp

@[simp] theorem State.submitFill_keeps (s : State) (r : RingId) (f : Frame) (app : App) :
    (s.submitFill r f app).cfg = s.cfg ∧ (∀ c, (s.submitFill r f app).tags c = s.tags c) ∧ (s.submitFill r f
    app).sw.ctxPresent = s.sw.ctxPresent ∧ (s.submitFill r f app).sw.linkUp = s.sw.linkUp ∧ (s.submitFill r f
    app).sw.txCsum = s.sw.txCsum ∧ (s.submitFill r f app).sw.rxCsum = s.sw.rxCsum ∧ (s.submitFill r f
    app).sw.tsEnabled = s.sw.tsEnabled ∧ (∀ c, (s.submitFill r f app).txe c = s.txe c) ∧ (∀ c, (s.submitFill r f
    app).rxe c = s.rxe c) ∧ (∀ c, (s.submitFill r f app).credit c = s.credit c) ∧ (s.submitFill r f app).hw.rrPtr =
    s.hw.rrPtr ∧ (s.submitFill r f app).events = s.events ∧ (s.submitFill r f app).answers = s.answers ∧ (s.submitFill
    r f app).tasks = s.tasks ∧ (s.submitFill r f app).sched = s.sched := by
  simp [State.submitFill]

@[simp] theorem State.takeFrame_keeps (s : State) (r : RingId) (i : Nat) (st : Word) :
    (s.takeFrame r i st).cfg = s.cfg ∧ (∀ t, (s.takeFrame r i st).regs t = s.regs t) ∧ (∀ t, (s.takeFrame r i
    st).unfenced t = s.unfenced t) ∧ (∀ c, (s.takeFrame r i st).tags c = s.tags c) ∧ (s.takeFrame r i
    st).sw.ctxPresent = s.sw.ctxPresent ∧ (s.takeFrame r i st).sw.linkUp = s.sw.linkUp ∧ (s.takeFrame r i
    st).sw.txCsum = s.sw.txCsum ∧ (s.takeFrame r i st).sw.rxCsum = s.sw.rxCsum ∧ (s.takeFrame r i st).sw.tsEnabled =
    s.sw.tsEnabled ∧ (∀ c, (s.takeFrame r i st).txe c = s.txe c) ∧ (∀ c, (s.takeFrame r i st).rxe c = s.rxe c) ∧ (∀ c,
    (s.takeFrame r i st).weight c = s.weight c) ∧ (∀ c, (s.takeFrame r i st).credit c = s.credit c) ∧ (s.takeFrame r i
    st).hw.rrPtr = s.hw.rrPtr ∧ (s.takeFrame r i st).hw.grant = s.hw.grant ∧ (∀ k, (s.takeFrame r i st).irq k = s.irq
    k) ∧ (s.takeFrame r i st).answers = s.answers ∧ (s.takeFrame r i st).tasks = s.tasks ∧ (s.takeFrame r i st).sched
    = s.sched := by
  unfold State.takeFrame
  simp

@[simp] theorem State.rearmSlot_keeps (s : State) (r : RingId) (i : Nat) :
    (s.rearmSlot r i).cfg = s.cfg ∧ (s.rearmSlot r i).sw = s.sw ∧ (∀ t, (s.rearmSlot r i).regs t = s.regs t) ∧ (∀ t,
    (s.rearmSlot r i).ring t = s.ring t) ∧ (∀ t, (s.rearmSlot r i).unfenced t = s.unfenced t) ∧ (∀ c, (s.rearmSlot r
    i).tags c = s.tags c) ∧ (∀ c, (s.rearmSlot r i).txe c = s.txe c) ∧ (∀ c, (s.rearmSlot r i).rxe c = s.rxe c) ∧ (∀
    c, (s.rearmSlot r i).weight c = s.weight c) ∧ (∀ c, (s.rearmSlot r i).credit c = s.credit c) ∧ (s.rearmSlot r
    i).hw.rrPtr = s.hw.rrPtr ∧ (s.rearmSlot r i).hw.grant = s.hw.grant ∧ (∀ k, (s.rearmSlot r i).irq k = s.irq k) ∧
    (s.rearmSlot r i).events = s.events ∧ (s.rearmSlot r i).answers = s.answers ∧ (s.rearmSlot r i).env = s.env ∧
    (s.rearmSlot r i).tasks = s.tasks ∧ (s.rearmSlot r i).sched = s.sched := by
  unfold State.rearmSlot
  simp

@[simp] theorem State.chEnableBits_keeps (s : State) (r : RingId) :
    (s.chEnableBits r).cfg = s.cfg ∧ (s.chEnableBits r).sw = s.sw ∧ (∀ t, (s.chEnableBits r).ring t = s.ring t) ∧ (∀
    t, (s.chEnableBits r).unfenced t = s.unfenced t) ∧ (∀ c, (s.chEnableBits r).tags c = s.tags c) ∧ (∀ c,
    (s.chEnableBits r).txe c = s.txe c) ∧ (∀ c, (s.chEnableBits r).rxe c = s.rxe c) ∧ (∀ c, (s.chEnableBits r).credit
    c = s.credit c) ∧ (s.chEnableBits r).hw.rrPtr = s.hw.rrPtr ∧ (s.chEnableBits r).mem = s.mem ∧ (s.chEnableBits
    r).events = s.events ∧ (s.chEnableBits r).answers = s.answers ∧ (s.chEnableBits r).tasks = s.tasks ∧
    (s.chEnableBits r).sched = s.sched := by
  unfold State.chEnableBits
  simp

@[simp] theorem State.chDisableBits_keeps (s : State) (r : RingId) :
    (s.chDisableBits r).cfg = s.cfg ∧ (s.chDisableBits r).sw = s.sw ∧ (∀ t, (s.chDisableBits r).ring t = s.ring t) ∧
    (∀ t, (s.chDisableBits r).unfenced t = s.unfenced t) ∧ (∀ c, (s.chDisableBits r).tags c = s.tags c) ∧ (∀ c,
    (s.chDisableBits r).txe c = s.txe c) ∧ (∀ c, (s.chDisableBits r).rxe c = s.rxe c) ∧ (∀ c, (s.chDisableBits
    r).credit c = s.credit c) ∧ (s.chDisableBits r).hw.rrPtr = s.hw.rrPtr ∧ (s.chDisableBits r).mem = s.mem ∧
    (s.chDisableBits r).events = s.events ∧ (s.chDisableBits r).answers = s.answers ∧ (s.chDisableBits r).tasks =
    s.tasks ∧ (s.chDisableBits r).sched = s.sched := by
  unfold State.chDisableBits
  simp

@[simp] theorem State.enableDirs_keeps (s : State) (q : Chan) (ds : List Dir) :
    (s.enableDirs q ds).cfg = s.cfg ∧ (s.enableDirs q ds).sw = s.sw ∧ (∀ t, (s.enableDirs q ds).ring t = s.ring t) ∧
    (∀ t, (s.enableDirs q ds).unfenced t = s.unfenced t) ∧ (∀ c, (s.enableDirs q ds).tags c = s.tags c) ∧ (∀ c,
    (s.enableDirs q ds).txe c = s.txe c) ∧ (∀ c, (s.enableDirs q ds).rxe c = s.rxe c) ∧ (∀ c, (s.enableDirs q
    ds).credit c = s.credit c) ∧ (s.enableDirs q ds).hw.rrPtr = s.hw.rrPtr ∧ (s.enableDirs q ds).mem = s.mem ∧
    (s.enableDirs q ds).events = s.events ∧ (s.enableDirs q ds).answers = s.answers ∧ (s.enableDirs q ds).tasks =
    s.tasks ∧ (s.enableDirs q ds).sched = s.sched := by
  induction ds generalizing s with
  | nil => simp [State.enableDirs]
  | cons d ds ih => simp [State.enableDirs, ih]

@[simp] theorem State.disableDirs_keeps (s : State) (q : Chan) (ds : List Dir) :
    (s.disableDirs q ds).cfg = s.cfg ∧ (s.disableDirs q ds).sw = s.sw ∧ (∀ t, (s.disableDirs q ds).ring t = s.ring t)
    ∧ (∀ t, (s.disableDirs q ds).unfenced t = s.unfenced t) ∧ (∀ c, (s.disableDirs q ds).tags c = s.tags c) ∧ (∀ c,
    (s.disableDirs q ds).txe c = s.txe c) ∧ (∀ c, (s.disableDirs q ds).rxe c = s.rxe c) ∧ (∀ c, (s.disableDirs q
    ds).credit c = s.credit c) ∧ (s.disableDirs q ds).hw.rrPtr = s.hw.rrPtr ∧ (s.disableDirs q ds).mem = s.mem ∧
    (s.disableDirs q ds).events = s.events ∧ (s.disableDirs q ds).answers = s.answers ∧ (s.disableDirs q ds).tasks =
    s.tasks ∧ (s.disableDirs q ds).sched = s.sched := by
  induction ds generalizing s with
  | nil => simp [State.disableDirs]
  | cons d ds ih => simp [State.disableDirs, ih]

/-- The arbiter sees credit only on a channel with a weight (R250, U10). -/
theorem State.creditLeft_pos {s : State} {c : Chan} : 0 < s.creditLeft c ↔ s.weight c ≠ 0 ∧ 0 < s.credit c := by
  unfold State.creditLeft
  split <;> simp_all

@[simp] theorem State.reload_keeps (s : State) :
    (s.reload).cfg = s.cfg ∧ (s.reload).sw = s.sw ∧ (∀ t, (s.reload).regs t = s.regs t) ∧ (∀ t, (s.reload).ring t =
    s.ring t) ∧ (∀ t, (s.reload).unfenced t = s.unfenced t) ∧ (∀ c, (s.reload).tags c = s.tags c) ∧ (∀ c,
    (s.reload).txe c = s.txe c) ∧ (∀ c, (s.reload).rxe c = s.rxe c) ∧ (∀ c, (s.reload).weight c = s.weight c) ∧
    (s.reload).hw.rrPtr = s.hw.rrPtr ∧ (s.reload).hw.grant = s.hw.grant ∧ (∀ k, (s.reload).irq k = s.irq k) ∧
    (s.reload).mem = s.mem ∧ (s.reload).events = s.events ∧ (s.reload).answers = s.answers ∧ (s.reload).env = s.env ∧
    (s.reload).tasks = s.tasks ∧ (s.reload).sched = s.sched := by
  unfold State.reload
  split <;>
    simp only [State.regs, State.ring, State.unfenced, State.tags, State.txe, State.rxe, State.weight, State.irq, implies_true, and_self]

@[simp] theorem State.grantTo_keeps (s : State) (q : Chan) :
    (s.grantTo q).cfg = s.cfg ∧ (s.grantTo q).sw = s.sw ∧ (∀ t, (s.grantTo q).regs t = s.regs t) ∧ (∀ t, (s.grantTo
    q).ring t = s.ring t) ∧ (∀ t, (s.grantTo q).unfenced t = s.unfenced t) ∧ (∀ c, (s.grantTo q).tags c = s.tags c) ∧
    (∀ c, (s.grantTo q).txe c = s.txe c) ∧ (∀ c, (s.grantTo q).rxe c = s.rxe c) ∧ (∀ c, (s.grantTo q).weight c =
    s.weight c) ∧ (∀ k, (s.grantTo q).irq k = s.irq k) ∧ (s.grantTo q).mem = s.mem ∧ (s.grantTo q).events = s.events ∧
    (s.grantTo q).answers = s.answers ∧ (s.grantTo q).env = s.env ∧ (s.grantTo q).tasks = s.tasks ∧ (s.grantTo
    q).sched = s.sched := by
  simp only [State.grantTo, State.regs, State.ring, State.unfenced, State.tags, State.txe, State.rxe, State.weight, State.irq,
    implies_true, and_self]

@[simp] theorem State.scheduleRecovery_keeps (s : State) (r : RingId) :
    (s.scheduleRecovery r).cfg = s.cfg ∧ (∀ t, (s.scheduleRecovery r).regs t = s.regs t) ∧ (∀ t, (s.scheduleRecovery
    r).unfenced t = s.unfenced t) ∧ (∀ c, (s.scheduleRecovery r).tags c = s.tags c) ∧ (s.scheduleRecovery
    r).sw.ctxPresent = s.sw.ctxPresent ∧ (s.scheduleRecovery r).sw.linkUp = s.sw.linkUp ∧ (s.scheduleRecovery
    r).sw.txCsum = s.sw.txCsum ∧ (s.scheduleRecovery r).sw.rxCsum = s.sw.rxCsum ∧ (s.scheduleRecovery r).sw.tsEnabled
    = s.sw.tsEnabled ∧ (∀ c, (s.scheduleRecovery r).txe c = s.txe c) ∧ (∀ c, (s.scheduleRecovery r).rxe c = s.rxe c) ∧
    (∀ c, (s.scheduleRecovery r).weight c = s.weight c) ∧ (∀ c, (s.scheduleRecovery r).credit c = s.credit c) ∧
    (s.scheduleRecovery r).hw.rrPtr = s.hw.rrPtr ∧ (s.scheduleRecovery r).hw.grant = s.hw.grant ∧ (∀ k,
    (s.scheduleRecovery r).irq k = s.irq k) ∧ (s.scheduleRecovery r).mem = s.mem ∧ (s.scheduleRecovery r).answers =
    s.answers ∧ (s.scheduleRecovery r).env = s.env ∧ (s.scheduleRecovery r).tasks = s.tasks ∧ (s.scheduleRecovery
    r).sched = s.sched := by
  unfold State.scheduleRecovery
  simp

@[simp] theorem State.pollFailed_keeps (s : State) (r : RingId) :
    (s.pollFailed r).cfg = s.cfg ∧ (∀ t, (s.pollFailed r).regs t = s.regs t) ∧ (∀ t, (s.pollFailed r).unfenced t =
    s.unfenced t) ∧ (∀ c, (s.pollFailed r).tags c = s.tags c) ∧ (s.pollFailed r).sw.ctxPresent = s.sw.ctxPresent ∧
    (s.pollFailed r).sw.linkUp = s.sw.linkUp ∧ (s.pollFailed r).sw.txCsum = s.sw.txCsum ∧ (s.pollFailed r).sw.rxCsum =
    s.sw.rxCsum ∧ (s.pollFailed r).sw.tsEnabled = s.sw.tsEnabled ∧ (∀ c, (s.pollFailed r).txe c = s.txe c) ∧ (∀ c,
    (s.pollFailed r).rxe c = s.rxe c) ∧ (∀ c, (s.pollFailed r).weight c = s.weight c) ∧ (∀ c, (s.pollFailed r).credit
    c = s.credit c) ∧ (s.pollFailed r).hw.rrPtr = s.hw.rrPtr ∧ (s.pollFailed r).hw.grant = s.hw.grant ∧ (∀ k,
    (s.pollFailed r).irq k = s.irq k) ∧ (s.pollFailed r).mem = s.mem ∧ (s.pollFailed r).answers = s.answers ∧
    (s.pollFailed r).env = s.env ∧ (s.pollFailed r).tasks = s.tasks ∧ (s.pollFailed r).sched = s.sched := by
  unfold State.pollFailed
  dsimp only
  split <;> simp

@[simp] theorem State.drainFrom_keeps (s : State) (r : RingId) (i n : Nat) :
    (s.drainFrom r i n).cfg = s.cfg ∧ (∀ t, (s.drainFrom r i n).regs t = s.regs t) ∧ (∀ c, (s.drainFrom r i n).tags c
    = s.tags c) ∧ (s.drainFrom r i n).sw.ctxPresent = s.sw.ctxPresent ∧ (s.drainFrom r i n).sw.linkUp = s.sw.linkUp ∧
    (s.drainFrom r i n).sw.txCsum = s.sw.txCsum ∧ (s.drainFrom r i n).sw.rxCsum = s.sw.rxCsum ∧ (s.drainFrom r i
    n).sw.tsEnabled = s.sw.tsEnabled ∧ (∀ c, (s.drainFrom r i n).txe c = s.txe c) ∧ (∀ c, (s.drainFrom r i n).rxe c =
    s.rxe c) ∧ (∀ c, (s.drainFrom r i n).weight c = s.weight c) ∧ (∀ c, (s.drainFrom r i n).credit c = s.credit c) ∧
    (s.drainFrom r i n).hw.rrPtr = s.hw.rrPtr ∧ (s.drainFrom r i n).hw.grant = s.hw.grant ∧ (∀ k, (s.drainFrom r i
    n).irq k = s.irq k) ∧ (s.drainFrom r i n).answers = s.answers ∧ (s.drainFrom r i n).env = s.env ∧ (s.drainFrom r i
    n).tasks = s.tasks ∧ (s.drainFrom r i n).sched = s.sched := by
  induction n generalizing s i with
  | zero => simp [State.drainFrom]
  | succ n ih =>
    unfold State.drainFrom
    split
    · simp
    · simp [ih]

@[simp] theorem State.drain_keeps (s : State) (r : RingId) :
    (s.drain r).cfg = s.cfg ∧ (∀ t, (s.drain r).regs t = s.regs t) ∧ (s.drain r).sw.ctxPresent = s.sw.ctxPresent ∧
    (s.drain r).sw.linkUp = s.sw.linkUp ∧ (s.drain r).sw.txCsum = s.sw.txCsum ∧ (s.drain r).sw.rxCsum = s.sw.rxCsum ∧
    (s.drain r).sw.tsEnabled = s.sw.tsEnabled ∧ (∀ c, (s.drain r).txe c = s.txe c) ∧ (∀ c, (s.drain r).rxe c = s.rxe
    c) ∧ (∀ c, (s.drain r).weight c = s.weight c) ∧ (∀ c, (s.drain r).credit c = s.credit c) ∧ (s.drain r).hw.rrPtr =
    s.hw.rrPtr ∧ (s.drain r).hw.grant = s.hw.grant ∧ (∀ k, (s.drain r).irq k = s.irq k) ∧ (s.drain r).answers =
    s.answers ∧ (s.drain r).env = s.env ∧ (s.drain r).tasks = s.tasks ∧ (s.drain r).sched = s.sched := by
  unfold State.drain
  split <;> simp

@[simp] theorem State.enableRing_keeps (s : State) (r : RingId) :
    (s.enableRing r).cfg = s.cfg ∧ (s.enableRing r).sw = s.sw ∧ (∀ t, (s.enableRing r).ring t = s.ring t) ∧ (∀ t,
    (s.enableRing r).unfenced t = s.unfenced t) ∧ (∀ c, (s.enableRing r).tags c = s.tags c) ∧ (∀ c, (s.enableRing
    r).txe c = s.txe c) ∧ (∀ c, (s.enableRing r).rxe c = s.rxe c) ∧ (∀ c, (s.enableRing r).credit c = s.credit c) ∧
    (s.enableRing r).hw.rrPtr = s.hw.rrPtr ∧ (s.enableRing r).mem = s.mem ∧ (s.enableRing r).events = s.events ∧
    (s.enableRing r).answers = s.answers ∧ (s.enableRing r).tasks = s.tasks ∧ (s.enableRing r).sched = s.sched := by
  unfold State.enableRing
  split <;> simp

@[simp] theorem State.ringRx_keeps (s : State) (r : RingId) :
    (s.ringRx r).cfg = s.cfg ∧ (s.ringRx r).sw = s.sw ∧ (∀ t, (s.ringRx r).ring t = s.ring t) ∧ (∀ t, (s.ringRx
    r).unfenced t = s.unfenced t) ∧ (∀ c, (s.ringRx r).tags c = s.tags c) ∧ (∀ c, (s.ringRx r).txe c = s.txe c) ∧ (∀
    c, (s.ringRx r).rxe c = s.rxe c) ∧ (∀ c, (s.ringRx r).credit c = s.credit c) ∧ (s.ringRx r).hw.rrPtr = s.hw.rrPtr
    ∧ (s.ringRx r).mem = s.mem ∧ (s.ringRx r).events = s.events ∧ (s.ringRx r).answers = s.answers ∧ (s.ringRx
    r).tasks = s.tasks ∧ (s.ringRx r).sched = s.sched := by
  unfold State.ringRx
  simp

@[simp] theorem State.rebuild_keeps (s : State) (r : RingId) :
    (s.rebuild r).cfg = s.cfg ∧ (∀ t, (s.rebuild r).regs t = s.regs t) ∧ (∀ c, (s.rebuild r).tags c = s.tags c) ∧
    (s.rebuild r).sw.ctxPresent = s.sw.ctxPresent ∧ (s.rebuild r).sw.linkUp = s.sw.linkUp ∧ (s.rebuild r).sw.txCsum =
    s.sw.txCsum ∧ (s.rebuild r).sw.rxCsum = s.sw.rxCsum ∧ (s.rebuild r).sw.tsEnabled = s.sw.tsEnabled ∧ (∀ c,
    (s.rebuild r).txe c = s.txe c) ∧ (∀ c, (s.rebuild r).rxe c = s.rxe c) ∧ (∀ c, (s.rebuild r).weight c = s.weight c)
    ∧ (∀ c, (s.rebuild r).credit c = s.credit c) ∧ (s.rebuild r).hw.rrPtr = s.hw.rrPtr ∧ (s.rebuild r).hw.grant =
    s.hw.grant ∧ (∀ k, (s.rebuild r).irq k = s.irq k) ∧ (s.rebuild r).events = s.events ∧ (s.rebuild r).answers =
    s.answers ∧ (s.rebuild r).tasks = s.tasks ∧ (s.rebuild r).sched = s.sched := by
  unfold State.rebuild
  dsimp only
  split <;> simp

@[simp] theorem State.reenable_keeps (s : State) (r : RingId) :
    (s.reenable r).cfg = s.cfg ∧ (∀ t, (s.reenable r).unfenced t = s.unfenced t) ∧ (∀ c, (s.reenable r).tags c =
    s.tags c) ∧ (s.reenable r).sw.ctxPresent = s.sw.ctxPresent ∧ (s.reenable r).sw.linkUp = s.sw.linkUp ∧ (s.reenable
    r).sw.txCsum = s.sw.txCsum ∧ (s.reenable r).sw.rxCsum = s.sw.rxCsum ∧ (s.reenable r).sw.tsEnabled = s.sw.tsEnabled
    ∧ (∀ c, (s.reenable r).txe c = s.txe c) ∧ (∀ c, (s.reenable r).rxe c = s.rxe c) ∧ (∀ c, (s.reenable r).credit c =
    s.credit c) ∧ (s.reenable r).hw.rrPtr = s.hw.rrPtr ∧ (s.reenable r).mem = s.mem ∧ (s.reenable r).events = s.events
    ∧ (s.reenable r).answers = s.answers ∧ (s.reenable r).tasks = s.tasks ∧ (s.reenable r).sched = s.sched := by
  unfold State.reenable
  dsimp only
  split <;> simp

@[simp] theorem Access.run_keeps (a : Access) (s : State) :
    (a.run s).cfg = s.cfg ∧ (a.run s).sw = s.sw ∧ (∀ t, (a.run s).ring t = s.ring t) ∧ (∀ t, (a.run s).unfenced t =
    s.unfenced t) ∧ (∀ c, (a.run s).tags c = s.tags c) ∧ (∀ c, (a.run s).txe c = s.txe c) ∧ (∀ c, (a.run s).rxe c =
    s.rxe c) ∧ (∀ c, (a.run s).credit c = s.credit c) ∧ (a.run s).hw.rrPtr = s.hw.rrPtr ∧ (a.run s).mem = s.mem ∧
    (a.run s).events = s.events ∧ (a.run s).answers = s.answers ∧ (a.run s).tasks = s.tasks ∧ (a.run s).sched =
    s.sched := by
  cases a <;> simp [Access.run]

@[simp] theorem State.tsPush_keeps (s : State) (q : Chan) (g : BitVec 16) :
    (s.tsPush q g).cfg = s.cfg ∧ (s.tsPush q g).sw = s.sw ∧ (∀ t, (s.tsPush q g).regs t = s.regs t) ∧ (∀ t, (s.tsPush
    q g).ring t = s.ring t) ∧ (∀ t, (s.tsPush q g).unfenced t = s.unfenced t) ∧ (∀ c, (s.tsPush q g).tags c = s.tags
    c) ∧ (∀ c, (s.tsPush q g).rxe c = s.rxe c) ∧ (∀ c, (s.tsPush q g).weight c = s.weight c) ∧ (∀ c, (s.tsPush q
    g).credit c = s.credit c) ∧ (s.tsPush q g).hw.rrPtr = s.hw.rrPtr ∧ (s.tsPush q g).hw.grant = s.hw.grant ∧ (∀ k,
    (s.tsPush q g).irq k = s.irq k) ∧ (s.tsPush q g).mem = s.mem ∧ (s.tsPush q g).events = s.events ∧ (s.tsPush q
    g).answers = s.answers ∧ (s.tsPush q g).tasks = s.tasks ∧ (s.tsPush q g).sched = s.sched := by
  unfold State.tsPush
  dsimp only
  split <;> simp

@[simp] theorem State.txEmit_keeps (s : State) (q : Chan) (a : Asm) :
    (s.txEmit q a).cfg = s.cfg ∧ (s.txEmit q a).sw = s.sw ∧ (∀ t, (s.txEmit q a).regs t = s.regs t) ∧ (∀ t, (s.txEmit
    q a).ring t = s.ring t) ∧ (∀ t, (s.txEmit q a).unfenced t = s.unfenced t) ∧ (∀ c, (s.txEmit q a).tags c = s.tags
    c) ∧ (∀ c, (s.txEmit q a).rxe c = s.rxe c) ∧ (∀ c, (s.txEmit q a).weight c = s.weight c) ∧ (∀ c, (s.txEmit q
    a).credit c = s.credit c) ∧ (s.txEmit q a).hw.rrPtr = s.hw.rrPtr ∧ (s.txEmit q a).hw.grant = s.hw.grant ∧ (∀ k,
    (s.txEmit q a).irq k = s.irq k) ∧ (s.txEmit q a).mem = s.mem ∧ (s.txEmit q a).answers = s.answers ∧ (s.txEmit q
    a).tasks = s.tasks ∧ (s.txEmit q a).sched = s.sched := by
  unfold State.txEmit
  dsimp only
  split <;> simp

@[simp] theorem State.txClose_keeps (s : State) (q : Chan) (a : Asm) (eof : Bool) :
    (s.txClose q a eof).cfg = s.cfg ∧ (s.txClose q a eof).sw = s.sw ∧ (∀ t, (s.txClose q a eof).regs t = s.regs t) ∧
    (∀ t, (s.txClose q a eof).ring t = s.ring t) ∧ (∀ t, (s.txClose q a eof).unfenced t = s.unfenced t) ∧ (∀ c,
    (s.txClose q a eof).tags c = s.tags c) ∧ (∀ c, (s.txClose q a eof).rxe c = s.rxe c) ∧ (∀ c, (s.txClose q a
    eof).weight c = s.weight c) ∧ (∀ c, (s.txClose q a eof).credit c = s.credit c) ∧ (s.txClose q a eof).hw.rrPtr =
    s.hw.rrPtr ∧ (∀ k, (s.txClose q a eof).irq k = s.irq k) ∧ (s.txClose q a eof).mem = s.mem ∧ (s.txClose q a
    eof).answers = s.answers ∧ (s.txClose q a eof).tasks = s.tasks ∧ (s.txClose q a eof).sched = s.sched := by
  unfold State.txClose
  split
  · dsimp only
    split <;> simp
  · simp

@[simp] theorem State.advance_keeps (s : State) (r : RingId) (d n : Word) (done : Bool) :
    (s.advance r d n done).cfg = s.cfg ∧ (s.advance r d n done).sw = s.sw ∧ (∀ t, (s.advance r d n done).ring t =
    s.ring t) ∧ (∀ t, (s.advance r d n done).unfenced t = s.unfenced t) ∧ (∀ c, (s.advance r d n done).tags c = s.tags
    c) ∧ (∀ c, (s.advance r d n done).txe c = s.txe c) ∧ (∀ c, (s.advance r d n done).rxe c = s.rxe c) ∧ (∀ c,
    (s.advance r d n done).weight c = s.weight c) ∧ (∀ c, (s.advance r d n done).credit c = s.credit c) ∧ (s.advance r
    d n done).hw.rrPtr = s.hw.rrPtr ∧ (s.advance r d n done).mem = s.mem ∧ (s.advance r d n done).events = s.events ∧
    (s.advance r d n done).answers = s.answers ∧ (s.advance r d n done).env = s.env ∧ (s.advance r d n done).tasks =
    s.tasks ∧ (s.advance r d n done).sched = s.sched := by
  unfold State.advance
  dsimp only
  split <;> split <;> simp

@[simp] theorem txData_keeps (s : State) (w : Desc) (e : BitVec 3) (a : Asm) :
    ((txData w e a s).2.2).cfg = s.cfg ∧ ((txData w e a s).2.2).sw = s.sw ∧ (∀ t, ((txData w e a s).2.2).regs t =
    s.regs t) ∧ (∀ t, ((txData w e a s).2.2).ring t = s.ring t) ∧ (∀ t, ((txData w e a s).2.2).unfenced t = s.unfenced
    t) ∧ (∀ c, ((txData w e a s).2.2).tags c = s.tags c) ∧ (∀ c, ((txData w e a s).2.2).txe c = s.txe c) ∧ (∀ c,
    ((txData w e a s).2.2).rxe c = s.rxe c) ∧ (∀ c, ((txData w e a s).2.2).weight c = s.weight c) ∧ (∀ c, ((txData w e
    a s).2.2).credit c = s.credit c) ∧ ((txData w e a s).2.2).hw.rrPtr = s.hw.rrPtr ∧ ((txData w e a s).2.2).hw.grant
    = s.hw.grant ∧ (∀ k, ((txData w e a s).2.2).irq k = s.irq k) ∧ ((txData w e a s).2.2).mem = s.mem ∧ ((txData w e a
    s).2.2).events = s.events ∧ ((txData w e a s).2.2).answers = s.answers ∧ ((txData w e a s).2.2).tasks = s.tasks ∧
    ((txData w e a s).2.2).sched = s.sched := by
  unfold txData
  split <;> simp

@[simp] theorem State.writeStatus_keeps (s : State) (r : RingId) (d w : Word) :
    ((s.writeStatus r d w).2).cfg = s.cfg ∧ ((s.writeStatus r d w).2).sw = s.sw ∧ (∀ t, ((s.writeStatus r d w).2).ring
    t = s.ring t) ∧ (∀ t, ((s.writeStatus r d w).2).unfenced t = s.unfenced t) ∧ (∀ c, ((s.writeStatus r d w).2).tags
    c = s.tags c) ∧ (∀ c, ((s.writeStatus r d w).2).weight c = s.weight c) ∧ (∀ c, ((s.writeStatus r d w).2).credit c
    = s.credit c) ∧ ((s.writeStatus r d w).2).hw.rrPtr = s.hw.rrPtr ∧ ((s.writeStatus r d w).2).events = s.events ∧
    ((s.writeStatus r d w).2).answers = s.answers ∧ ((s.writeStatus r d w).2).tasks = s.tasks ∧ ((s.writeStatus r d
    w).2).sched = s.sched := by
  have h := s.drawBus_keeps
  unfold State.writeStatus
  split <;> simp_all

@[simp] theorem State.resetEngine_keeps (s : State) (r : RingId) :
    (s.resetEngine r).cfg = s.cfg ∧ (s.resetEngine r).sw = s.sw ∧ (∀ t, (s.resetEngine r).regs t = s.regs t) ∧ (∀ t,
    (s.resetEngine r).ring t = s.ring t) ∧ (∀ t, (s.resetEngine r).unfenced t = s.unfenced t) ∧ (∀ c, (s.resetEngine
    r).tags c = s.tags c) ∧ (∀ c, (s.resetEngine r).weight c = s.weight c) ∧ (∀ c, (s.resetEngine r).credit c =
    s.credit c) ∧ (s.resetEngine r).hw.rrPtr = s.hw.rrPtr ∧ (s.resetEngine r).hw.grant = s.hw.grant ∧ (∀ k,
    (s.resetEngine r).irq k = s.irq k) ∧ (s.resetEngine r).mem = s.mem ∧ (s.resetEngine r).events = s.events ∧
    (s.resetEngine r).answers = s.answers ∧ (s.resetEngine r).env = s.env ∧ (s.resetEngine r).tasks = s.tasks ∧
    (s.resetEngine r).sched = s.sched := by
  unfold State.resetEngine
  split <;> simp

@[simp] theorem State.rxData_keeps (s : State) (w : Desc) (m : RxRem) :
    ((s.rxData w m).2.2).cfg = s.cfg ∧ ((s.rxData w m).2.2).sw = s.sw ∧ (∀ t, ((s.rxData w m).2.2).regs t = s.regs t)
    ∧ (∀ t, ((s.rxData w m).2.2).ring t = s.ring t) ∧ (∀ t, ((s.rxData w m).2.2).unfenced t = s.unfenced t) ∧ (∀ c,
    ((s.rxData w m).2.2).tags c = s.tags c) ∧ (∀ c, ((s.rxData w m).2.2).txe c = s.txe c) ∧ (∀ c, ((s.rxData w
    m).2.2).rxe c = s.rxe c) ∧ (∀ c, ((s.rxData w m).2.2).weight c = s.weight c) ∧ (∀ c, ((s.rxData w m).2.2).credit c
    = s.credit c) ∧ ((s.rxData w m).2.2).hw.rrPtr = s.hw.rrPtr ∧ ((s.rxData w m).2.2).hw.grant = s.hw.grant ∧ (∀ k,
    ((s.rxData w m).2.2).irq k = s.irq k) ∧ ((s.rxData w m).2.2).events = s.events ∧ ((s.rxData w m).2.2).answers =
    s.answers ∧ ((s.rxData w m).2.2).tasks = s.tasks ∧ ((s.rxData w m).2.2).sched = s.sched := by
  unfold State.rxData
  split
  · simp
  · dsimp only
    split <;> simp

@[simp] theorem State.putAppWord_keeps (s : State) (a v : Word) :
    (s.putAppWord a v).cfg = s.cfg ∧ (s.putAppWord a v).sw = s.sw ∧ (∀ t, (s.putAppWord a v).regs t = s.regs t) ∧
    (∀ t, (s.putAppWord a v).ring t = s.ring t) ∧ (∀ t, (s.putAppWord a v).unfenced t = s.unfenced t) ∧
    (∀ c, (s.putAppWord a v).tags c = s.tags c) ∧ (∀ c, (s.putAppWord a v).txe c = s.txe c) ∧
    (∀ c, (s.putAppWord a v).rxe c = s.rxe c) ∧ (∀ c, (s.putAppWord a v).weight c = s.weight c) ∧
    (∀ c, (s.putAppWord a v).credit c = s.credit c) ∧ (s.putAppWord a v).hw.rrPtr = s.hw.rrPtr ∧
    (s.putAppWord a v).hw.grant = s.hw.grant ∧ (∀ k, (s.putAppWord a v).irq k = s.irq k) ∧
    (s.putAppWord a v).events = s.events ∧ (s.putAppWord a v).answers = s.answers ∧ (s.putAppWord a v).tasks = s.tasks ∧
    (s.putAppWord a v).sched = s.sched := by
  unfold State.putAppWord
  simp

/-- The application words' writes change memory and the answers still to be drawn, nothing else. -/
@[simp] theorem State.writeApp_keeps (s : State) (d : Word) (a : App) :
    (s.writeApp d a).cfg = s.cfg ∧ (s.writeApp d a).sw = s.sw ∧ (∀ t, (s.writeApp d a).regs t = s.regs t) ∧
    (∀ t, (s.writeApp d a).ring t = s.ring t) ∧ (∀ t, (s.writeApp d a).unfenced t = s.unfenced t) ∧
    (∀ c, (s.writeApp d a).tags c = s.tags c) ∧ (∀ c, (s.writeApp d a).txe c = s.txe c) ∧
    (∀ c, (s.writeApp d a).rxe c = s.rxe c) ∧ (∀ c, (s.writeApp d a).weight c = s.weight c) ∧
    (∀ c, (s.writeApp d a).credit c = s.credit c) ∧ (s.writeApp d a).hw.rrPtr = s.hw.rrPtr ∧
    (s.writeApp d a).hw.grant = s.hw.grant ∧ (∀ k, (s.writeApp d a).irq k = s.irq k) ∧
    (s.writeApp d a).events = s.events ∧ (s.writeApp d a).answers = s.answers ∧ (s.writeApp d a).tasks = s.tasks ∧
    (s.writeApp d a).sched = s.sched := by
  unfold State.writeApp
  simp

@[simp] theorem State.fillRx_keeps (s : State) (r : RingId) (d : Word) (w : Desc) (m : RxRem) :
    (s.fillRx r d w m).cfg = s.cfg ∧ (s.fillRx r d w m).sw = s.sw ∧ (∀ t, (s.fillRx r d w m).ring t = s.ring t) ∧ (∀
    t, (s.fillRx r d w m).unfenced t = s.unfenced t) ∧ (∀ c, (s.fillRx r d w m).tags c = s.tags c) ∧ (∀ c, (s.fillRx r
    d w m).weight c = s.weight c) ∧ (∀ c, (s.fillRx r d w m).credit c = s.credit c) ∧ (s.fillRx r d w m).hw.rrPtr =
    s.hw.rrPtr ∧ (s.fillRx r d w m).events = s.events ∧ (s.fillRx r d w m).answers = s.answers ∧ (s.fillRx r d w
    m).tasks = s.tasks ∧ (s.fillRx r d w m).sched = s.sched := by
  unfold State.fillRx
  dsimp only
  split
  · next h =>
    have h' := congrArg Prod.snd h
    simp only at h'
    rw [← h']
    split <;> simp
  · next h =>
    have h' := congrArg Prod.snd h
    simp only at h'
    rw [← h']
    split <;> simp

@[simp] theorem State.runTx_keeps (s : State) (r : RingId) (d : Word) (w : Desc) :
    (s.runTx r d w).cfg = s.cfg ∧ (s.runTx r d w).sw = s.sw ∧ (∀ t, (s.runTx r d w).ring t = s.ring t) ∧ (∀ t,
    (s.runTx r d w).unfenced t = s.unfenced t) ∧ (∀ c, (s.runTx r d w).tags c = s.tags c) ∧ (∀ c, (s.runTx r d
    w).weight c = s.weight c) ∧ (∀ c, (s.runTx r d w).credit c = s.credit c) ∧ (s.runTx r d w).hw.rrPtr = s.hw.rrPtr ∧
    (s.runTx r d w).answers = s.answers ∧ (s.runTx r d w).tasks = s.tasks ∧ (s.runTx r d w).sched = s.sched := by
  unfold State.runTx
  dsimp only
  split
  · next h =>
    have h' := congrArg Prod.snd h
    simp only at h'
    rw [← h']
    simp
  · next h =>
    have h' := congrArg Prod.snd h
    simp only at h'
    rw [← h']
    simp

end Sys2Proof.Machine
end

