-- ==== Sys2Proof/Laws/Exec.lean ====
section
/-! SUPPORT. How an operation with existing operands comes down to its shared operation: rings, context and register rows. -/

namespace Sys2Proof.Machine

theorem State.ring?_of_lt (s : State) (d : Dir) (q : Chan) (h : q.val < s.cfg.nq) : s.ring? d q.val = some ⟨d, q⟩ := by
  simp [State.ring?, h]

theorem State.ring?_some {s : State} {d : Dir} {n : Nat} {r : RingId} (h : s.ring? d n = some r) :
    r.dir = d ∧ r.q.val = n ∧ n < s.cfg.nq := by
  unfold State.ring? at h
  split at h
  · split at h
    · injection h with h
      subst h
      exact ⟨rfl, rfl, by assumption⟩
    · cases h
  · cases h

/-- An operation on a ring that exists. -/
theorem withRing_of_lt (d : Dir) (q : Chan) (s : State) (k : RingId → Res) (h : q.val < s.cfg.nq) :
    withRing d q.val s k = k ⟨d, q⟩ := by
  simp [withRing, State.ring?_of_lt s d q h]

theorem withRing_dir (r : RingId) (s : State) (k : RingId → Res) (h : r.q.val < s.cfg.nq) :
    withRing r.dir r.q.val s k = k r := withRing_of_lt r.dir r.q s k h

/-- An operation on a ring gives a next state only on a ring that exists. -/
theorem withRing_next {d : Dir} {n : Nat} {s t : State} {k : RingId → Res} (h : withRing d n s k = .next t) :
    ∃ r : RingId, r.dir = d ∧ r.q.val = n ∧ n < s.cfg.nq ∧ k r = .next t := by
  unfold withRing at h
  split at h
  · cases h
  · next r hr =>
    obtain ⟨h1, h2, h3⟩ := State.ring?_some hr
    exact ⟨r, h1, h2, h3, h⟩

theorem withContext_on (s : State) (k : Res) (h : s.sw.ctxPresent = true) : withContext s k = k := by
  simp [withContext, h]

theorem withContext_off (s : State) (k : Res) (h : s.sw.ctxPresent = false) : withContext s k = .refused .noContext := by
  simp [withContext, h]

theorem withContext_next {s t : State} {k : Res} (h : withContext s k = .next t) :
    s.sw.ctxPresent = true ∧ k = .next t := by
  unfold withContext at h
  split at h
  · exact ⟨by assumption, h⟩
  · cases h

/-- With no `ATTACH` or `DETACH` in progress the control context runs what it is asked for (R18 (d)). -/
theorem withControl_off (s : State) (k : Res) (h : s.controlBusy = false) : withControl s k = k := by
  simp [withControl, h]

theorem withControl_on (s : State) (k : Res) (h : s.controlBusy = true) :
    withControl s k = .refused .contextBusy := by
  simp [withControl, h]

theorem withControl_next {s t : State} {k : Res} (h : withControl s k = .next t) : s.controlBusy = false ∧ k = .next t := by
  unfold withControl at h
  split at h
  · cases h
  · next hc => exact ⟨by simpa using hc, h⟩

/-- The rows of a register of both variants run its transaction. -/
theorem exec_ringRow (s : State) (r : RingId) (t : Trans) (sq : Dir → Trans → Instr) (mc : Dir → Nat → Trans → Instr)
    (g : RingId → Reg) (h : s.hasBlock r) (hs : ∀ d, exec (sq d t) s = sqReg (g ⟨d, 0⟩) t s)
    (hm : ∀ d c, exec (mc d c t) s = chanReg d c g t s) : exec (ringRow s.cfg.variant r sq mc t) s = transact (g r) t s := by
  unfold State.hasBlock at h
  unfold ringRow
  cases hv : s.cfg.variant with
  | sq =>
    rw [hv] at h
    simp only [hs, sqReg, hv, if_true]
    rw [show r = ⟨r.dir, 0⟩ from by cases r; simp_all]
  | mc =>
    rw [hv] at h
    simp only [hm, chanReg, hv, if_true]
    exact withRing_dir r s _ h

/-- The engine stands at the descriptor whose hardware words are those at `CURDESC`, whatever its software-only words. -/
theorem State.standsAt_iff (s : State) (r : RingId) (w : Desc) :
    s.standsAt r w = true ↔
      ∃ h k g, w = { readDesc s.cfg.variant s.mem (s.regs r).curdesc with swFrame := h, swMap := k, swTag := g } := by
  unfold State.standsAt
  rw [decide_eq_true_iff]
  exact ⟨fun h => ⟨w.swFrame, w.swMap, w.swTag, by rw [h]; rfl⟩, fun ⟨_, _, _, h⟩ => by rw [h]; rfl⟩

/-- A descriptor row is the engine's step on the descriptor it stands at, and nothing otherwise (R380, R398). -/
theorem exec_descriptorRow (s : State) (r : RingId) (w : Desc) (h : r.q.val < s.cfg.nq) :
    exec (descriptorRow s.cfg.variant r w) s =
      if s.descEnabled r && s.standsAt r w then .next (s.processNext r) else .next s := by
  unfold descriptorRow
  cases hv : s.cfg.variant <;> simp only [exec, execDescriptorSq, execDescriptorMc, engineDesc, hv, if_true] <;>
    exact withRing_dir r s _ h

/-- `E_TX_DESC` and `E_RX_DESC` are the engine's step on the descriptor it fetches (R380 to R382, R388). -/
theorem exec_engineRow (s : State) (r : RingId) (h : r.q.val < s.cfg.nq) :
    exec (engineRow r) s = if s.descEnabled r then .next (s.processNext r) else .next s := by
  obtain ⟨d, q⟩ := r
  cases d <;> exact withRing_of_lt _ q s _ h

/-- A ring's descriptors stay as they are: a context, and a ring that is not `Running` (R297). -/
theorem State.away_iff (s : State) (r : RingId) :
    (s.away r).isSome = true ↔ s.sw.ctxPresent = true ∧ (s.ring r).rstate ≠ .running := by
  unfold State.away
  cases s.sw.ctxPresent <;> cases (s.ring r).rstate <;> simp [turnedAway]

/-- When a descriptor may be written (R152). -/
theorem State.openSlot_iff (s : State) (r : RingId) (i : Nat) :
    s.openSlot r i = true ↔ (s.statusD r i).getLsbD 31 = false ∧ (r.dir = .rx → halted (s.regs r) = true) := by
  unfold State.openSlot cmpltOf
  cases r.dir <;> simp

/-- When and what a word's row stores (R152), in the words of the rules. -/
theorem State.writable_iff (s : State) (r : RingId) (i off : Nat) (v : Word) :
    s.writable r i off v = true ↔
      ((s.statusD r i).getLsbD 31 = false ∧ (r.dir = .rx → halted (s.regs r) = true)) ∧
      (off = 0x00 → v = daddr (s.ring r).base ((i + 1) % (s.ring r).cap) ∧ halted (s.regs r) = true) ∧
      (off = statusOff s.cfg.variant → v = 0) ∧ (r.dir = .rx → 0x20 ≤ off → off ≤ 0x30 → v = 0) := by
  have ho : statusOff s.cfg.variant ≠ 0 ∧ statusOff s.cfg.variant < 0x20 := by cases s.cfg.variant <;> decide
  unfold State.writable nextOff incMod
  rw [Bool.and_eq_true, State.openSlot_iff]
  refine and_congr Iff.rfl ?_
  by_cases h0 : off = 0
  · subst h0
    simp [ho.1.symm]
  · by_cases h1 : off = statusOff s.cfg.variant
    · subst h1
      simp [ho.1]
      omega
    · by_cases h2 : r.dir = .rx ∧ 0x20 ≤ off ∧ off ≤ 0x30
      · simp [h0, h1, h2]
      · rw [if_neg h0, if_neg (by simpa [h1, and_assoc] using h2)]
        simpa [h0, h1] using fun a b c => absurd ⟨a, b, c⟩ h2

/-- A descriptor word's row on a slot of a ring (R15, R62, R152, R297). -/
theorem exec_wordRow (s : State) (r : RingId) (i : Nat) (w : Word) (p : Instr × Nat) (h : r.q.val < s.cfg.nq)
    (hp : (s.ring r).present = true) (hi : i < (s.ring r).cap)
    (hm : p ∈ hwWordRows s.cfg.variant r i w ++ swWordRows r i w) :
    exec p.1 s =
      if (s.away r).isSome then .refused .wrongRingState
      else if s.engineOwns r i then .refused .engineOwnsDescriptor
      else if s.writable r i p.2 w then .next ((s.putD r i p.2 w).owe r) else .refused .noSuchWrite := by
  have key : exec p.1 s = putWord r.dir r.q.val i p.2 w s := by
    obtain ⟨d, q⟩ := r
    cases hv : s.cfg.variant <;> cases d <;> rw [hv] at hm <;>
      simp only [hwWordRows, swWordRows, List.mem_append, List.mem_cons, List.not_mem_nil, or_false] at hm <;>
      rcases hm with ((hm | hm | hm | hm) | hm | hm | hm | hm | hm) | hm | hm | hm <;> subst hm <;>
      simp only [exec, execDescStatus, execDescCtrlSq, execDescCtrlMc, putCtrl, hv, if_true] <;> rfl
  rw [key, putWord, onSlot, withRing_dir r s _ h]
  simp [hp, hi]

theorem exec_cr (s : State) (r : RingId) (t : Trans) (h : s.hasBlock r) :
    exec (ringRow s.cfg.variant r .crSq .crMc t) s = transact (.cr r) t s :=
  exec_ringRow s r t _ _ .cr h (fun _ => rfl) fun _ _ => rfl

theorem exec_sr (s : State) (r : RingId) (t : Trans) (h : s.hasBlock r) :
    exec (ringRow s.cfg.variant r .srSq .srMc t) s = transact (.sr r) t s :=
  exec_ringRow s r t _ _ .sr h (fun _ => rfl) fun _ _ => rfl

theorem exec_curdesc (s : State) (r : RingId) (t : Trans) (h : s.hasBlock r) :
    exec (ringRow s.cfg.variant r .curdescSq .curdescMc t) s = transact (.curdesc r) t s :=
  exec_ringRow s r t _ _ .curdesc h (fun _ => rfl) fun _ _ => rfl

theorem exec_taildesc (s : State) (r : RingId) (t : Trans) (h : s.hasBlock r) :
    exec (ringRow s.cfg.variant r .taildescSq .taildescMc t) s = transact (.taildesc r) t s :=
  exec_ringRow s r t _ _ .taildesc h (fun _ => rfl) fun _ _ => rfl

theorem exec_isr (s : State) (r : RingId) (t : Trans) (h : s.hasBlock r) :
    exec (ringRow s.cfg.variant r .isrSq .isrMc t) s = transact (.isr r) t s :=
  exec_ringRow s r t _ _ .isr h (fun _ => rfl) fun _ _ => rfl

theorem exec_ier (s : State) (r : RingId) (t : Trans) (h : s.hasBlock r) :
    exec (ringRow s.cfg.variant r .ierSq .ierMc t) s = transact (.ier r) t s :=
  exec_ringRow s r t _ _ .ier h (fun _ => rfl) fun _ _ => rfl

theorem exec_icr (s : State) (r : RingId) (t : Trans) (h : s.hasBlock r) :
    exec (ringRow s.cfg.variant r .icrSq .icrMc t) s = transact (.icr r) t s :=
  exec_ringRow s r t _ _ .icr h (fun _ => rfl) fun _ _ => rfl

/-- The rows of a register only TX rings have run its transaction. -/
theorem exec_txRow (s : State) (q : Chan) (t : Trans) (sq : Trans → Instr) (mc : Nat → Trans → Instr) (g : Chan → Reg)
    (h : s.hasBlock ⟨.tx, q⟩) (hs : exec (sq t) s = sqReg (g 0) t s)
    (hm : ∀ c, exec (mc c t) s = chanReg .tx c (fun r => g r.q) t s) :
    exec (txRow s.cfg.variant q sq mc t) s = transact (g q) t s := by
  unfold State.hasBlock at h
  unfold txRow
  cases hv : s.cfg.variant with
  | sq =>
    rw [hv] at h
    simp only at h
    subst h
    simp only [hs, sqReg, hv, if_true]
  | mc =>
    rw [hv] at h
    simp only [hm, chanReg, hv, if_true]
    exact withRing_of_lt .tx q s _ h

theorem exec_tsfCnt (s : State) (q : Chan) (t : Trans) (h : s.hasBlock ⟨.tx, q⟩) :
    exec (txRow s.cfg.variant q .tsfCntSq .tsfCntMc t) s = transact (.tsfCnt q) t s :=
  exec_txRow s q t _ _ .tsfCnt h rfl fun _ => rfl

theorem exec_tsfTag (s : State) (q : Chan) (t : Trans) (h : s.hasBlock ⟨.tx, q⟩) :
    exec (txRow s.cfg.variant q .tsfTagSq .tsfTagMc t) s = transact (.tsfTag q) t s :=
  exec_txRow s q t _ _ .tsfTag h rfl fun _ => rfl

theorem exec_tsfLo (s : State) (q : Chan) (t : Trans) (h : s.hasBlock ⟨.tx, q⟩) :
    exec (txRow s.cfg.variant q .tsfLoSq .tsfLoMc t) s = transact (.tsfLo q) t s :=
  exec_txRow s q t _ _ .tsfLo h rfl fun _ => rfl

theorem exec_tsfHi (s : State) (q : Chan) (t : Trans) (h : s.hasBlock ⟨.tx, q⟩) :
    exec (txRow s.cfg.variant q .tsfHiSq .tsfHiMc t) s = transact (.tsfHi q) t s :=
  exec_txRow s q t _ _ .tsfHi h rfl fun _ => rfl

end Sys2Proof.Machine
end

