-- ==== Sys2Proof/Laws/Effects.lean ====
section
/-! SUPPORT. What the shared operations change, said once for each; what they leave alone is in Laws/Ops. -/

namespace Sys2Proof.Machine

theorem Dir.ne_iff (d e : Dir) : d ≠ e ↔ (d = .tx ∧ e = .rx) ∨ (d = .rx ∧ e = .tx) := by cases d <;> cases e <;> decide

@[simp] theorem Variant.sq_beq_mc : (Variant.sq == Variant.mc) = false := rfl
@[simp] theorem Variant.mc_beq_sq : (Variant.mc == Variant.sq) = false := rfl
@[simp] theorem Dir.tx_beq_rx : (Dir.tx == Dir.rx) = false := rfl
@[simp] theorem Dir.rx_beq_tx : (Dir.rx == Dir.tx) = false := rfl

/-! ### Interrupts and the grant -/

theorem State.notify_regs (s : State) (r t : RingId) :
    (s.notify r).regs t =
      if t = r then { s.regs r with chIsr := (s.regs r).chIsr || s.cfg.variant == .mc } else s.regs t := by
  unfold State.notify
  by_cases ht : t = r
  · subst ht
    cases hv : s.cfg.variant
    · simp
    · dsimp only
      split <;> simp
  · cases hv : s.cfg.variant
    · simp [ht]
    · dsimp only
      split <;> simp [ht]

theorem State.notify_irq (s : State) (r : RingId) (d : Dir) :
    (s.notify r).irq d = (s.irq d || (d == r.dir && (s.cfg.variant == .sq || (s.regs r).chIer))) := by
  unfold State.notify
  cases hv : s.cfg.variant
  · by_cases hd : d = r.dir <;> simp [hd]
  · dsimp only
    split <;> by_cases hd : d = r.dir <;> simp_all

@[simp] theorem State.deliver_regs (s : State) (r t : RingId) (p : RingRegs × Bool) :
    (s.deliver r p).regs t =
      if t = r then { p.1 with chIsr := p.1.chIsr || (p.2 && s.cfg.variant == .mc) } else s.regs t := by
  unfold State.deliver
  by_cases ht : t = r
  · subst ht
    split <;> simp_all [State.notify_regs]
  · split <;> simp_all [State.notify_regs]

@[simp] theorem State.deliver_irq (s : State) (r : RingId) (d : Dir) (p : RingRegs × Bool) :
    (s.deliver r p).irq d = (s.irq d || (d == r.dir && p.2 && (s.cfg.variant == .sq || p.1.chIer))) := by
  unfold State.deliver
  split <;> simp_all [State.notify_irq]

@[simp] theorem State.releaseGrant_grant (s : State) (r : RingId) :
    (s.releaseGrant r).hw.grant =
      if s.cfg.variant = .mc ∧ r.dir = .tx ∧ s.hw.grant = some r.q then none else s.hw.grant := by
  unfold State.releaseGrant
  split <;> simp

@[simp] theorem State.dropGrant_grant (s : State) :
    s.dropGrant.hw.grant = if s.cfg.variant = .mc then none else s.hw.grant := by
  unfold State.dropGrant
  split <;> simp

@[simp] theorem State.dropFrame_txe (s : State) (r : RingId) (q : Chan) :
    (s.dropFrame r).txe q = if r = ⟨.tx, q⟩ then { s.txe q with asm := asmInactive } else s.txe q := by
  obtain ⟨d, c⟩ := r
  cases d
  · by_cases h : q = c
    · subst h
      simp [State.dropFrame]
    · simp [State.dropFrame, h, Ne.symm h]
  · simp [State.dropFrame]

@[simp] theorem State.dropFrame_rxe (s : State) (r : RingId) (q : Chan) :
    (s.dropFrame r).rxe q = if r = ⟨.rx, q⟩ then { s.rxe q with rem := none } else s.rxe q := by
  obtain ⟨d, c⟩ := r
  cases d
  · simp [State.dropFrame]
  · by_cases h : q = c
    · subst h
      simp [State.dropFrame]
    · simp [State.dropFrame, h, Ne.symm h]

@[simp] theorem State.resetEngine_txe (s : State) (r : RingId) (q : Chan) :
    (s.resetEngine r).txe q = if r = ⟨.tx, q⟩ then ⟨asmInactive, []⟩ else s.txe q := by
  obtain ⟨d, c⟩ := r
  cases d
  · by_cases h : q = c
    · subst h
      simp [State.resetEngine]
    · simp [State.resetEngine, h, Ne.symm h]
  · simp [State.resetEngine]

@[simp] theorem State.resetEngine_rxe (s : State) (r : RingId) (q : Chan) :
    (s.resetEngine r).rxe q = if r = ⟨.rx, q⟩ then { s.rxe q with rem := none } else s.rxe q := by
  obtain ⟨d, c⟩ := r
  cases d
  · simp [State.resetEngine]
  · by_cases h : q = c
    · subst h
      simp [State.resetEngine]
    · simp [State.resetEngine, h, Ne.symm h]

/-- A ring's registers are legal: `regsLegal` as a proposition. -/
theorem regsLegal_iff (x : RingRegs) :
    regsLegal x = true ↔ x.curdesc &&& 0x3F = 0 ∧ x.taildesc &&& 0x3F = 0 ∧ x.thresh ≠ 0 ∧ 1 ≤ x.iocCount ∧
      x.iocCount ≤ 255 ∧ (x.run = true → x.stopPending = false) := by
  unfold regsLegal
  cases x.run <;> simp [and_assoc]

theorem align64_low (v : Word) : align64 v &&& 0x3F = 0 := by
  unfold align64
  rw [BitVec.and_assoc]
  simp

/-! ### Registers of a whole direction -/

@[simp] theorem State.mapDir_regs (s : State) (d : Dir) (f : Chan → RingRegs → RingRegs) (t : RingId) :
    (s.mapDir d f).regs t = if t.dir = d ∧ t.q.val < s.cfg.nq then f t.q (s.regs t) else s.regs t := by
  obtain ⟨e, q⟩ := t
  cases d <;> cases e <;> simp [State.mapDir, State.regs, rget, rmapDir, vget]

end Sys2Proof.Machine
end

