-- ==== Sys2Proof/Laws/Closed.lean ====
section
/-! SUPPORT. What a step can do, said once: every next state is made by the changes `Closed` lists. A property that all of
them keep is kept by every step. -/

namespace Sys2Proof.Machine

/-- `P` is kept by each change a step is made of, but for a transition of a ring's state. -/
structure Kept (P : State → Prop) : Prop where
  answer : ∀ s id r, P s → P (s.answer id r)
  setTasks : ∀ s ts, P s → P (s.setTasks ts)
  setSched : ∀ s xs, P s → P (s.setSched xs)
  emits : ∀ s es, P s → P (s.emits es)
  setEnv : ∀ (s : State) (e : Env), P s → P { s with env := e }
  setCfg : ∀ s c, P s → P (s.setCfg c)
  setCtx : ∀ s b, P s → P (s.setCtx b)
  setLink : ∀ s b, P s → P (s.setLink b)
  setModes : ∀ s c, P s → P (s.setModes c)
  regWrite : ∀ s g v, P s → P (s.regWrite g v)
  setIrq : ∀ s d b, P s → P (s.setIrq d b)
  setTxe : ∀ s q x, P s → P (s.setTxe q x)
  setRxe : ∀ s q x, P s → P (s.setRxe q x)
  setGrant : ∀ s g, P s → P (s.setGrant g)
  reload : ∀ s : State, P s → P s.reload
  grantTo : ∀ s c, 0 < s.credit c → P s → P (s.grantTo c)
  raise : ∀ s r k, P s → P (s.raise r k)
  delay : ∀ s r, P s → P (s.setRegs r (delayTimeoutRegs (s.regs r)))
  fault : ∀ s r c, P s → P (s.setRegs r (faultRegs c (s.regs r)))
  resetDone : ∀ s r, P s → P (s.setRegs r (resetDoneRegs (s.regs r)))
  stopDone : ∀ s r, P s → P (s.setRegs r (stopDoneRegs (s.regs r)))
  advance : ∀ s r d n, P s → P (s.setRegs r (advanceRegs d n (s.regs r)))
  done : ∀ s r, P s → P (s.setRegs r (packetDoneRegs (s.regs r)).1)
  putWord : ∀ s a v, P s → P (s.setMem (memPutWord s.mem a v))
  putBytes : ∀ s a bs, P s → P (s.setMem (memPutBytes s.mem a bs))
  setFences : ∀ s x, P s → P (s.setFences x)
  populate : ∀ s r, P s → P (s.setRing r (s.ring r).populate)
  vacant : ∀ s r, P s → P (s.setRing r (s.ring r).vacant)
  rewind : ∀ s r, P s → P (s.setRing r ((s.ring r).cursors 0))
  makePool : ∀ s r n b, 2 ≤ n → n ≤ 32768 → blockOk b n = true → P s → P (s.makePool r n b)
  gone : ∀ s r, P s → P (s.setRing r (s.ring r).gone)
  zeroed : ∀ s r, P s → P (s.setRing r (s.ring r).zeroed)
  count : ∀ s r p b e d, P s →
    P (s.setRing r { s.ring r with packets := p, bytes := b, errors := e, dropped := d })
  rearmed : ∀ s q, P s →
    P (s.setRing ⟨.rx, q⟩ ((s.ring ⟨.rx, q⟩).cursors (incMod (s.ring ⟨.rx, q⟩).cap (s.ring ⟨.rx, q⟩).completion)))
  reclaimed : ∀ s q, P s →
    P (s.setRing ⟨.tx, q⟩ ((s.ring ⟨.tx, q⟩).toCompletion (incMod (s.ring ⟨.tx, q⟩).cap (s.ring ⟨.tx, q⟩).completion)))
  submitted : ∀ s q f app, P s → P (s.submitFill ⟨.tx, q⟩ f app)
  offload : ∀ s q f app s', s.offloadTx q f = some (app, s') → P s → P s'
  forget : ∀ s q k, P s → P (s.setTags q { s.tags q with tagmap := kvDel (s.tags q).tagmap k })
  forgetAll : ∀ s q, P s → P (s.setTags q { s.tags q with tagmap := [] })
  initTags : ∀ s q, P s → P (s.setTags q ⟨0, []⟩)
  pending : ∀ s r b, P s → P (s.setRing r ((s.ring r).pending b))
  polls : ∀ s r n, P s → P (s.setRing r ((s.ring r).polls n))
  cause : ∀ s r c, P s → P (s.setRing r ((s.ring r).cause c))

/-- `P` is kept by each change a step is made of. -/
structure Closed (P : State → Prop) : Prop extends Kept P where
  become : ∀ s r st, P s → P (s.setRing r ((s.ring r).become st))

/-- A next state, if this is one, has property `P`. -/
def Sat (P : State → Prop) : Res → Prop
  | .next t => P t
  | .fault _ => True
  | .refused _ => True

/-- The state a step of a command in progress leaves, if it leaves one, has property `P`. -/
def TaskSat (P : State → Prop) : TaskRes → Prop
  | .done t => P t
  | .more _ t => P t
  | .stop _ => True

theorem sat_withRing {P : State → Prop} {d : Dir} {q : Nat} {s : State} {k : RingId → Res}
    (h : ∀ r : RingId, r.dir = d → Sat P (k r)) : Sat P (withRing d q s k) := by
  unfold withRing
  split
  · trivial
  · next r hr => exact h r (State.ring?_some hr).1

theorem sat_withContext {P : State → Prop} {s : State} {k : Res} (h : Sat P k) : Sat P (withContext s k) := by
  unfold withContext
  split
  · exact h
  · trivial

theorem setRing_setRing (s : State) (r : RingId) (x y : RingSw) : (s.setRing r x).setRing r y = s.setRing r y := by
  obtain ⟨d, q⟩ := r
  cases d <;> simp [State.setRing, rset, vset]

theorem setMem_setMem (s : State) (m n : Memory) : (s.setMem m).setMem n = s.setMem n := (rfl)

/-- The operations whose first step moves a ring's state (R37). -/
def movesState : Instr → Bool
  | .detach => true
  | .recoverBegin _ _ => true
  | .recoverPoll _ _ => true
  | .recoverDrain _ _ => true
  | _ => false

/-- The steps of commands in progress that move a ring's state (R37). -/
def movesTask : Task → Bool
  | .attach .present _ => true
  | .reconfig _ .enable => true
  | _ => false

namespace Kept

variable {P : State → Prop} (c : Kept P)
include c

theorem emit (s : State) (e : Event) (h : P s) : P (s.emit e) := c.emits s [e] h

theorem addTask (s : State) (t : Task) (h : P s) : P (s.addTask t) := c.setTasks s _ h

theorem sat_begin {r : TaskRes} (h : TaskSat P r) : Sat P (begin r) := by
  cases r with
  | done s => exact h
  | more t s => exact c.addTask s t h
  | stop e => trivial

theorem sat_putBack (k : Nat) {r : TaskRes} (h : TaskSat P r) : Sat P (putBack k r) := by
  cases r with
  | done s => exact h
  | more t s => exact c.setTasks s _ h
  | stop e => trivial

theorem afterRead (s : State) (g : Reg) (h : P s) : P (s.afterRead g) := by
  cases g <;> first | exact h | exact c.setTxe s _ _ h

theorem used (s : State) (h : P s) : P s.used := c.setEnv s _ h

theorem drawBus (s : State) (h : P s) : P s.drawBus.2 := by
  unfold State.drawBus
  split
  · exact c.setEnv s _ h
  · exact c.used s h

theorem drawTs (s : State) (h : P s) : P s.drawTs.2 := by
  unfold State.drawTs
  split
  · exact c.setEnv s _ h
  · exact c.used s h

theorem drawRxBuffer (s : State) (h : P s) : P s.drawRxBuffer.2 := by
  unfold State.drawRxBuffer
  split
  · exact c.setEnv s _ h
  · exact c.used s h

theorem drawAlloc (s : State) (h : P s) : P s.drawAlloc.2 := by
  unfold State.drawAlloc
  split
  · exact c.setEnv s _ h
  · exact c.used s h

theorem putD (s : State) (r : RingId) (i off : Nat) (v : Word) (h : P s) : P (s.putD r i off v) := c.putWord s _ _ h

theorem putApp (s : State) (r : RingId) (i : Nat) (a : App) (h : P s) : P (s.putApp r i a) :=
  c.putD _ _ _ _ _ (c.putD _ _ _ _ _ (c.putD _ _ _ _ _ (c.putD _ _ _ _ _ (c.putD _ _ _ _ _ h))))

theorem owe (s : State) (r : RingId) (h : P s) : P (s.owe r) := c.setFences s _ h

theorem wmb (s : State) (h : P s) : P s.wmb := c.setFences s _ h

omit c in
theorem loopN {f : Nat → State → State} (hf : ∀ i s, P s → P (f i s)) (n i : Nat) (s : State) (h : P s) :
    P (loopN f n i s) := by
  induction n generalizing i s with
  | zero => exact h
  | succ n ih => exact ih _ _ (hf _ _ h)

theorem resetRing (s : State) (r : RingId) (h : P s) : P (s.resetRing r) :=
  c.owe _ _ (c.rewind _ _ (loopN (fun _ _ h => c.putD _ _ _ _ _ (c.putD _ _ _ _ _ h)) _ _ _ h))

theorem fillSlot (s : State) (r : RingId) (i : Nat) (h : P s) : P (s.fillSlot r i) :=
  c.putD _ _ _ _ _ (c.putD _ _ _ _ _ (c.putD _ _ _ _ _ (c.drawRxBuffer s h)))

theorem armSlot (s : State) (r : RingId) (i : Nat) (h : P s) : P (armSlot r i s) := by
  have h1 : P (if s.getD r i swFrameOff = 0 then s.fillSlot r i else s) := by
    split
    · exact c.fillSlot s r i h
    · exact h
  exact c.putD _ _ _ _ _ (c.putApp _ _ _ _ (c.putD _ _ _ _ _ (c.putD _ _ _ _ _ h1)))

theorem armRx (s : State) (q : Chan) (h : P s) : P (s.armRx q) :=
  c.wmb _ (c.populate _ _ (loopN (fun i s h => c.armSlot s _ i h) _ _ _ h))

theorem releaseSlot (s : State) (r : RingId) (i : Nat) (h : P s) : P (s.releaseSlot r i).2 :=
  c.owe _ _ (c.putD _ _ _ _ _ (c.putD _ _ _ _ _ (c.putD _ _ _ _ _ (c.putApp _ _ _ _
    (c.putD _ _ _ _ _ (c.putD _ _ _ _ _ (c.emits s _ h)))))))

theorem dropSlot (s : State) (r : RingId) (i : Nat) (h : P s) : P (s.dropSlot r i) := by
  unfold State.dropSlot
  dsimp only
  split
  · exact c.releaseSlot s r i h
  · exact c.count _ r _ _ _ _ (c.releaseSlot s r i h)

theorem freeSlot (s : State) (r : RingId) (i : Nat) (h : P s) : P (freeSlot r i s) := by
  unfold Machine.freeSlot
  split
  · exact c.dropSlot s r i h
  · exact c.releaseSlot s r i h

theorem freeRing (s : State) (r : RingId) (h : P s) : P (s.freeRing r) :=
  c.gone _ _ (loopN (fun i s h => c.freeSlot s _ i h) _ _ _ h)

/-- What `ALLOCATE` can come to. -/
theorem allocate (s : State) (r : RingId) (n : Nat) (h : P s) :
    match s.allocate r n with
    | .ok t => P t
    | .outOfMemory t => P t
    | .alignment t => P t
    | .size => True
    | .present => True
    | .running => True := by
  unfold State.allocate
  by_cases h1 : n < 2 || 32768 < n
  · simp only [h1, if_true]
  · simp only [h1]
    by_cases h2 : (s.ring r).present
    · simp [h2]
    · by_cases h3 : !halted (s.regs r)
      · simp [h2, h3]
      · simp only [h2, h3]
        have hd := c.drawAlloc s h
        rcases ho : s.drawAlloc with ⟨o, t⟩
        rw [ho] at hd
        cases o with
        | none => exact hd
        | some b =>
          dsimp only
          by_cases h4 : blockOk b n
          · simp only [h4, if_true]
            simp only [Bool.or_eq_true, decide_eq_true_eq, not_or] at h1
            exact c.makePool _ _ _ _ (by omega) (by omega) h4 hd
          · simpa [h4] using hd

theorem tsCorrelate (s : State) (q : Chan) (i : Nat) (h : P s) : P (s.tsCorrelate q i) := by
  unfold State.tsCorrelate
  dsimp only
  split
  · exact c.forget _ _ _ (c.emits _ _ (c.afterRead _ _ h))
  · exact c.forget _ _ _ h

theorem takeFrame (s : State) (r : RingId) (i : Nat) (st : Word) (h : P s) : P (s.takeFrame r i st) :=
  c.fillSlot _ _ _ (c.count _ r _ _ _ _ (c.emit _ _ h))

theorem rearmSlot (s : State) (r : RingId) (i : Nat) (h : P s) : P (s.rearmSlot r i) :=
  c.putD _ _ _ _ _ (c.putApp _ _ _ _ (c.putD _ _ _ _ _ h))

theorem pollIter {p p' : PollSt} {s s' : State} (h : P s) (hp : pollIter p s = some (p', s')) : P s' := by
  unfold Machine.pollIter at hp
  dsimp only at hp
  split at hp
  · have h1 : P (if goodRx (s.statusD ⟨.rx, p.q⟩ (s.ring ⟨.rx, p.q⟩).completion) then
        s.rmb.takeFrame ⟨.rx, p.q⟩ (s.ring ⟨.rx, p.q⟩).completion (s.statusD ⟨.rx, p.q⟩ (s.ring ⟨.rx, p.q⟩).completion)
        else s.rmb.setRing ⟨.rx, p.q⟩ (s.rmb.ring ⟨.rx, p.q⟩).countError) := by
      split
      · exact c.takeFrame _ _ _ _ h
      · exact c.count s _ _ _ _ _ h
    have h2 := c.rearmSlot _ ⟨.rx, p.q⟩ (s.ring ⟨.rx, p.q⟩).completion h1
    have h3 := c.owe _ ⟨.rx, p.q⟩ (c.rearmed _ p.q h2)
    have he : (State.ring ((if goodRx (s.statusD ⟨.rx, p.q⟩ (s.ring ⟨.rx, p.q⟩).completion) then
        s.rmb.takeFrame ⟨.rx, p.q⟩ (s.ring ⟨.rx, p.q⟩).completion (s.statusD ⟨.rx, p.q⟩ (s.ring ⟨.rx, p.q⟩).completion)
        else s.rmb.setRing ⟨.rx, p.q⟩ (s.rmb.ring ⟨.rx, p.q⟩).countError).rearmSlot ⟨.rx, p.q⟩
          (s.ring ⟨.rx, p.q⟩).completion) ⟨.rx, p.q⟩).completion = (s.ring ⟨.rx, p.q⟩).completion := by
      split <;> simp [State.rmb, State.takeFrame, RingSw.countPacket, RingSw.countError]
    rw [he] at h3
    injection hp with hp
    injection hp with _ hp
    rw [← hp]
    exact h3
  · cases hp

theorem pollFinish (p : PollSt) (s : State) (h : P s) : P (pollFinish p s) := by
  unfold Machine.pollFinish
  split
  · exact h
  · split
    · exact c.regWrite _ _ _ (c.wmb _ h)
    · exact h

theorem pollReturn (p : PollSt) (s : State) (h : P s) : P (pollReturn p s) := c.answer _ _ _ (c.pollFinish _ _ h)

theorem countReclaim (s : State) (r : RingId) (st w : Word) (h : P s) :
    P (s.setRing r ((s.ring r).countReclaim st w)) := by
  unfold RingSw.countReclaim
  dsimp only
  split
  · exact c.count s r _ _ _ _ h
  · split
    · exact c.count s r _ _ _ _ h
    · exact c.count s r _ _ _ _ h

theorem reclaimIter {p p' : ReclaimSt} {s s' : State} (h : P s) (hp : reclaimIter p s = some (p', s')) : P s' := by
  unfold Machine.reclaimIter at hp
  dsimp only at hp
  split at hp
  · injection hp with hp
    injection hp with _ hp
    rw [← hp]
    generalize hc : (s.ring ⟨.tx, p.q⟩).completion = i
    have h1 : P (if tsReqOf (s.rmb.getD ⟨.tx, p.q⟩ i swTagOff) then s.rmb.tsCorrelate p.q i else s.rmb) ∧
        ((if tsReqOf (s.rmb.getD ⟨.tx, p.q⟩ i swTagOff) then s.rmb.tsCorrelate p.q i else s.rmb).ring
          ⟨.tx, p.q⟩).completion = i := by
      split
      · exact ⟨c.tsCorrelate _ _ _ h, by simpa [State.rmb] using hc⟩
      · exact ⟨h, hc⟩
    generalize (if tsReqOf (s.rmb.getD ⟨.tx, p.q⟩ i swTagOff) then s.rmb.tsCorrelate p.q i else s.rmb) = s1 at h1
    have h2 := c.releaseSlot _ ⟨.tx, p.q⟩ i (c.countReclaim s1 ⟨.tx, p.q⟩ (s.statusD ⟨.tx, p.q⟩ i)
      (s1.getD ⟨.tx, p.q⟩ i swFrameOff) h1.1)
    have h3 := c.reclaimed _ p.q h2
    have he : (State.ring ((s1.setRing ⟨.tx, p.q⟩ ((s1.ring ⟨.tx, p.q⟩).countReclaim (s.statusD ⟨.tx, p.q⟩ i)
        (s1.getD ⟨.tx, p.q⟩ i swFrameOff))).releaseSlot ⟨.tx, p.q⟩ i).2 ⟨.tx, p.q⟩).completion = i := by
      rw [← h1.2]
      simp only [State.releaseSlot, State.clearSlot, State.owe_ring, if_true, State.putD_ring, State.putApp_ring,
        State.emits_ring, State.setRing_ring]
      unfold RingSw.countReclaim
      dsimp only
      split
      · rfl
      · split <;> rfl
    rw [he] at h3
    exact h3
  · cases hp

theorem releaseGrant (s : State) (r : RingId) (h : P s) : P (s.releaseGrant r) := by
  unfold State.releaseGrant
  split
  · exact c.setGrant _ _ h
  · exact h

theorem dropGrant (s : State) (h : P s) : P s.dropGrant := by
  unfold State.dropGrant
  split
  · exact c.setGrant _ _ h
  · exact h

theorem dropFrame (s : State) (r : RingId) (h : P s) : P (s.dropFrame r) := by
  unfold State.dropFrame
  split
  · exact c.setTxe _ _ _ h
  · exact c.setRxe _ _ _ h

theorem engineFault (s : State) (r : RingId) (x : Cause) (h : P s) : P (s.engineFault r x) :=
  c.raise _ _ _ (c.releaseGrant _ _ (c.dropFrame _ _ (c.fault _ _ _ h)))

theorem packetDone (s : State) (r : RingId) (h : P s) : P (s.packetDone r) := by
  unfold State.packetDone
  dsimp only
  split
  · exact c.raise _ _ _ (c.done _ _ h)
  · exact c.done _ _ h

theorem advanceRing (s : State) (r : RingId) (d n : Word) (on : Bool) (h : P s) : P (s.advance r d n on) := by
  unfold State.advance
  dsimp only
  have h1 := c.advance s r d n h
  have h2 : P (if (d == (s.regs r).taildesc && r.dir == .tx) = true then
      (s.setRegs r (advanceRegs d n (s.regs r))).dropGrant else s.setRegs r (advanceRegs d n (s.regs r))) := by
    split
    · exact c.dropGrant _ h1
    · exact h1
  split
  · exact c.packetDone _ _ h2
  · exact h2

theorem writeStatus (s : State) (r : RingId) (d w : Word) (h : P s) : P (s.writeStatus r d w).2 := by
  have hd := c.drawBus s h
  unfold State.writeStatus
  split <;> next hs => rw [hs] at hd; first | exact c.putWord _ _ _ hd | exact c.engineFault _ _ _ hd

theorem tsPush (s : State) (q : Chan) (g : BitVec 16) (h : P s) : P (s.tsPush q g) := by
  have hd := c.drawTs s h
  unfold State.tsPush
  dsimp only
  split
  · exact c.setTxe _ _ _ hd
  · exact hd

theorem txEmit (s : State) (q : Chan) (a : Asm) (h : P s) : P (s.txEmit q a) := by
  unfold State.txEmit
  dsimp only
  split
  · exact c.tsPush _ _ _ (c.emit _ _ h)
  · exact c.emit _ _ h

theorem txClose (s : State) (q : Chan) (a : Asm) (eof : Bool) (h : P s) : P (s.txClose q a eof) := by
  unfold State.txClose
  split
  · dsimp only
    refine c.dropGrant _ (c.setTxe _ _ _ ?_)
    split
    · exact h
    · exact c.txEmit _ _ _ h
  · exact c.setTxe _ _ _ h

theorem txData (w : Desc) (e : BitVec 3) (a : Asm) (s : State) (h : P s) : P (txData w e a s).2.2 := by
  unfold Machine.txData
  split
  · exact c.drawBus s h
  · exact h

theorem runTx (s : State) (r : RingId) (d : Word) (w : Desc) (h : P s) : P (s.runTx r d w) := by
  unfold State.runTx
  dsimp only
  have h1 := c.txData w (txStart s.cfg.variant w (s.txe r.q).asm).1 (txStart s.cfg.variant w (s.txe r.q).asm).2 s h
  generalize Machine.txData w (txStart s.cfg.variant w (s.txe r.q).asm).1 (txStart s.cfg.variant w (s.txe r.q).asm).2 s
    = x at h1 ⊢
  obtain ⟨e1, a1, s1⟩ := x
  dsimp only at h1 ⊢
  have h2 := c.writeStatus _ r d (statusWord (txErr e1 a1).1 false false (lenOf w.ctrl))
    (c.txClose s1 r.q (txErr e1 a1).2 (eofOf s.cfg.variant w.ctrl) h1)
  split <;> next hs => rw [hs] at h2; first | exact h2 | exact c.advanceRing _ _ _ _ _ h2

theorem rxData (s : State) (w : Desc) (m : RxRem) (h : P s) : P (s.rxData w m).2.2 := by
  unfold State.rxData
  split
  · exact h
  · dsimp only
    split
    · exact c.putBytes _ _ _ (c.drawBus s h)
    · exact c.drawBus s h

theorem putAppWord (s : State) (a v : Word) (h : P s) : P (s.putAppWord a v) := c.putWord _ _ _ (c.drawBus s h)

theorem writeApp (s : State) (d : Word) (a : App) (h : P s) : P (s.writeApp d a) :=
  c.putAppWord _ _ _ (c.putAppWord _ _ _ (c.putAppWord _ _ _ (c.putAppWord _ _ _ (c.putAppWord _ _ _ h))))

theorem fillRx (s : State) (r : RingId) (d : Word) (w : Desc) (m : RxRem) (h : P s) : P (s.fillRx r d w m) := by
  unfold State.fillRx
  dsimp only
  have h1 := c.rxData s w m h
  generalize s.rxData w m = x at h1 ⊢
  obtain ⟨e, n, s1⟩ := x
  dsimp only at h1 ⊢
  have h2 : P (if (e != 0 || n == m.bytes.length) && e == 0 then s1.writeApp d m.app else s1) := by
    split
    · exact c.writeApp _ _ _ h1
    · exact h1
  generalize (if (e != 0 || n == m.bytes.length) && e == 0 then s1.writeApp d m.app else s1)
    = s2 at h2
  have h3 := c.writeStatus _ r d (statusWord e m.first (e != 0 || n == m.bytes.length) n)
    (c.setRxe s2 r.q { s2.rxe r.q with
      rem := if (e != 0 || n == m.bytes.length) = true then none else some ⟨m.bytes.drop n, m.app, false⟩ } h2)
  split <;> next hs => rw [hs] at h3; first | exact h3 | exact c.advanceRing _ _ _ _ _ h3

theorem runRx (s : State) (r : RingId) (d : Word) (w : Desc) (h : P s) : P (s.runRx r d w) := by
  unfold State.runRx State.rxTake
  split
  · exact h
  · next m t ht =>
    split at ht
    · injection ht with ht
      injection ht with _ ht
      exact ht ▸ c.fillRx _ _ _ _ _ h
    · injection ht with ht
      injection ht with _ ht
      exact ht ▸ c.fillRx _ _ _ _ _ (c.setRxe _ _ _ h)
    · cases ht

theorem checkFetched (r : RingId) (w : Desc) (s : State) (h : P s) :
    match checkFetched r w s with
    | .ok _ t => P t
    | .faulted t => P t := by
  unfold Machine.checkFetched
  cases cmpltOf w.status with
  | false => exact h
  | true => exact c.engineFault _ _ _ h

theorem fetch (s : State) (r : RingId) (d : Word) (h : P s) :
    match s.fetch r d with
    | .ok _ t => P t
    | .faulted t => P t := by
  have hd := c.drawBus s h
  unfold State.fetch
  rcases hb : s.drawBus with ⟨b, t⟩
  rw [hb] at hd
  cases b with
  | okay => exact c.checkFetched _ _ _ hd
  | slverr => exact c.engineFault _ _ _ hd
  | decerr => exact c.engineFault _ _ _ hd

theorem processNext (s : State) (r : RingId) (h : P s) : P (s.processNext r) := by
  have hf := c.fetch s r (s.regs r).curdesc h
  unfold State.processNext
  split
  · next ht => rw [ht] at hf; exact hf
  · next ht =>
    rw [ht] at hf
    dsimp only at hf ⊢
    split
    · exact c.runTx _ _ _ _ hf
    · exact c.runRx _ _ _ _ hf

theorem pollTask (p : PollSt) (s : State) (h : P s) : TaskSat P (pollTask p s) := by
  unfold Machine.pollTask
  split
  · next hp => exact c.pollIter h hp
  · exact c.pollReturn _ _ h

theorem reclaimTask (p : ReclaimSt) (s : State) (h : P s) : TaskSat P (reclaimTask p s) := by
  unfold Machine.reclaimTask
  split
  · next hp => exact c.reclaimIter h hp
  · exact c.answer _ _ _ h

omit c in
theorem irqNext (d : Dir) (n : Nat) (qs : List Chan) (s : State) (h : P s) : TaskSat P (irqNext d n qs s) := by
  cases qs <;> exact h

theorem scheduleRecovery (s : State) (r : RingId) (h : P s) : P (s.scheduleRecovery r) :=
  c.emit _ _ (c.pending _ _ _ h)

omit c in
theorem irqEntry (d : Dir) (n : Nat) (q : Chan) (qs : List Chan) (s : State) (h : P s) :
    TaskSat P (irqEntry d n q qs s) := by
  unfold Machine.irqEntry
  dsimp only
  split
  · exact h
  · split
    · exact irqNext _ _ _ _ h
    · split
      · exact irqNext _ _ _ _ h
      · split <;> exact h

theorem irqMaskIer (d : Dir) (n : Nat) (q : Chan) (qs : List Chan) (s : State) (h : P s) :
    TaskSat P (irqMaskIer d n q qs s) := by
  unfold Machine.irqMaskIer
  dsimp only
  split
  · exact irqNext _ _ _ _ (c.scheduleRecovery _ _ (c.regWrite _ _ _ h))
  · exact c.regWrite _ _ _ h

theorem irqPoll (d : Dir) (n : Nat) (q : Chan) (v : BitVec 3) (p : PollSt) (qs : List Chan) (s : State) (h : P s) :
    TaskSat P (irqPoll d n q v p qs s) := by
  unfold Machine.irqPoll
  split
  · next hp => exact c.pollIter h hp
  · exact c.pollFinish _ _ h

theorem irqReclaim (d : Dir) (n : Nat) (q : Chan) (v : BitVec 3) (p : ReclaimSt) (qs : List Chan) (s : State)
    (h : P s) : TaskSat P (irqReclaim d n q v p qs s) := by
  unfold Machine.irqReclaim
  split
  · next hp => exact c.reclaimIter h hp
  · exact h

theorem irqCall (d : Dir) (n : Nat) (q : Chan) (v : BitVec 3) (qs : List Chan) (s : State) (h : P s) :
    TaskSat P (irqCall d n q v qs s) := by
  unfold Machine.irqCall
  dsimp only
  split
  · exact h
  · split
    · exact irqNext _ _ _ _ h
    · split
      · exact h
      · exact c.irqReclaim _ _ _ _ _ _ _ h
      · exact h
      · exact c.irqPoll _ _ _ _ _ _ _ h

theorem irqDeliver (d : Dir) (n : Nat) (q : Chan) (v : BitVec 3) (fs : List RxFrame) (qs : List Chan) (s : State)
    (h : P s) : TaskSat P (irqDeliver d n q v fs qs s) := by
  unfold Machine.irqDeliver
  dsimp only
  split <;> exact c.emits _ _ h

theorem irqTask (d : Dir) (n : Nat) (qs : List Chan) (st : IrqStage) (s : State) (h : P s) :
    TaskSat P (irqTask d n qs st s) := by
  unfold Machine.irqTask
  split
  · exact h
  · exact h
  · exact irqNext _ _ _ _ (c.regWrite _ _ _ h)
  · split
    · exact h
    · exact irqEntry _ _ _ _ _ h
  · exact c.irqMaskIer _ _ _ _ _ h
  · exact irqNext _ _ _ _ (c.scheduleRecovery _ _ (c.regWrite _ _ _ h))
  · exact c.irqCall _ _ _ _ _ _ h
  · exact c.irqPoll _ _ _ _ _ _ _ h
  · exact c.irqReclaim _ _ _ _ _ _ _ h
  · exact c.irqDeliver _ _ _ _ _ _ _ h
  · exact c.regWrite _ _ _ h
  · exact h
  · exact irqNext _ _ _ _ (c.regWrite _ _ _ h)

theorem chEnableBits (s : State) (r : RingId) (h : P s) : P (s.chEnableBits r) := by
  unfold State.chEnableBits State.setBit
  exact c.regWrite _ _ _ (c.regWrite _ _ _ h)

theorem chDisableBits (s : State) (r : RingId) (h : P s) : P (s.chDisableBits r) := by
  unfold State.chDisableBits State.clearBit
  exact c.regWrite _ _ _ (c.regWrite _ _ _ h)

theorem enableDirs (s : State) (q : Chan) (ds : List Dir) (h : P s) : P (s.enableDirs q ds) := by
  induction ds generalizing s with
  | nil => exact h
  | cons d ds ih => exact ih _ (c.chEnableBits _ _ h)

theorem disableDirs (s : State) (q : Chan) (ds : List Dir) (h : P s) : P (s.disableDirs q ds) := by
  induction ds generalizing s with
  | nil => exact h
  | cons d ds ih => exact ih _ (c.chDisableBits _ _ h)

theorem enableRing (s : State) (r : RingId) (h : P s) : P (s.enableRing r) := by
  unfold State.enableRing
  split
  · exact c.regWrite _ _ _ h
  · exact c.chEnableBits _ _ h

theorem ringRx (s : State) (r : RingId) (h : P s) : P (s.ringRx r) := c.regWrite _ _ _ h

theorem drainFrom (s : State) (r : RingId) (i n : Nat) (h : P s) : P (s.drainFrom r i n) := by
  induction n generalizing s i with
  | zero => exact h
  | succ n ih =>
    unfold State.drainFrom
    split
    · exact h
    · exact ih _ _ (c.dropSlot _ _ _ h)

theorem drain (s : State) (r : RingId) (h : P s) : P (s.drain r) := by
  unfold State.drain
  split
  · exact h
  · exact c.forgetAll _ _ (c.drainFrom _ _ _ _ h)

theorem rebuild (s : State) (r : RingId) (h : P s) : P (s.rebuild r) := by
  unfold State.rebuild
  dsimp only
  refine c.wmb _ ?_
  split
  · exact c.resetRing _ _ h
  · exact c.armRx _ _ (c.resetRing _ _ h)

omit c in
theorem foldl {α : Type} {f : State → α → State} (hf : ∀ s x, P s → P (f s x)) (xs : List α) (s : State) (h : P s) :
    P (xs.foldl f s) := by
  induction xs generalizing s with
  | nil => exact h
  | cons x xs ih => exact ih _ (hf _ _ h)

theorem allocateAll (made : List RingId) (s : State) (rs : List RingId) (h : P s) :
    match allocateAll made s rs with
    | .ok t => P t
    | .failed _ t => P t
    | .stop _ => True := by
  induction rs generalizing made s with
  | nil => exact h
  | cons r rs ih =>
    have hg : ∀ t, P t → P (made.foldl (fun t r' => t.setRing r' (t.ring r').gone) t) :=
      fun t ht => foldl (fun s x hs => c.gone s x hs) _ _ ht
    have ha := c.allocate s r (s.cfg.ring r).cap h
    unfold Machine.allocateAll
    dsimp only
    cases hs : s.allocate r (s.cfg.ring r).cap with
    | ok t => rw [hs] at ha; exact ih _ _ ha
    | size => exact hg _ h
    | present => trivial
    | running => trivial
    | outOfMemory t => rw [hs] at ha; exact hg _ ha
    | alignment t => rw [hs] at ha; exact hg _ ha

theorem attachSoftware (s : State) (x : Config) (h : P s) : P (s.attachSoftware x) :=
  c.setModes _ _ (c.setLink _ _ (foldl (fun s q hs => c.initTags s q hs) _ _
    (foldl (fun s r hs => c.zeroed s r hs) _ _ h)))

theorem attachArm (s : State) (h : P s) : P s.attachArm :=
  c.wmb _ (foldl (fun s q hs => c.armRx s q hs) _ _ h)

theorem access (a : Access) (s : State) (h : P s) : P (a.run s) := by
  cases a with
  | curdesc r => exact c.regWrite s (.curdesc r) _ h
  | cr r => exact c.regWrite s (.cr r) _ h
  | weights hi => exact c.regWrite s (if hi then .weight1 else .weight0) _ h
  | ier r => exact c.regWrite s (.ier r) _ h
  | readRun r => exact h
  | writeRun r v => exact c.regWrite s (.cr r) _ h
  | enableBits r => exact c.chEnableBits s r h
  | bell r => exact c.ringRx s r h
  | maskIer r => exact c.regWrite s (.ier r) _ h
  | maskChIer r => exact c.regWrite s (.chIer r.dir) _ h
  | reset r => exact c.regWrite s (.cr r) _ h

theorem accessStep (todo : List Access) (s : State) {k : List Access → State → TaskRes}
    (hk : ∀ as t, P t → TaskSat P (k as t)) (h : P s) : TaskSat P (accessStep todo s k) := by
  unfold Machine.accessStep
  split
  · exact hk _ _ h
  · split
    · trivial
    · exact hk _ _ (c.access _ _ h)

theorem vacate (s : State) (h : P s) : P s.vacate :=
  c.setCtx _ _ (c.setModes _ _ (c.setLink _ _ (foldl (fun s q hs => c.initTags s q hs) _ _
    (foldl (fun s r hs => c.vacant s r hs) _ _ h))))

theorem detachTask (st : DetachStage) (s : State) (h : P s) : TaskSat P (detachTask st s) := by
  unfold Machine.detachTask
  split
  · exact c.accessStep _ _ (fun _ _ ht => ht) h
  · unfold detachPoll
    split
    · exact h
    · split
      · exact c.answer _ _ _ (c.cause _ _ _ h)
      · exact h
  · exact c.answer _ _ _ (c.vacate _ (foldl (fun s r hs => c.freeRing s r hs) _ _ h))

omit c in
theorem withControl {s : State} {k : Res} (h : Sat P k) : Sat P (withControl s k) := by
  unfold Machine.withControl
  split
  · trivial
  · exact h

theorem transact (g : Reg) (t : Trans) (s : State) (h : P s) : Sat P (transact g t s) := by
  unfold Machine.transact
  split
  · exact c.answer _ _ _ (c.afterRead _ _ h)
  · split
    · split
      · trivial
      · exact c.regWrite _ _ _ h
    · exact c.regWrite _ _ _ h

theorem sqReg (g : Reg) (t : Trans) (s : State) (h : P s) : Sat P (sqReg g t s) := by
  unfold Machine.sqReg
  split
  · exact c.transact _ _ _ h
  · trivial

theorem mcReg (g : Reg) (t : Trans) (s : State) (h : P s) : Sat P (mcReg g t s) := by
  unfold Machine.mcReg
  split
  · exact c.transact _ _ _ h
  · trivial

theorem chanReg (d : Dir) (n : Nat) (g : RingId → Reg) (t : Trans) (s : State) (h : P s) :
    Sat P (chanReg d n g t s) := by
  unfold Machine.chanReg
  split
  · exact sat_withRing fun r _ => c.transact _ _ _ h
  · trivial

theorem atOff (off : Nat) (t : Trans) (s : State) (h : P s) : Sat P (atOff off s fun g => Machine.transact g t s) := by
  unfold Machine.atOff
  split
  · exact c.transact _ _ _ h
  · trivial

theorem putWordRow (d : Dir) (q i off : Nat) (v : Word) (s : State) (h : P s) : Sat P (Machine.putWord d q i off v s) := by
  refine sat_withRing fun r _ => ?_
  split
  · trivial
  · split
    · dsimp only
      split
      · trivial
      · split
        · trivial
        · split
          · exact c.owe _ _ (c.putD _ _ _ _ _ h)
          · trivial
    · trivial

theorem putCtrl (v : Variant) (d : Dir) (q i : Nat) (w : Word) (s : State) (h : P s) : Sat P (putCtrl v d q i w s) := by
  unfold Machine.putCtrl
  split
  · exact c.putWordRow _ _ _ _ _ _ h
  · trivial

theorem engineDesc (v : Variant) (d : Dir) (q : Nat) (w : Desc) (s : State) (h : P s) : Sat P (engineDesc v d q w s) := by
  unfold Machine.engineDesc
  split
  · refine sat_withRing fun r _ => ?_
    split
    · exact c.processNext _ _ h
    · exact h
  · trivial

theorem withFreeRing {id : Nat} {d : Dir} {q : Nat} {s : State} {k : RingId → Res} (hs : P s) (h : ∀ r, Sat P (k r)) :
    Sat P (withFreeRing id d q s k) := by
  refine sat_withRing fun r _ => withControl ?_
  split
  · exact c.answer _ _ _ hs
  · split
    · trivial
    · exact h r

theorem withPool {id : Nat} {d : Dir} {q : Nat} {s : State} {k : RingId → Res} (hs : P s) (h : ∀ r, Sat P (k r)) :
    Sat P (withPool id d q s k) := by
  refine c.withFreeRing hs fun r => ?_
  split
  · trivial
  · split
    · trivial
    · exact h r

theorem withBody (id : Nat) (r : RingId) (s : State) {k : Res} (h : P s) (hk : Sat P k) : Sat P (withBody id r s k) := by
  unfold Machine.withBody
  split
  · exact c.answer _ _ _ h
  · split
    · trivial
    · exact hk

omit c in
theorem withRState {st : RState} {d : Dir} {q : Nat} {s : State} {k : RingId → Res} (h : ∀ r, Sat P (k r)) :
    Sat P (withRState st d q s k) := by
  refine sat_withContext (sat_withRing fun r _ => ?_)
  split
  · exact h r
  · trivial

theorem reconfigTask (r : RingId) (st : ReconfigStage) (s : State) (hm : movesTask (.reconfig r st) = false)
    (h : P s) : TaskSat P (Machine.reconfigTask r st s) := by
  unfold Machine.reconfigTask
  split
  · trivial
  · cases st
    · exact c.regWrite _ _ _ h
    · exact c.regWrite _ _ _ h
    · exact c.regWrite _ _ _ h
    · cases hm

theorem attachTask (ph : AttachPhase) (x : Config) (s : State) (hm : movesTask (.attach ph x) = false)
    (h : P s) : TaskSat P (Machine.attachTask ph x s) := by
  cases ph
  · have ha := c.allocateAll [] (s.setCfg x) (ringsBelow x.nq) (c.setCfg _ _ h)
    unfold Machine.attachTask
    dsimp only
    cases hs : Machine.allocateAll [] (s.setCfg x) (ringsBelow x.nq) with
    | ok t => rw [hs] at ha; exact ha
    | failed e t => rw [hs] at ha; exact c.answer _ _ _ (c.setCfg _ _ ha)
    | stop e => trivial
  · exact c.attachSoftware _ _ h
  · exact c.attachArm _ h
  · exact c.accessStep _ _ (k := fun as t => .more (.attach (.programs as) x) t) (fun _ _ ht => ht) h
  · cases hm
  · refine c.accessStep _ _ (fun as t ht => ?_) h
    cases as
    · exact c.answer _ _ _ ht
    · exact ht

/-- Every step of a command in progress that moves no ring's state keeps `P`. -/
theorem resume (k : Nat) (s : State) (hm : ∀ t, s.tasks[k]? = some t → movesTask t = false) (h : P s) :
    Sat P (Machine.resume k s) := by
  unfold Machine.resume
  split
  · exact h
  · next t ht =>
    have h1 := c.setTasks s (s.tasks.eraseIdx k) h
    have hm := hm t ht
    refine c.sat_putBack k ?_
    cases t with
    | attach ph x => exact c.attachTask _ _ _ hm h1
    | detach st => exact c.detachTask _ _ h1
    | poll p => exact c.pollTask _ _ h1
    | reclaim p => exact c.reclaimTask _ _ h1
    | irq d n qs st => exact c.irqTask _ _ _ _ _ h1
    | reconfig r st => exact c.reconfigTask _ _ _ hm h1

/-- A `POLL_RX` that is abandoned keeps `P`. -/
theorem abandon (k : Nat) (s : State) (h : P s) : Sat P (Machine.abandon k s) := by
  unfold Machine.abandon
  split
  · exact c.pollReturn _ _ (c.setTasks _ _ h)
  · exact h

/-- What the environment does keeps `P`. -/
theorem receive (s : State) (q : Chan) (f : StreamFrame) (h : P s) : P (s.receive q f) := by
  unfold State.receive
  split
  · exact c.setRxe _ _ _ h
  · exact h

theorem poke (s : State) (a : Word) (bs : List Byte) (h : P s) : P (s.poke a bs) := by
  unfold State.poke
  split
  · exact c.putBytes _ _ _ h
  · exact h

/-- Every operation that moves no ring's state keeps `P`. -/
theorem exec (i : Instr) (s : State) (hi : movesState i = false) (h : P s) : Sat P (Machine.exec i s) := by
  cases i with
  | attach x =>
    show Sat P (execAttach x s)
    refine withControl ?_
    split
    · trivial
    · split
      · exact c.answer _ _ _ h
      · exact c.addTask _ _ h
  | detach => cases hi
  | allocate d q n =>
    refine c.withFreeRing h fun r => ?_
    have ha := c.allocate s r n h
    split <;> first
      | trivial
      | exact c.answer _ _ _ h
      | (next hs => rw [hs] at ha; exact c.answer _ _ _ ha)
  | resetRing d q => exact c.withPool h fun r => c.resetRing _ _ h
  | armRx q => exact c.withPool h fun r => c.armRx _ _ h
  | freeRing d q =>
    refine c.withPool h fun r => ?_
    split
    · trivial
    · exact c.freeRing _ _ h
  | submitTx q f =>
    refine sat_withContext (sat_withRing fun r hr => ?_)
    obtain ⟨d, k⟩ := r
    subst hr
    split
    · exact c.answer _ _ _ h
    · split
      · trivial
      · next ho => exact c.answer _ _ _ (c.submitted _ _ _ _ (c.offload _ _ _ _ _ ho h))
  | pollRx q n =>
    exact sat_withContext (sat_withRing fun r _ => c.withBody _ _ _ h (c.sat_begin (c.pollTask _ _ h)))
  | reclaimTx q =>
    exact sat_withContext (sat_withRing fun r _ => c.withBody _ _ _ h (c.sat_begin (c.reclaimTask _ _ h)))
  | offloadTx q f =>
    refine sat_withContext (sat_withRing fun r _ => ?_)
    split
    · exact c.answer _ _ _ h
    · split
      · trivial
      · next ho => exact c.answer _ _ _ (c.offload _ _ _ _ _ ho h)
  | offloadRx q j =>
    refine sat_withContext (sat_withRing fun r _ => ?_)
    split
    · exact c.answer _ _ _ h
    · split
      · trivial
      · split
        · exact c.answer _ _ _ h
        · trivial
  | configureWeight n w =>
    refine withControl (sat_withContext ?_)
    split
    · exact c.answer _ _ _ h
    · split
      · exact c.answer _ _ _ h
      · split
        · exact c.answer _ _ _ h
        · split
          · exact c.answer _ _ _ h
          · exact c.answer _ _ _ (c.regWrite _ _ _ h)
  | enableChannel n ds =>
    refine withControl (sat_withContext ?_)
    split
    · exact c.answer _ _ _ h
    · split
      · exact c.answer _ _ _ h
      · split
        · exact c.answer _ _ _ h
        · exact c.answer _ _ _ (c.enableDirs _ _ _ h)
  | disableChannel n ds =>
    refine withControl (sat_withContext ?_)
    split
    · exact c.answer _ _ _ h
    · exact c.answer _ _ _ (c.disableDirs _ _ _ h)
  | irqService d n =>
    show Sat P (execIrqService d n s)
    unfold execIrqService
    split
    · exact h
    · split
      · trivial
      · exact c.addTask _ _ (c.setIrq _ _ _ h)
  | recoverBegin d q => cases hi
  | recoverPoll d q => cases hi
  | recoverDrain d q => cases hi
  | recoverReconfig d q =>
    refine withRState fun r => ?_
    split
    · trivial
    · split
      · trivial
      · exact c.addTask _ _ (c.rebuild _ _ h)
  | linkNotify up => exact withControl (sat_withContext (c.setLink _ _ h))
  | statsSnapshot => exact withControl (sat_withContext (c.answer _ _ _ h))
  | regRead off => exact c.atOff _ _ _ h
  | regWrite off v => exact c.atOff _ _ _ h
  | eTxDesc q =>
    refine sat_withRing fun r _ => ?_
    split
    · exact c.processNext _ _ h
    · exact h
  | eRxDesc q =>
    refine sat_withRing fun r _ => ?_
    split
    · exact c.processNext _ _ h
    · exact h
  | eArbGrant =>
    show Sat P (execEArbGrant s)
    unfold execEArbGrant
    split
    · split
      · next hp =>
        refine c.grantTo _ _ ?_ (c.reload _ h)
        have := List.find?_some hp
        exact (State.creditLeft_pos.1 (of_decide_eq_true (Bool.and_eq_true_iff.1 this).2)).2
      · exact h
    · exact h
  | eDelayTimeout d q =>
    refine sat_withRing fun r _ => ?_
    split
    · exact c.raise _ _ _ (c.delay _ _ h)
    · exact h
  | eFault d q x =>
    refine sat_withRing fun r _ => ?_
    split
    · exact c.engineFault _ _ _ h
    · exact h
  | eResetDone d q =>
    refine sat_withRing fun r _ => ?_
    split
    · refine c.releaseGrant _ _ ?_
      unfold State.resetEngine
      split
      · exact c.setTxe _ _ _ (c.resetDone _ _ h)
      · exact c.setRxe _ _ _ (c.resetDone _ _ h)
    · exact h
  | eStopDone d q =>
    refine sat_withRing fun r _ => ?_
    split
    · exact c.releaseGrant _ _ (c.dropFrame _ _ (c.stopDone _ _ h))
    · exact h
  | crSq d t => exact c.sqReg _ _ _ h
  | srSq d t => exact c.sqReg _ _ _ h
  | curdescSq d t => exact c.sqReg _ _ _ h
  | taildescSq d t => exact c.sqReg _ _ _ h
  | isrSq d t => exact c.sqReg _ _ _ h
  | ierSq d t => exact c.sqReg _ _ _ h
  | icrSq d t => exact c.sqReg _ _ _ h
  | tsfCntSq t => exact c.sqReg _ _ _ h
  | tsfTagSq t => exact c.sqReg _ _ _ h
  | tsfLoSq t => exact c.sqReg _ _ _ h
  | tsfHiSq t => exact c.sqReg _ _ _ h
  | crMc d q t => exact c.chanReg _ _ _ _ _ h
  | srMc d q t => exact c.chanReg _ _ _ _ _ h
  | curdescMc d q t => exact c.chanReg _ _ _ _ _ h
  | taildescMc d q t => exact c.chanReg _ _ _ _ _ h
  | isrMc d q t => exact c.chanReg _ _ _ _ _ h
  | ierMc d q t => exact c.chanReg _ _ _ _ _ h
  | icrMc d q t => exact c.chanReg _ _ _ _ _ h
  | tsfCntMc q t => exact c.chanReg _ _ _ _ _ h
  | tsfTagMc q t => exact c.chanReg _ _ _ _ _ h
  | tsfLoMc q t => exact c.chanReg _ _ _ _ _ h
  | tsfHiMc q t => exact c.chanReg _ _ _ _ _ h
  | chen d t => exact c.mcReg _ _ _ h
  | chIer d t => exact c.mcReg _ _ _ h
  | chIsr d t => exact c.mcReg _ _ _ h
  | chIcr d t => exact c.mcReg _ _ _ h
  | weight0 t => exact c.mcReg _ _ _ h
  | weight1 t => exact c.mcReg _ _ _ h
  | reservedOffset off t => exact c.atOff _ _ _ h
  | descriptorSq d q w => exact c.engineDesc _ _ _ _ _ h
  | descriptorMc d q w => exact c.engineDesc _ _ _ _ _ h
  | descNext d q j v => exact c.putWordRow _ _ _ _ _ _ h
  | descBuf d q j v => exact c.putWordRow _ _ _ _ _ _ h
  | descCtrlSq d q j v => exact c.putCtrl _ _ _ _ _ _ h
  | descCtrlMc d q j v => exact c.putCtrl _ _ _ _ _ _ h
  | descStatus d q j v => exact c.putWordRow _ _ _ _ _ _ h
  | descApp0Tx q j v => exact c.putWordRow _ _ _ _ _ _ h
  | descApp1Tx q j v => exact c.putWordRow _ _ _ _ _ _ h
  | descApp2Tx q j v => exact c.putWordRow _ _ _ _ _ _ h
  | descApp3Tx q j v => exact c.putWordRow _ _ _ _ _ _ h
  | descApp4Tx q j v => exact c.putWordRow _ _ _ _ _ _ h
  | descApp0Rx q j v => exact c.putWordRow _ _ _ _ _ _ h
  | descApp1Rx q j v => exact c.putWordRow _ _ _ _ _ _ h
  | descApp2Rx q j v => exact c.putWordRow _ _ _ _ _ _ h
  | descApp3Rx q j v => exact c.putWordRow _ _ _ _ _ _ h
  | descApp4Rx q j v => exact c.putWordRow _ _ _ _ _ _ h
  | descSwFrame d q j v => exact c.putWordRow _ _ _ _ _ _ h
  | descSwMap d q j v => exact c.putWordRow _ _ _ _ _ _ h
  | descSwTag d q j v => exact c.putWordRow _ _ _ _ _ _ h

end Kept

namespace Closed

variable {P : State → Prop} (c : Closed P)
include c

theorem reenable (s : State) (r : RingId) (h : P s) : P (s.reenable r) := by
  unfold State.reenable
  dsimp only
  refine c.become _ _ _ ?_
  split
  · exact c.enableRing _ _ h
  · exact c.ringRx _ _ (c.enableRing _ _ h)

theorem reconfigTask (r : RingId) (st : ReconfigStage) (s : State) (h : P s) :
    TaskSat P (Machine.reconfigTask r st s) := by
  cases hm : movesTask (.reconfig r st) with
  | false => exact c.toKept.reconfigTask _ _ _ hm h
  | true =>
    cases st with
    | enable =>
      unfold Machine.reconfigTask
      split
      · trivial
      · dsimp only
        split
        · trivial
        · exact c.reenable _ _ h
    | _ => cases hm

theorem pollFailed (s : State) (r : RingId) (h : P s) : P (s.pollFailed r) := by
  unfold State.pollFailed
  dsimp only
  split
  · refine c.emit _ _ ?_
    have h3 := c.cause _ r .resetTimeout (c.become _ r .fatal (c.polls s r ((s.ring r).retries + 1) h))
    simpa only [setRing_setRing, State.setRing_ring, if_true] using h3
  · exact c.polls _ _ _ h

theorem attachPresent (s : State) (h : P s) : P s.attachPresent :=
  Kept.foldl (fun s r hs => c.become s r _ hs) _ _ (c.setCtx _ _ h)

theorem attachTask (ph : AttachPhase) (x : Config) (s : State) (h : P s) : TaskSat P (Machine.attachTask ph x s) := by
  cases hm : movesTask (.attach ph x) with
  | false => exact c.toKept.attachTask _ _ _ hm h
  | true =>
    cases ph with
    | present =>
      unfold Machine.attachTask
      dsimp only
      split
      · trivial
      · exact c.attachPresent _ h
    | _ => cases hm

theorem quiesce (s : State) (h : P s) : P s.quiesce :=
  Kept.foldl (fun s r hs => by
    have := c.pending _ r false (c.become s r .fatal hs)
    simpa only [setRing_setRing, State.setRing_ring, if_true] using this) _ _ h

/-- Every step of a command in progress keeps `P`. -/
theorem resume (k : Nat) (s : State) (h : P s) : Sat P (resume k s) := by
  unfold Machine.resume
  split
  · exact h
  · next t ht =>
    have h1 := c.setTasks s (s.tasks.eraseIdx k) h
    refine c.sat_putBack k ?_
    cases t with
    | attach ph x => exact c.attachTask _ _ _ h1
    | detach st => exact c.detachTask _ _ h1
    | poll p => exact c.pollTask _ _ h1
    | reclaim p => exact c.reclaimTask _ _ h1
    | irq d n qs st => exact c.irqTask _ _ _ _ _ h1
    | reconfig r st => exact c.reconfigTask _ _ _ h1

/-- Every operation keeps `P`. -/
theorem exec (i : Instr) (s : State) (h : P s) : Sat P (Machine.exec i s) := by
  cases hi : movesState i with
  | false => exact c.toKept.exec i s hi h
  | true =>
    cases i with
    | detach =>
      refine Kept.withControl (sat_withContext ?_)
      split
      · trivial
      · exact c.addTask _ _ (c.quiesce _ h)
    | recoverBegin d q =>
      refine Kept.withRState fun r => ?_
      split
      · trivial
      · split
        · trivial
        · split
          · trivial
          · refine c.regWrite _ _ _ ?_
            have h3 := c.polls _ r 0 (c.pending _ r false (c.become s r .halting h))
            simpa only [setRing_setRing, State.setRing_ring, if_true] using h3
    | recoverPoll d q =>
      refine Kept.withRState fun r => ?_
      split
      · exact c.become _ _ _ h
      · exact c.pollFailed _ _ h
    | recoverDrain d q => exact Kept.withRState fun r => c.become _ _ _ (c.drain _ _ h)
    | _ => cases hi

/-- Every step keeps `P`. -/
theorem step (s t : State) (h : P s) (hs : Steps s t) : P t := by
  have key : Sat P (Machine.step s) := by
    unfold Machine.step
    split
    · exact h
    · split
      · exact c.exec _ _ (c.setSched _ _ h)
      · trivial
    · exact c.resume _ _ (c.setSched _ _ h)
    · exact c.abandon _ _ (c.setSched _ _ h)
    · exact c.receive _ _ _ (c.setSched _ _ h)
    · exact c.poke _ _ _ (c.setSched _ _ h)
  rw [show Machine.step s = .next t from hs] at key
  exact key

end Closed

end Sys2Proof.Machine
end

