-- ==== Sys2Proof/Laws/Decode.lean ====
section
/-! SUPPORT. Laws of the byte readers and writers, and of the register map. -/

namespace Sys2Proof

/-! ### What a reader can give -/

theorem takeLE_lt (n : Nat) (b : List Byte) (v : Nat) (rest : List Byte) (h : takeLE n b = some (v, rest)) : v <
    256 ^ n := by
  induction n generalizing b v rest with
  | zero => simp [takeLE] at h; simp [← h.1]
  | succ n ih =>
    cases b with
    | nil => simp [takeLE] at h
    | cons x b =>
      simp only [takeLE] at h
      split at h
      · cases h
      · next v' r' hv =>
        have := ih _ _ _ hv
        simp only [Option.some.injEq, Prod.mk.injEq] at h
        have hx := x.isLt
        rw [Nat.pow_succ]
        omega

theorem rdNat_ok {n : Nat} {b : List Byte} {k : Nat → List Byte → Decoded} {i : Instr} (h : rdNat n b k = .ok i) :
   ∃ v rest, v < 256 ^ n ∧ k v rest = .ok i := by
  unfold rdNat at h
  split at h
  · cases h
  · next v rest hv => exact ⟨v, rest, takeLE_lt _ _ _ _ hv, h⟩

theorem rdWord_ok {b : List Byte} {k : Word → List Byte → Decoded} {i : Instr} (h : rdWord b k = .ok i) :
   ∃ v rest, k v rest = .ok i := by
  obtain ⟨v, rest, _, h⟩ := rdNat_ok h
  exact ⟨_, _, h⟩

theorem rdHalf_ok {b : List Byte} {k : BitVec 16 → List Byte → Decoded} {i : Instr} (h : rdHalf b k = .ok i) :
   ∃ v rest, k v rest = .ok i := by
  obtain ⟨v, rest, _, h⟩ := rdNat_ok h
  exact ⟨_, _, h⟩

theorem rdEnum_ok {α : Type} {xs : List α} {b : List Byte} {k : α → List Byte → Decoded} {i : Instr} (h : rdEnum xs
    b k = .ok i) :
   ∃ v rest, k v rest = .ok i := by
  obtain ⟨v, rest, _, h⟩ := rdNat_ok h
  split at h
  · cases h
  · exact ⟨_, _, h⟩

theorem rdMany_ok {α : Type} {item : List Byte → (α → List Byte → Decoded) → Decoded} {P : α → Prop}
   (hitem : ∀ b k i, item b k = .ok i → ∃ x rest, P x ∧ k x rest = .ok i) (n : Nat) (b : List Byte) (k : List α →
    List Byte → Decoded) (i : Instr)
   (h : rdMany item n b k = .ok i) : ∃ xs rest, xs.length = n ∧ (∀ x ∈ xs, P x) ∧ k xs rest = .ok i := by
  induction n generalizing b k with
  | zero => exact ⟨[], b, rfl, by simp, h⟩
  | succ n ih =>
    obtain ⟨x, rest, hx, h⟩ := hitem _ _ _ h
    obtain ⟨xs, rest', hl, hxs, h⟩ := ih _ _ h
    exact ⟨x :: xs, rest', by simp [hl], by simpa using ⟨hx, hxs⟩, h⟩

theorem rdRing_ok {b : List Byte} {k : Dir → Nat → List Byte → Decoded} {i : Instr} (h : rdRing b k = .ok i) :
   ∃ d q rest, q < 256 ∧ k d q rest = .ok i := by
  obtain ⟨d, rest, h⟩ := rdEnum_ok h
  obtain ⟨q, rest, hq, h⟩ := rdNat_ok h
  exact ⟨d, q, rest, by simpa using hq, h⟩

theorem rdSlot_ok {b : List Byte} {k : Nat → Nat → List Byte → Decoded} {i : Instr} (h : rdSlot b k = .ok i) :
   ∃ q j rest, slotWf q j = true ∧ k q j rest = .ok i := by
  obtain ⟨q, rest, hq, h⟩ := rdNat_ok h
  obtain ⟨j, rest, hj, h⟩ := rdNat_ok h
  exact ⟨q, j, rest, by simp [slotWf]; omega, h⟩

theorem rdFrag_ok (b : List Byte) (k : Frag → List Byte → Decoded) (i : Instr) (h : rdFrag b k = .ok i) :
   ∃ f rest, f.len < 2 ^ 32 ∧ k f rest = .ok i := by
  obtain ⟨a, rest, h⟩ := rdWord_ok h
  obtain ⟨l, rest, hl, h⟩ := rdNat_ok h
  obtain ⟨kd, rest, h⟩ := rdEnum_ok h
  exact ⟨_, _, by simpa using hl, h⟩

theorem rdFrame_ok {b : List Byte} {k : Frame → List Byte → Decoded} {i : Instr} (h : rdFrame b k = .ok i) :
   ∃ f rest, f.wf = true ∧ k f rest = .ok i := by
  obtain ⟨hd, rest, h⟩ := rdWord_ok h
  obtain ⟨n, rest, hn, h⟩ := rdNat_ok h
  obtain ⟨fs, rest, hl, hfs, h⟩ := rdMany_ok (P := fun f => f.len < 2 ^ 32) (fun b k i h => rdFrag_ok b k i h) _ _
    _ _ h
  obtain ⟨_, rest, h⟩ := rdEnum_ok h
  obtain ⟨_, rest, h⟩ := rdHalf_ok h
  obtain ⟨_, rest, h⟩ := rdHalf_ok h
  obtain ⟨_, rest, h⟩ := rdWord_ok h
  obtain ⟨_, rest, h⟩ := rdEnum_ok h
  refine ⟨_, _, ?_, h⟩
  simp only [Frame.wf, Bool.and_eq_true, decide_eq_true_eq, List.all_eq_true]
  exact ⟨by omega, hfs⟩

theorem rdRingCfg_ok (b : List Byte) (k : RingCfg → List Byte → Decoded) (i : Instr) (h : rdRingCfg b k = .ok i) :
   ∃ f rest, f.wf = true ∧ k f rest = .ok i := by
  obtain ⟨a, rest, ha, h⟩ := rdNat_ok h
  obtain ⟨l, rest, hl, h⟩ := rdNat_ok h
  obtain ⟨kd, rest, hk, h⟩ := rdNat_ok h
  refine ⟨_, _, ?_, h⟩
  simp [RingCfg.wf]; omega

theorem rdOptNat_ok {b : List Byte} {k : Option Nat → List Byte → Decoded} {i : Instr} (h : rdOptNat b k = .ok i) :
   ∃ o rest, o.getD 0 < 2 ^ 32 ∧ k o rest = .ok i := by
  obtain ⟨on, rest, h⟩ := rdEnum_ok h
  obtain ⟨v, rest, hv, h⟩ := rdNat_ok h
  refine ⟨_, _, ?_, h⟩
  split
  · simpa using hv
  · decide

theorem rdConfig_ok {b : List Byte} {k : Config → List Byte → Decoded} {i : Instr} (h : rdConfig b k = .ok i) :
   ∃ c rest, c.wf = true ∧ k c rest = .ok i := by
  obtain ⟨_, rest, h⟩ := rdEnum_ok h
  obtain ⟨nq, rest, h1, h⟩ := rdNat_ok h
  obtain ⟨n, rest, h2, h⟩ := rdNat_ok h
  obtain ⟨tx, rest, h3, h4, h⟩ := rdMany_ok (P := fun f => f.wf = true) rdRingCfg_ok _ _ _ _ h
  obtain ⟨n, rest, h5, h⟩ := rdNat_ok h
  obtain ⟨rx, rest, h6, h7, h⟩ := rdMany_ok (P := fun f => f.wf = true) rdRingCfg_ok _ _ _ _ h
  obtain ⟨mf, rest, h8, h⟩ := rdNat_ok h
  obtain ⟨rb, rest, h9, h⟩ := rdNat_ok h
  obtain ⟨w, rest, h10, h⟩ := rdOptNat_ok h
  obtain ⟨n, rest, h11, h⟩ := rdNat_ok h
  obtain ⟨iw, rest, h12, h13, h⟩ := rdMany_ok (P := fun f => f < 256 ^ 4) (fun b k i h => rdNat_ok h) _ _ _ _ h
  obtain ⟨rr, rest, h14, h⟩ := rdNat_ok h
  obtain ⟨_, rest, h⟩ := rdEnum_ok h
  obtain ⟨_, rest, h⟩ := rdEnum_ok h
  obtain ⟨_, rest, h⟩ := rdEnum_ok h
  obtain ⟨_, rest, h⟩ := rdEnum_ok h
  obtain ⟨_, rest, h⟩ := rdWord_ok h
  refine ⟨_, _, ?_, h⟩
  simp only [Config.wf, Bool.and_eq_true, List.all_append, List.all_eq_true.2 h4, List.all_eq_true.2 h7]
  simp
  exact ⟨⟨⟨h1, by omega, by omega, by omega⟩, h8, h9, h10, h14⟩, fun x hx => h13 x hx⟩

theorem rdApp_ok {b : List Byte} {k : App → List Byte → Decoded} {i : Instr} (h : rdApp b k = .ok i) :
   ∃ c rest, k c rest = .ok i := by
  obtain ⟨_, rest, h⟩ := rdWord_ok h
  obtain ⟨_, rest, h⟩ := rdWord_ok h
  obtain ⟨_, rest, h⟩ := rdWord_ok h
  obtain ⟨_, rest, h⟩ := rdWord_ok h
  obtain ⟨_, rest, h⟩ := rdWord_ok h
  exact ⟨_, _, h⟩

theorem checkWord_ok {ok : Bool} {i j : Instr} (h : checkWord ok i = .ok j) : i = j ∧ ok = true := by
  cases ok
  · cases h
  · cases h; exact ⟨rfl, rfl⟩

theorem checkReserved_ok {w m : Word} {i j : Instr} (h : checkReserved w m i = .ok j) : i = j ∧ (w &&& m == 0) =
    true := checkWord_ok h

/-! ### Reading back what was written -/

theorem takeLE_putLE (n v : Nat) (b : List Byte) (h : v < 256 ^ n) : takeLE n (putLE n v ++ b) = some (v, b) := by
  induction n generalizing v with
  | zero => simp at h; simp [takeLE, putLE, h]
  | succ n ih =>
    have h' : v / 256 < 256 ^ n := by rw [Nat.pow_succ] at h; omega
    simp only [putLE, List.cons_append, takeLE, ih _ h', BitVec.toNat_ofNat]
    congr 2
    omega

theorem rdNat_put (n v : Nat) (b : List Byte) (k : Nat → List Byte → Decoded) (h : v < 256 ^ n) :
    rdNat n (putLE n v ++ b) k = k v b := by
  simp [rdNat, takeLE_putLE n v b h]

theorem rdWord_wr (w : Word) (b : List Byte) (k : Word → List Byte → Decoded) : rdWord (wrWord w ++ b) k = k w b := by
  unfold rdWord wrWord
  rw [rdNat_put _ _ _ _ (by have := w.isLt; omega)]
  simp

theorem rdHalf_wr (w : BitVec 16) (b : List Byte) (k : BitVec 16 → List Byte → Decoded) :
    rdHalf (wrHalf w ++ b) k = k w b := by
  unfold rdHalf wrHalf
  rw [rdNat_put _ _ _ _ (by have := w.isLt; omega)]
  simp

theorem rdEnum_wr {α : Type} [DecidableEq α] (xs : List α) (x : α) (b : List Byte) (k : α → List Byte → Decoded)
    (hx : x ∈ xs) (hl : xs.length ≤ 256) : rdEnum xs (wrEnum xs x ++ b) k = k x b := by
  have h : xs.idxOf x < xs.length := List.idxOf_lt_length_iff.2 hx
  unfold rdEnum wrEnum
  rw [rdNat_put _ _ _ _ (by omega)]
  simp [h]

theorem rdMany_wr {α : Type} {item : List Byte → (α → List Byte → Decoded) → Decoded} (wr : α → List Byte)
    (P : α → Prop) (hi : ∀ x b k, P x → item (wr x ++ b) k = k x b) (xs : List α) (b : List Byte)
    (k : List α → List Byte → Decoded) (hx : ∀ x ∈ xs, P x) :
    rdMany item xs.length ((xs.map wr).flatten ++ b) k = k xs b := by
  induction xs generalizing b k with
  | nil => rfl
  | cons x xs ih =>
    simp only [List.length_cons, List.map_cons, List.flatten_cons, List.append_assoc, rdMany]
    rw [hi _ _ _ (hx x (by simp)), ih _ _ fun y hy => hx y (by simp [hy])]

theorem rdApp_wr (a : App) (b : List Byte) (k : App → List Byte → Decoded) : rdApp (wrApp a ++ b) k = k a b := by
  simp only [rdApp, wrApp, List.append_assoc, rdWord_wr]

theorem rdRing_wr (d : Dir) (q : Nat) (b : List Byte) (k : Dir → Nat → List Byte → Decoded) (h : q < 256) :
    rdRing (wrRing d q ++ b) k = k d q b := by
  simp only [rdRing, wrRing, List.append_assoc]
  rw [rdEnum_wr _ _ _ _ (by cases d <;> decide) (by decide), rdNat_put _ _ _ _ (by omega)]

theorem rdSlot_wr (q i : Nat) (b : List Byte) (k : Nat → Nat → List Byte → Decoded) (h : slotWf q i = true) :
    rdSlot (wrSlot q i ++ b) k = k q i b := by
  simp only [slotWf, Bool.and_eq_true, decide_eq_true_eq] at h
  simp only [rdSlot, wrSlot, List.append_assoc]
  rw [rdNat_put _ _ _ _ (by omega), rdNat_put _ _ _ _ (by omega)]

theorem rdFrag_wr (f : Frag) (b : List Byte) (k : Frag → List Byte → Decoded) (h : f.len < 2 ^ 32) :
    rdFrag (wrFrag f ++ b) k = k f b := by
  simp only [rdFrag, wrFrag, List.append_assoc, rdWord_wr]
  rw [rdNat_put _ _ _ _ (by omega), rdEnum_wr _ _ _ _ (by cases f.kind <;> decide) (by decide)]

theorem mem_boolList (x : Bool) : x ∈ boolList := by cases x <;> decide

theorem rdFrame_wr (f : Frame) (b : List Byte) (k : Frame → List Byte → Decoded) (h : f.wf = true) :
    rdFrame (wrFrame f ++ b) k = k f b := by
  simp only [Frame.wf, Bool.and_eq_true, decide_eq_true_eq, List.all_eq_true] at h
  simp only [rdFrame, wrFrame, List.append_assoc, rdWord_wr]
  rw [rdNat_put _ _ _ _ (by omega), rdMany_wr wrFrag (fun g => g.len < 2 ^ 32) (fun x b k hx => rdFrag_wr x b k hx)
    _ _ _ h.2]
  rw [rdEnum_wr _ _ _ _ (mem_boolList _) (by decide)]
  simp only [rdHalf_wr, rdWord_wr]
  rw [rdEnum_wr _ _ _ _ (mem_boolList _) (by decide)]

theorem rdRingCfg_wr (f : RingCfg) (b : List Byte) (k : RingCfg → List Byte → Decoded) (h : f.wf = true) :
    rdRingCfg (wrRingCfg f ++ b) k = k f b := by
  simp only [RingCfg.wf, Bool.and_eq_true, decide_eq_true_eq] at h
  simp only [rdRingCfg, wrRingCfg, List.append_assoc]
  rw [rdNat_put _ _ _ _ (by omega), rdNat_put _ _ _ _ (by omega), rdNat_put _ _ _ _ (by omega)]

theorem rdOptNat_wr (o : Option Nat) (b : List Byte) (k : Option Nat → List Byte → Decoded) (h : o.getD 0 < 2 ^ 32) :
    rdOptNat (wrOptNat o ++ b) k = k o b := by
  simp only [rdOptNat, wrOptNat, List.append_assoc]
  rw [rdEnum_wr _ _ _ _ (mem_boolList _) (by decide), rdNat_put _ _ _ _ (by omega)]
  cases o <;> rfl

theorem rdConfig_wr (c : Config) (b : List Byte) (k : Config → List Byte → Decoded) (h : c.wf = true) :
    rdConfig (wrConfig c ++ b) k = k c b := by
  simp [Config.wf] at h
  obtain ⟨⟨⟨hb, hw⟩, h3, h5⟩, h10⟩ := h
  have h8 := hw.2.2.1
  simp only [rdConfig, wrConfig, List.append_assoc]
  rw [rdEnum_wr _ _ _ _ (by cases c.variant <;> decide) (by decide), rdNat_put _ _ _ _ (by omega),
    rdNat_put _ _ _ _ (by omega), rdMany_wr wrRingCfg (fun g => g.wf = true) (fun x b k hx => rdRingCfg_wr x b k
    hx) _ _ _ h3,
    rdNat_put _ _ _ _ (by omega), rdMany_wr wrRingCfg (fun g => g.wf = true) (fun x b k hx => rdRingCfg_wr x b k
    hx) _ _ _ h5,
    rdNat_put _ _ _ _ (by omega), rdNat_put _ _ _ _ (by omega), rdOptNat_wr _ _ _ h8, rdNat_put _ _ _ _ (by omega),
    rdMany_wr (putLE 4) (fun n => n < 2 ^ 32) (fun x b k hx => rdNat_put 4 x b k (by omega)) _ _ _ h10,
    rdNat_put _ _ _ _ (by omega), rdEnum_wr _ _ _ _ (by cases c.caps.txCsum <;> decide) (by decide),
    rdEnum_wr _ _ _ _ (by cases c.caps.rxCsum <;> decide) (by decide), rdEnum_wr _ _ _ _ (mem_boolList _) (by decide),
    rdEnum_wr _ _ _ _ (by cases c.mac <;> decide) (by decide), rdWord_wr]

theorem rdDescSq_wr (d : Desc) (b : List Byte) (k : Desc → List Byte → Decoded) : rdDescSq (wrDescSq d ++ b) k = k
    d b := by
  simp only [rdDescSq, wrDescSq, List.append_assoc, rdWord_wr, rdApp_wr]

theorem rdDescMc_wr (d : Desc) (b : List Byte) (k : Desc → List Byte → Decoded) : rdDescMc (wrDescMc d ++ b) k = k
    d b := by
  simp only [rdDescMc, wrDescMc, List.append_assoc, rdWord_wr, rdApp_wr]

/-! ### The register map -/

theorem offWf_iff (off : Nat) : offWf off = true ↔ off < 4096 ∧ off % 4 = 0 := by simp [offWf]

theorem ringReg_reserved (r : RingId) (o : Nat) (ho : o < 64) (h4 : o % 4 = 0) : ringReg r o = .reserved ↔
    reservedInRingBlock r.dir o = true := by
  rcases r with ⟨d, q⟩
  interval_cases o <;> first | (exfalso; revert h4; decide) | (cases d <;> simp [ringReg, reservedInRingBlock])

theorem bitmapReg_reserved (d : Dir) (o : Nat) (ho : o < 64) (h4 : o % 4 = 0) : bitmapReg d o = .reserved ↔
    reservedInBitmapBlock d o = true := by
  interval_cases o <;> first | (exfalso; revert h4; decide) | (cases d <;> simp [bitmapReg, reservedInBitmapBlock])

theorem decodeOff_reserved (v : Variant) (nq off : Nat) (h : offWf off = true) : decodeOff v nq off = .reserved ↔
    reservedOff v nq off = true := by
  rw [offWf_iff] at h
  have ho : off % 64 < 64 := Nat.mod_lt _ (by decide)
  have h4 : off % 64 % 4 = 0 := by omega
  cases v with
  | sq =>
    simp only [decodeOff, reservedOff]
    by_cases h1 : 0x80 ≤ off
    · simp [h1]
    · simp [h1, ringReg_reserved _ _ ho h4]
  | mc =>
    simp only [decodeOff, reservedOff]
    by_cases h1 : off % 2048 / 64 = 0
    · simp [h1, bitmapReg_reserved _ _ ho h4]
    · simp only [h1, if_false]
      by_cases h2 : off % 2048 / 64 - 1 < 16
      · simp only [h2, dif_pos]
        by_cases h3 : off % 2048 / 64 - 1 < nq
        · simp only [h3, if_true, ringReg_reserved _ _ ho h4]
          have : ¬ 17 ≤ off % 2048 / 64 := by omega
          have h5 : ¬ nq ≤ off % 2048 / 64 - 1 := by omega
          simp [this, h5]
        · simp only [h3, if_false]
          have h5 : nq ≤ off % 2048 / 64 - 1 := by omega
          simp [h5]
      · have : 17 ≤ off % 2048 / 64 := by omega
        simp [h2, this]

/-- A channel of a machine of variant `v` with `nq` channels. -/
def chanOk (v : Variant) (nq : Nat) (q : Chan) : Prop :=
  match v with
  | .sq => q = 0
  | .mc => q.val < nq

/-- A register that belongs to a machine of variant `v` with `nq` channels. -/
def regOk (v : Variant) (nq : Nat) (g : Reg) : Prop :=
  match g with
  | .cr r => chanOk v nq r.q
  | .sr r => chanOk v nq r.q
  | .curdesc r => chanOk v nq r.q
  | .taildesc r => chanOk v nq r.q
  | .isr r => chanOk v nq r.q
  | .ier r => chanOk v nq r.q
  | .icr r => chanOk v nq r.q
  | .tsfCnt q => chanOk v nq q
  | .tsfTag q => chanOk v nq q
  | .tsfLo q => chanOk v nq q
  | .tsfHi q => chanOk v nq q
  | .reserved => True
  | _ => v = .mc

theorem ringReg_ok (v : Variant) (nq : Nat) (r : RingId) (o : Nat) (h : chanOk v nq r.q) :
    regOk v nq (ringReg r o) := by
  unfold ringReg
  split <;> first | exact h | exact True.intro

theorem bitmapReg_ok (nq : Nat) (d : Dir) (o : Nat) : regOk .mc nq (bitmapReg d o) := by
  unfold bitmapReg
  split <;> first | exact rfl | exact True.intro

theorem decodeOff_ok (v : Variant) (nq off : Nat) : regOk v nq (decodeOff v nq off) := by
  unfold decodeOff
  cases v with
  | sq =>
    dsimp only
    split
    · trivial
    · exact ringReg_ok .sq nq _ _ rfl
  | mc =>
    dsimp only
    split
    · exact bitmapReg_ok _ _ _
    · split
      · split
        · next h => exact ringReg_ok .mc nq _ _ h
        · trivial
      · trivial

/-! ### Which reader an encoded operation reaches -/

theorem decode_encCommand (v : Variant) (nq id : Nat) (b : List Byte) : decode v nq (encCommand id b) = decodeCommand (putLE 1 id ++ (b ++ [])) := by
  simp [decode, encCommand]

theorem mem_dirList (d : Dir) : d ∈ dirList := by cases d <;> decide
theorem mem_dirsList (d : Dirs) : d ∈ dirsList := by cases d <;> decide
theorem mem_causeList (d : Cause) : d ∈ causeList := by cases d <;> decide

theorem decode_encRegister (v : Variant) (nq off : Nat) (t : Trans) (h : offWf off = true) :
   decode v nq (encRegister off t) = .ok (regInstr v off t (decodeOff v nq off)) := by
  have ho := (offWf_iff off).1 h
  have e : decode v nq (encRegister off t) = decodeRegister v nq (putLE 2 off ++ (wrTrans t ++ [])) := by
    simp [decode, encRegister]
  rw [e]
  unfold decodeRegister
  rw [rdNat_put _ _ _ _ (by omega)]
  rw [if_neg (by omega), if_neg (by omega)]
  cases t with
  | read => simp only [wrTrans]; rw [rdNat_put _ _ _ _ (by omega)]; rfl
  | write w => simp only [wrTrans, List.append_assoc]; rw [rdNat_put _ _ _ _ (by omega)]; exact rdWord_wr _ _ _

theorem decode_encDescWord (v : Variant) (nq p : Nat) (w : Word) (b : List Byte) (hp : p < 256) :
   decode v nq (encDescWord p w b) = decodeDescWord (wrWord w ++ (putLE 1 p ++ (b ++ []))) := by
  simp [decode, encDescWord]

theorem rbOff_mc (d : Dir) (c o : Nat) (hc : c < 16) (ho : o < 64) : rbOff .mc d c + o = (match d with | .tx => 0 | .rx => 2048) + 64 * (c + 1) + o := by
  cases d <;> simp [rbOff] <;> omega

theorem decodeOff_mc (nq : Nat) (d : Dir) (c o : Nat) (hc : c < 16) (hq : c < nq) (ho : o < 64) :
   decodeOff .mc nq (rbOff .mc d c + o) = ringReg ⟨d, ⟨c, hc⟩⟩ o := by
  have h2 : (rbOff .mc d c + o) % 2048 / 64 = c + 1 := by
    cases d <;> simp [rbOff] <;> omega
  have h3 : (rbOff .mc d c + o) % 64 = o := by
    cases d <;> simp [rbOff] <;> omega
  have h4 : (if rbOff .mc d c + o < 0x800 then Dir.tx else .rx) = d := by
    cases d
    · exact if_pos (by simp only [rbOff]; omega)
    · exact if_neg (by simp only [rbOff]; omega)
  simp only [decodeOff, h2, h3, h4]
  simp [hc, hq]

theorem offWf_mc (d : Dir) (c o : Nat) (hc : c < 16) (ho : o < 64) (h4 : o % 4 = 0) : offWf (rbOff .mc d c + o) = true := by
  rw [offWf_iff]; cases d <;> simp [rbOff] <;> omega

end Sys2Proof
end

