-- ==== Sys2Proof/Laws/Slots.lean ====
section
/-! SUPPORT. Descriptor words in memory: where they lie, that different ones do not overlap, what a store to one leaves of the
others, and loops over the slots of a ring. -/

namespace Sys2Proof.Machine

/-! ### Places -/

/-- `o` is the offset of a word of a descriptor. -/
abbrev wordOff (o : Nat) : Prop := o % 4 = 0 ∧ o < 64

theorem wordOff_status (v : Variant) : wordOff (statusOff v) := by cases v <;> decide

theorem wordOff_ctrl (v : Variant) : wordOff (ctrlOff v) := by cases v <;> decide

/-- What `State.HasPool` says, in numbers. -/
theorem State.HasPool.facts {s : State} {r : RingId} (h : s.HasPool r) :
    r.q.val < s.cfg.nq ∧ (s.ring r).present = true ∧ 2 ≤ (s.ring r).cap ∧ 64 * (s.ring r).cap ≤ 2 ^ 32 ∧
      (s.ring r).hwTail = (s.ring r).issue ∧ (r.dir = .rx → (s.ring r).completion = (s.ring r).issue) ∧
      (s.ring r).issue < (s.ring r).cap ∧ (s.ring r).completion < (s.ring r).cap := by
  obtain ⟨h1, h2, h3⟩ := h
  unfold cursorsLegal poolLegal at h3
  rw [h2] at h3
  refine ⟨h1, h2, ?_⟩
  cases hd : r.dir <;> simp [hd] at h3 <;> simp <;> omega

theorem State.RingFree.away {s : State} {r : RingId} (h : s.RingFree r) : s.away r = none := by
  unfold State.away
  split
  · next hc => rw [h.2.2 hc]; rfl
  · rfl

/-- A pool command alone, on a ring that nothing holds. -/
theorem exec_freeRing {s : State} {id : Nat} {r : RingId} {k : RingId → Res} (h : r.q.val < s.cfg.nq) (hf : s.RingFree r) :
    withFreeRing id r.dir r.q.val s k = k r := by
  unfold withFreeRing
  rw [withRing_dir r s _ h, withControl_off _ _ hf.1, hf.away]
  simp [hf.2.1]

/-- A pool command alone, on a halted ring with its pool. -/
theorem exec_pool {s : State} {id : Nat} {r : RingId} {k : RingId → Res} (h : s.HasPool r) (hf : s.RingFree r)
    (hh : halted (s.regs r) = true) : withPool id r.dir r.q.val s k = k r := by
  unfold withPool
  rw [exec_freeRing h.1 hf]
  simp [h.2.1, hh]

theorem memByte_memPutWord_out (m : Memory) (a b v : Word) (h : ¬within32 b a 4) :
    memByte (memPutWord m a v) b = memByte m b := by
  unfold within32 at h
  apply memByte_memPutWord_ne <;> bv_omega

theorem daddr_off (b : Word) (i o : Nat) : daddr b i + BitVec.ofNat 32 o = b + BitVec.ofNat 32 (64 * i + o) := by
  unfold daddr
  rw [BitVec.ofNat_add, BitVec.add_assoc]

theorem apart_offsets (b : Word) {x y : Nat} (hx : x + 4 ≤ 2 ^ 32) (hy : y + 4 ≤ 2 ^ 32) (h : x + 4 ≤ y ∨ y + 4 ≤ x) :
    apart (b + BitVec.ofNat 32 x) (b + BitVec.ofNat 32 y) := by
  have e : ∀ u v : Word, b + u - (b + v) = u - v := fun u v => by ring
  unfold apart
  rw [e, e]
  simp only [BitVec.toNat_sub, BitVec.toNat_ofNat]
  rw [Nat.mod_eq_of_lt (show x < 2 ^ 32 by omega), Nat.mod_eq_of_lt (show y < 2 ^ 32 by omega)]
  omega

/-- Words of descriptors of one pool at different places are apart. -/
theorem slot_apart (b : Word) {i j o p n : Nat} (hn : 64 * n ≤ 2 ^ 32) (hi : i < n) (hj : j < n) (ho : wordOff o)
    (hp : wordOff p) (h : i ≠ j ∨ o ≠ p) :
    apart (daddr b i + BitVec.ofNat 32 o) (daddr b j + BitVec.ofNat 32 p) := by
  obtain ⟨ho1, ho2⟩ := ho
  obtain ⟨hp1, hp2⟩ := hp
  rw [daddr_off, daddr_off]
  apply apart_offsets
  · omega
  · omega
  · rcases Nat.lt_trichotomy i j with h' | h' | h'
    · omega
    · subst h'
      rcases h with h | h
      · exact absurd rfl h
      · omega
    · omega

/-! ### Reads after stores -/

@[simp] theorem State.putD_slotAddr (s : State) (r : RingId) (i off : Nat) (v : Word) (t : RingId) (j p : Nat) :
    (s.putD r i off v).slotAddr t j p = s.slotAddr t j p := by simp [State.slotAddr]

theorem State.getD_putD_self (s : State) (r : RingId) (i o : Nat) (v : Word) : (s.putD r i o v).getD r i o = v := by
  unfold State.getD
  rw [State.putD_slotAddr]
  exact memWord_memPutWord_self _ _ _

/-- A store to another word of the pool leaves a word as it is. -/
theorem State.getD_putD_ne (s : State) (r : RingId) {i j o p : Nat} (v : Word) (hn : 64 * (s.ring r).cap ≤ 2 ^ 32)
    (hi : i < (s.ring r).cap) (hj : j < (s.ring r).cap) (ho : wordOff o) (hp : wordOff p) (h : i ≠ j ∨ o ≠ p) :
    (s.putD r i o v).getD r j p = s.getD r j p := by
  unfold State.getD
  rw [State.putD_slotAddr]
  exact memWord_memPutWord_apart _ _ _ _ (slot_apart _ hn hi hj ho hp h)

/-- A descriptor word after a store to a word of the same pool. -/
theorem State.getD_putD (s : State) (r : RingId) (i j o p : Nat) (v : Word) (hn : 64 * (s.ring r).cap ≤ 2 ^ 32)
    (hi : i < (s.ring r).cap) (hj : j < (s.ring r).cap) (ho : wordOff o) (hp : wordOff p) :
    (s.putD r i o v).getD r j p = if i = j ∧ o = p then v else s.getD r j p := by
  by_cases h : i = j ∧ o = p
  · obtain ⟨rfl, rfl⟩ := h
    simp [State.getD_putD_self]
  · rw [if_neg h]
    exact State.getD_putD_ne s r v hn hi hj ho hp (by omega)

/-- A store to a descriptor word leaves every byte outside the word as it is. -/
theorem State.memByte_putD (s : State) (r : RingId) (i o : Nat) (v a : Word) (h : ¬s.inWord r i o a) :
    memByte (s.putD r i o v).mem a = memByte s.mem a := memByte_memPutWord_out _ _ _ _ h

/-- A byte after a run of bytes is written: a written one, or as before. -/
theorem memByte_memPutBytes (bs : List Byte) (m : Memory) (a x : Word) (hl : bs.length ≤ 2 ^ 32) :
    memByte (memPutBytes m a bs) x = (bs[(x - a).toNat]?).getD (memByte m x) := by
  induction bs generalizing m a with
  | nil => simp [memPutBytes]
  | cons b bs ih =>
    simp only [List.length_cons] at hl
    simp only [memPutBytes]
    rw [ih _ _ (by omega), memByte_memPutByte]
    by_cases h : x = a
    · subst h
      have h1 : (x - (x + 1)).toNat = 2 ^ 32 - 1 := by
        have : x - (x + 1) = -1 := by ring
        rw [this]
        rfl
      rw [h1, List.getElem?_eq_none (by omega)]
      simp
    · have h1 : (x - a).toNat = (x - (a + 1)).toNat + 1 := by bv_omega
      rw [h1]
      simp [h]

/-- The bytes read back where they were written. -/
theorem memBytes_eq (m : Memory) (a : Word) (n k : Nat) (hk : k < n) :
    (memBytes m a n)[k]? = some (memByte m (a + BitVec.ofNat 32 k)) := by
  induction n generalizing a k with
  | zero => omega
  | succ n ih =>
    cases k with
    | zero => simp [memBytes]
    | succ k =>
      simp only [memBytes, List.getElem?_cons_succ]
      rw [ih _ _ (by omega)]
      congr 2
      rw [BitVec.add_assoc]
      congr 1
      rw [show (1 : Word) = BitVec.ofNat 32 1 from rfl, ← BitVec.ofNat_add, Nat.add_comm]

@[simp] theorem memBytes_length (m : Memory) (a : Word) (n : Nat) : (memBytes m a n).length = n := by
  induction n generalizing a with
  | zero => rfl
  | succ n ih => simp [memBytes, ih]

/-- A word outside of which nothing was written reads as before. -/
theorem memWord_congr {m n : Memory} {a : Word} (h : ∀ b, within32 b a 4 → memByte m b = memByte n b) :
    memWord m a = memWord n a := by
  unfold memWord
  rw [h a (by unfold within32; bv_omega), h (a + 1) (by unfold within32; bv_omega),
    h (a + 2) (by unfold within32; bv_omega), h (a + 3) (by unfold within32; bv_omega)]

/-- Bytes of equal words are equal. -/
theorem memByte_of_memWord {m n : Memory} {a b : Word} (h : memWord m a = memWord n a) (hb : within32 b a 4) :
    memByte m b = memByte n b := by
  have key : ∀ k, k < 4 → memByte m (a + BitVec.ofNat 32 k) = memByte n (a + BitVec.ofNat 32 k) := by
    intro k hk
    have e : ∀ x : Memory, memByte x (a + BitVec.ofNat 32 k) = (memWord x a).extractLsb' (8 * k) 8 := by
      intro x
      apply BitVec.eq_of_getLsbD_eq
      intro i hi
      rw [BitVec.getLsbD_extractLsb']
      unfold memWord
      simp only [BitVec.getLsbD_append]
      have : k = 0 ∨ k = 1 ∨ k = 2 ∨ k = 3 := by omega
      rcases this with rfl | rfl | rfl | rfl
      · simp [hi]
      · rw [if_neg (by omega), if_pos (by omega), show 8 * 1 + i - 8 = i by omega]
        simp [hi]
      · rw [if_neg (by omega), if_neg (by omega), if_pos (by omega), show 8 * 2 + i - 8 - 8 = i by omega]
        simp [hi]
      · rw [if_neg (by omega), if_neg (by omega), if_neg (by omega), show 8 * 3 + i - 8 - 8 - 8 = i by omega]
        simp [hi]
    rw [e, e, h]
  unfold within32 at hb
  have hk := key (b - a).toNat hb
  have : a + BitVec.ofNat 32 (b - a).toNat = b := by
    rw [BitVec.ofNat_toNat, BitVec.setWidth_eq]
    ring
  rwa [this] at hk

/-! ### Loops over slots -/

/-- A loop over slots leaves every byte that none of its steps may write. -/
theorem loopN_bytes {f : Nat → State → State} (N : Nat) (Inv : State → Prop) (W : Nat → Word → Prop)
    (hI : ∀ i s, i < N → Inv s → Inv (f i s))
    (hW : ∀ i s a, i < N → Inv s → ¬W i a → memByte (f i s).mem a = memByte s.mem a) :
    ∀ (n i : Nat) (s : State) (a : Word), i + n ≤ N → Inv s → (∀ j, i ≤ j → j < i + n → ¬W j a) →
      memByte (loopN f n i s).mem a = memByte s.mem a := by
  intro n
  induction n with
  | zero => intro i s a _ _ _; rfl
  | succ n ih =>
    intro i s a hn hs ha
    have h1 := ih (i + 1) (f i s) a (by omega) (hI i s (by omega) hs) fun j h1 h2 => ha j (by omega) (by omega)
    rw [show loopN f (n + 1) i s = loopN f n (i + 1) (f i s) from rfl, h1]
    exact hW i s a (by omega) hs (ha i (by omega) (by omega))

/-- What each step of a loop over slots makes of its slot, given what it finds there, holds after the loop. -/
theorem loopN_each {f : Nat → State → State} (N : Nat) (Inv : State → Prop) (A Q : Nat → State → Prop)
    (hI : ∀ i s, i < N → Inv s → Inv (f i s))
    (hA : ∀ i j s, i < N → j < N → i ≠ j → Inv s → A j s → A j (f i s))
    (hQ : ∀ i j s, i < N → j < N → i ≠ j → Inv s → Q j s → Q j (f i s))
    (hset : ∀ i s, i < N → Inv s → A i s → Q i (f i s)) :
    ∀ (n i : Nat) (s : State), i + n ≤ N → Inv s → (∀ j, i ≤ j → j < i + n → A j s) →
      (∀ j, j < i → Q j s) → ∀ j, j < i + n → Q j (loopN f n i s) := by
  intro n
  induction n with
  | zero => intro i s _ _ _ hq j hj; exact hq j (by omega)
  | succ n ih =>
    intro i s hn hs ha hq j hj
    refine ih (i + 1) (f i s) (by omega) (hI i s (by omega) hs) ?_ ?_ j (by omega)
    · intro k h1 h2
      exact hA i k s (by omega) (by omega) (by omega) hs (ha k (by omega) (by omega))
    · intro k hk
      by_cases hki : k = i
      · subst hki
        exact hset k s (by omega) hs (ha k (by omega) (by omega))
      · exact hQ i k s (by omega) (by omega) (by omega) hs (hq k (by omega))

end Sys2Proof.Machine
end

