-- ==== Sys2Proof/Laws/Rings.lean ====
section
/-! SUPPORT. What building, resetting and filling a ring leave in its cursors and its descriptors. -/

namespace Sys2Proof.Machine

/-! ### Cursors -/

theorem cursorsLegal_iff (d : Dir) (w : RingSw) : cursorsLegal d w = true ↔ w.hwTail = w.issue ∧ (d = .rx → w.completion = w.issue) ∧
   (w.present = true → (2 ≤ w.cap ∧ w.cap ≤ 32768 ∧ w.base.toNat % 64 = 0 ∧ w.base.toNat + 64 * w.cap ≤ 2 ^ 32) ∧ w.issue < w.cap ∧ w.completion < w.cap) := by
  unfold cursorsLegal poolLegal
  cases d <;> cases w.present <;> simp [and_assoc]

theorem submitFill_ring (s : State) (q : Chan) (f : Frame) (app : App) :
   (s.submitFill ⟨.tx, q⟩ f app).ring ⟨.tx, q⟩ = { s.ring ⟨.tx, q⟩ with
     issue := (s.ring ⟨.tx, q⟩).after f.frags.length, hwTail := (s.ring ⟨.tx, q⟩).after f.frags.length } := by
  simp [State.submitFill, State.submitBell, State.submitMark, State.regWrite, RingSw.toIssue, RingSw.toTail]

theorem submitFill_ring_ne (s : State) (q : Chan) (f : Frame) (app : App) (r : RingId) (h : r ≠ ⟨.tx, q⟩) :
   (s.submitFill ⟨.tx, q⟩ f app).ring r = s.ring r := by
  simp [State.submitFill, State.submitBell, State.submitMark, State.regWrite, RingSw.toIssue, RingSw.toTail, h]

theorem makePool_ring (s : State) (r : RingId) (n : Nat) (b : Word) :
   (s.makePool r n b).ring r = { s.ring r with
     base := b, cap := n, present := true, populated := false, issue := 0, hwTail := 0, completion := 0 } := by
  simp [State.makePool, State.resetRing, RingSw.pool, RingSw.cursors]

theorem makePool_ring_ne (s : State) (r : RingId) (n : Nat) (b : Word) (t : RingId) (h : t ≠ r) :
   (s.makePool r n b).ring t = s.ring t := by
  simp [State.makePool, State.resetRing, RingSw.pool, RingSw.cursors, h]

theorem resetRing_ring (s : State) (r : RingId) : (s.resetRing r).ring r = { s.ring r with issue := 0, hwTail := 0, completion := 0 } := by
  simp [State.resetRing, RingSw.cursors]


/-! ### The chain -/

/-- After the relink loop each slot points at the next one, no slot is complete, and no other byte moved. -/
theorem relinked (s : State) (r : RingId) (hn : 64 * (s.ring r).cap ≤ 2 ^ 32) :
  let t := loopN (relinkSlot r) (s.ring r).cap 0 s
  (∀ i, i < (s.ring r).cap → t.getD r i nextOff = daddr (s.ring r).base (incMod (s.ring r).cap i) ∧ t.getD r i (statusOff s.cfg.variant) = 0) ∧
  (∀ a, (∀ i, i < (s.ring r).cap → ¬ s.inWords r i [0x00, statusOff s.cfg.variant] a) → memByte t.mem a = memByte s.mem a) := by
  intro t
  have hst := wordOff_status s.cfg.variant
  have hne : nextOff ≠ statusOff s.cfg.variant := by cases s.cfg.variant <;> decide
  have hnx : wordOff nextOff := by decide
  constructor
  · intro i hi
    refine loopN_each (s.ring r).cap (fun t => t.ring r = s.ring r ∧ t.cfg = s.cfg) (fun _ _ => True) (fun j t => t.getD r j nextOff = daddr (s.ring r).base (incMod (s.ring r).cap j) ∧ t.getD r j (statusOff s.cfg.variant) = 0) ?_ ?_ ?_ ?_ _ 0 s (by omega) ⟨rfl, rfl⟩ (fun _ _ _ => trivial) (fun j hj => absurd hj (by omega)) i (by omega)
    · intro i u _ h; simpa using h
    · intros; trivial
    · intro i j u hi hj hij ⟨hu, hc⟩ hq
      simp only [relinkSlot, hu, hc]
      rw [State.getD_putD _ _ _ _ _ _ _ (by simpa [hu]) (by simpa [hu]) (by simpa [hu]) hst hnx, State.getD_putD _ _ _ _ _ _ _ (by simpa [hu]) (by simpa [hu]) (by simpa [hu]) hnx hnx,
        State.getD_putD _ _ _ _ _ _ _ (by simpa [hu]) (by simpa [hu]) (by simpa [hu]) hst hst, State.getD_putD _ _ _ _ _ _ _ (by simpa [hu]) (by simpa [hu]) (by simpa [hu]) hnx hst]
      simpa [hij] using hq
    · intro i u hi ⟨hu, hc⟩ _
      simp only [relinkSlot, hu, hc]
      rw [State.getD_putD _ _ _ _ _ _ _ (by simpa [hu]) (by simpa [hu]) (by simpa [hu]) hst hnx, State.getD_putD _ _ _ _ _ _ _ (by simpa [hu]) (by simpa [hu]) (by simpa [hu]) hnx hnx,
        State.getD_putD_self]
      simp [hne.symm]
  · intro a ha
    refine loopN_bytes (s.ring r).cap (fun t => t.ring r = s.ring r ∧ t.cfg = s.cfg) (fun j a => s.inWords r j [0x00, statusOff s.cfg.variant] a) ?_ ?_ _ 0 s a (by omega) ⟨rfl, rfl⟩ (fun j _ hj => ha j (by omega))
    · intro i u _ h; simpa using h
    · intro i u a _ ⟨hu, hc⟩ hw
      have hsl : ∀ o, u.slotAddr r i o = s.slotAddr r i o := by intro o; simp [State.slotAddr, hu]
      unfold State.inWords State.inWord at hw
      simp only [List.mem_cons, List.not_mem_nil, or_false, exists_eq_or_imp, exists_eq_left, not_or] at hw
      simp only [relinkSlot]
      rw [State.memByte_putD, State.memByte_putD]
      · unfold State.inWord; rw [hsl]; exact hw.1
      · unfold State.inWord; rw [State.putD_slotAddr, hsl, hc]; exact hw.2

theorem resetRing_getD (s : State) (r : RingId) (i o : Nat) : (s.resetRing r).getD r i o = (loopN (relinkSlot r) (s.ring r).cap 0 s).getD r i o := by
  simp [State.resetRing, State.getD, State.slotAddr, RingSw.cursors]

theorem resetRing_mem (s : State) (r : RingId) : (s.resetRing r).mem = (loopN (relinkSlot r) (s.ring r).cap 0 s).mem := by
  simp [State.resetRing]

end Sys2Proof.Machine
end

