-- ==== Sys2Proof/Laws/Words.lean ====
section
/-! SUPPORT. The bits of the words a register read gives: control, status, channel bitmaps, weights. -/

namespace Sys2Proof.Machine

/-! ### Control and status words -/

theorem getLsbD_bitIf (b : Bool) (p k : Nat) (hk : k < 32) (hp : p < 32) : (bitIf b p).getLsbD k = (b && decide (k = p)) := by
  unfold bitIf
  cases b
  · simp
  · have hs : (BitVec.ofNat 32 (2 ^ p)) = BitVec.twoPow 32 p := by
      simp [BitVec.twoPow]
      apply BitVec.eq_of_toNat_eq; simp [Nat.shiftLeft_eq]
    simp [hs, hk, eq_comm]

theorem getElem_bitIf (b : Bool) (p k : Nat) (hk : k < 32) (hp : p < 32) : (bitIf b p)[k] = (b && decide (k = p)) := by
  have := getLsbD_bitIf b p k hk hp
  rwa [BitVec.getLsbD_eq_getElem hk] at this

theorem crWord_bits (x : RingRegs) : (crWord x).getLsbD 0 = x.run ∧ (crWord x).getLsbD 2 = x.resetBusy ∧
  (crWord x).extractLsb' 16 8 = x.thresh ∧ (crWord x).extractLsb' 24 8 = x.delay ∧ crWord x &&& 0x0000FFFA = 0 := by
  unfold crWord
  refine ⟨?_, ?_, ?_, ?_, ?_⟩
  · simp [getElem_bitIf]
  · simp [getElem_bitIf]
  · apply BitVec.eq_of_getLsbD_eq
    intro i hi
    have h1 : 16 + i < 32 := by omega
    have h2 : ¬ 16 + i = 0 := by omega
    have h3 : ¬ 16 + i = 2 := by omega
    have h4 : 16 + i < 24 := by omega
    simp [getElem_bitIf _ _ _ h1, hi, h1, h4, h3]
  · apply BitVec.eq_of_getLsbD_eq
    intro i hi
    have h1 : 24 + i < 32 := by omega
    have h3 : ¬ 24 + i = 2 := by omega
    have h4 : ¬ 24 + i < 24 := by omega
    have h5 : 8 ≤ 24 + i - 16 := by omega
    simp [getElem_bitIf _ _ _ h1, hi, h1, h4, h3, BitVec.getLsbD_of_ge x.thresh _ h5]
  · rcases x with ⟨a, b, c, d, e, f, th, de, _⟩
    simp only
    clear * - 
    cases a <;> cases b <;> simp only [bitIf] <;> 
    · apply BitVec.eq_of_getLsbD_eq
      intro i hi
      interval_cases i <;> simp

theorem srWord_bits (x : RingRegs) : (srWord x).getLsbD 0 = (!x.run && !x.stopPending && !x.resetBusy) ∧ (srWord x).getLsbD 1 = (x.run && x.tailValid && x.idle) ∧
      (srWord x).getLsbD 4 = x.errInt ∧ (srWord x).getLsbD 5 = x.errSlv ∧ (srWord x).getLsbD 6 = x.errDec ∧ srWord x &&& 0xFFFFFF8C = 0 := by
  unfold srWord halted idleFlag
  refine ⟨?_, ?_, ?_, ?_, ?_, ?_⟩
  · simp [getElem_bitIf]
  · simp [getElem_bitIf]
  · simp [getElem_bitIf]
  · simp [getElem_bitIf]
  · simp [getElem_bitIf]
  · generalize (!x.run && !x.stopPending && !x.resetBusy) = a
    generalize (x.run && x.tailValid && x.idle) = b
    generalize x.errInt = c
    generalize x.errSlv = d
    generalize x.errDec = e
    revert a b c d e
    decide

/-! ### Channel bitmaps -/

theorem getLsbD_bitmapWord (f : Chan → Bool) (c : Chan) : (bitmapWord f).getLsbD c.val = f c := by
  unfold bitmapWord
  have h1 : c.val < 32 := by omega
  have h2 : c.val < 16 := c.isLt
  simp only [BitVec.getLsbD_setWidth, h1, decide_true, Bool.true_and, BitVec.getLsbD_ofFnLE, h2, dif_pos]

theorem bitmapWord_hi (f : Chan → Bool) : (bitmapWord f).extractLsb' 16 16 = 0 := by
  apply BitVec.eq_of_getLsbD_eq
  intro i hi
  unfold bitmapWord
  simp only [BitVec.getLsbD_extractLsb', BitVec.getLsbD_setWidth]
  rw [BitVec.getLsbD_of_ge (BitVec.ofFnLE f) (16+i) (by omega)]
  simp

/-! ### Weights -/

theorem weightFold_bit (s : State) (hi : Bool) (l : List Chan) (acc : Word) (b : Nat) (hb : b < 32) :
   (l.foldl (fun acc c =>
    if decide (c.val < s.cfg.nq) && decide (8 ≤ c.val) == hi then
      acc ||| ((s.weight c).setWidth 32 <<< (4 * (c.val % 8)))
    else acc) acc).getLsbD b = (acc.getLsbD b || l.any fun c => (decide (c.val < s.cfg.nq) && decide (8 ≤ c.val) == hi) && decide (b / 4 = c.val % 8) && (s.weight c).getLsbD (b % 4)) := by
  induction l generalizing acc with
  | nil => simp
  | cons c l ih =>
    simp only [List.foldl_cons, ih, List.any_cons]
    by_cases h : (decide (c.val < s.cfg.nq) && decide (8 ≤ c.val) == hi) = true
    · simp only [h, if_true, Bool.true_and, BitVec.getLsbD_or, BitVec.getLsbD_shiftLeft, hb, decide_true, BitVec.getLsbD_setWidth, Bool.or_assoc]
      congr 1
      congr 1
      by_cases h1 : b / 4 = c.val % 8
      · have h2 : ¬ b < 4 * (c.val % 8) := by omega
        have h3 : b - 4 * (c.val % 8) = b % 4 := by omega
        have h4 : b % 4 < 32 := by omega
        simp [h1, h2, h3, h4]
      · by_cases h2 : b < 4 * (c.val % 8)
        · simp [h1, h2]
        · have : 4 ≤ b - 4 * (c.val % 8) := by omega
          simp [h1, BitVec.getLsbD_of_ge (s.weight c) _ this]
    · simp [h]

theorem weightWord_field (s : State) (hi : Bool) (c : Chan) (hc : 8 ≤ c.val ↔ hi = true) :
   (s.weightWord hi).extractLsb' (4 * (c.val % 8)) 4 = if c.val < s.cfg.nq then s.weight c else 0 := by
  apply BitVec.eq_of_getLsbD_eq
  intro i hi4
  have hlt : 4 * (c.val % 8) + i < 32 := by omega
  rw [BitVec.getLsbD_extractLsb']
  unfold State.weightWord
  rw [weightFold_bit s hi allChans 0 _ hlt]
  have e1 : (4 * (c.val % 8) + i) / 4 = c.val % 8 := by omega
  have e2 : (4 * (c.val % 8) + i) % 4 = i := by omega
  have z : ∀ n, (0 : Word).getLsbD n = false := by simp
  have z4 : ∀ n, (0 : BitVec 4).getLsbD n = false := by simp
  simp only [e1, e2, hi4, decide_true, Bool.true_and, z, Bool.false_or]
  have key : ∀ d : Chan, ((decide (8 ≤ d.val) == hi) && decide (c.val % 8 = d.val % 8)) = decide (d = c) := by
    intro d
    have hd := d.isLt
    have hcc := c.isLt
    by_cases hd' : d = c
    · subst hd'
      cases hi <;> simp_all
    · have : d.val ≠ c.val := fun h => hd' (Fin.ext h)
      simp only [hd', decide_false, Bool.and_eq_false_iff]
      by_cases h1 : c.val % 8 = d.val % 8
      · left
        cases hi <;> simp_all <;> omega
      · right; simpa using h1
  by_cases hn : c.val < s.cfg.nq
  · simp only [hn, if_true]
    rw [Bool.eq_iff_iff, List.any_eq_true]
    constructor
    · rintro ⟨d, _, hd⟩
      have := key d
      simp only [Bool.and_eq_true] at hd
      have hdc : d = c := by
        have h1 : decide (d = c) = true := by rw [← this]; simp only [Bool.and_eq_true]; exact ⟨hd.1.1.2, hd.1.2⟩
        simpa using h1
      subst hdc; exact hd.2
    · intro hw
      refine ⟨c, mem_allChans c, ?_⟩
      have := key c
      simp only [decide_true, Bool.and_eq_true] at this
      simp only [Bool.and_eq_true, decide_eq_true_eq]
      exact ⟨⟨⟨hn, this.1⟩, by trivial⟩, hw⟩
  · simp only [hn, if_false, z4, List.any_eq_false]
    intro d _ hd
    simp only [Bool.and_eq_true] at hd
    have := key d
    have h1 : decide (d = c) = true := by rw [← this]; simp only [Bool.and_eq_true]; exact ⟨hd.1.1.2, hd.1.2⟩
    have hdc : d = c := by simpa using h1
    subst hdc
    exact hn (by simpa using hd.1.1.1)

theorem writeWeight_weight (s : State) (hi : Bool) (v : Word) (c : Chan) :
   (s.writeWeight hi v).weight c = if (8 ≤ c.val ↔ hi = true) ∧ c.val < s.cfg.nq ∧ halted (s.regs ⟨.tx, c⟩) = true then v.extractLsb' (4 * (c.val % 8)) 4 else s.weight c := by
  have e : (s.writeWeight hi v).weight c = (if decide (c.val < s.cfg.nq) && decide (8 ≤ c.val) == hi && halted (s.regs ⟨.tx, c⟩) then
          v.extractLsb' (4 * (c.val % 8)) 4
        else s.weight c) := by
    simp [State.writeWeight, State.weight, vget]
  rw [e]
  by_cases h : 8 ≤ c.val <;> cases hi <;> simp [h]

end Sys2Proof.Machine
end

