-- ==== Sys2Proof/Tests/Slice0.lean ====
section
/-! SUPPORT. Tests of the model: ill-formed operations refused, words written out from the encodings, one-step examples of
`95_test_vectors.md`, and for every obligation with hypotheses a state that meets them. -/

namespace Sys2Proof.Tests

open Sys2Proof Sys2Proof.Machine

set_option Elab.async false

/-! ### States -/

def rTx : RingId := ⟨.tx, 0⟩
def rRx : RingId := ⟨.rx, 0⟩
def rTx1 : RingId := ⟨.tx, 1⟩

/-- CFG-SQ of `95_test_vectors.md` section 2. -/
def cfgSq : Config :=
  { variant := .sq, nq := 1, tx := [⟨4, 1, 0⟩], rx := [⟨4, 1, 0⟩], maxFrame := 1518, rxBufSize := 1536,
    weightSumLimit := none, initWeight := [1], resetRetryMax := 3, caps := ⟨.off, .off, false⟩, mac := .g1,
    regBase := 0x40000000 }

/-- CFG-MC of the same section. -/
def cfgMc : Config :=
  { cfgSq with variant := .mc, nq := 2, tx := [⟨8, 1, 0⟩, ⟨8, 1, 0⟩], rx := [⟨4, 1, 0⟩, ⟨4, 1, 0⟩],
               initWeight := [3, 1] }

/-- A ring in service with a pool of `n` descriptors at `b`. -/
def ringAt (b : Word) (n : Nat) : RingSw := { RingSw.absent with present := true, base := b, cap := n, rstate := .running }

/-- The registers of a running engine at `b`. -/
def runningAt (b : Word) : RingRegs := { RingRegs.reset with run := true, curdesc := b, ier := 7, chIer := true }

/-- The words of memory. -/
def words (ws : List (Word × Word)) (s : State) : State := s.setMem (ws.foldl (fun m p => memPutWord m p.1 p.2) s.mem)

/-- One fresh ring pair of queue `q` in service. -/
def pair (q : Chan) (bt : Word) (nt : Nat) (br : Word) (nr : Nat) (s : State) : State :=
  (((s.setRing ⟨.tx, q⟩ (ringAt bt nt)).setRing ⟨.rx, q⟩ (ringAt br nr)).setRegs ⟨.tx, q⟩ (runningAt bt)).setRegs
    ⟨.rx, q⟩ (runningAt br)

/-- CFG-SQ attached, link up. -/
def sq : State :=
  pair 0 0x10000000 4 0x18000000 4 ((((State.powerOn .sq 1).setCfg cfgSq).setCtx true).setLink true)

/-- CFG-MC attached, link up. -/
def mc : State :=
  pair 1 0x10000200 8 0x18000100 4 (pair 0 0x10000000 8 0x18000000 4
    ((((State.powerOn .mc 2).setCfg cfgMc).setCtx true).setLink true))

/-- Change a ring's registers. -/
def withRegs (r : RingId) (f : RingRegs → RingRegs) (s : State) : State := s.setRegs r (f (s.regs r))

/-- Change a ring's manager state. -/
def withSw (r : RingId) (f : RingSw → RingSw) (s : State) : State := s.setRing r (f (s.ring r))

/-- A ring in a state of its state machine. -/
def inState (st : RState) (r : RingId) (s : State) : State := withSw r (fun w => { w with rstate := st }) s

/-- A halted engine. -/
def stopped (r : RingId) (s : State) : State := withRegs r (fun x => { x with run := false }) s

/-- A doorbell at `a` has rung. -/
def rung (r : RingId) (a : Word) (s : State) : State :=
  withRegs r (fun x => { x with taildesc := a, tailValid := true }) s

/-- The environment's answers. -/
def draws (e : Env) (s : State) : State := { s with env := e }

/-- What is asked of the next state of an operation; none when it gives none. -/
def after {α : Type} (i : Instr) (s : State) (f : State → α) : Option α :=
  match exec i s with
  | .next t => some (f t)
  | .fault _ => none
  | .refused _ => none

/-- What is asked of the next state of a command in progress. -/
def afterResume {α : Type} (k : Nat) (s : State) (f : State → α) : Option α :=
  match resume k s with
  | .next t => some (f t)
  | .fault _ => none
  | .refused _ => none

/-- The reason of a refusal. -/
def refusal (i : Instr) (s : State) : Option Refusal :=
  match exec i s with
  | .next _ => none
  | .fault _ => none
  | .refused e => some e

def frame1 : Frame := ⟨1, [⟨0x20000000, 60, .single⟩], false, 0, 0, 0, false⟩

/-- The three-fragment frame of V41-4. -/
def frame7 : Frame :=
  ⟨7, [⟨0x20001000, 14, .single⟩, ⟨0x20002000, 1000, .page⟩, ⟨0x20003000, 486, .page⟩], false, 0, 0, 0, false⟩

/-! ### Ill-formed operations -/

def refusedBy (v : Variant) (nq : Nat) (is : List Instr) : Bool := is.all fun i => !i.wf v nq

def bigRing : RingCfg := ⟨4, 2 ^ 32, 0⟩

theorem test_wf_config :
    refusedBy .sq 1 [.attach { cfgSq with nq := 256 }, .attach { cfgSq with tx := [⟨2 ^ 32, 1, 0⟩] },
      .attach { cfgSq with tx := [bigRing] }, .attach { cfgSq with rx := [⟨4, 1, 2 ^ 32⟩] },
      .attach { cfgSq with tx := List.replicate 256 ⟨4, 1, 0⟩ }, .attach { cfgSq with rx := List.replicate 256 ⟨4, 1, 0⟩ },
      .attach { cfgSq with maxFrame := 2 ^ 32 }, .attach { cfgSq with rxBufSize := 2 ^ 32 },
      .attach { cfgSq with weightSumLimit := some (2 ^ 32) }, .attach { cfgSq with initWeight := List.replicate 256 1 },
      .attach { cfgSq with initWeight := [2 ^ 32] }, .attach { cfgSq with resetRetryMax := 2 ^ 32 }] = true := by
  decide +kernel

theorem test_wf_commands :
    refusedBy .sq 1 [.allocate .tx 256 4, .allocate .tx 0 (2 ^ 32), .resetRing .tx 256, .armRx 256, .freeRing .rx 256,
      .submitTx 256 frame1, .submitTx 0 { frame1 with frags := [⟨0, 2 ^ 32, .single⟩] }, .pollRx 256 1, .pollRx 0 (2 ^ 32),
      .reclaimTx 256, .offloadTx 256 frame1, .offloadTx 0 { frame1 with frags := [⟨0, 2 ^ 32, .page⟩] }, .offloadRx 256 0,
      .offloadRx 0 65536, .configureWeight 256 1, .configureWeight 0 256, .enableChannel 256 .both,
      .disableChannel 256 .both, .irqService .tx 0, .irqService .rx (2 ^ 32 + 1), .recoverBegin .tx 256,
      .recoverPoll .tx 256, .recoverDrain .tx 256, .recoverReconfig .tx 256, .regRead 4096, .regRead 2, .regWrite 4096 0,
      .regWrite 3 0] = true := by
  decide +kernel

theorem test_wf_steps :
    refusedBy .sq 1 [.eTxDesc 256, .eRxDesc 256, .eDelayTimeout .tx 256, .eFault .tx 256 .int, .eResetDone .tx 256,
      .eStopDone .tx 256] = true := by
  decide

theorem test_wf_registers_sq :
    refusedBy .mc 2 [.crSq .tx .read, .srSq .tx .read, .curdescSq .tx .read, .taildescSq .tx .read, .isrSq .tx .read,
      .ierSq .tx .read, .icrSq .tx .read, .tsfCntSq .read, .tsfTagSq .read, .tsfLoSq .read, .tsfHiSq .read] = true := by
  decide

def mcRows (c : Nat) : List Instr :=
  [.crMc .tx c .read, .srMc .tx c .read, .curdescMc .tx c .read, .taildescMc .tx c .read, .isrMc .tx c .read,
   .ierMc .tx c .read, .icrMc .tx c .read, .tsfCntMc c .read, .tsfTagMc c .read, .tsfLoMc c .read, .tsfHiMc c .read]

theorem test_wf_registers_mc :
    refusedBy .sq 1 (mcRows 0) = true ∧ refusedBy .mc 2 (mcRows 2) = true ∧ refusedBy .mc 17 (mcRows 16) = true ∧
    refusedBy .sq 1 [.chen .tx .read, .chIer .tx .read, .chIsr .tx .read, .chIcr .tx .read, .weight0 .read,
      .weight1 .read] = true := by
  decide

/-- An offset that names a register is not a reserved one; the last two are no offsets of the window. -/
theorem test_wf_reserved_offset :
    refusedBy .sq 1 [.reservedOffset 0x10 .read, .reservedOffset 4096 .read, .reservedOffset 0x81 .read] = true ∧
    refusedBy .mc 2 [.reservedOffset 0x080 .read, .reservedOffset 0x014 .read] = true := by
  decide

def desc0 : Desc := ⟨0, 0, 0, 0, appZero, 0, 0, 0⟩

theorem test_wf_descriptors :
    refusedBy .mc 2 [.descriptorSq .tx 0 desc0] = true ∧ refusedBy .sq 1 [.descriptorMc .tx 0 desc0] = true ∧
    refusedBy .sq 1 [.descriptorSq .tx 256 desc0] = true ∧ refusedBy .mc 2 [.descriptorMc .tx 256 desc0] = true := by
  decide

/-- Reserved bits of a descriptor word are 0 (R143 to R150). -/
theorem test_wf_desc_reserved_bits :
    refusedBy .sq 1 [.descNext .tx 0 0 0x20, .descCtrlSq .tx 0 0 0x10000000, .descCtrlMc .tx 0 0 0x08000000,
      .descStatus .tx 0 0 0x00800000, .descApp0Tx 0 0 4, .descApp3Tx 0 0 1, .descApp4Tx 0 0 0x00010000,
      .descSwMap .tx 0 0 4, .descSwMap .tx 0 0 3, .descSwTag .tx 0 0 0x40000000] = true := by
  decide

theorem test_wf_desc_slots :
    refusedBy .sq 1 [.descNext .tx 256 0 0, .descBuf .tx 0 65536 0, .descCtrlSq .tx 256 0 0, .descCtrlMc .tx 256 0 0,
      .descStatus .tx 256 0 0, .descApp0Tx 256 0 0, .descApp1Tx 256 0 0, .descApp2Tx 256 0 0, .descApp3Tx 256 0 0,
      .descApp4Tx 256 0 0, .descApp0Rx 256 0 0, .descApp1Rx 256 0 0, .descApp2Rx 256 0 0, .descApp3Rx 256 0 0,
      .descApp4Rx 256 0 0, .descSwFrame .tx 256 0 0, .descSwMap .tx 256 0 0, .descSwTag .tx 256 0 0] = true := by
  decide

/-! ### Decoding of words written out from the encodings -/

def decodesTo (v : Variant) (nq : Nat) (f : Fmt) (xs : List (List Byte × Instr)) : Bool :=
  xs.all fun p => (decode v nq ⟨f, p.1⟩).toOption == some p.2

/-- R165: the command ids. Operand bytes are log 8's. -/
theorem test_decode_commands :
    decodesTo .sq 1 .command
      [([0x02], .detach), ([0x03, 0, 0, 4, 0, 0, 0], .allocate .tx 0 4), ([0x04, 1, 0], .resetRing .rx 0),
       ([0x05, 3], .armRx 3), ([0x06, 0, 2], .freeRing .tx 2), ([0x11, 0, 8, 1, 0, 0], .pollRx 0 264),
       ([0x12, 5], .reclaimTx 5), ([0x19, 0, 2, 1], .offloadRx 0 258), ([0x20, 9, 5], .configureWeight 9 5),
       ([0x21, 1, 1], .enableChannel 1 .txOnly), ([0x22, 1, 2], .disableChannel 1 .rxOnly),
       ([0x30, 1, 63, 0, 0, 0], .irqService .rx 64), ([0x31, 0, 0], .recoverBegin .tx 0),
       ([0x32, 1, 0], .recoverPoll .rx 0), ([0x33, 0, 1], .recoverDrain .tx 1), ([0x34, 1, 1], .recoverReconfig .rx 1),
       ([0x40, 1], .linkNotify true), ([0x41], .statsSnapshot), ([0x50, 0x10, 0x00], .regRead 0x010),
       ([0x51, 0x10, 0x00, 0x40, 0, 0, 0x10], .regWrite 0x010 0x10000040)] = true := by
  decide +kernel

/-- R166: the step ids. -/
theorem test_decode_steps :
    decodesTo .sq 1 .command
      [([0x80, 0], .eTxDesc 0), ([0x81, 1], .eRxDesc 1), ([0x82], .eArbGrant), ([0x83, 1, 0], .eDelayTimeout .rx 0),
       ([0x84, 0, 0, 2], .eFault .tx 0 .dec), ([0x85, 0, 1], .eResetDone .tx 1), ([0x86, 1, 1], .eStopDone .rx 1)] =
      true := by
  decide +kernel

/-- R63: a frame as an operand. -/
theorem test_decode_frame :
    decodesTo .sq 1 .command
      [([0x10, 0, 1, 0, 0, 0, 1, 0, 0, 0, 0, 0x20, 60, 0, 0, 0, 0, 0, 0, 0, 0, 0, 0, 0, 0, 0, 0], .submitTx 0 frame1),
       ([0x18, 2, 9, 0, 0, 0, 0, 0, 1, 34, 0, 50, 0, 0xB2, 0xA1, 0, 0, 1],
        .offloadTx 2 ⟨9, [], true, 34, 50, 0xA1B2, true⟩)] = true := by
  decide +kernel

/-- R12, R420: a configuration as an operand. -/
theorem test_decode_attach :
    decodesTo .sq 1 .command
      [([0x01, 0, 1, 1, 4, 0, 0, 0, 1, 0, 0, 0, 0, 0, 0, 0, 1, 4, 0, 0, 0, 1, 0, 0, 0, 0, 0, 0, 0, 0xEE, 0x05, 0, 0,
         0, 6, 0, 0, 0, 0, 0, 0, 0, 1, 1, 0, 0, 0, 3, 0, 0, 0, 0, 0, 0, 0, 0, 0, 0, 0x40], .attach cfgSq)] = true := by
  decide +kernel

/-- V30-6. -/
theorem test_decode_invalid_ids :
    ([0x00, 0x07, 0x13, 0x35, 0x52, 0x7F, 0x87, 0xFF] : List Byte).all
      (fun b => decide (decodeCommand [b, 0, 0, 0] = .error (.unknownId b.toNat))) = true := by
  decide +kernel

/-- R153, V30-5: the `SQ` register map. -/
theorem test_decode_registers_sq :
    decodesTo .sq 1 .register
      [([0x00, 0, 0], .crSq .tx .read), ([0x44, 0, 0], .srSq .rx .read),
       ([0x08, 0, 1, 4, 0, 0, 0x10], .curdescSq .tx (.write 0x10000004)), ([0x50, 0, 0], .taildescSq .rx .read),
       ([0x18, 0, 0], .isrSq .tx .read), ([0x5C, 0, 1, 7, 0, 0, 0], .ierSq .rx (.write 7)), ([0x20, 0, 0], .icrSq .tx .read),
       ([0x24, 0, 0], .tsfCntSq .read), ([0x28, 0, 0], .tsfTagSq .read), ([0x2C, 0, 0], .tsfLoSq .read),
       ([0x30, 0, 0], .tsfHiSq .read), ([0x64, 0, 0], .reservedOffset 0x64 .read),
       ([0x80, 0, 0], .reservedOffset 0x80 .read), ([0xFC, 0x0F, 0], .reservedOffset 0xFFC .read)] = true := by
  decide +kernel

/-- R157, R158, V30-5: the `MC` register map with `NQ` = 16. -/
theorem test_decode_registers_mc :
    decodesTo .mc 16 .register
      [([0x00, 0x04, 0], .crMc .tx 15 .read), ([0x84, 0x08, 0], .srMc .rx 1 .read),
       ([0x48, 0, 0], .curdescMc .tx 0 .read), ([0x10, 0x09, 0], .taildescMc .rx 3 .read),
       ([0x58, 0, 0], .isrMc .tx 0 .read), ([0x9C, 0, 0], .ierMc .tx 1 .read), ([0x60, 0, 0], .icrMc .tx 0 .read),
       ([0x64, 0, 0], .tsfCntMc 0 .read), ([0xA8, 0, 0], .tsfTagMc 1 .read), ([0x6C, 0, 0], .tsfLoMc 0 .read),
       ([0x70, 0, 0], .tsfHiMc 0 .read), ([0x00, 0x00, 0], .chen .tx .read), ([0x04, 0x08, 0], .chIer .rx .read),
       ([0x08, 0x00, 0], .chIsr .tx .read), ([0x0C, 0x08, 1, 1, 0, 0, 0], .chIcr .rx (.write 1)),
       ([0x10, 0x00, 0], .weight0 .read), ([0x14, 0x00, 0], .weight1 .read), ([0x14, 0x08, 0], .reservedOffset 0x814 .read),
       ([0x40, 0x04, 0], .reservedOffset 0x440 .read), ([0x30, 0x0C, 0], .reservedOffset 0xC30 .read)] = true := by
  decide +kernel

/-- R107: an access at 0x002, one outside the window and one of another width are no transactions. -/
theorem test_decode_bad_transactions :
    decode .sq 1 ⟨.register, [2, 0, 0]⟩ = .error (.misaligned 2) ∧
    decode .sq 1 ⟨.register, [0, 0x10, 0]⟩ = .error (.outsideWindow 4096) ∧
    decode .sq 1 ⟨.register, [0, 0, 2]⟩ = .error (.badWidth 2) := by
  decide +kernel

/-- R141 to R149: one word of each place, slot 3 of a ring of queue 1. -/
theorem test_decode_desc_words :
    decodesTo .sq 1 .descWord
      [([0x40, 0, 0, 0x10, 0, 0, 1, 3, 0], .descNext .tx 1 3 0x10000040),
       ([1, 0, 0, 0x20, 1, 1, 1, 3, 0], .descBuf .rx 1 3 0x20000001),
       ([0x3C, 0, 0, 0x0C, 2, 0, 1, 3, 0], .descCtrlSq .tx 1 3 0x0C00003C),
       ([0x3C, 0, 0, 0xC0, 3, 0, 1, 3, 0], .descCtrlMc .tx 1 3 0xC000003C),
       ([0x40, 0, 0, 0x8C, 4, 1, 1, 3, 0], .descStatus .rx 1 3 0x8C000040), ([2, 0, 0, 0, 5, 1, 3, 0], .descApp0Tx 1 3 2),
       ([0x32, 0, 0x22, 0, 6, 1, 3, 0], .descApp1Tx 1 3 0x00220032), ([1, 2, 3, 4, 7, 1, 3, 0], .descApp2Tx 1 3 0x04030201),
       ([0, 0, 0, 0, 8, 1, 3, 0], .descApp3Tx 1 3 0), ([5, 0, 0, 0x80, 9, 1, 3, 0], .descApp4Tx 1 3 0x80000005),
       ([1, 0, 0, 0, 10, 1, 3, 0], .descApp0Rx 1 3 1), ([1, 0, 0, 0, 11, 1, 3, 0], .descApp1Rx 1 3 1),
       ([0x10, 0, 0, 0, 12, 1, 3, 0], .descApp2Rx 1 3 0x10), ([0xEF, 0xBE, 0, 0, 13, 1, 3, 0], .descApp3Rx 1 3 0xBEEF),
       ([1, 0, 0, 0, 14, 1, 3, 0], .descApp4Rx 1 3 1), ([7, 0, 0, 0, 15, 0, 1, 3, 0], .descSwFrame .tx 1 3 7),
       ([2, 0, 0, 0, 16, 0, 1, 3, 0], .descSwMap .tx 1 3 2), ([5, 0, 0, 0x80, 17, 0, 1, 3, 0], .descSwTag .tx 1 3 0x80000005)] =
      true := by
  decide +kernel

/-- V30-3: the bytes of a descriptor in both layouts, for the engine of a ring. -/
theorem test_decode_descriptors :
    decodesTo .sq 1 .descriptor
      [([0x40, 0, 0, 0x10] ++ List.replicate 4 0 ++ [0, 0, 0, 0x20] ++ List.replicate 12 0 ++ [0x3C, 0, 0, 0x0C] ++
        List.replicate 24 0 ++ [1, 0, 0, 0, 1, 0, 0, 0, 0, 0, 0, 0] ++ [0, 0],
        .descriptorSq .tx 0 ⟨0x10000040, 0x20000000, 0x0C00003C, 0, appZero, 1, 1, 0⟩)] = true ∧
    decodesTo .mc 2 .descriptor
      [([0x40, 0, 0, 0x10] ++ List.replicate 4 0 ++ [0, 0, 0, 0x20] ++ List.replicate 8 0 ++ [0x3C, 0, 0, 0xC0] ++
        [0x40, 0, 0, 0x80] ++ List.replicate 24 0 ++ [1, 0, 0, 0, 1, 0, 0, 0, 0, 0, 0, 0] ++ [1, 1],
        .descriptorMc .rx 1 ⟨0x10000040, 0x20000000, 0xC000003C, 0x80000040, appZero, 1, 1, 0⟩)] = true := by
  decide +kernel

/-- Words numbered as the opcode table numbers them. -/
theorem test_decode_table_words :
    decodeTableWord 8 0x86 = some (.eStopDone .tx 0) ∧ decodeTableWord 8 0x07 = none ∧
    decodeTableWord 12 0x050 = some (.taildescSq .rx .read) ∧
    decodeTableWord 32 0x0C00003C = none ∧ decodeTableWord 32 0x10000040 = some (.descNext .tx 0 0 0x10000040) := by
  decide +kernel

/-! ### Registers -/

/-- V46-2, first rows: `CR` on a halted ring; the second write has a `THRESH` of 0. -/
theorem test_cr_write_sq :
    after (.crSq .tx (.write 0x00010001)) (stopped rTx sq) (fun t => (crWord (t.regs rTx), srWord (t.regs rTx))) =
      some (0x00010001, 0) ∧
    after (.crSq .tx (.write 0x05000000)) sq (fun t => (crWord (t.regs rTx), srWord (t.regs rTx))) =
      some (0x05010000, 0) := by
  decide +kernel

/-- V46-2: bit 2 starts a reset and nothing else of the value is taken; the ring answers as the draw says. -/
theorem test_cr_reset_sq :
    after (.crSq .tx (.write 0x00FF0005)) (draws { Env.empty with resetCompletes := [true] } (stopped rTx sq))
      (fun t => (crWord (t.regs rTx), srWord (t.regs rTx), (t.regs rTx).resetCompletes)) = some (0x00010004, 0, true) := by
  decide +kernel

/-- V46-2 on channel 1 in `MC`: the run bit of `CR` is not written. -/
theorem test_cr_write_mc :
    after (.crMc .tx 1 (.write 0x05020000)) mc (fun t => (crWord (t.regs rTx1), (t.regs rTx1).iocCount)) =
      some (0x05020001, 2) := by
  decide +kernel

/-- V46-1: a read of `SR` at power-on; V30-4: idle at the tail. -/
theorem test_sr_read_sq :
    after (.srSq .tx .read) State.reset (fun t => t.answers) = some [⟨0x50, .okValue 1⟩] ∧
    after (.srSq .tx .read) (withRegs rTx (fun x => { x with tailValid := true, idle := true }) sq) (fun t => t.answers) =
      some [⟨0x50, .okValue 2⟩] := by
  decide +kernel

theorem test_sr_read_mc :
    after (.srMc .tx 1 .read) (withRegs rTx1 (fun x => { x with run := false, errDec := true }) mc) (fun t => t.answers) =
      some [⟨0x50, .okValue 0x41⟩] := by
  decide +kernel

/-- V46-3. -/
theorem test_curdesc_sq :
    after (.curdescSq .tx (.write 0x10000044)) (stopped rTx sq) (fun t => (t.regs rTx).curdesc) = some 0x10000040 ∧
    after (.curdescSq .tx (.write 0x10000040)) sq (fun t => (t.regs rTx).curdesc) = some 0x10000000 := by
  decide +kernel

theorem test_curdesc_mc :
    after (.curdescMc .tx 1 (.write 0x10000247)) (stopped rTx1 mc) (fun t => (t.regs rTx1).curdesc) =
      some 0x10000240 := by
  decide +kernel

/-- V46-4. -/
theorem test_taildesc_sq :
    after (.taildescSq .tx (.write 0x10000047)) sq (fun t => ((t.regs rTx).taildesc, (t.regs rTx).tailValid)) =
      some (0x10000040, true) ∧
    after (.taildescSq .tx (.write 0x10000047)) (stopped rTx sq) (fun t => ((t.regs rTx).taildesc, (t.regs rTx).tailValid)) =
      some (0x10000040, false) := by
  decide +kernel

/-- U19, R121: a doorbell that would ring before a `WMB` is refused. -/
theorem test_taildesc_unordered :
    refusal (.taildescMc .tx 1 (.write 0x10000200)) (mc.owe rTx1) = some .doorbellUnordered ∧
    after (.taildescMc .tx 1 (.write 0x10000200)) mc (fun t => (t.regs rTx1).tailValid) = some true := by
  decide +kernel

/-- V46-5. -/
theorem test_isr_sq :
    after (.isrSq .tx (.write 7)) (withRegs rTx (fun x => { x with isr := 1 }) sq) (fun t => (t.regs rTx).isr) = some 1 := by
  decide +kernel

theorem test_isr_mc :
    after (.isrMc .tx 1 .read) (withRegs rTx1 (fun x => { x with isr := 5 }) mc) (fun t => t.answers) =
      some [⟨0x50, .okValue 5⟩] := by
  decide +kernel

/-- V46-5. -/
theorem test_ier_sq :
    after (.ierSq .tx (.write 7)) (withRegs rTx (fun x => { x with isr := 1, ier := 0 }) sq)
      (fun t => ((t.regs rTx).ier, t.irq .tx)) = some (6, true) ∧
    after (.ierSq .tx (.write 0xFFFFFFFF)) sq (fun t => ((t.regs rTx).ier, t.irq .tx)) = some (7, false) := by
  decide +kernel

/-- R337, R396: in `MC` the event is recorded though `CH_IER` is clear. -/
theorem test_ier_mc :
    after (.ierMc .tx 1 (.write 7)) (withRegs rTx1 (fun x => { x with isr := 1, ier := 0, chIer := false }) mc)
      (fun t => ((t.regs rTx1).ier, (t.regs rTx1).chIsr, t.irq .tx)) = some (6, true, false) := by
  decide +kernel

/-- V46-5. -/
theorem test_icr_sq :
    after (.icrSq .tx (.write 1)) (withRegs rTx (fun x => { x with isr := 3 }) sq) (fun t => (t.regs rTx).isr) = some 2 ∧
    after (.icrSq .tx (.write 0xFFFFFFF8)) (withRegs rTx (fun x => { x with isr := 3 }) sq) (fun t => (t.regs rTx).isr) =
      some 3 := by
  decide +kernel

theorem test_icr_mc :
    after (.icrMc .tx 1 .read) (withRegs rTx1 (fun x => { x with isr := 3 }) mc)
      (fun t => (t.answers, (t.regs rTx1).isr)) = some ([⟨0x50, .okValue 0⟩], 3) := by
  decide +kernel

/-- One entry, then another, in the FIFO of V45-3. -/
def stamped (q : Chan) (s : State) : State :=
  s.setTxe q { s.txe q with tsf := [⟨0, 0x0000000100000002⟩, ⟨4, 9⟩] }

/-- V45-3. -/
theorem test_tsf_sq :
    after (.tsfCntSq .read) (stamped 0 sq) (fun t => t.answers) = some [⟨0x50, .okValue 2⟩] ∧
    after (.tsfTagSq .read) (stamped 0 sq) (fun t => t.answers) = some [⟨0x50, .okValue 0⟩] ∧
    after (.tsfLoSq .read) (stamped 0 sq) (fun t => t.answers) = some [⟨0x50, .okValue 2⟩] ∧
    after (.tsfHiSq .read) (stamped 0 sq) (fun t => (t.answers, (t.txe 0).tsf)) =
      some ([⟨0x50, .okValue 1⟩], [⟨4, 9⟩]) := by
  decide +kernel

/-- V45-3: the empty FIFO. -/
theorem test_tsf_mc :
    after (.tsfCntMc 1 .read) mc (fun t => t.answers) = some [⟨0x50, .okValue 0⟩] ∧
    after (.tsfTagMc 1 .read) mc (fun t => t.answers) = some [⟨0x50, .okValue 0xFFFF⟩] ∧
    after (.tsfLoMc 1 .read) mc (fun t => t.answers) = some [⟨0x50, .okValue 0⟩] ∧
    after (.tsfHiMc 1 .read) mc (fun t => t.answers) = some [⟨0x50, .okValue 0⟩] := by
  decide +kernel

/-- V42-5: a channel in a reset keeps its bit, the other is asked to stop. -/
theorem test_chen :
    after (.chen .tx (.write 0)) (withRegs rTx (fun x => { x with resetBusy := true }) mc)
      (fun t => (t.regValue (.chen .tx), (t.regs rTx1).stopPending, (t.regs rTx).stopPending)) = some (1, true, false) ∧
    after (.chen .tx .read) (stopped rTx mc) (fun t => t.answers) = some [⟨0x50, .okValue 2⟩] := by
  decide +kernel

/-- V46-6. -/
theorem test_ch_ier :
    after (.chIer .rx (.write 2)) (withRegs ⟨.rx, 1⟩ (fun x => { x with chIer := false, chIsr := true }) mc)
      (fun t => (t.regValue (.chIer .rx), t.irq .rx)) = some (2, true) ∧
    after (.chIer .rx (.write 0xFFFFFFFF)) mc (fun t => (t.regValue (.chIer .rx), t.irq .rx)) = some (3, false) := by
  decide +kernel

/-- V46-6. -/
theorem test_ch_isr_icr :
    after (.chIsr .tx (.write 0xF)) mc (fun t => t.regValue (.chIsr .tx)) = some 0 ∧
    after (.chIcr .tx (.write 1))
      (withRegs rTx (fun x => { x with chIsr := true }) (withRegs rTx1 (fun x => { x with chIsr := true }) mc))
      (fun t => t.regValue (.chIsr .tx)) = some 2 := by
  decide +kernel

/-- V46-6: both halted, then channel 0 running. -/
theorem test_weight0 :
    after (.weight0 (.write 0x13)) (stopped rTx (stopped rTx1 mc)) (fun t => t.regValue .weight0) = some 0x13 ∧
    after (.weight0 (.write 0x25)) (stopped rTx1 mc) (fun t => t.regValue .weight0) = some 0x21 := by
  decide +kernel

/-- V30-4: channel 9's field of `WEIGHT1`, with 16 channels, all halted. -/
theorem test_weight1 :
    after (.weight1 (.write 0x50)) (State.powerOn .mc 16) (fun t => (t.weight 9, t.weight 8, t.weight 1)) =
      some (5, 0, 1) ∧
    after (.weight1 .read) (State.powerOn .mc 2) (fun t => t.answers) = some [⟨0x50, .okValue 0⟩] := by
  decide +kernel

/-- V46-7. -/
theorem test_reserved_offset :
    after (.reservedOffset 0x00C (.write 0xFFFFFFFF)) sq (fun t => decide (t = sq)) = some true ∧
    after (.reservedOffset 0x080 .read) sq (fun t => t.answers) = some [⟨0x50, .okValue 0⟩] := by
  decide +kernel

/-- V46-1, V46-6 by the commands. -/
theorem test_reg_read :
    after (.regRead 0x028) State.reset (fun t => t.answers) = some [⟨0x50, .okValue 0xFFFF⟩] ∧
    after (.regRead 0x010) (State.powerOn .mc 2) (fun t => t.answers) = some [⟨0x50, .okValue 0x11⟩] := by
  decide +kernel

theorem test_reg_write :
    after (.regWrite 0x008 0x10000044) (stopped rTx sq) (fun t => (t.regs rTx).curdesc) = some 0x10000040 ∧
    after (.regWrite 0x050 0x18000080) sq (fun t => (t.regs rRx).taildesc) = some 0x18000080 := by
  decide +kernel

/-- R330: any context may issue a transaction, an `ATTACH` in progress or not. -/
theorem test_reg_read_any_time :
    after (.regRead 0x004) (State.reset.setTasks [.attach .arm cfgSq]) (fun t => t.answers) = some [⟨0x50, .okValue 1⟩] := by
  decide +kernel

/-! ### Descriptor words and pools -/

/-- R15, R141, V30-3: the word lands little-endian at its offset and the ring owes a `WMB`. -/
theorem test_desc_ctrl_sq :
    after (.descCtrlSq .tx 0 3 0x0C00003C) (words [(0x100000DC, 0)] sq)
      (fun t => (memBytes t.mem 0x100000D8 4, t.unfenced rTx)) = some ([0x3C, 0, 0, 0x0C], true) := by
  decide +kernel

theorem test_desc_ctrl_mc :
    after (.descCtrlMc .tx 1 0 0xC000003C) (words [(0x10000218, 0)] mc) (fun t => memWord t.mem 0x10000214) =
      some 0xC000003C := by
  decide +kernel

/-- Where each other word is stored (R141), on a TX ring and an RX ring whose descriptors nothing has completed. -/
theorem test_desc_words_tx :
    let s := words [(0x1000001C, 0)] sq
    after (.descNext .tx 0 3 0x10000000) (stopped rTx (words [(0x100000DC, 0)] sq)) (fun t => memWord t.mem 0x100000C0) =
      some 0x10000000 ∧
    after (.descBuf .tx 0 0 7) s (fun t => memWord t.mem 0x10000008) = some 7 ∧
    after (.descStatus .tx 0 0 0) s (fun t => memWord t.mem 0x1000001C) = some 0 ∧
    after (.descApp0Tx 0 0 2) s (fun t => memWord t.mem 0x10000020) = some 2 ∧
    after (.descApp1Tx 0 0 3) s (fun t => memWord t.mem 0x10000024) = some 3 ∧
    after (.descApp2Tx 0 0 4) s (fun t => memWord t.mem 0x10000028) = some 4 ∧
    after (.descApp3Tx 0 0 0) s (fun t => memWord t.mem 0x1000002C) = some 0 ∧
    after (.descApp4Tx 0 0 0x80000005) s (fun t => memWord t.mem 0x10000030) = some 0x80000005 ∧
    after (.descSwFrame .tx 0 0 9) s (fun t => memWord t.mem 0x10000034) = some 9 ∧
    after (.descSwMap .tx 0 0 2) s (fun t => memWord t.mem 0x10000038) = some 2 ∧
    after (.descSwTag .tx 0 0 5) s (fun t => memWord t.mem 0x1000003C) = some 5 := by
  decide +kernel

/-- R196: a receive application word is written 0, while the ring is halted. -/
theorem test_desc_words_rx :
    let s := stopped rRx <| words [(0x1800001C, 0), (0x18000020, 1), (0x18000024, 2), (0x18000028, 3), (0x1800002C, 4),
      (0x18000030, 5)] sq
    after (.descApp0Rx 0 0 0) s (fun t => memWord t.mem 0x18000020) = some 0 ∧
    after (.descApp1Rx 0 0 0) s (fun t => memWord t.mem 0x18000024) = some 0 ∧
    after (.descApp2Rx 0 0 0) s (fun t => memWord t.mem 0x18000028) = some 0 ∧
    after (.descApp3Rx 0 0 0) s (fun t => memWord t.mem 0x1800002C) = some 0 ∧
    after (.descApp4Rx 0 0 0) s (fun t => memWord t.mem 0x18000030) = some 0 := by
  decide +kernel

/-- R152: no rule writes another chain word, one of a running ring, a nonzero `STATUS` or a nonzero receive word, a word of a
complete descriptor that is not reclaimed yet, or one of a running receive ring. -/
theorem test_desc_word_unruled :
    let s := words [(0x1000001C, 0), (0x1800001C, 0)] sq
    let c := words [(0x1000001C, 0x8000003C)] sq
    refusal (.descNext .tx 0 0 0x10000080) (stopped rTx s) = some .noSuchWrite ∧
    refusal (.descNext .tx 0 0 0x10000040) s = some .noSuchWrite ∧
    refusal (.descStatus .tx 0 0 0x8000003C) s = some .noSuchWrite ∧
    refusal (.descApp4Rx 0 0 5) (stopped rRx s) = some .noSuchWrite ∧
    refusal (.descStatus .tx 0 0 0) c = some .noSuchWrite ∧ refusal (.descSwFrame .tx 0 0 7) c = some .noSuchWrite ∧
    refusal (.descBuf .rx 0 0 7) s = some .noSuchWrite := by
  decide +kernel

/-- R297: the descriptors and frame handles of a `Fatal` ring stay as they were. -/
theorem test_desc_word_fatal :
    refusal (.descSwFrame .tx 0 0 7) (inState .fatal rTx (words [(0x1000001C, 0)] sq)) = some .wrongRingState := by
  decide +kernel

/-- U17: not while the engine owns the descriptor, that is from `completion` to `hw_tail`. -/
theorem test_desc_word_owned :
    let s := withSw rTx (fun w => { w with issue := 1, hwTail := 1 }) (words [(0x1000001C, 0), (0x1000005C, 0)] sq)
    refusal (.descBuf .tx 0 0 7) s = some .engineOwnsDescriptor ∧
    after (.descBuf .tx 0 1 7) s (fun t => memWord t.mem 0x10000048) = some 7 := by
  decide +kernel

/-- Power-on with the draw of the platform allocator. -/
def alloc (o : Option Word) : State := draws { Env.empty with allocs := [o] } State.reset

/-- V40-2: a pool of two. -/
theorem test_allocate :
    after (.allocate .tx 0 2) (alloc (some 0x10000000))
      (fun t => (memWord t.mem 0x10000000, memWord t.mem 0x10000040, memWord t.mem 0x1000007C, (t.ring rTx).cap)) =
      some (0x10000040, 0x10000000, 0, 2) := by
  decide +kernel

/-- V40-2: the refusals. -/
theorem test_allocate_refused :
    after (.allocate .tx 0 1) State.reset (fun t => t.answers) = some [⟨3, .configError .size⟩] ∧
    after (.allocate .tx 0 32769) State.reset (fun t => t.answers) = some [⟨3, .configError .size⟩] ∧
    after (.allocate .tx 0 4) (alloc none) (fun t => t.answers) = some [⟨3, .outOfMemory⟩] ∧
    after (.allocate .tx 0 4) (alloc (some 0x10000020)) (fun t => t.answers) = some [⟨3, .configError .alignment⟩] ∧
    after (.allocate .tx 0 4) (alloc (some 0xFFFFFF40)) (fun t => t.answers) = some [⟨3, .configError .alignment⟩] ∧
    refusal (.allocate .tx 0 4) sq = some .alreadyAllocated := by
  decide +kernel

/-- V40-3. -/
theorem test_reset_ring :
    after (.resetRing .tx 0)
      (words [(0x10000080, 0xDEADBEC0), (0x1000005C, 0x8000003C)]
        (withSw rTx (fun w => { w with issue := 3, hwTail := 3, completion := 1 }) (stopped rTx sq)))
      (fun t => ((t.ring rTx).issue, (t.ring rTx).completion, memWord t.mem 0x10000080, memWord t.mem 0x100000C0,
        memWord t.mem 0x1000005C)) = some (0, 0, 0x100000C0, 0x10000000, 0) := by
  decide +kernel

/-- Fresh RX buffers of CFG-SQ. -/
def buffers : Env :=
  { Env.empty with rxBuffers := [(101, 0x30000000), (102, 0x30000800), (103, 0x30001000), (104, 0x30001800)] }

/-- V40-4: slots 0 to 2 are fresh, slot 3 has its buffer 77. -/
theorem test_arm_rx :
    after (.armRx 0)
      (draws buffers (stopped rRx (words [(0x18000034, 0), (0x18000074, 0), (0x180000B4, 0), (0x180000F4, 77)] sq)))
      (fun t => ([0x18000008, 0x18000074, 0x180000F4, 0x180000D8].map (memWord t.mem), t.env.rxBuffers)) =
      some ([0x30000000, 102, 77, 0x600], [(104, 0x30001800)]) := by
  decide +kernel

/-- V40-5, V40-6, R198: a pool of two, the second slot never filled. -/
theorem test_free_ring :
    after (.freeRing .tx 0)
      (words [(0x10000008, 0x20000000), (0x10000018, 0x0C00003C), (0x10000034, 1), (0x10000038, 1), (0x10000074, 0),
        (0x10000078, 0)] (withSw rTx (fun w => { w with cap := 2 }) ((stopped rTx sq).setCtx false)))
      (fun t => (t.events, (t.ring rTx).dropped, (t.ring rTx).present, memWord t.mem 0x10000018,
        memWord t.mem 0x10000008)) =
      some ([.unmap 0x20000000 60 1, .release 1], 1, false, 0, 0x20000000) := by
  decide +kernel

/-- R198, R299: with a context only `DETACH` frees a ring. R297: a ring that is `Fatal` turns the pool commands away. -/
theorem test_free_ring_context :
    refusal (.freeRing .tx 0) (stopped rTx sq) = some .usedByDetachOnly ∧
    after (.resetRing .tx 0) (withSw rTx (fun w => { w with rstate := .fatal }) (stopped rTx sq)) (fun t => t.answers) =
      some [⟨4, .fatal⟩] := by
  decide +kernel

/-! ### Offload -/

/-- The offload configuration. -/
def modes (c : Caps) (s : State) : State := s.setModes c

def csumFrame : Frame := ⟨9, [⟨0x20000000, 60, .single⟩], true, 34, 50, 0xA1B2, true⟩

/-- V45-1, third row. -/
theorem test_offload_tx_partial :
    after (.offloadTx 0 csumFrame) ((modes ⟨.part, .off, true⟩ sq).setTags 0 ⟨5, []⟩) (fun t => (t.answers, t.tags 0)) =
      some ([⟨0x18, .okWords ⟨1, 0x00220032, 0xA1B2, 0, 0x80000005⟩⟩], ⟨6, [(5, 9)]⟩) := by
  decide +kernel

/-- V45-1, fifth row: 0xFFFE is followed by 0. -/
theorem test_offload_tx_wrap :
    after (.offloadTx 0 { csumFrame with csumReq := false }) ((modes ⟨.full, .off, true⟩ sq).setTags 0 ⟨0xFFFE, []⟩)
      (fun t => (t.answers, (t.tags 0).nextTag)) = some ([⟨0x18, .okWords ⟨0, 0, 0, 0, 0x8000FFFE⟩⟩], 0) := by
  decide +kernel

/-- V45-2 with the words of V47-7. -/
theorem test_offload_rx :
    after (.offloadRx 0 0)
      (words [(0x18000020, 0x89ABCDEF), (0x18000024, 0x01234567), (0x18000028, 0xFFFFFFD7), (0x1800002C, 0x1234BEEF)]
        (modes ⟨.off, .full, true⟩ sq)) (fun t => t.answers) =
      some [⟨0x19, .okRx .hardwareVerified 0xBEEF (some 0x0123456789ABCDEF)⟩] := by
  decide +kernel

/-! ### The ring engine operations -/

/-- V41-1. -/
theorem test_submit_tx :
    after (.submitTx 0 frame1) sq
      (fun t => (t.answers, [memWord t.mem 0x10000018, memWord t.mem 0x10000034, (t.regs rTx).taildesc],
        [(t.ring rTx).issue, (t.ring rTx).hwTail], (t.regs rTx).tailValid)) =
      some ([⟨0x10, .ok⟩], [0x0C00003C, 1, 0x10000000], [1, 1], true) := by
  decide +kernel

/-- V41-4: three fragments across the wrap. -/
theorem test_submit_tx_wrap :
    after (.submitTx 0 frame7) (withSw rTx (fun w => { w with issue := 2, hwTail := 2, completion := 2 }) sq)
      (fun t => ([0x10000098, 0x100000D8, 0x10000018, 0x10000034, 0x100000F8].map (memWord t.mem), (t.ring rTx).issue,
        (t.regs rTx).taildesc)) = some ([0x0800000E, 0x000003E8, 0x040001E6, 7, 2], 1, 0x10000000) := by
  decide +kernel

/-- Descriptor 0 of (RX,0) as `E_RX_DESC` leaves it in V47-6. -/
def rxDone (st : Word) (s : State) : State :=
  words [(0x18000008, 0x30000000), (0x1800001C, st), (0x18000028, 0), (0x1800002C, 0), (0x18000034, 101),
    (0x18000038, 1), (0x30000000, 0x04030201)] s

/-- V41-12 with a frame of 4 bytes. -/
theorem test_poll_rx :
    after (.pollRx 0 8) (draws { Env.empty with rxBuffers := [(105, 0x30002000)] } (rxDone 0x8C000004 sq))
      (fun t => (t.tasks, t.events, memWord t.mem 0x18000008, (t.ring rRx).completion, (t.ring rRx).packets)) =
      some ([.poll ⟨0, 8, 1, [⟨[1, 2, 3, 4], 4, .unsupported, 0, none, 101, 0x30000000⟩], some 0⟩],
        [.unmap 0x30000000 1536 1], 0x30002000, 1, 1) := by
  decide +kernel

/-- V41-13: a piece of a spanning frame counts as an error and keeps its buffer. -/
theorem test_poll_rx_piece :
    after (.pollRx 0 8) (rxDone 0x88000040 sq)
      (fun t => (memWord t.mem 0x18000034, memWord t.mem 0x1800001C, memWord t.mem 0x18000018, (t.ring rRx).errors,
        (t.ring rRx).packets)) = some (101, 0, 0x600, 1, 0) := by
  decide +kernel

/-- R218: the consumer takes one frame and no more; the doorbell rings. -/
theorem test_poll_rx_abandoned :
    (match abandon 0 (sq.setTasks [.poll ⟨0, 8, 1, [], some 2⟩]) with
     | .next t => some ((t.regs rRx).taildesc, t.answers, t.tasks)
     | .fault _ => none
     | .refused _ => none) = some (0x18000080, [⟨0x11, .okFrames []⟩], []) := by
  decide +kernel

/-- R18 (g), R84: a frame arrives; one that is too long is none. R82: bytes of a buffer are written, those of a pool not. -/
theorem test_environment :
    ((sq.receive 0 ⟨[1, 2], appZero⟩).rxe 0).stream = [⟨[1, 2], appZero⟩] ∧
    ((sq.receive 0 ⟨List.replicate 1519 1, appZero⟩).rxe 0).stream = [] ∧
    memBytes (sq.poke 0x20000000 [7, 8]).mem 0x20000000 2 = [7, 8] ∧ (sq.poke 0x0FFFFFFF [7, 8]).mem = [] := by
  decide +kernel

/-- Descriptor 0 of (TX,0), submitted for frame 1 and completed with a status (V41-2). -/
def txDone (st : Word) (s : State) : State :=
  words [(0x10000008, 0x20000000), (0x10000018, 0x0C00003C), (0x1000001C, st), (0x10000034, 1), (0x10000038, 1),
    (0x1000003C, 0)] (withSw rTx (fun w => { w with issue := 1, hwTail := 1 }) s)

/-- V41-3. -/
theorem test_reclaim_tx :
    after (.reclaimTx 0) (txDone 0x8000003C sq)
      (fun t => (t.events, t.tasks, (t.ring rTx).completion, (t.ring rTx).packets, (t.ring rTx).bytes,
        memWord t.mem 0x10000018)) =
      some ([.unmap 0x20000000 60 1, .release 1], [.reclaim ⟨0, [1]⟩], 1, 1, 60, 0) := by
  decide +kernel

/-- V41-5, last descriptor: an error counts, nothing else. -/
theorem test_reclaim_tx_error :
    after (.reclaimTx 0) (txDone 0x90000000 sq) (fun t => ((t.ring rTx).packets, (t.ring rTx).errors, (t.ring rTx).bytes)) =
      some (0, 1, 0) := by
  decide +kernel

/-! ### The scheduler -/

/-- V42-1. -/
theorem test_configure_weight :
    after (.configureWeight 1 15) ((stopped rTx (stopped rTx1 mc)).writeWeight false 0x13)
      (fun t => (t.answers, t.regValue .weight0)) = some ([⟨0x20, .ok⟩], 0xF3) := by
  decide +kernel

theorem test_configure_weight_refused :
    after (.configureWeight 1 16) (stopped rTx1 mc) (fun t => t.answers) = some [⟨0x20, .invalidConfiguration⟩] ∧
    after (.configureWeight 0 5) mc (fun t => t.answers) = some [⟨0x20, .invalidConfiguration⟩] ∧
    after (.configureWeight 2 1) mc (fun t => t.answers) = some [⟨0x20, .invalidConfiguration⟩] ∧
    after (.configureWeight 0 5) sq (fun t => t.answers) = some [⟨0x20, .invalidConfiguration⟩] := by
  decide +kernel

/-- V42-4: channel 1 halted and its bits clear. -/
theorem test_enable_channel :
    after (.enableChannel 1 .txOnly) (withRegs rTx1 (fun x => { x with run := false, chIer := false }) mc)
      (fun t => (t.answers, t.regValue (.chen .tx), t.regValue (.chIer .tx), crWord (t.regs rTx1))) =
      some ([⟨0x21, .ok⟩], 3, 3, 0x00010001) := by
  decide +kernel

theorem test_disable_channel :
    after (.disableChannel 0 .txOnly) mc
      (fun t => (t.answers, t.regValue (.chen .tx), t.regValue (.chIer .tx), (t.regs rTx).stopPending, (t.regs rRx).run)) =
      some ([⟨0x22, .ok⟩], 2, 2, true, true) := by
  decide +kernel

/-- Both TX channels eligible. -/
def both (s : State) : State := rung rTx 0x10000000 (rung rTx1 0x10000200 s)

/-- V42-6, grants 1 and 4. -/
theorem test_arb_grant :
    after .eArbGrant ((both mc).grantTo 1 |>.setGrant none) (fun t => (t.hw.grant, t.credit 0, t.hw.rrPtr)) =
      some (some 0, 0, 1) ∧
    after .eArbGrant
      { both mc with hw := { (both mc).hw with credit := vset (vset (both mc).hw.credit 0 0) 1 1, rrPtr := 1 } }
      (fun t => (t.hw.grant, t.credit 0, t.credit 1, t.hw.rrPtr)) = some (some 1, 0, 0, 2) := by
  decide +kernel

/-- U10, V42-9: a channel whose weight a raw write has set to 0 is not granted, though it has credit left. -/
theorem test_arb_weight_zero :
    after .eArbGrant
      { both mc with hw := { (both mc).hw with weight := vset (both mc).hw.weight 0 0, credit := vset (both mc).hw.credit 0 2 } }
      (fun t => (t.hw.grant, t.credit 0)) = some (some 1, 0) := by
  decide +kernel

/-! ### The interrupt handler -/

/-- V43-1, first step: the output falls, the handler goes on. -/
theorem test_irq_service :
    after (.irqService .tx 64) (sq.setIrq .tx true) (fun t => (t.irq .tx, t.tasks)) =
      some (false, [.irq .tx 64 [0] .entry]) := by
  decide +kernel

/-- R276: a run begun with the output low changes nothing, whatever `ISR` holds. -/
theorem test_irq_spurious :
    let s := withRegs rTx (fun x => { x with isr := 1, ier := 6 }) sq
    after (.irqService .tx 64) s (fun t => decide (t = s)) = some true := by
  decide +kernel

/-- V43-5: with more frames ready the causes stay, are enabled, and are delivered again at once. -/
theorem test_irq_last_write :
    afterResume 0 ((withRegs rRx (fun x => { x with isr := 1, ier := 6 }) sq).setTasks [.irq .rx 2 [] (.writeIer 0 1 6)])
      (fun t => ((t.regs rRx).ier, t.irq .rx, t.tasks)) = some (6, true, []) := by
  decide +kernel

/-! ### Recovery -/

/-- V44-1. -/
theorem test_recover_begin :
    after (.recoverBegin .tx 0)
      (draws { Env.empty with resetCompletes := [true] } (withSw rTx (fun w => { w with recoveryPending := true }) (stopped rTx sq)))
      (fun t => ((t.ring rTx).rstate, (t.ring rTx).recoveryPending, crWord (t.regs rTx))) =
      some (.halting, false, 0x00010004) := by
  decide +kernel

/-- R291: not while an `ATTACH` still has registers of the ring to write. -/
theorem test_recover_begin_attach :
    refusal (.recoverBegin .tx 0)
      ((withSw rTx (fun w => { w with recoveryPending := true }) sq).setTasks [.attach (.enable [.bell rRx]) cfgSq]) =
      some .contextBusy := by
  decide +kernel

/-- V44-3, and V44-2, third poll. -/
theorem test_recover_poll :
    after (.recoverPoll .tx 0) (inState .halting rTx (stopped rTx sq)) (fun t => (t.ring rTx).rstate) = some .halted ∧
    after (.recoverPoll .tx 0) (withSw rTx (fun w => { w with rstate := .halting, retries := 2 }) sq)
      (fun t => ((t.ring rTx).rstate, (t.ring rTx).fatalCause, t.events)) =
      some (.fatal, some .resetTimeout, [.fatal rTx .resetTimeout]) := by
  decide +kernel

/-- V44-4 with one frame in flight. -/
theorem test_recover_drain :
    after (.recoverDrain .tx 0) ((inState .halted rTx (stopped rTx (txDone 0 sq))).setTags 0 ⟨1, [(0, 21)]⟩)
      (fun t => (t.events, [(t.ring rTx).dropped, (t.ring rTx).packets], (t.ring rTx).rstate, (t.tags 0).tagmap)) =
      some ([.unmap 0x20000000 60 1, .release 1], [1, 0], .reconfiguring, []) := by
  decide +kernel

/-- V44-5, up to the first register write. -/
theorem test_recover_reconfig :
    after (.recoverReconfig .tx 0)
      (withSw rTx (fun w => { w with issue := 3, hwTail := 3, completion := 1 }) (inState .reconfiguring rTx (stopped rTx sq)))
      (fun t => ((t.ring rTx).issue, (t.ring rTx).completion, memWord t.mem 0x100000C0, t.tasks)) =
      some (0, 0, 0x10000000, [.reconfig rTx .curdesc]) := by
  decide +kernel

/-! ### Lifecycle -/

/-- V48-1. -/
theorem test_attach_invalid :
    after (.attach { cfgSq with nq := 2, regBase := 0x40001800 }) State.reset (fun t => t.answers) =
      some [⟨1, .configError .queueCount⟩] ∧
    after (.attach { cfgMc with initWeight := [3, 16] }) State.reset (fun t => t.answers) =
      some [⟨1, .configError .weight⟩] := by
  decide +kernel

theorem test_attach_valid :
    after (.attach cfgSq) State.reset (fun t => (t.tasks, t.answers)) = some ([.attach .allocate cfgSq], []) := by
  decide +kernel

/-- R425, phase 1; the accesses of phase 2 are left. -/
theorem test_detach :
    after .detach sq (fun t => ((t.ring rTx).rstate, (t.ring rRx).rstate, t.tasks)) =
      some (.fatal, .fatal, [.detach (.mask [.maskIer rTx, .reset rTx, .maskIer rRx, .reset rRx])]) := by
  decide +kernel

/-- V48-3: the third poll that reads 0 is the last, and the cause of that ring alone. -/
theorem test_detach_timeout :
    afterResume 0 (sq.setTasks [.detach (.poll [rTx, rRx] 2)])
      (fun t => (t.answers, (t.ring rTx).fatalCause, (t.ring rRx).fatalCause, t.sw.ctxPresent)) =
      some ([⟨2, .resetTimeout⟩], some .resetTimeout, none, true) := by
  decide +kernel

/-- R420, D45: one register access of phase 5 of `ATTACH` a step; R18 (d): meanwhile no other operation of the context. -/
theorem test_attach_access :
    afterResume 0 ((stopped rTx sq).setTasks [.attach (.program [.curdesc rTx, .cr rTx]) cfgSq])
      (fun t => ((t.regs rTx).curdesc, t.tasks)) = some (0x10000000, [.attach (.program [.cr rTx]) cfgSq]) ∧
    refusal (.linkNotify true) (sq.setTasks [.attach .arm cfgSq]) = some .contextBusy := by
  decide +kernel

/-- Log 31: phase 2 of `ATTACH` at a ring that has a pool (R190), and the `WMB` owed after a phase 2 that fails (R423, R121). -/
theorem test_attach_pools :
    resume 0 (((stopped rTx (stopped rRx sq)).setCtx false).setTasks [.attach .allocate cfgSq]) =
      .refused .alreadyAllocated ∧
    afterResume 0 (draws { Env.empty with allocs := [some 0x10000000, none] } (State.reset.setTasks [.attach .allocate cfgSq]))
      (fun t => ((t.ring rTx).present, t.unfenced rTx, t.answers)) = some (false, true, [⟨0x01, .configError .memory⟩]) := by
  constructor
  · rfl
  · decide +kernel

/-- R121: no doorbell between a descriptor write and its `WMB`, in `ATTACH` and in `RECOVER_RECONFIG`. -/
theorem test_bell_unordered :
    resume 0 ((sq.owe rRx).setTasks [.attach (.enable [.bell rRx]) cfgSq]) = .refused .doorbellUnordered ∧
    resume 0 (((withSw rRx (fun w => { w with rstate := .reconfiguring }) sq).owe rRx).setTasks [.reconfig rRx .enable]) =
      .refused .doorbellUnordered := by
  constructor <;> rfl

/-- V48-2. -/
theorem test_link_notify : after (.linkNotify false) sq (fun t => t.sw.linkUp) = some false := by decide +kernel

/-- R429. -/
theorem test_stats_snapshot :
    after .statsSnapshot (withSw rTx (fun w => { w with packets := 3, bytes := 180 }) sq) (fun t => t.answers) =
      some [⟨0x41, .okStats [⟨rTx, 3, 180, 0, 0, .running⟩, ⟨rRx, 0, 0, 0, 0, .running⟩]⟩] := by
  decide +kernel

/-! ### The engine -/

/-- Every response OKAY. -/
def okays (s : State) : State := draws { Env.empty with busResp := [.okay, .okay, .okay], ts := [7] } s

/-- The responses of a step that ends a received frame: the fetch, the buffer, the five application words, `STATUS` (R85). -/
def rxAnswers (apps : List BusResp) (s : State) : State :=
  draws { Env.empty with busResp := .okay :: .okay :: (apps ++ [.okay]) } s

def fiveOkay : List BusResp := [.okay, .okay, .okay, .okay, .okay]

/-- A one-descriptor frame of 4 bytes in descriptor 0 of (TX,0), rung. -/
def txReady (ctrl : Word) (s : State) : State :=
  rung rTx 0x10000000 (words [(0x10000000, 0x10000040), (0x10000008, 0x20000000), (0x10000018, ctrl), (0x1000001C, 0),
    (0x10000020, 0), (0x10000024, 0), (0x10000028, 0), (0x1000002C, 0), (0x10000030, 0), (0x20000000, 0x04030201)] s)

/-- V41-2 with a frame of 4 bytes. -/
theorem test_e_tx_desc :
    after (.eTxDesc 0) (okays (txReady 0x0C000004 sq))
      (fun t => (t.events, [memWord t.mem 0x1000001C, (t.regs rTx).curdesc, srWord (t.regs rTx)],
        [(t.regs rTx).isr, (t.regs rTx).ier], t.irq .tx)) =
      some ([.txStream 0 [1, 2, 3, 4] appZero], [0x80000004, 0x10000040, 2], [1, 6], true) := by
  decide +kernel

/-- V47-3 (a): no `SOF` and no frame being assembled. -/
theorem test_e_tx_desc_protocol :
    after (.eTxDesc 0) (okays (txReady 0x04000004 sq)) (fun t => (t.events, memWord t.mem 0x1000001C, t.env.busResp)) =
      some ([], 0x90000000, [.okay]) := by
  decide +kernel

/-- Descriptor 0 of (RX,0), armed and rung to the end of the ring, and a frame at the head of the stream. -/
def rxReady (ctrl : Word) (f : StreamFrame) (s : State) : State :=
  (rung rRx 0x180000C0 (words [(0x18000000, 0x18000040), (0x18000008, 0x30000000), (0x18000018, ctrl), (0x1800001C, 0),
    (0x18000020, 0), (0x18000024, 0), (0x18000028, 0), (0x1800002C, 0), (0x18000030, 0)] s)).setRxe 0 ⟨none, [f]⟩

/-- V47-6, V47-7 with a frame of 2 bytes. -/
theorem test_e_rx_desc :
    after (.eRxDesc 0) (rxAnswers fiveOkay (rxReady 0x600 ⟨[1, 2], ⟨0x89ABCDEF, 0x01234567, 0x10, 0xBEEF, 0⟩⟩ sq))
      (fun t => (memBytes t.mem 0x30000000 2, [memWord t.mem 0x1800001C, memWord t.mem 0x1800002C, (t.regs rRx).curdesc],
        (t.regs rRx).isr, t.rxe 0)) = some ([1, 2], [0x8C000002, 0xBEEF, 0x18000040], 1, ⟨none, []⟩) := by
  decide +kernel

/-- R85: a response for each access; R388: the application words are written whatever the answers to them are. -/
theorem test_e_rx_desc_app_error :
    after (.eRxDesc 0) (rxAnswers [.okay, .slverr, .okay, .okay, .decerr]
        (rxReady 0x600 ⟨[1, 2], ⟨0x89ABCDEF, 0x01234567, 0x10, 0xBEEF, 0⟩⟩ sq))
      (fun t => (t.env.busResp, memWord t.mem 0x1800001C, memWord t.mem 0x18000024, memWord t.mem 0x1800002C)) =
      some ([], 0x8C000002, 0x01234567, 0xBEEF) := by
  decide +kernel

/-- V47-8: the first piece of a frame that spans two descriptors. -/
theorem test_e_rx_desc_spanning :
    after (.eRxDesc 0) (okays (rxReady 2 ⟨[1, 2, 3], appZero⟩ sq))
      (fun t => (memBytes t.mem 0x30000000 2, memWord t.mem 0x1800001C, (t.regs rRx).isr, (t.rxe 0).rem)) =
      some ([1, 2], 0x88000002, 0, some ⟨[3], appZero, false⟩) := by
  decide +kernel

def txDesc (ctrl status : Word) : Desc := ⟨0x10000040, 0x20000000, ctrl, status, appZero, 0, 0, 0⟩

/-- The hardware words of a descriptor, stored at `a`. -/
def placed (a : Word) (w : Desc) (s : State) : State :=
  words [(a, w.next), (a + 8, w.buf), (a + BitVec.ofNat 32 (ctrlOff s.cfg.variant), w.ctrl),
    (a + BitVec.ofNat 32 (statusOff s.cfg.variant), w.status), (a + 0x20, w.app.a0), (a + 0x24, w.app.a1),
    (a + 0x28, w.app.a2), (a + 0x2C, w.app.a3), (a + 0x30, w.app.a4)] s

/-- V47-2 by the descriptor itself: length 0, whatever its software-only words; R398: one that is not at `CURDESC` is not run. -/
theorem test_descriptor_sq :
    let s := okays (rung rTx 0x10000000 (placed 0x10000000 (txDesc 0x0C000000 0) sq))
    after (.descriptorSq .tx 0 { txDesc 0x0C000000 0 with swFrame := 9 }) s
      (fun t => (t.events, memWord t.mem 0x1000001C, (t.regs rTx).isr)) = some ([], 0x90000000, 1) ∧
    after (.descriptorSq .tx 0 (txDesc 0x0C000004 0)) s (fun t => decide (t = s)) = some true := by
  decide +kernel

/-- R253, R142: in `MC` the end of the frame gives up the grant; a descriptor that is still complete is a fault (R382). -/
theorem test_descriptor_mc :
    let at_ (w : Desc) : State := okays ((rung rTx 0x10000040 (placed 0x10000000 w mc)).setGrant (some 0))
    after (.descriptorMc .tx 0 (txDesc 0xC0000000 0)) (at_ (txDesc 0xC0000000 0))
      (fun t => (memWord t.mem 0x10000018, t.hw.grant, (t.regs rTx).chIsr)) = some (0x90000000, none, true) ∧
    after (.descriptorMc .tx 0 (txDesc 0xC000003C 0x80000000)) (at_ (txDesc 0xC000003C 0x80000000))
      (fun t => (srWord (t.regs rTx), t.hw.grant)) = some (0x11, none) := by
  decide +kernel

/-- V47-5. -/
theorem test_e_delay_timeout :
    after (.eDelayTimeout .tx 0) (withRegs rTx (fun x => { x with thresh := 2, iocCount := 1, dlyArmed := true }) sq)
      (fun t => ((t.regs rTx).iocCount, (t.regs rTx).dlyArmed, (t.regs rTx).isr, (t.regs rTx).ier, t.irq .tx)) =
      some (2, false, 2, 5, true) := by
  decide +kernel

/-- V47-11, both variants. -/
theorem test_e_fault :
    after (.eFault .tx 0 .dec) sq
      (fun t => (srWord (t.regs rTx), crWord (t.regs rTx), (t.regs rTx).isr, (t.regs rTx).ier, t.irq .tx)) =
      some (0x41, 0x00010000, 4, 3, true) ∧
    after (.eFault .tx 1 .slv) (mc.setGrant (some 1))
      (fun t => (t.regValue (.chen .tx), t.hw.grant, (t.regs rTx1).isr, t.regValue (.chIsr .tx))) = some (1, none, 4, 2) := by
  decide +kernel

/-- V47-12. -/
theorem test_e_reset_done :
    after (.eResetDone .tx 0)
      (withRegs rTx (fun x => { x with resetBusy := true, resetCompletes := true, isr := 5, errDec := true, taildesc := 0x10000080 })
        (stamped 0 sq))
      (fun t => ([(t.regs rTx).curdesc, (t.regs rTx).taildesc, crWord (t.regs rTx), srWord (t.regs rTx)],
        (t.regs rTx).isr, (t.txe 0).tsf)) = some ([0, 0, 0x00010000, 1], 0, []) := by
  decide +kernel

/-- V46-2, sixth row. -/
theorem test_e_stop_done :
    after (.eStopDone .tx 0) (withRegs rTx (fun x => { x with run := false, stopPending := true, thresh := 2 }) sq)
      (fun t => (crWord (t.regs rTx), srWord (t.regs rTx), (t.regs rTx).curdesc)) = some (0x00020000, 1, 0x10000000) := by
  decide +kernel

/-! ### States that meet the hypotheses of the obligations -/

def isNext (o : Host.Outcome State Fault Refusal) : Bool :=
  match o with
  | .next _ => true
  | .fault _ => false
  | .refused _ => false

/-- The state after a step; the state itself when there is none. -/
def nextOf (s : State) : State :=
  match step s with
  | .next t => t
  | .fault _ => s
  | .refused _ => s

theorem steps_nextOf {s : State} (h : isNext (step s) = true) : Steps s (nextOf s) := by
  unfold Steps nextOf
  cases hs : step s <;> simp_all [isNext]

theorem exec_next {i : Instr} {s : State} (h : isNext (exec i s) = true) : ∃ t, exec i s = .next t := by
  cases hs : exec i s <;> simp_all [isNext]

theorem forall_ring {p : RingId → Prop} (h : ∀ q : Chan, p ⟨.tx, q⟩ ∧ p ⟨.rx, q⟩) (r : RingId) : p r := by
  obtain ⟨d, q⟩ := r
  cases d
  · exact (h q).1
  · exact (h q).2

theorem block_sq {s : State} {r : RingId} (hv : s.cfg.variant = .sq) (h : r.q = 0) : s.hasBlock r := by
  unfold State.hasBlock
  rw [hv]
  exact h

theorem block_mc {s : State} {r : RingId} (hv : s.cfg.variant = .mc) (h : r.q.val < s.cfg.nq) : s.hasBlock r := by
  unfold State.hasBlock
  rw [hv]
  exact h

/-- An operation is handed over. -/
def handed (i : Instr) (s : State) : State := s.setSched [.start (encode i)]

/-- A command is in progress and chosen. -/
def chosen (t : Task) (s : State) : State := (s.setTasks [t]).setSched [.resume 0]

theorem witness_DecodeEncode :
    Instr.wf .mc 16 (.crMc .rx 15 (.write 0xFFFFFFFF)) = true ∧ Instr.wf .sq 1 (.irqService .rx (2 ^ 32)) = true ∧
    Instr.wf .sq 1 (.reservedOffset 0xFFC .read) = true ∧ Instr.wf .sq 1 (.attach cfgSq) = true := by
  decide +kernel

theorem witness_ReservedOffsets :
    offWf 0x080 = true ∧ reservedOff sq.cfg.variant sq.cfg.nq 0x080 = true ∧ offWf 0xFFC = true ∧
    reservedOff mc.cfg.variant mc.cfg.nq 0x0C0 = true ∧ reservedOff mc.cfg.variant mc.cfg.nq 0x080 = false := by
  decide +kernel

theorem witness_UnknownIds :
    0 < 256 ∧ 0 ∉ listedIds ∧ 255 < 256 ∧ 255 ∉ listedIds ∧
    (sq.setSched [.start ⟨.command, BitVec.ofNat 8 255 :: []⟩]).sched =
      .start ⟨.command, BitVec.ofNat 8 255 :: []⟩ :: [] := by
  decide +kernel

/-- The last clauses: a frame that is offered and one that is not; bytes beside a pool and bytes that reach into it. -/
theorem witness_StepRunsDecoded :
    let f : StreamFrame := ⟨[1, 2], appZero⟩
    let p : Task := .poll ⟨0, 8, 0, [], none⟩
    ((handed .detach sq).sched = .start (encode .detach) :: [] ∧
      decode (handed .detach sq).cfg.variant (handed .detach sq).cfg.nq (encode .detach) = .ok .detach) ∧
    ((chosen p sq).sched = .resume 0 :: [] ∧ (chosen p sq).tasks[0]? = some p ∧ sq.sched = [] ∧
      ((chosen p sq).setSched [.abandon 0]).sched = .abandon 0 :: []) ∧
    ((sq.setSched [.receive 0 f]).sched = .receive 0 f :: [] ∧ (0 : Chan).val < sq.cfg.nq ∧ 1 ≤ f.bytes.length ∧
      f.bytes.length ≤ sq.cfg.maxFrame ∧ ¬((1 : Chan).val < sq.cfg.nq)) ∧
    (sq.setSched [.poke 0x0FFFFFFF [7, 8]]).sched = .poke 0x0FFFFFFF [7, 8] :: [] ∧
    (sq.setSched [.poke 0x20000000 [7]]).sched = .poke 0x20000000 [7] :: [] ∧ [7, 8].length ≤ 2 ^ 32 ∧
    (sq.ring rTx).present = true ∧ within32 (0x0FFFFFFF + BitVec.ofNat 32 1) (sq.ring rTx).base (64 * (sq.ring rTx).cap) ∧
    ∀ r : RingId, (sq.ring r).present = true →
      ¬(0x20000000 + BitVec.ofNat 32 0 - (sq.ring r).base).toNat < 64 * (sq.ring r).cap := by
  intro f p
  and_intros
  all_goals first | exact forall_ring (by decide +kernel : ∀ q : Chan, _) | decide +kernel | (unfold within32; decide +kernel)

/-- A step that writes memory. -/
theorem witness_MemoryKept :
    let s := handed (.submitTx 0 frame1) sq
    Memory.wf s.mem = true ∧ Steps s (nextOf s) ∧ (nextOf s).mem ≠ s.mem := by
  refine ⟨by decide +kernel, steps_nextOf (by decide +kernel), by decide +kernel⟩

theorem sq_regsLegal : sq.RegsLegal :=
  ⟨forall_ring (by decide +kernel : ∀ q : Chan, _), by decide +kernel⟩

/-- A step that rings a doorbell. -/
theorem witness_RegsKept :
    let s := handed (.submitTx 0 frame1) sq
    s.RegsLegal ∧ Steps s (nextOf s) ∧ (nextOf s).regs rTx ≠ s.regs rTx := by
  refine ⟨sq_regsLegal, steps_nextOf (by decide +kernel), by decide +kernel⟩

/-- A step that moves a cursor, and one that takes a tag. -/
theorem witness_RingsKept :
    let s := handed (.submitTx 0 frame1) sq
    let u := handed (.offloadTx 0 csumFrame) (modes ⟨.part, .off, true⟩ sq)
    (s.CursorsLegal ∧ Steps s (nextOf s) ∧ (nextOf s).ring rTx ≠ s.ring rTx) ∧
    u.TagsLegal ∧ Steps u (nextOf u) ∧ (nextOf u).tags 0 ≠ u.tags 0 := by
  refine ⟨⟨forall_ring (by decide +kernel : ∀ q : Chan, _), steps_nextOf (by decide +kernel), by decide +kernel⟩,
    (by decide +kernel : ∀ q : Chan, _), steps_nextOf (by decide +kernel), by decide +kernel⟩

theorem witness_ResetValues :
    let s := withRegs rTx1 (fun x => { x with resetBusy := true, resetCompletes := true }) (mc.setGrant (some 1))
    rTx1.q.val < s.cfg.nq ∧ (s.regs rTx1).resetBusy = true ∧ (s.regs rTx1).resetCompletes = true ∧
    s.cfg.variant = .mc ∧ s.hw.grant = some rTx1.q := by
  decide +kernel

/-- Every listed transition happens. -/
theorem witness_RStateMoves :
    let moves (s : State) : Prop := Steps s (nextOf s) ∧ ((nextOf s).ring rTx).rstate ≠ (s.ring rTx).rstate
    moves (handed .detach sq) ∧ moves (handed (.recoverBegin .tx 0) (withSw rTx (fun w => { w with recoveryPending := true }) sq)) ∧
    moves (handed (.recoverPoll .tx 0) (inState .halting rTx (stopped rTx sq))) ∧
    moves (handed (.recoverPoll .tx 0) (withSw rTx (fun w => { w with rstate := .halting, retries := 2 }) sq)) ∧
    moves (handed (.recoverDrain .tx 0) (inState .halted rTx sq)) ∧
    moves (chosen (.attach .present cfgSq) ((inState .fatal rTx sq).setCtx false)) ∧
    moves (chosen (.reconfig rTx .enable) (inState .reconfiguring rTx sq)) ∧ 
    moves (chosen (.detach (.poll [] 0)) (withSw rTx (fun w => { w with cap := 0 }) (withSw rRx (fun w => { w with cap := 0 }) sq))) := by
  intro moves
  and_intros
  all_goals first | exact steps_nextOf (by decide +kernel) | decide +kernel

/-- A step that writes memory: `STATUS` of the descriptor at `CURDESC`. -/
theorem witness_EngineLeavesSoftware :
    (isEngineStep (.eFault .tx 1 .dec) = true ∧ (∃ t, exec (.eFault .tx 1 .dec) mc = .next t) ∧
      ∀ d q, Instr.eFault .tx 1 .dec ≠ .eResetDone d q) ∧
    after (.eTxDesc 0) (okays (txReady 0x0C000004 sq)) (fun t => memByte t.mem 0x1000001C) = some 4 ∧
    memByte (okays (txReady 0x0C000004 sq)).mem 0x1000001C = 0 := by
  exact ⟨⟨rfl, exec_next (by decide +kernel), by intros; simp⟩, by decide +kernel, by decide +kernel⟩

theorem witness_RingIsolation :
    (opRing (.eFault .tx 1 .dec) = some (.tx, 1) ∧ (∃ t, exec (.eFault .tx 1 .dec) (mc.setGrant (some 1)) = .next t) ∧
      ¬((⟨.tx, 0⟩ : RingId).dir = .tx ∧ (⟨.tx, 0⟩ : RingId).q.val = 1)) ∧
    opRing (.resetRing .tx 0) = some (.tx, 0) ∧ (∃ t, exec (.resetRing .tx 0) (stopped rTx sq) = .next t) ∧
    isEngineStep (.resetRing .tx 0) = false ∧ (∀ n, Instr.resetRing .tx 0 ≠ .allocate .tx 0 n) ∧
    (stopped rTx sq).HasPool rTx ∧ ¬within32 0x18000000 ((stopped rTx sq).ring rTx).base (64 * ((stopped rTx sq).ring rTx).cap) := by
  and_intros
  all_goals first | exact exec_next (by decide +kernel) | decide +kernel | (unfold within32; decide +kernel) | (intros; simp)

theorem witness_NotEnabledDoesNothing :
    let x := mc.regs rTx1
    rTx1.q.val < mc.cfg.nq ∧ mc.txEnabled rTx1 = false ∧ mc.rxEnabled ⟨.rx, 1⟩ = false ∧ mc.descEnabled rTx1 = false ∧
    ¬(x.dlyArmed = true ∧ x.run = true ∧ x.resetBusy = false) ∧
    ¬(((stopped rTx1 mc).regs rTx1).run = true ∧ ((stopped rTx1 mc).regs rTx1).resetBusy = false) ∧
    ¬(x.resetBusy = true ∧ x.resetCompletes = true) ∧ ¬(x.stopPending = true ∧ x.resetBusy = false) ∧
    sq.cfg.variant = .sq ∧ (mc.setGrant (some 0)).hw.grant ≠ none ∧ ∀ c, mc.eligible c = true → mc.weight c = 0 := by
  decide +kernel

theorem witness_RegCommands :
    offWf 0xFFC = true ∧ offWf 0x010 = true ∧ decodeOff sq.cfg.variant sq.cfg.nq 0x010 = .taildesc rTx ∧
    sq.bellUnordered rTx = false ∧ ∀ r, Reg.reserved = .taildesc r → sq.bellUnordered r = false := by
  and_intros
  all_goals first | decide +kernel | (intro r h; cases h)

/-- Both variants, and each case of a write. -/
theorem witness_ControlAndStatus :
    let busy := withRegs rTx1 (fun x => { x with resetBusy := true }) mc
    sq.hasBlock rTx ∧ mc.hasBlock rTx1 ∧ mc.hasBlock ⟨.rx, 1⟩ ∧ busy.hasBlock rTx1 ∧ (busy.regs rTx1).resetBusy = true ∧
    (sq.regs rTx).resetBusy = false ∧ (4 : Word).getLsbD 2 = true ∧ (0x00010001 : Word).getLsbD 2 = false ∧
    (draws { Env.empty with resetCompletes := [true] } sq).env.resetCompletes = true :: [] := by
  intro busy
  refine ⟨?_, ?_, ?_, ?_, ?_⟩ <;> first | exact block_sq rfl rfl | exact block_mc rfl (by decide) | decide +kernel

theorem witness_PointerAccess :
    let x := sq.regs rTx
    (sq.hasBlock rTx ∧ mc.hasBlock rTx1 ∧ (sq.owe rTx).hasBlock rTx) ∧
    (x.run = true ∧ x.stopPending = false ∧ x.resetBusy = false) ∧
    (sq.owe rTx).unfenced rTx = true ∧ sq.unfenced rTx = false := by
  refine ⟨⟨block_sq rfl rfl, block_mc rfl (by decide), block_sq rfl rfl⟩, ?_⟩
  decide +kernel

theorem witness_InterruptRegisters :
    sq.hasBlock rTx ∧ sq.hasBlock rRx ∧ mc.hasBlock rTx1 := by
  and_intros <;> first | exact block_sq rfl rfl | exact block_mc rfl (by decide)

theorem witness_TsfRegisters : (stamped 0 sq).hasBlock ⟨.tx, 0⟩ ∧ mc.hasBlock ⟨.tx, 1⟩ ∧ ((stamped 0 sq).txe 0).tsf ≠ [] := by
  and_intros <;> first | exact block_sq rfl rfl | exact block_mc rfl (by decide) | decide +kernel

theorem witness_BitmapRegisters : mc.cfg.variant = .mc ∧ (1 : Chan).val < mc.cfg.nq := by decide +kernel

theorem witness_WeightAccess :
    mc.cfg.variant = .mc ∧ (8 ≤ (7 : Chan).val ↔ false = true) ∧ (8 ≤ (8 : Chan).val ↔ true = true) ∧
    (1 : Chan).val < (stopped rTx1 mc).cfg.nq ∧ ((stopped rTx1 mc).regs ⟨.tx, 1⟩).run = false := by
  decide +kernel

theorem witness_DelayTimeout :
    let s := withRegs rTx (fun x => { x with dlyArmed := true }) sq
    rTx.q.val < s.cfg.nq ∧ (s.regs rTx).dlyArmed = true ∧ (s.regs rTx).run = true ∧ (s.regs rTx).resetBusy = false := by
  decide +kernel

theorem witness_FaultTaken :
    rTx1.q.val < mc.cfg.nq ∧ (mc.regs rTx1).run = true ∧ (mc.regs rTx1).resetBusy = false ∧
    (⟨.rx, 1⟩ : RingId).q.val < mc.cfg.nq ∧ (mc.regs ⟨.rx, 1⟩).run = true := by
  decide +kernel

theorem witness_StopDone :
    let s := withRegs rTx (fun x => { x with run := false, stopPending := true }) sq
    rTx.q.val < s.cfg.nq ∧ (s.regs rTx).stopPending = true ∧ (s.regs rTx).resetBusy = false ∧
    regsLegal (s.regs rTx) = true := by
  decide +kernel

/-- The engine's step and the row of the descriptor there, with other software-only words; the only descriptor of its frame and the first, the middle and the last
of several. -/
theorem witness_TxFrameSent :
    let s := okays (txReady 0x0C000004 sq)
    let w := readDesc s.cfg.variant s.mem (s.regs rTx).curdesc
    let inside := s.setTxe 0 { s.txe 0 with asm := ⟨true, [1], appZero, false⟩ }
    ((0 : Chan).val < s.cfg.nq ∧ s.env.busResp = .okay :: .okay :: .okay :: [] ∧
      processing (s.regs rTx) = true ∧ (s.cfg.variant = .mc → s.hw.grant = some 0) ∧ 1 ≤ (s.regs rTx).iocCount) ∧
    (cmpltOf w.status = false ∧ lenOf w.ctrl ≠ 0 ∧ sofOf s.cfg.variant w.ctrl = !(s.txe 0).asm.active ∧
      ((s.txe 0).asm.active = true → (s.txe 0).asm.err = false) ∧ eofOf s.cfg.variant w.ctrl = true) ∧
    (sofOf .sq 0x08000004 = !(s.txe 0).asm.active ∧ eofOf .sq 0x08000004 = false) ∧
    (sofOf .sq 0x00000004 = !(inside.txe 0).asm.active ∧ (inside.txe 0).asm.err = false ∧ eofOf .sq 0x00000004 = false ∧
      eofOf .sq 0x04000004 = true) ∧
    tsReqOf appZero.a4 = false ∧ tsReqOf 0x80000005 = true ∧ s.env.ts = 7 :: [] ∧
    ∃ h k g, Instr.descriptorSq .tx 0 { w with swFrame := 9, swMap := 1, swTag := 2 } =
      descriptorRow s.cfg.variant rTx { w with swFrame := h, swMap := k, swTag := g } := by
  intro s w inside
  and_intros
  all_goals first | exact ⟨9, 1, 2, rfl⟩ | decide +kernel

/-- Length 0; `SOF` inside a frame and none at a start; a frame marked before; a bad answer. -/
theorem witness_TxFrameDropped :
    let s := okays (txReady 0x0C000000 sq)
    let u := draws { Env.empty with busResp := [.okay, .decerr, .okay] } (txReady 0x0C000004 sq)
    let m := (okays (txReady 0x00000004 sq)).setTxe 0 ⟨⟨true, [1], appZero, true⟩, []⟩
    let w := readDesc s.cfg.variant s.mem (s.regs rTx).curdesc
    let w' := readDesc u.cfg.variant u.mem (u.regs rTx).curdesc
    let w'' := readDesc m.cfg.variant m.mem (m.regs rTx).curdesc
    ((0 : Chan).val < s.cfg.nq ∧ processing (s.regs rTx) = true ∧ (s.cfg.variant = .mc → s.hw.grant = some 0) ∧
      1 ≤ (s.regs rTx).iocCount ∧ cmpltOf w.status = false ∧ lenOf w.ctrl = 0 ∧ eofOf .sq w.ctrl = true ∧
      s.env.busResp = .okay :: .okay :: [.okay]) ∧
    (sofOf .sq 0x08000004 = true ∧ sofOf .sq 0x04000004 = (s.txe 0).asm.active ∧ eofOf .sq 0x08000004 = false) ∧
    (processing (u.regs rTx) = true ∧ cmpltOf w'.status = false ∧
      ¬(lenOf w'.ctrl = 0 ∨ sofOf .sq w'.ctrl = (u.txe 0).asm.active) ∧ ¬sofOf .sq w'.ctrl = false ∧
      u.env.busResp = .okay :: .decerr :: .okay :: []) ∧
    processing (m.regs rTx) = true ∧ cmpltOf w''.status = false ∧ sofOf .sq w''.ctrl = false ∧
    (m.txe 0).asm.active = true ∧ (m.txe 0).asm.err = true ∧ m.env.busResp = .okay :: .okay :: [.okay] := by
  intro s u m w w' w''
  and_intros <;> decide +kernel

/-- A frame that fits, one that spans, the rest of one; no room, and a bad answer. -/
theorem witness_RxFrameStored :
    let f : StreamFrame := ⟨[1, 2], appZero⟩
    let s := rxAnswers fiveOkay (rxReady 2 f sq)
    let w := readDesc s.cfg.variant s.mem (s.regs rRx).curdesc
    ((0 : Chan).val < s.cfg.nq ∧ fiveOkay.length = 5 ∧ f.bytes.length ≤ lenOf w.ctrl ∧
      s.env.busResp = .okay :: .okay :: (fiveOkay ++ .okay :: []) ∧ (okays s).env.busResp = .okay :: .okay :: .okay :: [] ∧ processing (s.regs rRx) = true ∧
      1 ≤ (s.regs rRx).iocCount ∧ cmpltOf w.status = false ∧ s.rxe 0 = ⟨none, f :: []⟩ ∧ lenOf w.ctrl = 2) ∧
    (((s.setRxe 0 ⟨some ⟨[3], appZero, false⟩, []⟩).rxe 0) = ⟨some ⟨[3], appZero, false⟩, []⟩ ∧
      ¬([1, 2, 3].length ≤ lenOf w.ctrl) ∧ [3].length ≤ lenOf w.ctrl) ∧
    (lenOf (0x80000000 : Word) = 0 ∧ BusResp.slverr ≠ .okay ∧
      (draws { Env.empty with busResp := [.okay, .slverr, .okay] } s).env.busResp = .okay :: .slverr :: .okay :: []) ∧
    ∀ a, within32 a w.buf (min (lenOf w.ctrl) f.bytes.length) → ¬within32 a (s.regs rRx).curdesc 64 := by
  intro f s w
  have h1 : w.buf = 0x30000000 := by decide +kernel
  have h2 : (s.regs rRx).curdesc = 0x18000000 := by decide +kernel
  have h3 : min (lenOf w.ctrl) f.bytes.length = 2 := by decide +kernel
  have apart : ∀ a, within32 a w.buf (min (lenOf w.ctrl) f.bytes.length) → ¬within32 a (s.regs rRx).curdesc 64 := by
    intro a
    rw [h1, h2, h3]
    unfold within32
    intro h h'
    simp only [BitVec.toNat_sub, BitVec.reduceToNat] at h h'
    omega
  and_intros
  all_goals first | exact apart | decide +kernel

/-- Both directions, each response, a descriptor that is still complete; the write of `STATUS` answered badly, after a move of
bytes, with the application words and without, and without one. -/
theorem witness_EngineFetches :
    let s := okays (txReady 0x0C000004 sq)
    let u := okays (rxReady 2 ⟨[1, 2], appZero⟩ sq)
    let c := words [(0x1000001C, 0x8000003C)] s
    let bad (l : List BusResp) (t : State) : State := draws { Env.empty with busResp := l } t
    ((rTx.q.val < s.cfg.nq ∧ s.descEnabled rTx = true ∧ s.env.busResp = .okay :: [.okay, .okay]) ∧
      (rRx.q.val < u.cfg.nq ∧ u.descEnabled rRx = true ∧ u.env.busResp = .okay :: [.okay, .okay]) ∧
      (bad [.slverr] s).descEnabled rTx = true ∧ (bad [.decerr] s).descEnabled rTx = true ∧
      c.descEnabled rTx = true ∧ cmpltOf (readDesc c.cfg.variant c.mem (c.regs rTx).curdesc).status = true) ∧
    (lenOf 0x0C000004 ≠ 0 ∧ sofOf .sq 0x0C000004 = !(s.txe 0).asm.active ∧ (s.txe 0).asm.active = false ∧
      (bad [.okay, .okay, .slverr] s).env.busResp = .okay :: .okay :: .slverr :: [] ∧
      (bad [.okay, .okay, .slverr] s).descEnabled rTx = true ∧
      cmpltOf (readDesc s.cfg.variant s.mem (s.regs rTx).curdesc).status = false) ∧
    ((u.rxe 0).rem = none ∧ (u.rxe 0).stream = ⟨[1, 2], appZero⟩ :: [] ∧ [(1 : Byte), 2].length ≤ lenOf 2 ∧
      ¬[(1 : Byte), 2].length ≤ lenOf 1 ∧ fiveOkay.length = 5 ∧
      (bad (.okay :: .okay :: (fiveOkay ++ [.slverr])) u).env.busResp = .okay :: .okay :: (fiveOkay ++ .slverr :: []) ∧
      lenOf (readDesc u.cfg.variant u.mem (u.regs rRx).curdesc).ctrl = 2) ∧
    (lenOf 0x0C000000 = 0 ∧ (bad [.okay, .decerr] u).env.busResp = .okay :: .decerr :: [] ∧
      (bad [.okay, .decerr] u).descEnabled rRx = true ∧
      cmpltOf (readDesc u.cfg.variant u.mem (u.regs rRx).curdesc).status = false) := by
  intro s u c bad
  and_intros <;> decide +kernel

/-- A descriptor software owns, and one the engine owns, of each direction; the last descriptor of the ring, and the tail; a
`Running` and a `Fatal` ring; a store R152 has and one it has not. -/
theorem witness_DescriptorWords :
    let s := words [(0x100000DC, 0), (0x1000001C, 0)] sq
    let u := withSw rTx (fun w => { w with issue := 1, hwTail := 1 }) s
    let chain := words [(0x18000000, 0x18000040), (0x18000040, 0x18000080), (0x18000080, 0x180000C0), (0x180000C0, 0x18000000),
      (0x1800001C, 0), (0x180000DC, 0)] sq
    let x := rung rRx 0x180000C0 (withSw rRx RingSw.populate chain)
    let h := stopped rRx chain
    ((s.sw.ctxPresent = true ∧ (s.ring rTx).rstate = .running ∧ (s.statusD rTx 3).getLsbD 31 = false ∧
        ((inState .fatal rTx s).ring rTx).rstate = .fatal) ∧
      ((h.ring rRx).rstate = .running ∧ (h.statusD rRx 3).getLsbD 31 = false ∧ halted (h.regs rRx) = true ∧
        h.engineOwns rRx 3 = false ∧ (Instr.descApp4Rx 0 3 0, 0x30) ∈ hwWordRows h.cfg.variant rRx 3 0)) ∧
    ((rTx.q.val < s.cfg.nq ∧ (s.ring rTx).present = true ∧ 3 < (s.ring rTx).cap ∧
        (Instr.descCtrlSq .tx 0 3 0x0C00003C, 0x18) ∈ hwWordRows s.cfg.variant rTx 3 0x0C00003C ++ swWordRows rTx 3 0x0C00003C ∧
        s.engineOwns rTx 3 = false ∧ (0x18 ≠ 0x00 ∧ 0x18 ≠ statusOff s.cfg.variant) ∧ daddr (s.ring rTx).base ((3 + 1) % 4) = 0x10000000 ∧
        halted ((stopped rTx s).regs rTx) = true ∧ (Instr.descStatus .tx 0 3 1, 0x1C) ∈ hwWordRows s.cfg.variant rTx 3 1) ∧
      ((u.ring rTx).present = true ∧ 0 < (u.ring rTx).cap ∧ u.engineOwns rTx 0 = true ∧
        (Instr.descSwTag .tx 0 0 5, 0x3C) ∈ hwWordRows u.cfg.variant rTx 0 5 ++ swWordRows rTx 0 5)) ∧
    (u.HasPool rTx ∧ x.HasPool rRx ∧
      (∀ j, j < 4 → x.getD rRx j 0x00 = daddr (x.ring rRx).base ((j + 1) % (x.ring rRx).cap)) ∧
      (x.regs rRx).curdesc = daddr (x.ring rRx).base 0 ∧ (x.regs rRx).taildesc = daddr (x.ring rRx).base ((0 + 3) % 4) ∧
      x.engineOwns rRx 3 = true ∧ x.engineOwns rRx 0 = true ∧ chain.engineOwns rRx 0 = false) := by
  intro s u chain x h
  and_intros <;> decide +kernel

/-- V40-2: the pool that ends at 2^32 is granted, one that ends past it is misplaced; and every other outcome. -/
theorem witness_AllocateOutcomes :
    let s := alloc (some 0xFFFFFF00)
    let u := alloc (some 0xFFFFFF40)
    let m := alloc none
    rTx.q.val < s.cfg.nq ∧ s.RingFree rTx ∧ (s.ring rTx).present = false ∧ halted (s.regs rTx) = true ∧
    2 ≤ 4 ∧ 4 ≤ 32768 ∧ s.env.allocs = some 0xFFFFFF00 :: [] ∧ (0xFFFFFF00 : Word).toNat % 64 = 0 ∧
    (0xFFFFFF00 : Word).toNat + 64 * 4 ≤ 2 ^ 32 ∧
    u.env.allocs = some 0xFFFFFF40 :: [] ∧ 2 ^ 32 < (0xFFFFFF40 : Word).toNat + 64 * 4 ∧ m.env.allocs = none :: [] ∧
    (sq.ring rTx).present = true ∧ sq.RingFree rTx ∧
    ((sq.setRing rTx (ringAt 0 4).gone).ring rTx).present = false ∧ (sq.setRing rTx (ringAt 0 4).gone).RingFree rTx ∧
    halted ((sq.setRing rTx (ringAt 0 4).gone).regs rTx) = false := by
  intro s u m
  and_intros <;> decide +kernel

/-- A ring with a pool whose engine is halted. -/
theorem pool_halted :
    (stopped rTx sq).HasPool rTx ∧ (stopped rTx sq).RingFree rTx ∧ halted ((stopped rTx sq).regs rTx) = true := by
  and_intros <;> decide +kernel

theorem witness_ResetRingRelinks :
    (stopped rTx sq).HasPool rTx ∧ (stopped rTx sq).RingFree rTx ∧ halted ((stopped rTx sq).regs rTx) = true :=
  pool_halted

theorem witness_ResetRingTwice :
    (stopped rTx sq).HasPool rTx ∧ (stopped rTx sq).RingFree rTx ∧ halted ((stopped rTx sq).regs rTx) = true :=
  pool_halted

/-- Slots with a buffer and without; the first empty slot is the first that draws; a ring with no empty slot. -/
theorem witness_ArmRxArms :
    let s := draws buffers (stopped rRx (words [(0x18000034, 0), (0x18000074, 75), (0x180000B4, 0), (0x180000F4, 77)] sq))
    let full := words [(0x18000034, 1), (0x180000B4, 3)] s
    (s.HasPool ⟨.rx, 0⟩ ∧ s.RingFree ⟨.rx, 0⟩ ∧ halted (s.regs ⟨.rx, 0⟩) = true ∧ (s.ring rRx).cap = 4) ∧
    (s.getD rRx 0 0x34 = 0 ∧ s.getD rRx 3 0x34 ≠ 0 ∧ ((List.range 4).filter fun i => s.getD rRx i 0x34 == 0) = [0, 2] ∧
      [0, 2][1]? = some 2 ∧ s.env.rxBuffers[1]? = some (102, 0x30000800) ∧ (102 : Word) ≠ 0) ∧
    ((List.range 4).filter fun i => full.getD rRx i 0x34 == 0) = [] := by
  intro s full
  and_intros <;> decide +kernel

theorem witness_FreeRingReleases :
    let s := stopped rTx (txDone 0 sq)
    (s.HasPool rTx ∧ s.RingFree rTx ∧ halted (s.regs rTx) = true ∧ s.sw.ctxPresent = true) ∧
    ((s.setCtx false).HasPool rTx ∧ (s.setCtx false).RingFree rTx ∧ (s.setCtx false).sw.ctxPresent = false) ∧
    (stopped rRx sq).HasPool rRx ∧ (stopped rRx sq).RingFree rRx ∧ halted ((stopped rRx sq).regs rRx) = true := by
  intro s
  and_intros <;> decide +kernel

/-- No timestamp; a tag that is free; one that is taken, which is the collision. -/
theorem witness_OffloadTxWords :
    let s := modes ⟨.full, .off, true⟩ sq
    let c := s.setTags 0 ⟨5, [(5, 9)]⟩
    s.sw.ctxPresent = true ∧ (0 : Chan).val < s.cfg.nq ∧ ¬(frame1.tsReq = true ∧ s.sw.tsEnabled = true) ∧
    (csumFrame.tsReq = true ∧ s.sw.tsEnabled = true) ∧ kvGet (s.tags 0).tagmap (s.tags 0).nextTag.toNat = none ∧
    kvSorted (s.tags 0).tagmap = true ∧ c.sw.ctxPresent = true ∧
    (s.ring ⟨.tx, 0⟩).rstate = .running ∧ kvGet (c.tags 0).tagmap (c.tags 0).nextTag.toNat ≠ none := by
  decide +kernel

theorem witness_OffloadRxDecodes :
    sq.sw.ctxPresent = true ∧ (0 : Chan).val < sq.cfg.nq ∧ (sq.ring ⟨.rx, 0⟩).rstate = .running ∧
    (sq.ring ⟨.rx, 0⟩).present = true ∧ 3 < (sq.ring ⟨.rx, 0⟩).cap := by
  decide +kernel

/-- V41-4: a ring that has room for exactly the frame. -/
theorem witness_SubmitWrites :
    let s := withSw rTx (fun w => { w with issue := 2, hwTail := 2, completion := 2 }) sq
    s.HasPool ⟨.tx, 0⟩ ∧ s.sw.ctxPresent = true ∧ (s.ring rTx).rstate = .running ∧ s.sw.linkUp = true ∧
    FrameOk frame7 (s.ring rTx).cap s.cfg.maxFrame ∧
    (frame7.frags.length : Int) ≤ (((s.ring rTx).completion : Int) - (s.ring rTx).issue - 1) % (s.ring rTx).cap ∧
    s.offloadTx 0 frame7 = some (appZero, s) := by
  intro s
  and_intros
  all_goals decide +kernel

/-- V41-7: each refusal. -/
theorem witness_SubmitRefusals :
    let full := withSw rTx (fun w => { w with issue := 3, hwTail := 3 }) sq
    sq.sw.ctxPresent = true ∧ (0 : Chan).val < sq.cfg.nq ∧ ((inState .fatal rTx sq).ring rTx).rstate = .fatal ∧
    ((inState .halting rTx sq).ring rTx).rstate ≠ .fatal ∧ ((inState .halting rTx sq).ring rTx).rstate ≠ .running ∧
    (sq.ring rTx).rstate = .running ∧ (sq.setLink false).sw.linkUp = false ∧ sq.sw.linkUp = true ∧
    ¬FrameOk { frame1 with handle := 0 } (sq.ring rTx).cap sq.cfg.maxFrame ∧
    FrameOk frame1 (full.ring rTx).cap full.cfg.maxFrame ∧ full.HasPool ⟨.tx, 0⟩ ∧ (full.ring rTx).rstate = .running ∧
    full.sw.linkUp = true ∧ full.sw.ctxPresent = true ∧
    (((full.ring rTx).completion : Int) - (full.ring rTx).issue - 1) % (full.ring rTx).cap < frame1.frags.length := by
  intro full
  and_intros
  all_goals first | decide +kernel | (unfold FrameOk; decide +kernel)

theorem witness_TurnedAway :
    sq.sw.ctxPresent = true ∧ (0 : Chan).val < sq.cfg.nq ∧
    (((inState .halted rTx sq).ring ⟨.tx, 0⟩).rstate = .halted ∧ Result.notReady = .notReady) ∧
    (((inState .fatal rRx sq).ring ⟨.rx, 0⟩).rstate = .fatal ∧ Result.fatal = .fatal) ∧
    (inState .fatal rRx sq).controlBusy = false := by
  decide +kernel

/-- A good descriptor, and one in error; a call, a call in progress, and the handler's, at its call and after it. -/
theorem witness_PollTakes :
    let s := draws { Env.empty with rxBuffers := [(105, 0x30002000)] } (rxDone 0x8C000004 sq)
    let u := draws { Env.empty with rxBuffers := [(105, 0x30002000)] } (rxDone 0xAC000000 sq)
    let p : PollSt := ⟨0, 8, 1, [], some 3⟩
    let inPoll : Task := .irq .rx 8 [] (.poll 0 1 p)
    let inCall : Task := .irq .rx 8 [] (.call 0 1)
    (s.HasPool rRx ∧ s.sw.ctxPresent = true ∧ (s.ring rRx).rstate = .running ∧ s.bodyBusy rRx = false ∧ 0 < 8 ∧
      cmpltOf (s.statusD rRx (s.ring rRx).completion) = true ∧ s.env.rxBuffers = (105, 0x30002000) :: [] ∧
      (105 : Word) ≠ 0) ∧
    (errBits (s.statusD rRx (s.ring rRx).completion) = 0 ∧ rxSofOf (s.statusD rRx (s.ring rRx).completion) = true ∧
      rxEofOf (s.statusD rRx (s.ring rRx).completion) = true) ∧
    (u.HasPool rRx ∧ cmpltOf (u.statusD rRx (u.ring rRx).completion) = true ∧
      errBits (u.statusD rRx (u.ring rRx).completion) ≠ 0) ∧
    (p.q = 0 ∧ p.n < p.budget ∧ (s.setTasks [.poll p]).tasks[0]? = some (.poll p) ∧
      (s.setTasks [inPoll]).tasks[0]? = some inPoll ∧ (s.setTasks [inCall]).tasks[0]? = some inCall ∧
      (s.setTasks ([inCall].eraseIdx 0)).bodyBusy rRx = false ∧ (s.setTasks [inCall]).sw.ctxPresent = true) := by
  intro s u p inPoll inCall
  and_intros <;> decide +kernel

/-- Nothing complete; a call at its budget; nothing submitted; the handler's calls. -/
theorem witness_ScansEnd :
    let s := words [(0x1800001C, 0)] sq
    let p : PollSt := ⟨0, 1, 1, [], some 3⟩
    let fresh : PollSt := ⟨0, 4, 0, [], none⟩
    let inPoll : Task := .irq .rx 1 [] (.poll 0 1 p)
    let inCall : Task := .irq .rx 4 [] (.call 0 1)
    let inReclaim : Task := .irq .tx 4 [] (.reclaim 0 1 ⟨0, [1]⟩)
    (s.sw.ctxPresent = true ∧ (s.ring rRx).rstate = .running ∧ s.bodyBusy rRx = false ∧ fresh.last = none ∧
      cmpltOf (s.statusD rRx (s.ring rRx).completion) = false ∧ (0 : Chan).val < s.cfg.nq) ∧
    ((s.setTasks [.poll p]).tasks[0]? = some (.poll p) ∧ p.last = some 3 ∧ p.budget ≤ p.n ∧
      ((s.setTasks [.poll p]).ring rRx).present = true ∧ (s.setTasks [inPoll]).tasks[0]? = some inPoll ∧
      (s.setTasks [inCall]).tasks[0]? = some inCall ∧ (s.setTasks ([inCall].eraseIdx 0)).bodyBusy rRx = false ∧
      ((withSw rRx RingSw.gone sq).ring rRx).present = false) ∧
    ((s.ring rTx).completion = (s.ring rTx).issue ∧ (s.ring rTx).rstate = .running ∧ s.bodyBusy rTx = false ∧
      (s.setTasks [.reclaim ⟨0, [1]⟩]).tasks[0]? = some (.reclaim ⟨0, [1]⟩) ∧
      (s.setTasks [inReclaim]).tasks[0]? = some inReclaim) := by
  intro s p fresh inPoll inCall inReclaim
  and_intros <;> decide +kernel

/-- Not stamped; stamped with the entry at the head; stamped without it; a call, a call in progress, the handler's. -/
theorem witness_ReclaimTakes :
    let s := txDone 0x8000003C sq
    let u := words [(0x1000003C, 0x80000000)] (stamped 0 s)
    let v := words [(0x1000003C, 0x80000003)] (stamped 0 s)
    let inReclaim : Task := .irq .tx 4 [] (.reclaim 0 1 ⟨0, [1]⟩)
    let inCall : Task := .irq .tx 4 [] (.call 0 1)
    (s.HasPool rTx ∧ s.sw.ctxPresent = true ∧ (s.ring rTx).rstate = .running ∧ s.bodyBusy rTx = false ∧
      (s.ring rTx).completion ≠ (s.ring rTx).issue ∧ cmpltOf (s.statusD rTx (s.ring rTx).completion) = true ∧
      ¬(s.getD rTx 0 0x3C).getLsbD 31 = true) ∧
    (u.HasPool rTx ∧ (u.getD rTx 0 0x3C).getLsbD 31 = true ∧ (u.txe 0).tsf = ⟨0, 0x0000000100000002⟩ :: [⟨4, 9⟩] ∧
      (u.getD rTx 0 0x3C).extractLsb' 0 16 = (0 : BitVec 16) ∧ cmpltOf (u.statusD rTx (u.ring rTx).completion) = true) ∧
    (v.HasPool rTx ∧ (v.getD rTx 0 0x3C).getLsbD 31 = true ∧ ((v.txe 0).tsf.head?.map TsEntry.tag) ≠ some 3 ∧
      (v.getD rTx 0 0x3C).extractLsb' 0 16 = (3 : BitVec 16) ∧ (3 : BitVec 16) ≠ 0xFFFF) ∧
    ((s.setTasks [.reclaim ⟨0, [1]⟩]).tasks[0]? = some (.reclaim ⟨0, [1]⟩) ∧
      (s.setTasks [inReclaim]).tasks[0]? = some inReclaim ∧ (s.setTasks [inCall]).tasks[0]? = some inCall ∧
      (s.setTasks ([inCall].eraseIdx 0)).bodyBusy rTx = false) := by
  intro s u v inReclaim inCall
  and_intros <;> decide +kernel

/-- V42-3: the sum limit met exactly, and passed. -/
theorem witness_WeightConfigured :
    let s : State := { stopped rTx1 mc with cfg := { cfgMc with weightSumLimit := some 6 } }
    s.sw.ctxPresent = true ∧ s.cfg.variant = .mc ∧ 1 < s.cfg.nq ∧ (1 : Nat) < 16 ∧ 1 ≤ 5 ∧ 5 ≤ 15 ∧
    (∀ d : Chan, d.val = 1 → halted (s.regs ⟨.tx, d⟩) = true) ∧ s.otherWeights 1 = 1 ∧
    (∀ m, s.cfg.weightSumLimit = some m → 5 + s.otherWeights 1 ≤ m) ∧ ¬(16 ≤ 15) ∧
    ¬(∀ m, s.cfg.weightSumLimit = some m → 6 + s.otherWeights 1 ≤ m) ∧ s.controlBusy = false ∧
    (s.setTasks [.attach .arm cfgMc]).controlBusy = true := by
  have within : ∀ m, some 6 = some m → 5 + 1 ≤ m := by intro m hm; cases hm; decide
  have beyond : ¬∀ m, some 6 = some m → 6 + 1 ≤ m := fun hall => absurd (hall 6 rfl) (by decide)
  intro s
  and_intros
  all_goals first | exact within | exact beyond | decide +kernel

theorem witness_ChannelEnabled :
    let f := inState .fatal rTx1 mc
    let n := inState .halting rTx1 mc
    mc.sw.ctxPresent = true ∧ sq.cfg.variant = .sq ∧ mc.cfg.nq ≤ 2 ∧ mc.cfg.variant = .mc ∧ (1 : Chan).val < mc.cfg.nq ∧
    (rTx1.q = 1 ∧ rTx1.dir ∈ dirsOf .both) ∧ (f.ring rTx1).rstate = .fatal ∧ (n.ring rTx1).rstate ≠ .running ∧
    (∀ r : RingId, (r.q = 1 ∧ r.dir ∈ dirsOf .both) → (n.ring r).rstate ≠ .fatal) ∧
    (mc.controlBusy = false ∧ (mc.setTasks [.attach .arm cfgMc]).controlBusy = true) ∧
    ∀ r : RingId, (r.q = 1 ∧ r.dir ∈ dirsOf .both) → (mc.ring r).rstate = .running := by
  intro f n
  and_intros
  all_goals first | exact forall_ring (by decide +kernel : ∀ q : Chan, _) | decide +kernel

theorem witness_ChannelDisabled :
    mc.sw.ctxPresent = true ∧ sq.cfg.variant = .sq ∧ mc.cfg.nq ≤ 2 ∧ mc.cfg.variant = .mc ∧ (1 : Chan).val < mc.cfg.nq ∧
    (rTx1.q = 1 ∧ rTx1.dir ∈ dirsOf .txOnly) ∧ mc.controlBusy = false ∧
    (mc.setTasks [.attach .arm cfgMc]).controlBusy = true := by
  decide +kernel

theorem witness_ArbiterGrants :
    (both mc).cfg.variant = .mc ∧ (both mc).hw.grant = none ∧
    ∃ c, (both mc).eligible c = true ∧ (both mc).weight c ≠ 0 :=
  ⟨by decide, by decide, 0, by decide +kernel, by decide +kernel⟩

theorem witness_RoundIsProportional :
    (both mc).cfg.variant = .mc ∧ (both mc).hw.grant = none ∧ (both mc).eligible 1 = true ∧
    ∀ c, (both mc).eligible c = true → (both mc).credit c = 0 := by
  decide +kernel

theorem witness_HandlerStarts :
    let t : Task := .irq .tx 64 [] .readChIsr
    (sq.setTasks [t]).irqBusy .tx = true ∧ ((sq.setIrq .tx true).irq .tx = true ∧ sq.irq .tx = false) ∧ sq.cfg.variant = .sq ∧ sq.irqBusy .tx = false ∧ mc.cfg.variant = .mc ∧
    (mc.setTasks [t]).tasks[0]? = some t ∧ (1 : Chan).val < mc.cfg.nq := by
  decide +kernel

/-- A ring that is passed over, one with another cause, and one with an error, in both variants; a ring another handler's body
is on. -/
theorem witness_HandlerOnError :
    let t : Task := .irq .tx 64 [0] .entry
    let s := withRegs rTx (fun x => { x with isr := 5 }) (sq.setTasks [t])
    let u := withRegs rTx (fun x => { x with isr := 4 }) (mc.setTasks [.irq .tx 64 [0, 1] .entry])
    let c := withRegs rTx (fun x => { x with isr := 3 }) (sq.setTasks [t])
    ((0 : Chan).val < s.cfg.nq ∧ s.tasks[0]? = some (.irq .tx 64 (0 :: []) .entry) ∧ (sq.regs rTx).isr = 0) ∧
    (s.irqBodyBusy rTx = false ∧ s.sw.ctxPresent = true ∧ (s.ring rTx).rstate = .running ∧
      (s.regs rTx).isr.getLsbD 2 = true ∧ (s.regs rTx).resetBusy = false) ∧
    ((c.regs rTx).isr ≠ 0 ∧ (c.regs rTx).isr.getLsbD 2 = false ∧ c.tasks[0]? = some (.irq .tx 64 (0 :: []) .entry)) ∧
    ((sq.setTasks [t, .irq .tx 64 [] (.call 0 1)]).irqBodyBusy rTx = true ∧
      (sq.setTasks [t, .irq .tx 64 [] (.call 0 1)]).tasks[0]? = some t) ∧
    u.tasks[0]? = some (.irq .tx 64 (0 :: [1]) .entry) ∧ u.irqBodyBusy rTx = false ∧ u.sw.ctxPresent = true ∧
    (u.ring rTx).rstate = .running ∧ (u.regs rTx).isr.getLsbD 2 = true := by
  intro t s u c
  and_intros <;> decide +kernel

/-- The call that waits, that has no context, that is turned away; frames to deliver, with more ready and without. -/
theorem witness_HandlerReturns :
    let call : Task := .irq .rx 64 [] (.call 0 1)
    let give : Task := .irq .rx 64 [] (.deliver 0 1 [⟨[1], 1, .unsupported, 0, none, 101, 0x30000000⟩])
    let s := sq.setTasks [.irq .tx 64 [] (.writeIcr 0 1)]
    let b := sq.setTasks [call, .poll ⟨0, 8, 0, [], none⟩]
    (b.tasks[0]? = some call ∧ (b.setTasks (b.tasks.eraseIdx 0)).bodyBusy rRx = true) ∧
    (((sq.setTasks [call]).setCtx false).tasks[0]? = some call ∧ ((sq.setTasks [call]).setCtx false).sw.ctxPresent = false ∧
      ((sq.setTasks [call]).setTasks ([call].eraseIdx 0)).bodyBusy rRx = false ∧
      ((inState .halting rRx (sq.setTasks [call])).ring rRx).rstate ≠ .running) ∧
    ((sq.setTasks [give]).tasks[0]? = some give ∧
      cmpltOf ((rxDone 0x8C000004 sq).statusD rRx ((rxDone 0x8C000004 sq).ring rRx).completion) = true ∧
      cmpltOf ((rxDone 0 sq).statusD rRx ((rxDone 0 sq).ring rRx).completion) = false ∧ (sq.ring rRx).present = true) ∧
    (s.tasks[0]? = some (.irq .tx 64 [] (.writeIcr 0 1)) ∧ (s.regs rTx).resetBusy = false ∧
      (sq.setTasks [.irq .tx 64 [] (.readIer 0 1)]).tasks[0]? = some (.irq .tx 64 [] (.readIer 0 1))) := by
  intro call give s b
  and_intros <;> decide +kernel

theorem witness_RecoveryBegins :
    let s := withSw rTx (fun w => { w with recoveryPending := true }) (stopped rTx sq)
    rTx.q.val < s.cfg.nq ∧ s.sw.ctxPresent = true ∧ (s.ring rTx).rstate = .running ∧
    (s.ring rTx).recoveryPending = true ∧ s.bodyBusy rTx = false ∧ s.controlBusy = false ∧
    (s.setTasks [.attach (.enable []) cfgSq]).controlBusy = true ∧ (s.setTasks [.reclaim ⟨0, []⟩]).bodyBusy rTx = true ∧
    (s.setTasks [.reclaim ⟨0, []⟩]).controlBusy = false ∧
    (draws { Env.empty with resetCompletes := [true] } s).env.resetCompletes = true :: [] := by
  decide +kernel

theorem witness_RecoveryPolls :
    rTx.q.val < sq.cfg.nq ∧ sq.sw.ctxPresent = true ∧ ((inState .halting rTx sq).ring rTx).rstate = .halting := by
  decide +kernel

theorem witness_RecoveryDrains :
    let s := inState .halted rTx (txDone 0 sq)
    s.HasPool rTx ∧ s.sw.ctxPresent = true ∧ (s.ring rTx).rstate = .halted ∧
    (inState .halted rRx sq).HasPool rRx ∧ ((inState .halted rRx sq).ring rRx).rstate = .halted := by
  intro s
  and_intros <;> decide +kernel

/-- Both directions, a slot with a buffer. -/
theorem witness_RecoveryRebuilds :
    let s := inState .reconfiguring rTx (stopped rTx sq)
    let u := words [(0x18000034, 77)] (inState .reconfiguring rRx (stopped rRx sq))
    (s.HasPool rTx ∧ s.sw.ctxPresent = true ∧ (s.ring rTx).rstate = .reconfiguring ∧ s.bodyBusy rTx = false ∧
      halted (s.regs rTx) = true) ∧
    (u.HasPool rRx ∧ u.sw.ctxPresent = true ∧ (u.ring rRx).rstate = .reconfiguring ∧ u.bodyBusy rRx = false ∧
      halted (u.regs rRx) = true ∧ u.getD rRx 0 0x34 ≠ 0) := by
  intro s u
  and_intros <;> decide +kernel

/-- Both directions and both variants. -/
theorem witness_RecoveryRestores :
    let ready (r : RingId) (s : State) : State :=
      draws { Env.empty with resetCompletes := [true] } (withSw r (fun w => { w with recoveryPending := true }) (stopped r s))
    let holds (r : RingId) (s : State) : Prop :=
      s.HasPool r ∧ s.sw.ctxPresent = true ∧ (s.ring r).rstate = .running ∧ (s.ring r).recoveryPending = true ∧
      s.tasks = [] ∧ (s.regs r).resetBusy = false ∧ s.env.resetCompletes = true :: [] ∧ 1 ≤ (s.cfg.ring r).thresh ∧
      (s.cfg.ring r).thresh ≤ 255 ∧ (s.cfg.ring r).delay ≤ 255
    holds rTx (ready rTx sq) ∧ holds rRx (ready rRx sq) ∧ holds rTx1 (ready rTx1 mc) := by
  intro ready holds
  and_intros <;> decide +kernel

/-- The four tests of `VALIDATE`, valid and not, and the two ways `ATTACH` is refused. -/
theorem witness_AttachValidates :
    validate cfgSq = none ∧ validate { cfgSq with nq := 2 } = some .queueCount ∧
    validate { cfgSq with regBase := 0x40001800 } = some .alignment ∧ validate { cfgSq with resetRetryMax := 0 } = some .size ∧
    validate { cfgMc with initWeight := [3, 0] } = some .weight ∧ State.reset.controlBusy = false ∧
    State.reset.sw.ctxPresent = false ∧ sq.controlBusy = false ∧ sq.sw.ctxPresent = true ∧
    (∀ r, halted (State.reset.regs r) = true) ∧ ∃ r, halted (sq.regs r) = false := by
  and_intros
  all_goals first
    | decide +kernel
    | exact forall_ring (by decide +kernel : ∀ q : Chan, _)
    | exact ⟨rTx, by decide +kernel⟩

theorem witness_AttachBringsUp :
    let s := draws { Env.empty with allocs := [some 0x10000000, some 0x18000000] } State.reset
    s.tasks = [] ∧ s.sw.ctxPresent = false ∧ (∀ r, halted (s.regs r) = true ∧ (s.ring r).present = false) ∧
    (∀ d, (s.regs ⟨d, 0⟩).isr = 0) ∧ cfgSq.variant = .sq ∧ validate cfgSq = none ∧
    s.env.allocs = some 0x10000000 :: some 0x18000000 :: [] ∧ blockOk 0x10000000 (cfgSq.ring ⟨.tx, 0⟩).cap = true ∧
    blockOk 0x18000000 (cfgSq.ring ⟨.rx, 0⟩).cap = true ∧
    ((0x10000000 : Word).toNat + 64 * (cfgSq.ring ⟨.tx, 0⟩).cap ≤ (0x18000000 : Word).toNat) ∧
    ({ s with env := { s.env with rxBuffers := buffers.rxBuffers } } : State).env.rxBuffers[1]? = some (102, 0x30000800) := by
  intro s
  and_intros
  all_goals first
    | exact forall_ring (by decide +kernel : ∀ q : Chan, _)
    | (intro d; cases d <;> rfl)
    | decide +kernel

/-- A recovery that has to end first, and none; each access of phase 2; a halted ring, a poll that may be repeated, and the
last one; two pools apart from each other. -/
theorem witness_DetachProceeds :
    let masks (a : Access) : State := mc.setTasks [.detach (.mask [a])]
    let polls (n : Nat) : State := sq.setTasks [.detach (.poll [rTx] n)]
    let last := sq.setTasks [.detach (.poll [] 0)]
    (sq.sw.ctxPresent = true ∧ sq.controlBusy = false ∧ (sq.setTasks [.attach .arm cfgSq]).controlBusy = true ∧
      (∃ r : RingId, r.q.val < sq.cfg.nq ∧ inRecovery ((inState .halted rTx sq).ring r).rstate = true) ∧
      ∀ r : RingId, r.q.val < sq.cfg.nq → inRecovery (sq.ring r).rstate = false) ∧
    (rTx1.q.val < mc.cfg.nq ∧ mc.cfg.variant = .mc ∧ (masks (.maskIer rTx1)).tasks[0]? = some (.detach (.mask (.maskIer rTx1 :: []))) ∧
      (masks (.maskChIer rTx1)).tasks[0]? = some (.detach (.mask (.maskChIer rTx1 :: []))) ∧
      (masks (.reset rTx1)).tasks[0]? = some (.detach (.mask (.reset rTx1 :: [])))) ∧
    ((polls 1).tasks[0]? = some (.detach (.poll (rTx :: []) 1)) ∧ halted ((stopped rTx (polls 1)).regs rTx) = true ∧
      halted ((polls 1).regs rTx) = false ∧ 1 + 1 < (polls 1).cfg.resetRetryMax ∧ (polls 2).cfg.resetRetryMax ≤ 2 + 1) ∧
    (last.tasks[0]? = some (.detach (.poll [] 0)) ∧ last.HasPool rTx ∧ last.HasPool rRx ∧
      (last.ring rTx).base.toNat + 64 * (last.ring rTx).cap ≤ (last.ring rRx).base.toNat ∧
      ∀ r : RingId, r.q.val < last.cfg.nq → r = rTx ∨ r = rRx) := by
  intro masks polls last
  and_intros
  all_goals first
    | decide +kernel
    | exact ⟨rTx, by decide +kernel⟩
    | exact forall_ring (by decide +kernel : ∀ q : Chan, _)

theorem witness_LinkAndStatistics :
    sq.sw.ctxPresent = true ∧ sq.controlBusy = false ∧ (sq.setTasks [.attach .arm cfgSq]).controlBusy = true := by decide

end Sys2Proof.Tests
end

section
/-! SUPPORT. `RESET_RING` (R193) is idempotent (R194): it leaves a ring that it may reset again, and the words it writes
depend only on what it keeps, the place and the capacity of the pool. -/

namespace Sys2Proof.Machine

/-! ### What `RESET_RING` does to the rings and their barriers -/

theorem resetRing_ring_ne (s : State) (r t : RingId) (h : t ≠ r) : (s.resetRing r).ring t = s.ring t := by
  simp [State.resetRing, h]

theorem resetRing_unfenced (s : State) (r t : RingId) :
    (s.resetRing r).unfenced t = if t = r then true else s.unfenced t := by
  simp [State.resetRing]

/-! ### A ring that has been reset may be reset again -/

theorem State.HasPool.resetRing {s : State} {r : RingId} (h : s.HasPool r) : (s.resetRing r).HasPool r := by
  obtain ⟨hq, hp, hc⟩ := h
  rw [cursorsLegal_iff] at hc
  obtain ⟨-, -, hpool⟩ := hc
  obtain ⟨hlegal, hi, -⟩ := hpool hp
  have hpos : 0 < (s.ring r).cap := by omega
  refine ⟨by simpa using hq, by rw [resetRing_ring]; exact hp, ?_⟩
  rw [cursorsLegal_iff, resetRing_ring]
  exact ⟨rfl, fun _ => rfl, fun _ => ⟨hlegal, hpos, hpos⟩⟩

theorem State.RingFree.resetRing {s : State} {r : RingId} (h : s.RingFree r) : (s.resetRing r).RingFree r := by
  obtain ⟨hcontrol, hbody, hrun⟩ := h
  refine ⟨?_, ?_, ?_⟩
  · simpa [State.controlBusy] using hcontrol
  · simpa [State.bodyBusy] using hbody
  · rw [resetRing_ring]
    simpa using hrun

theorem exec_resetRing {s : State} {r : RingId} (hp : s.HasPool r) (hf : s.RingFree r)
    (hh : halted (s.regs r) = true) : exec (.resetRing r.dir r.q.val) s = .next (s.resetRing r) :=
  exec_pool hp hf hh

/-! ### The chain after `RESET_RING` -/

/-- The two words of slot `i` that `RESET_RING` writes. -/
theorem resetRing_words (s : State) (r : RingId) (hn : 64 * (s.ring r).cap ≤ 2 ^ 32) {i : Nat}
    (hi : i < (s.ring r).cap) :
    (s.resetRing r).getD r i nextOff = daddr (s.ring r).base (incMod (s.ring r).cap i) ∧
      (s.resetRing r).getD r i (statusOff s.cfg.variant) = 0 := by
  rw [resetRing_getD, resetRing_getD]
  exact (relinked s r hn).1 i hi

/-- Every byte of another word is as before. -/
theorem resetRing_bytes (s : State) (r : RingId) (hn : 64 * (s.ring r).cap ≤ 2 ^ 32) {a : Word}
    (ha : ∀ i, i < (s.ring r).cap → ¬s.inWords r i [nextOff, statusOff s.cfg.variant] a) :
    memByte (s.resetRing r).mem a = memByte s.mem a := by
  rw [resetRing_mem]
  exact (relinked s r hn).2 a ha

theorem resetRing_slotAddr (s : State) (r : RingId) (i off : Nat) :
    (s.resetRing r).slotAddr r i off = s.slotAddr r i off := by
  simp [State.slotAddr, resetRing_ring]

/-- A word of the chain holds the same value after the second reset, for its value is a function of what the first one
keeps. -/
theorem resetRing_getD_twice (s : State) (r : RingId) (hn : 64 * (s.ring r).cap ≤ 2 ^ 32) {i off : Nat}
    (hi : i < (s.ring r).cap) (hoff : off ∈ [nextOff, statusOff s.cfg.variant]) :
    ((s.resetRing r).resetRing r).getD r i off = (s.resetRing r).getD r i off := by
  obtain ⟨hnext, hstatus⟩ := resetRing_words s r hn hi
  have htwice := resetRing_words (s.resetRing r) r (i := i)
  simp only [resetRing_ring, State.resetRing_keeps] at htwice
  obtain ⟨hnext', hstatus'⟩ := htwice hn hi
  simp only [List.mem_cons, List.not_mem_nil, or_false] at hoff
  obtain rfl | rfl := hoff
  · rw [hnext', hnext]
  · rw [hstatus', hstatus]

/-- The second reset changes no byte: one of a chain or status word is rewritten as it is, any other is not written. -/
theorem resetRing_memByte_twice (s : State) (r : RingId) (hn : 64 * (s.ring r).cap ≤ 2 ^ 32) (a : Word) :
    memByte ((s.resetRing r).resetRing r).mem a = memByte (s.resetRing r).mem a := by
  by_cases h : ∃ i, i < (s.ring r).cap ∧ s.inWords r i [nextOff, statusOff s.cfg.variant] a
  · obtain ⟨i, hi, off, hoff, ha⟩ := h
    have hword := resetRing_getD_twice s r hn hi hoff
    unfold State.getD at hword
    simp only [resetRing_slotAddr] at hword
    exact memByte_of_memWord hword ha
  · apply resetRing_bytes
    · rwa [resetRing_ring]
    · intro i hi hw
      refine h ⟨i, by rwa [resetRing_ring] at hi, ?_⟩
      simpa [State.inWords, State.inWord, resetRing_slotAddr] using hw

/-! ### Everything else -/

theorem resetRing_ring_twice (s : State) (r t : RingId) :
    ((s.resetRing r).resetRing r).ring t = (s.resetRing r).ring t := by
  by_cases h : t = r
  · subst h
    simp [resetRing_ring]
  · exact resetRing_ring_ne _ _ _ h

theorem resetRing_unfenced_twice (s : State) (r t : RingId) :
    ((s.resetRing r).resetRing r).unfenced t = (s.resetRing r).unfenced t := by
  by_cases h : t = r <;> simp [resetRing_unfenced, h]

/-- The second reset changes nothing. -/
theorem resetRing_keeps_twice (s : State) (r : RingId) (hn : 64 * (s.ring r).cap ≤ 2 ^ 32) :
    Keeps {} (s.resetRing r) ((s.resetRing r).resetRing r) where
  rings t _ := resetRing_ring_twice s r t
  fences t _ := resetRing_unfenced_twice s r t
  bytes a _ := resetRing_memByte_twice s r hn a
  regs := by simp
  tags := by simp
  txe := by simp
  rxe := by simp
  weights := by simp
  credits := by simp
  grant := by simp
  irq := by simp
  context := by simp
  events := by simp
  answers := by simp
  env := by simp
  tasks := by simp
  cfg := by simp

/-- Settles O33: the ring is still free, halted and with its pool after the first reset, so the second runs too, and it
writes the values that stand there already. -/
theorem resetRingTwice : Obligations.ResetRingTwice := by
  unfold Obligations.ResetRingTwice
  intro s r hpool hfree hhalted
  obtain ⟨-, -, -, hn, -⟩ := hpool.facts
  have hhalted' : halted ((s.resetRing r).regs r) = true := by simpa using hhalted
  exact ⟨s.resetRing r, (s.resetRing r).resetRing r, exec_resetRing hpool hfree hhalted,
    exec_resetRing hpool.resetRing hfree.resetRing hhalted', resetRing_ring_twice s r r,
    resetRing_memByte_twice s r hn, resetRing_keeps_twice s r hn⟩

end Sys2Proof.Machine
end

section
/-! SUPPORT. The register interface (`46_register_interface.md`): what a transaction at an offset and on a register comes
down to, and what the registers with a meaning of their own hold and leave alone: reserved offsets (R348), the interrupt
registers (R336 to R338), the timestamp FIFO (R339 to R342) and the weights (R347). -/

namespace Sys2Proof.Machine

/-! ### Transactions -/

theorem atOff_of_offWf {off : Nat} (h : offWf off = true) (s : State) (k : Reg → Res) :
    atOff off s k = k (decodeOff s.cfg.variant s.cfg.nq off) :=
  if_pos ((offWf_iff off).1 h)

theorem exec_regRead {off : Nat} (h : offWf off = true) (s : State) :
    exec (.regRead off) s = transact (decodeOff s.cfg.variant s.cfg.nq off) .read s :=
  atOff_of_offWf h s fun g => transact g .read s

theorem exec_regWrite {off : Nat} (h : offWf off = true) (v : Word) (s : State) :
    exec (.regWrite off v) s = transact (decodeOff s.cfg.variant s.cfg.nq off) (.write v) s :=
  atOff_of_offWf h s fun g => transact g (.write v) s

theorem exec_reservedOffset {off : Nat} (h : offWf off = true) (t : Trans) (s : State) :
    exec (.reservedOffset off t) s = transact (decodeOff s.cfg.variant s.cfg.nq off) t s :=
  atOff_of_offWf h s fun g => transact g t s

/-- A read answers with the register's value; only `TSF_HI` does more (R342). -/
theorem transact_read {g : Reg} {s : State} (h : s.afterRead g = s) :
    transact g .read s = .next (s.answer 0x50 (.okValue (s.regValue g))) := by
  simp only [transact, h]

theorem transact_reserved_read (s : State) : transact .reserved .read s = .next (s.answer 0x50 (.okValue 0)) :=
  transact_read rfl

theorem transact_reserved_write (v : Word) (s : State) : transact .reserved (.write v) s = .next s := rfl

/-- Settles O3: the reserved offsets are those that decode to no register, and the row and both commands run the
transaction of what the offset decodes to. -/
theorem reservedOffsets : Obligations.ReservedOffsets := by
  unfold Obligations.ReservedOffsets
  intro s off hoff
  have hiff := decodeOff_reserved s.cfg.variant s.cfg.nq off hoff
  refine ⟨hiff, fun hres => ?_⟩
  have hdec := hiff.2 hres
  refine ⟨?_, ?_, fun v => ⟨?_, ?_⟩⟩
  · rw [exec_reservedOffset hoff, hdec, transact_reserved_read]
  · rw [exec_regRead hoff, hdec, transact_reserved_read]
  · rw [exec_reservedOffset hoff, hdec, transact_reserved_write]
  · rw [exec_regWrite hoff, hdec, transact_reserved_write]

/-! ### Interrupt registers -/

/-- Clearing the asserted ones of the written bits, as the model does, is clearing the asserted ones (R337). -/
theorem and_not_and_eq {n : Nat} (e x : BitVec n) : e &&& ~~~(e &&& x) = e &&& ~~~x := by
  rw [BitVec.not_and, BitVec.and_or_distrib_left]
  simp

/-- R337, for the ring that is written: a busy reset ignores the write. -/
theorem State.writeIer_regs_self (s : State) (r : RingId) (e : BitVec 3) :
    let x := s.regs r
    (s.writeIer r e).regs r = if x.resetBusy = true then x
      else { x with ier := e &&& ~~~x.isr, chIsr := x.chIsr || (s.cfg.variant == .mc && e &&& x.isr != 0) } := by
  unfold State.writeIer
  by_cases hbusy : (s.regs r).resetBusy = true
  · simp [hbusy]
  · simp [hbusy, ierWriteRegs, and_not_and_eq, Bool.and_comm]

theorem State.writeIer_irq (s : State) (r : RingId) (e : BitVec 3) (d : Dir) :
    let x := s.regs r
    (s.writeIer r e).irq d = (s.irq d || (d == r.dir && (!x.resetBusy && (e &&& x.isr != 0) &&
      (s.cfg.variant == .sq || x.chIer)))) := by
  unfold State.writeIer
  by_cases hbusy : (s.regs r).resetBusy = true
  · simp [hbusy]
  · simp [hbusy, ierWriteRegs, Bool.and_assoc]

theorem State.writeIer_regs_ne (s : State) (r : RingId) (e : BitVec 3) {t : RingId} (h : t ≠ r) :
    (s.writeIer r e).regs t = s.regs t := by
  unfold State.writeIer
  split <;> simp [h]

/-- A write of `IER` changes registers of its own ring and the output of its direction only. -/
theorem State.writeIer_frame (s : State) (r : RingId) (e : BitVec 3) :
    Keeps { regs := (· = r), irq := (· = r.dir) } s (s.writeIer r e) := by
  constructor
  case regs => exact fun _ h => State.writeIer_regs_ne s r e h
  case irq =>
    intro d (h : ¬d = r.dir)
    simp [State.writeIer_irq, h]
  all_goals simp

/-- Storing one ring's registers changes nothing else. -/
theorem State.setRegs_frame (s : State) (r : RingId) (x : RingRegs) : Keeps { regs := (· = r) } s (s.setRegs r x) := by
  constructor
  case regs =>
    intro t (h : ¬t = r)
    simp [h]
  all_goals simp

theorem State.writeIcr_regs_self (s : State) (r : RingId) (v : Word) :
    (s.writeIcr r v).regs r = icrWriteRegs v (s.regs r) := by
  simp [State.writeIcr]

theorem exec_ier_write {s : State} {r : RingId} (h : s.hasBlock r) (v : Word) :
    exec (ringRow s.cfg.variant r .ierSq .ierMc (.write v)) s = .next (s.writeIer r (v.extractLsb' 0 3)) :=
  exec_ier s r _ h

theorem exec_icr_write {s : State} {r : RingId} (h : s.hasBlock r) (v : Word) :
    exec (ringRow s.cfg.variant r .icrSq .icrMc (.write v)) s = .next (s.writeIcr r v) :=
  exec_icr s r _ h

/-- Settles O18: each row runs its register's transaction; the write of `IER` delivers the asserted causes it enables. -/
theorem interruptRegisters : Obligations.InterruptRegisters := by
  unfold Obligations.InterruptRegisters
  intro s r v hblock x e
  refine ⟨?_, ?_, ?_, ?_, ⟨s.writeIer r e, exec_ier_write hblock v, ?_, ?_, State.writeIer_frame s r e⟩,
    ⟨s.writeIcr r v, exec_icr_write hblock v, State.writeIcr_regs_self s r v, State.setRegs_frame s r _⟩⟩
  · rw [exec_isr s r _ hblock, transact_read rfl]
    rfl
  · rw [exec_isr s r _ hblock]
    rfl
  · rw [exec_ier s r _ hblock, transact_read rfl]
    rfl
  · rw [exec_icr s r _ hblock, transact_read rfl]
    rfl
  · exact State.writeIer_regs_self s r e
  · simp [State.writeIer_irq, x]

/-! ### The timestamp FIFO -/

/-- The state after a read of `TSF_HI` (R342): the head entry is gone and the read is answered. -/
theorem exec_tsfHi_read {s : State} {q : Chan} (h : s.hasBlock ⟨.tx, q⟩) :
    exec (txRow s.cfg.variant q .tsfHiSq .tsfHiMc .read) s =
      .next ((s.setTxe q { s.txe q with tsf := (s.txe q).tsf.tail }).answer 0x50
        (.okValue (tsfHiWord (s.txe q).tsf))) :=
  exec_tsfHi s q _ h

theorem State.setTxe_answer_frame (s : State) (q : Chan) (x : TxEngine) (id : Nat) (a : Result) :
    Keeps { txe := (· = q), answers := True } s ((s.setTxe q x).answer id a) := by
  constructor
  case txe =>
    intro c (h : ¬c = q)
    simp [h]
  all_goals simp

/-- Settles O19: of the four registers only `TSF_HI` has a read that changes the FIFO, and none takes a write. -/
theorem tsfRegisters : Obligations.TsfRegisters := by
  unfold Obligations.TsfRegisters
  intro s q v hblock f
  refine ⟨?_, ?_, ?_, ⟨_, exec_tsfHi_read hblock, ?_, ?_, State.setTxe_answer_frame s q _ _ _⟩, ?_, ?_, ?_, ?_⟩
  · rw [exec_tsfCnt s q _ hblock, transact_read rfl]
    rfl
  · rw [exec_tsfTag s q _ hblock, transact_read rfl]
    rfl
  · rw [exec_tsfLo s q _ hblock, transact_read rfl]
    rfl
  · rfl
  · simp [f]
  · exact exec_tsfCnt s q _ hblock
  · exact exec_tsfTag s q _ hblock
  · exact exec_tsfLo s q _ hblock
  · exact exec_tsfHi s q _ hblock

/-! ### Weights -/

/-- The two weight rows run their registers' transactions in `MC` (R347). -/
theorem exec_weightRow {s : State} (h : s.cfg.variant = .mc) (hi : Bool) (t : Trans) :
    exec (if hi then .weight1 t else .weight0 t) s = transact (if hi then .weight1 else .weight0) t s := by
  cases hi
  · exact if_pos h
  · exact if_pos h

theorem exec_weightRow_read {s : State} (h : s.cfg.variant = .mc) (hi : Bool) :
    exec (if hi then .weight1 .read else .weight0 .read) s = .next (s.answer 0x50 (.okValue (s.weightWord hi))) := by
  rw [exec_weightRow h]
  cases hi <;> exact transact_read rfl

theorem exec_weightRow_write {s : State} (h : s.cfg.variant = .mc) (hi : Bool) (v : Word) :
    exec (if hi then .weight1 (.write v) else .weight0 (.write v)) s = .next (s.writeWeight hi v) := by
  rw [exec_weightRow h]
  cases hi <;> rfl

theorem halted_iff (x : RingRegs) :
    halted x = true ↔ x.run = false ∧ x.stopPending = false ∧ x.resetBusy = false := by
  simp [halted, and_assoc]

theorem State.writeWeight_frame (s : State) (hi : Bool) (v : Word) :
    Keeps { weights := fun _ => True } s (s.writeWeight hi v) := by
  constructor
  case weights => exact fun _ h => absurd trivial h
  all_goals simp

/-- Settles O21: a read packs the fields, a write stores those of the halted channels of its half. -/
theorem weightAccess : Obligations.WeightAccess := by
  unfold Obligations.WeightAccess
  intro s hi v hmc row
  refine ⟨⟨s.weightWord hi, exec_weightRow_read hmc hi, weightWord_field s hi⟩,
    ⟨s.writeWeight hi v, exec_weightRow_write hmc hi v, fun c => ?_, State.writeWeight_frame s hi v⟩⟩
  rw [writeWeight_weight]
  simp only [halted_iff]

end Sys2Proof.Machine
end

section
/-! SUPPORT. Interrupt causes (`47_dma_engine.md`, R395, R396): what storing a ring's registers and delivering their causes
touches, and what the assertion of one cause does to its ring and to the outputs. -/

namespace Sys2Proof.Machine

/-- Delivery reaches one ring's registers and the output of its direction. -/
theorem State.deliver_frame (s : State) (r : RingId) (p : RingRegs × Bool) :
    Keeps { regs := (· = r), irq := (· = r.dir) } s (s.deliver r p) := by
  constructor
  case regs =>
    intro t (h : ¬t = r)
    rw [State.deliver_regs, if_neg h]
  case irq =>
    intro d (h : ¬d = r.dir)
    simp [h]
  all_goals simp

theorem State.raise_frame (s : State) (r : RingId) (k : Irq) :
    Keeps { regs := (· = r), irq := (· = r.dir) } s (s.raise r k) :=
  State.deliver_frame s r _

/-- The ring's own registers after `RAISE`: status and mask by R395, the channel's recorded event by R396. -/
theorem State.raise_regs_self (s : State) (r : RingId) (k : Irq) :
    (s.raise r k).regs r = raised s.cfg.variant k.bit (s.regs r) := by
  unfold State.raise
  rw [State.deliver_regs, if_pos rfl]
  simp only [raiseRegs, raised, Bool.and_comm]

/-- The outputs after `RAISE`: only that of the ring's direction can rise, and none falls. -/
theorem State.raise_irq (s : State) (r : RingId) (k : Irq) (d : Dir) :
    (s.raise r k).irq d = (s.irq d || (d == r.dir && raises s.cfg.variant k.bit (s.regs r))) := by
  unfold State.raise
  rw [State.deliver_irq, Bool.and_assoc]
  rfl

/-- Settles O22: `RAISE` leaves its ring's registers `raised`, raises its direction's output where the cause `raises` it,
and touches nothing else. -/
theorem causeAsserts : Obligations.CauseAsserts := by
  unfold Obligations.CauseAsserts
  intro s r k x on
  refine ⟨?_, ?_, State.raise_frame s r k⟩
  · rw [State.raise_regs_self, raised, Bool.and_comm]
  · rw [State.raise_irq, beq_self_eq_true, Bool.true_and]
    rfl

end Sys2Proof.Machine
end

section
/-! SUPPORT. The encoder and the decoder agree (R140 to R166): the round trip of a whole operation, by the kind of its
encoded object. -/

namespace Sys2Proof

/-- A register row's offset is one of the window, and decodes to the row's own register. -/
theorem decode_register {v : Variant} {nq off : Nat} {t : Trans} {g : Reg} (ho : offWf off = true)
    (hg : decodeOff v nq off = g) : decode v nq (encRegister off t) = .ok (regInstr v off t g) := by
  rw [decode_encRegister v nq off t ho, hg]

/-- The block of ring `d` in `SQ` holds its registers at their offsets (R156). -/
theorem decode_sqRow {d : Dir} {o nq : Nat} {t : Trans} (ho : o < 0x40) (h4 : o % 4 = 0) :
    decode .sq nq (encRegister (rbOff .sq d 0 + o) t) =
      .ok (regInstr .sq (rbOff .sq d 0 + o) t (ringReg ⟨d, 0⟩ o)) := by
  apply decode_register
  · rw [offWf_iff]
    cases d <;> simp only [rbOff] <;> omega
  · cases d
    · have h1 : ¬0x80 ≤ 0x000 + o := by omega
      have h2 : 0x000 + o < 0x40 := by omega
      have h3 : (0x000 + o) % 0x40 = o := by omega
      simp only [decodeOff, rbOff, h1, h2, h3, if_true, if_false]
    · have h1 : ¬0x80 ≤ 0x040 + o := by omega
      have h2 : ¬0x040 + o < 0x40 := by omega
      have h3 : (0x040 + o) % 0x40 = o := by omega
      simp only [decodeOff, rbOff, h1, h2, h3, if_false]

/-- The block of channel `c` in `MC` holds its registers at their offsets (R157). -/
theorem decode_mcRow {d : Dir} {c o nq : Nat} {t : Trans} (h : c < nq ∧ c < 16) (ho : o < 0x40) (h4 : o % 4 = 0) :
    decode .mc nq (encRegister (rbOff .mc d c + o) t) =
      .ok (regInstr .mc (rbOff .mc d c + o) t (ringReg ⟨d, ⟨c, h.2⟩⟩ o)) :=
  decode_register (offWf_mc d c o h.2 ho h4) (decodeOff_mc nq d c o h.2 h.1 ho)

/-- The bitmap block of a direction holds its registers at their offsets (R158). -/
theorem decode_bitmapRow {d : Dir} {o nq : Nat} {t : Trans} (ho : o < 0x40) (h4 : o % 4 = 0) :
    decode .mc nq (encRegister (bbOff d + o) t) = .ok (regInstr .mc (bbOff d + o) t (bitmapReg d o)) := by
  apply decode_register
  · rw [offWf_iff]
    cases d <;> simp only [bbOff] <;> omega
  · cases d
    · have h1 : 0x000 + o < 0x800 := by omega
      have h2 : (0x000 + o) % 0x800 / 0x40 = 0 := by omega
      have h3 : (0x000 + o) % 0x40 = o := by omega
      simp only [decodeOff, bbOff, h1, h2, h3, if_true]
    · have h1 : ¬0x800 + o < 0x800 := by omega
      have h2 : (0x800 + o) % 0x800 / 0x40 = 0 := by omega
      have h3 : (0x800 + o) % 0x40 = o := by omega
      simp only [decodeOff, bbOff, h1, h2, h3, if_true, if_false]

theorem decodeEncode_command {v : Variant} {nq : Nat} {i : Instr} (h : i.wf v nq = true)
    (hf : (encode i).fmt = .command) : decode v nq (encode i) = .ok i := by
  cases i with
  | detach | eArbGrant | statsSnapshot =>
    simp only [encode, decode_encCommand, decodeCommand, rdNat_put, Nat.reducePow, Nat.reduceLT]
  | attach cfg =>
    simp only [encode, decode_encCommand, decodeCommand, rdNat_put, Nat.reducePow, Nat.reduceLT, rdConfig_wr cfg _ _ h]
  | armRx q | reclaimTx q | eTxDesc q | eRxDesc q =>
    have hq : q < 256 := by simpa [Instr.wf] using h
    simp only [encode, decode_encCommand, decodeCommand, rdNat_put, Nat.reducePow, Nat.reduceLT, hq]
  | resetRing d q | freeRing d q | recoverBegin d q | recoverPoll d q | recoverDrain d q | recoverReconfig d q
  | eDelayTimeout d q | eResetDone d q | eStopDone d q =>
    have hq : q < 256 := by simpa [Instr.wf] using h
    simp only [encode, decode_encCommand, decodeCommand, rdNat_put, Nat.reducePow, Nat.reduceLT, rdRing_wr, hq]
  | eFault d q c =>
    have hq : q < 256 := by simpa [Instr.wf] using h
    simp only [encode, decode_encCommand, decodeCommand, List.append_assoc, rdNat_put, Nat.reducePow, Nat.reduceLT,
      rdRing_wr, hq, rdEnum_wr causeList c _ _ (mem_causeList c) (by decide)]
  | allocate d q n =>
    obtain ⟨hq, hn⟩ : q < 256 ∧ n < 4294967296 := by simpa [Instr.wf] using h
    simp only [encode, decode_encCommand, decodeCommand, List.append_assoc, rdNat_put, Nat.reducePow, Nat.reduceLT,
      rdRing_wr, hq, hn]
  | submitTx q f | offloadTx q f =>
    obtain ⟨hq, hwf⟩ : q < 256 ∧ f.wf = true := by simpa [Instr.wf] using h
    simp only [encode, decode_encCommand, decodeCommand, List.append_assoc, rdNat_put, Nat.reducePow, Nat.reduceLT,
      hq, rdFrame_wr f _ _ hwf]
  | pollRx q n =>
    obtain ⟨hq, hn⟩ : q < 256 ∧ n < 4294967296 := by simpa [Instr.wf] using h
    simp only [encode, decode_encCommand, decodeCommand, List.append_assoc, rdNat_put, Nat.reducePow, Nat.reduceLT,
      hq, hn]
  | offloadRx q j =>
    simp only [encode, decode_encCommand, decodeCommand, rdNat_put, Nat.reducePow, Nat.reduceLT, rdSlot_wr q j _ _ h]
  | configureWeight c w =>
    obtain ⟨hc, hw⟩ : c < 256 ∧ w < 256 := by simpa [Instr.wf] using h
    simp only [encode, decode_encCommand, decodeCommand, List.append_assoc, rdNat_put, Nat.reducePow, Nat.reduceLT,
      hc, hw]
  | enableChannel c ds | disableChannel c ds =>
    have hc : c < 256 := by simpa [Instr.wf] using h
    simp only [encode, decode_encCommand, decodeCommand, List.append_assoc, rdNat_put, Nat.reducePow, Nat.reduceLT,
      hc, rdEnum_wr dirsList ds _ _ (mem_dirsList ds) (by decide)]
  | irqService d n =>
    obtain ⟨hlo, hhi⟩ : 1 ≤ n ∧ n ≤ 4294967296 := by simpa [Instr.wf] using h
    have hn : n - 1 < 4294967296 := by omega
    simp only [encode, decode_encCommand, decodeCommand, List.append_assoc, rdNat_put, Nat.reducePow, Nat.reduceLT,
      rdEnum_wr dirList d _ _ (mem_dirList d) (by decide), hn, Nat.sub_add_cancel hlo]
  | linkNotify up =>
    simp only [encode, decode_encCommand, decodeCommand, rdNat_put, Nat.reducePow, Nat.reduceLT,
      rdEnum_wr boolList up _ _ (mem_boolList up) (by decide)]
  | regRead off =>
    have hoff : off < 65536 := by have := (offWf_iff off).1 h; omega
    simp only [encode, decode_encCommand, decodeCommand, rdNat_put, Nat.reducePow, Nat.reduceLT, hoff,
      show offWf off = true from h, if_true]
  | regWrite off w =>
    have hoff : off < 65536 := by have := (offWf_iff off).1 h; omega
    simp only [encode, decode_encCommand, decodeCommand, List.append_assoc, rdNat_put, Nat.reducePow, Nat.reduceLT,
      hoff, rdWord_wr, show offWf off = true from h, if_true]
  | _ => cases hf

theorem decodeEncode_register {v : Variant} {nq : Nat} {i : Instr} (h : i.wf v nq = true)
    (hf : (encode i).fmt = .register) : decode v nq (encode i) = .ok i := by
  cases i with
  | crSq d t | srSq d t | curdescSq d t | taildescSq d t | isrSq d t | ierSq d t | icrSq d t
  | tsfCntSq t | tsfTagSq t | tsfLoSq t | tsfHiSq t =>
    obtain rfl : v = .sq := by simpa [Instr.wf] using h
    exact decode_sqRow (by decide) (by decide)
  | crMc d c t | srMc d c t | curdescMc d c t | taildescMc d c t | isrMc d c t | ierMc d c t | icrMc d c t
  | tsfCntMc c t | tsfTagMc c t | tsfLoMc c t | tsfHiMc c t =>
    obtain ⟨⟨rfl, hq⟩, hc⟩ : (v = .mc ∧ c < nq) ∧ c < 16 := by simpa [Instr.wf] using h
    exact decode_mcRow ⟨hq, hc⟩ (by decide) (by decide)
  | chen d t | chIer d t | chIsr d t | chIcr d t | weight0 t | weight1 t =>
    obtain rfl : v = .mc := by simpa [Instr.wf] using h
    exact decode_bitmapRow (by decide) (by decide)
  | reservedOffset off t =>
    obtain ⟨ho, hr⟩ : offWf off = true ∧ reservedOff v nq off = true := by simpa [Instr.wf] using h
    exact decode_register ho ((decodeOff_reserved v nq off ho).2 hr)
  | _ => cases hf

/-- A word whose reserved bits are 0 passes the decoder's check (R150). -/
theorem checkReserved_pass {w mask : Word} {i : Instr} (h : (w &&& mask == 0) = true) :
    checkReserved w mask i = .ok i := if_pos h

theorem decodeEncode_descWord {v : Variant} {nq : Nat} {i : Instr} (h : i.wf v nq = true)
    (hf : (encode i).fmt = .descWord) : decode v nq (encode i) = .ok i := by
  cases i with
  | descBuf d q j w | descSwFrame d q j w =>
    simp only [encode, decode_encDescWord, decodeDescWord, List.append_assoc, rdWord_wr, rdNat_put, Nat.reducePow,
      Nat.reduceLT, rdEnum_wr dirList d _ _ (mem_dirList d) (by decide), rdSlot_wr q j _ _ h]
  | descNext d q j w | descCtrlSq d q j w | descCtrlMc d q j w | descStatus d q j w | descSwTag d q j w =>
    obtain ⟨hs, hw⟩ := Bool.and_eq_true_iff.1 h
    simp only [encode, decode_encDescWord, decodeDescWord, List.append_assoc, rdWord_wr, rdNat_put, Nat.reducePow,
      Nat.reduceLT, rdEnum_wr dirList d _ _ (mem_dirList d) (by decide), rdSlot_wr q j _ _ hs, checkReserved_pass hw]
  | descSwMap d q j w =>
    obtain ⟨hs, hw⟩ := Bool.and_eq_true_iff.1 h
    simp only [encode, decode_encDescWord, decodeDescWord, List.append_assoc, rdWord_wr, rdNat_put, Nat.reducePow,
      Nat.reduceLT, rdEnum_wr dirList d _ _ (mem_dirList d) (by decide), rdSlot_wr q j _ _ hs, checkWord, hw, if_true]
  | descApp0Tx q j w | descApp3Tx q j w | descApp4Tx q j w =>
    obtain ⟨hs, hw⟩ := Bool.and_eq_true_iff.1 h
    simp only [encode, decode_encDescWord, decodeDescWord, rdWord_wr, rdNat_put, Nat.reducePow, Nat.reduceLT,
      rdSlot_wr q j _ _ hs, checkReserved_pass hw]
  | descApp1Tx q j w | descApp2Tx q j w | descApp0Rx q j w | descApp1Rx q j w | descApp2Rx q j w | descApp3Rx q j w
  | descApp4Rx q j w =>
    simp only [encode, decode_encDescWord, decodeDescWord, rdWord_wr, rdNat_put, Nat.reducePow, Nat.reduceLT,
      rdSlot_wr q j _ _ h]
  | _ => cases hf

theorem decodeEncode_descriptor {v : Variant} {nq : Nat} {i : Instr} (h : i.wf v nq = true)
    (hf : (encode i).fmt = .descriptor) : decode v nq (encode i) = .ok i := by
  cases i with
  | descriptorSq d q w =>
    obtain ⟨rfl, hq⟩ : v = .sq ∧ q < 256 := by simpa [Instr.wf] using h
    have hring := rdRing_wr d q [] (fun dir q _ => .ok (.descriptorSq dir q w)) hq
    rw [List.append_nil] at hring
    simpa only [encode, decode, decodeDescriptor, rdDescSq_wr] using hring
  | descriptorMc d q w =>
    obtain ⟨rfl, hq⟩ : v = .mc ∧ q < 256 := by simpa [Instr.wf] using h
    have hring := rdRing_wr d q [] (fun dir q _ => .ok (.descriptorMc dir q w)) hq
    rw [List.append_nil] at hring
    simpa only [encode, decode, decodeDescriptor, rdDescMc_wr] using hring
  | _ => cases hf

/-- Settles O1, by the kind of the encoded object: a command is found by its id and its operands are read back one after
the other, a register row's offset decodes to its own register, a descriptor word's place selects its row, whose check of
the reserved bits passes, and a descriptor is read back word by word. -/
theorem decodeEncode : Obligations.DecodeEncode := by
  unfold Obligations.DecodeEncode
  intro v nq i h
  cases hf : (encode i).fmt with
  | command => exact decodeEncode_command h hf
  | register => exact decodeEncode_register h hf
  | descWord => exact decodeEncode_descWord h hf
  | descriptor => exact decodeEncode_descriptor h hf

end Sys2Proof
end

section
/-! SUPPORT. The invariants of the whole machine: each is kept by every change `Closed` lists, so by every step. Memory in
its canonical form (log 3), legal registers and credits (R40 to R57), legal cursors and tags (R31 to R36, R60). -/

namespace Sys2Proof.Machine

/-! ### What `OFFLOAD_TX` and `SUBMIT_TX` are made of -/

/-- `OFFLOAD_TX` issues one tag or changes nothing (R311). -/
theorem offloadTx_cases {s s' : State} {q : Chan} {f : Frame} {app : App} (h : s.offloadTx q f = some (app, s')) :
    s' = s ∨ s' = s.setTags q ⟨nextTagOf (s.tags q).nextTag,
      kvPut (s.tags q).tagmap (s.tags q).nextTag.toNat f.handle⟩ := by
  unfold State.offloadTx at h
  dsimp only at h
  split at h
  · split at h
    · cases h
    · cases h
      exact .inr rfl
  · cases h
    exact .inl rfl

/-- A property of memory that every store of a word keeps is kept by the descriptors of a frame. -/
theorem fillFrame_mem {P : Memory → Prop} (hP : ∀ m a v, P m → P (memPutWord m a v)) (r : RingId) (app : App) (h : Word)
    (gs : List Frag) : ∀ (sof : Bool) (i : Nat) (s : State), P s.mem → P (fillFrame r app h sof i gs s).mem := by
  induction gs with
  | nil => exact fun _ _ _ hs => hs
  | cons g gs ih =>
    intro sof i s hs
    refine ih _ _ _ ?_
    simp only [State.fillTx, State.putApp, State.putD, State.setMem_mem]
    exact hP _ _ _ (hP _ _ _ (hP _ _ _ (hP _ _ _ (hP _ _ _ (hP _ _ _ (hP _ _ _ (hP _ _ _ (hP _ _ _ (hP _ _ _
      (hP _ _ _ hs))))))))))

@[simp] theorem State.submitMark_mem (s : State) (r : RingId) (k : Nat) : (s.submitMark r k).mem = s.mem := by
  simp [State.submitMark]

@[simp] theorem State.submitBell_mem (s : State) (r : RingId) (k : Nat) : (s.submitBell r k).mem = s.mem := by
  simp [State.submitBell]

theorem State.submitFill_mem (s : State) (r : RingId) (f : Frame) (app : App) :
    (s.submitFill r f app).mem = (fillFrame r app f.handle true (s.ring r).issue f.frags s).mem := by
  simp [State.submitFill]

/-! ### Memory -/

theorem makePool_memWf (s : State) (r : RingId) (n : Nat) (b : Word) (h : Memory.wf s.mem = true) :
    Memory.wf (s.makePool r n b).mem = true := by
  unfold State.makePool
  rw [resetRing_mem]
  refine Kept.loopN (P := fun t => Memory.wf t.mem = true) (fun i t ht => ?_) _ _ _ ?_
  · exact memPutWord_wf _ _ _ (memPutWord_wf _ _ _ ht)
  · exact memPutBytes_wf _ _ _ h

theorem memWf_closed : Closed fun s => Memory.wf s.mem = true := by
  constructor
  case toKept =>
    constructor
    case putWord => exact fun s a v h => memPutWord_wf s.mem a v h
    case putBytes => exact fun s a bs h => memPutBytes_wf bs s.mem a h
    case makePool => exact fun s r n b _ _ _ h => makePool_memWf s r n b h
    case submitted =>
      intro s q f app h
      rw [State.submitFill_mem]
      exact fillFrame_mem memPutWord_wf _ _ _ _ _ _ _ h
    case offload =>
      intro s q f app s' ho h
      obtain rfl | rfl := offloadTx_cases ho
      · exact h
      · exact h
    all_goals (intros; simpa)
  case become => exact fun s r st h => h

/-- Settles O6: every store keeps the form, and memory changes by stores only. -/
theorem memoryKept : Obligations.MemoryKept := fun s t h hs => memWf_closed.step s t h hs

/-! ### Registers and credits -/

theorem regsLegal_raised (x : RingRegs) (k : Irq) (h : regsLegal x = true) : regsLegal (raiseRegs k x).1 = true := h

theorem regsLegal_ierWrite (v : BitVec 3) (x : RingRegs) (h : regsLegal x = true) :
    regsLegal (ierWriteRegs v x).1 = true := h

theorem regsLegal_icrWrite (v : Word) (x : RingRegs) (h : regsLegal x = true) : regsLegal (icrWriteRegs v x) = true := by
  unfold icrWriteRegs
  split <;> exact h

/-- No legal `THRESH` is 0, so the count it restarts is in 1 to 255 (R42, R53). -/
theorem thresh_count {t : BitVec 8} (h : t ≠ 0) : 1 ≤ t.toNat ∧ t.toNat ≤ 255 := by
  have hlt := t.isLt
  have hne : t.toNat ≠ 0 := fun e => h (BitVec.eq_of_toNat_eq e)
  omega

theorem regsLegal_restart (x : RingRegs) (b : Bool) (h : regsLegal x = true) :
    regsLegal { x with iocCount := x.thresh.toNat, dlyArmed := b } = true := by
  obtain ⟨hcur, htail, hthresh, -, -, hrun⟩ := (regsLegal_iff x).1 h
  exact (regsLegal_iff _).2 ⟨hcur, htail, hthresh, (thresh_count hthresh).1, (thresh_count hthresh).2, hrun⟩

theorem regsLegal_fault (c : Cause) (x : RingRegs) (h : regsLegal x = true) : regsLegal (faultRegs c x) = true := by
  obtain ⟨hcur, htail, hthresh, hlo, hhi, -⟩ := (regsLegal_iff x).1 h
  exact (regsLegal_iff _).2 ⟨hcur, htail, hthresh, hlo, hhi, fun _ => rfl⟩

theorem regsLegal_resetDone (x : RingRegs) : regsLegal (resetDoneRegs x) = true := by
  simp [regsLegal, resetDoneRegs, RingRegs.reset]

theorem regsLegal_stopDone (x : RingRegs) (h : regsLegal x = true) : regsLegal (stopDoneRegs x) = true := by
  obtain ⟨hcur, htail, hthresh, hlo, hhi, -⟩ := (regsLegal_iff x).1 h
  exact (regsLegal_iff _).2 ⟨hcur, htail, hthresh, hlo, hhi, fun _ => rfl⟩

theorem regsLegal_advance (d n : Word) (x : RingRegs) (h : regsLegal x = true) : regsLegal (advanceRegs d n x) = true := by
  obtain ⟨-, htail, hrest⟩ := (regsLegal_iff x).1 h
  exact (regsLegal_iff _).2 ⟨align64_low n, htail, hrest⟩

theorem regsLegal_packetDone (x : RingRegs) (h : regsLegal x = true) : regsLegal (packetDoneRegs x).1 = true := by
  unfold packetDoneRegs
  split
  · exact regsLegal_restart x false h
  · next hcount =>
    obtain ⟨hcur, htail, hthresh, -, hhi, hrun⟩ := (regsLegal_iff x).1 h
    split <;> exact (regsLegal_iff _).2 ⟨hcur, htail, hthresh, by dsimp only; omega, by dsimp only; omega, hrun⟩

theorem regsLegal_start (x : RingRegs) (h : regsLegal x = true) (hs : x.stopPending = false) :
    regsLegal (startRegs x) = true := by
  unfold startRegs
  split
  · exact h
  · obtain ⟨hcur, htail, hthresh, hlo, hhi, -⟩ := (regsLegal_iff x).1 h
    exact (regsLegal_iff _).2 ⟨hcur, htail, hthresh, hlo, hhi, fun _ => hs⟩

theorem regsLegal_stop (x : RingRegs) (h : regsLegal x = true) : regsLegal (stopRegs x) = true := by
  unfold stopRegs
  split
  · obtain ⟨hcur, htail, hthresh, hlo, hhi, -⟩ := (regsLegal_iff x).1 h
    exact (regsLegal_iff _).2 ⟨hcur, htail, hthresh, hlo, hhi, fun e => absurd e (by simp)⟩
  · exact h

theorem regsLegal_runWrite (on : Bool) (x : RingRegs) (h : regsLegal x = true) : regsLegal (runWriteRegs on x) = true := by
  unfold runWriteRegs
  split
  · exact h
  · next hbusy =>
    split
    · exact regsLegal_start x h (by simp_all)
    · exact regsLegal_stop x h

theorem regsLegal_coalesce (v : Word) (x : RingRegs) (h : regsLegal x = true) : regsLegal (coalesceRegs v x) = true := by
  obtain ⟨hcur, htail, hthresh, -, -, hrun⟩ := (regsLegal_iff x).1 h
  have hstored : (coalesceRegs v x).thresh ≠ 0 := by
    unfold coalesceRegs
    dsimp only
    split
    · exact hthresh
    · assumption
  exact (regsLegal_iff _).2 ⟨hcur, htail, hstored, (thresh_count hstored).1, (thresh_count hstored).2, hrun⟩

theorem regsLegal_curWrite (v : Word) (x : RingRegs) (h : regsLegal x = true) : regsLegal (curWriteRegs v x) = true := by
  unfold curWriteRegs
  split
  · obtain ⟨-, hrest⟩ := (regsLegal_iff x).1 h
    exact (regsLegal_iff _).2 ⟨align64_low v, hrest⟩
  · exact h

theorem regsLegal_tailWrite (v : Word) (x : RingRegs) (h : regsLegal x = true) : regsLegal (tailWriteRegs v x) = true := by
  obtain ⟨hcur, -, hrest⟩ := (regsLegal_iff x).1 h
  unfold tailWriteRegs
  split
  · exact h
  · split <;> exact (regsLegal_iff _).2 ⟨hcur, align64_low v, hrest⟩

theorem State.RegsLegal.setRegs {s : State} (h : s.RegsLegal) (r : RingId) {x : RingRegs} (hx : regsLegal x = true) :
    (s.setRegs r x).RegsLegal := by
  obtain ⟨hregs, hcredit⟩ := h
  refine ⟨fun t => ?_, by simpa using hcredit⟩
  rw [State.setRegs_regs]
  split
  · exact hx
  · exact hregs t

theorem State.RegsLegal.deliver {s : State} (h : s.RegsLegal) (r : RingId) {p : RingRegs × Bool}
    (hp : regsLegal p.1 = true) : (s.deliver r p).RegsLegal := by
  obtain ⟨hregs, hcredit⟩ := h
  refine ⟨fun t => ?_, by simpa using hcredit⟩
  rw [State.deliver_regs]
  split
  · exact hp
  · exact hregs t

theorem State.RegsLegal.mapDir {s : State} (h : s.RegsLegal) (d : Dir) {f : Chan → RingRegs → RingRegs}
    (hf : ∀ c x, regsLegal x = true → regsLegal (f c x) = true) : (s.mapDir d f).RegsLegal := by
  obtain ⟨hregs, hcredit⟩ := h
  refine ⟨fun t => ?_, by simpa using hcredit⟩
  rw [State.mapDir_regs]
  split
  · exact hf _ _ (hregs t)
  · exact hregs t

theorem State.RegsLegal.writeCr {s : State} (h : s.RegsLegal) (r : RingId) (v : Word) : (s.writeCr r v).RegsLegal := by
  unfold State.writeCr
  split
  · exact h
  · split
    · have hdrawn : s.drawResetCompletes.2.RegsLegal := by simpa [State.RegsLegal] using h
      have hset := hdrawn.setRegs r (x := { s.drawResetCompletes.2.regs r with
        resetBusy := true, resetCompletes := s.drawResetCompletes.1 }) (hdrawn.1 r)
      simpa [State.RegsLegal] using hset
    · refine h.setRegs r ?_
      split
      · exact regsLegal_runWrite _ _ (regsLegal_coalesce v _ (h.1 r))
      · exact regsLegal_coalesce v _ (h.1 r)

/-- Every register write keeps the registers legal (R330 to R348). -/
theorem State.RegsLegal.regWrite {s : State} (h : s.RegsLegal) (g : Reg) (v : Word) : (s.regWrite g v).RegsLegal := by
  cases g with
  | cr r => exact h.writeCr r v
  | curdesc r => exact h.setRegs r (regsLegal_curWrite v _ (h.1 r))
  | taildesc r => exact h.setRegs r (regsLegal_tailWrite v _ (h.1 r))
  | ier r =>
    simp only [State.regWrite, State.writeIer]
    split
    · exact h
    · exact h.deliver r (regsLegal_ierWrite _ _ (h.1 r))
  | icr r => exact h.setRegs r (regsLegal_icrWrite v _ (h.1 r))
  | chen d => exact h.mapDir d fun c x hx => regsLegal_runWrite _ x hx
  | chIer d =>
    have hmap := h.mapDir d (f := fun c x => { x with chIer := v.getLsbD c.val }) fun c x hx => hx
    simp only [State.regWrite, State.writeChIer]
    split
    · simpa [State.RegsLegal] using hmap
    · exact hmap
  | chIcr d => exact h.mapDir d fun c x hx => hx
  | weight0 | weight1 => simpa [State.RegsLegal, State.regWrite, State.writeWeight_keeps] using h
  | _ => exact h

theorem State.RegsLegal.reload {s : State} (h : s.RegsLegal) : s.reload.RegsLegal := by
  unfold State.reload
  split
  · refine ⟨h.1, fun c => ?_⟩
    have hc := (s.weight c).isLt
    simp only [State.credit, vget_ofFn]
    omega
  · exact h

theorem State.RegsLegal.grantTo {s : State} (h : s.RegsLegal) (c : Chan) : (s.grantTo c).RegsLegal := by
  obtain ⟨hregs, hcredit⟩ := h
  refine ⟨hregs, fun d => ?_⟩
  have hc := hcredit c
  have hd := hcredit d
  simp only [State.credit] at hc hd
  simp only [State.credit, State.grantTo, vget_vset]
  split <;> omega

theorem State.RegsLegal.setRing {s : State} (h : s.RegsLegal) (r : RingId) (w : RingSw) : (s.setRing r w).RegsLegal := h

theorem State.RegsLegal.submitFill {s : State} (h : s.RegsLegal) (q : Chan) (f : Frame) (app : App) :
    (s.submitFill ⟨.tx, q⟩ f app).RegsLegal := by
  have hmark : ((fillFrame ⟨.tx, q⟩ app f.handle true (s.ring ⟨.tx, q⟩).issue f.frags s).submitMark ⟨.tx, q⟩
      ((s.ring ⟨.tx, q⟩).after f.frags.length)).RegsLegal := by
    simpa [State.RegsLegal] using h
  exact (hmark.regWrite _ _).setRing _ _

theorem regsLegal_closed : Closed State.RegsLegal := by
  constructor
  case toKept =>
    constructor
    case regWrite => exact fun s g v h => h.regWrite g v
    case reload => exact fun s h => h.reload
    case grantTo => exact fun s c _ h => h.grantTo c
    case raise => exact fun s r k h => h.deliver r (regsLegal_raised _ k (h.1 r))
    case delay => exact fun s r h => h.setRegs r (regsLegal_restart _ false (h.1 r))
    case fault => exact fun s r c h => h.setRegs r (regsLegal_fault c _ (h.1 r))
    case resetDone => exact fun s r h => h.setRegs r (regsLegal_resetDone _)
    case stopDone => exact fun s r h => h.setRegs r (regsLegal_stopDone _ (h.1 r))
    case advance => exact fun s r d n h => h.setRegs r (regsLegal_advance d n _ (h.1 r))
    case done => exact fun s r h => h.setRegs r (regsLegal_packetDone _ (h.1 r))
    case submitted => exact fun s q f app h => h.submitFill q f app
    case offload =>
      intro s q f app s' ho h
      obtain rfl | rfl := offloadTx_cases ho
      · exact h
      · exact h
    all_goals (intros; simpa [State.RegsLegal])
  case become => exact fun s r st h => h

/-- Settles O7: every change of a ring's registers or of a credit leaves them legal. -/
theorem regsKept : Obligations.RegsKept := fun s t h hs => regsLegal_closed.step s t h hs

/-! ### Cursors and tags -/

theorem State.CursorsLegal.setRing {s : State} (h : s.CursorsLegal) {r : RingId} {w : RingSw}
    (hw : cursorsLegal r.dir w = true) : (s.setRing r w).CursorsLegal := by
  intro t
  rw [State.setRing_ring]
  split
  · next ht => rwa [ht]
  · exact h t

/-- The three cursors together at an index of the pool, whatever it is without one. -/
theorem cursorsLegal_cursors {d : Dir} {w : RingSw} (h : cursorsLegal d w = true) {i : Nat}
    (hi : w.present = true → i < w.cap) : cursorsLegal d (w.cursors i) = true := by
  obtain ⟨-, -, hpool⟩ := (cursorsLegal_iff d w).1 h
  exact (cursorsLegal_iff _ _).2 ⟨rfl, fun _ => rfl, fun hp => ⟨(hpool hp).1, hi hp, hi hp⟩⟩

theorem cursorsLegal_vacant (d : Dir) (w : RingSw) : cursorsLegal d w.vacant = true :=
  (cursorsLegal_iff _ _).2 ⟨rfl, fun _ => rfl, fun hp => absurd hp (by simp [RingSw.vacant, RingSw.absent])⟩

theorem cursorsLegal_gone {d : Dir} {w : RingSw} (h : cursorsLegal d w = true) : cursorsLegal d w.gone = true := by
  obtain ⟨htail, hrx, -⟩ := (cursorsLegal_iff d w).1 h
  exact (cursorsLegal_iff _ _).2 ⟨htail, hrx, fun hp => absurd hp (by simp [RingSw.gone])⟩

/-- `completion` of a TX ring moves on inside its pool. -/
theorem cursorsLegal_toCompletion {w : RingSw} (h : cursorsLegal .tx w = true) :
    cursorsLegal .tx (w.toCompletion (incMod w.cap w.completion)) = true := by
  obtain ⟨htail, -, hpool⟩ := (cursorsLegal_iff .tx w).1 h
  refine (cursorsLegal_iff _ _).2 ⟨htail, fun e => absurd e (by decide), fun hp => ?_⟩
  obtain ⟨hlegal, hi, -⟩ := hpool hp
  exact ⟨hlegal, hi, Nat.mod_lt _ (by omega)⟩

/-- `issue` and `hw_tail` of a TX ring move on inside its pool. -/
theorem cursorsLegal_submitted {w : RingSw} (h : cursorsLegal .tx w = true) (k : Nat) :
    cursorsLegal .tx { w with issue := w.after k, hwTail := w.after k } = true := by
  obtain ⟨-, -, hpool⟩ := (cursorsLegal_iff .tx w).1 h
  refine (cursorsLegal_iff _ _).2 ⟨rfl, fun e => absurd e (by decide), fun hp => ?_⟩
  obtain ⟨hlegal, -, hc⟩ := hpool hp
  exact ⟨hlegal, Nat.mod_lt _ (by omega), hc⟩

theorem incMod_lt {d : Dir} {w : RingSw} (h : cursorsLegal d w = true) (hp : w.present = true) (i : Nat) :
    incMod w.cap i < w.cap := by
  obtain ⟨-, -, hpool⟩ := (cursorsLegal_iff d w).1 h
  exact Nat.mod_lt _ (by have := (hpool hp).1; omega)

theorem cap_pos {d : Dir} {w : RingSw} (h : cursorsLegal d w = true) (hp : w.present = true) : 0 < w.cap := by
  obtain ⟨-, -, hpool⟩ := (cursorsLegal_iff d w).1 h
  have := (hpool hp).1
  omega

theorem State.CursorsLegal.makePool {s : State} (h : s.CursorsLegal) (r : RingId) {n : Nat} {b : Word} (hlo : 2 ≤ n)
    (hhi : n ≤ 32768) (hb : blockOk b n = true) : (s.makePool r n b).CursorsLegal := by
  intro t
  by_cases ht : t = r
  · subst ht
    simp only [blockOk, Bool.and_eq_true, decide_eq_true_eq] at hb
    rw [makePool_ring]
    exact (cursorsLegal_iff _ _).2 ⟨rfl, fun _ => rfl, fun _ => ⟨⟨hlo, hhi, hb⟩, by dsimp only; omega, by dsimp only; omega⟩⟩
  · rw [makePool_ring_ne s r n b t ht]
    exact h t

theorem State.CursorsLegal.submitFill {s : State} (h : s.CursorsLegal) (q : Chan) (f : Frame) (app : App) :
    (s.submitFill ⟨.tx, q⟩ f app).CursorsLegal := by
  intro t
  by_cases ht : t = ⟨.tx, q⟩
  · subst ht
    rw [submitFill_ring]
    exact cursorsLegal_submitted (h ⟨.tx, q⟩) _
  · rw [submitFill_ring_ne s q f app t ht]
    exact h t

theorem cursorsLegal_closed : Closed State.CursorsLegal := by
  constructor
  case toKept =>
    constructor
    case populate => exact fun s r h => h.setRing (h r)
    case pending => exact fun s r b h => h.setRing (h r)
    case polls => exact fun s r n h => h.setRing (h r)
    case cause => exact fun s r c h => h.setRing (h r)
    case zeroed => exact fun s r h => h.setRing (h r)
    case count => exact fun s r p b e d h => h.setRing (h r)
    case vacant => exact fun s r h => h.setRing (cursorsLegal_vacant _ _)
    case gone => exact fun s r h => h.setRing (cursorsLegal_gone (h r))
    case rewind => exact fun s r h => h.setRing (cursorsLegal_cursors (h r) (cap_pos (h r)))
    case rearmed => exact fun s q h => h.setRing (cursorsLegal_cursors (h ⟨.rx, q⟩) fun hp => incMod_lt (h ⟨.rx, q⟩) hp _)
    case reclaimed => exact fun s q h => h.setRing (cursorsLegal_toCompletion (h ⟨.tx, q⟩))
    case makePool => exact fun s r n b hlo hhi hb h => h.makePool r hlo hhi hb
    case submitted => exact fun s q f app h => h.submitFill q f app
    case offload =>
      intro s q f app s' ho h
      obtain rfl | rfl := offloadTx_cases ho
      · exact h
      · exact h
    all_goals (intros; simpa [State.CursorsLegal])
  case become => exact fun s r st h => h.setRing (h r)

theorem State.TagsLegal.setTags {s : State} (h : s.TagsLegal) {q : Chan} {g : TagState} (hg : tagsLegal g = true) :
    (s.setTags q g).TagsLegal := by
  intro c
  rw [State.setTags_tags]
  split
  · exact hg
  · exact h c

theorem tagsLegal_iff (g : TagState) : tagsLegal g = true ↔ g.nextTag ≠ tagInvalid ∧ kvSorted g.tagmap = true := by
  simp [tagsLegal]

/-- The tag after a tag is never the invalid one (R311, R177). -/
theorem nextTagOf_ne_invalid (tag : BitVec 16) : nextTagOf tag ≠ tagInvalid := by
  intro h
  have hlt : (tag.toNat + 1) % 0xFFFF < 0xFFFF := Nat.mod_lt _ (by decide)
  have hval : (tag.toNat + 1) % 0xFFFF % 2 ^ 16 = 0xFFFF := congrArg BitVec.toNat h
  omega

theorem tagsLegal_closed : Closed State.TagsLegal := by
  constructor
  case toKept =>
    constructor
    case initTags => exact fun s q h => h.setTags (by decide)
    case forget =>
      intro s q k h
      obtain ⟨hnext, hmap⟩ := (tagsLegal_iff _).1 (h q)
      exact h.setTags ((tagsLegal_iff _).2 ⟨hnext, kvSorted_kvDel _ _ hmap⟩)
    case forgetAll =>
      intro s q h
      obtain ⟨hnext, -⟩ := (tagsLegal_iff _).1 (h q)
      exact h.setTags ((tagsLegal_iff _).2 ⟨hnext, rfl⟩)
    case offload =>
      intro s q f app s' ho h
      obtain rfl | rfl := offloadTx_cases ho
      · exact h
      · obtain ⟨-, hmap⟩ := (tagsLegal_iff _).1 (h q)
        exact h.setTags ((tagsLegal_iff _).2 ⟨nextTagOf_ne_invalid _, kvSorted_kvPut _ _ _ hmap⟩)
    all_goals (intros; simpa [State.TagsLegal])
  case become => exact fun s r st h => h

/-- Settles O8: every change of a ring's cursors or of a channel's tags leaves them legal. -/
theorem ringsKept : Obligations.RingsKept :=
  ⟨fun s t h hs => cursorsLegal_closed.step s t h hs, fun s t h hs => tagsLegal_closed.step s t h hs⟩

end Sys2Proof.Machine
end

section
/-! SUPPORT. What is handed over and what is not (R165, R166, R178), and what one step does with it: the operations a
decoder gives are well formed, and the environment's own steps move nothing else (R17, R18, R84). -/

namespace Sys2Proof

open Sys2Proof.Machine

/-! ### Ids -/

/-- Settles O2, by evaluating the decoder on each word. -/
theorem decodedWords : Obligations.DecodedWords := by
  unfold Obligations.DecodedWords
  decide +kernel

/-- The reader of the id finds the first byte. -/
theorem rdNat_id {n : Nat} (h : n < 256) (bytes : List Byte) (k : Nat → List Byte → Decoded) :
    rdNat 1 (BitVec.ofNat 8 n :: bytes) k = k n bytes := rdNat_put 1 n bytes k (by omega)

theorem decodeCommand_unknown {n : Nat} (h : n < 256) (hn : n ∉ listedIds) (bytes : List Byte) :
    decodeCommand (BitVec.ofNat 8 n :: bytes) = .error (.unknownId n) := by
  unfold decodeCommand
  rw [rdNat_id h]
  split
  all_goals first | rfl | exact absurd (by decide) hn

/-- Settles O4: the decoder has no arm for an id that is not listed, and `step` refuses what does not decode. -/
theorem unknownIds : Obligations.UnknownIds := by
  unfold Obligations.UnknownIds
  intro s n bytes rest h hn
  have hdec : decode s.cfg.variant s.cfg.nq ⟨.command, BitVec.ofNat 8 n :: bytes⟩ = .error (.unknownId n) :=
    decodeCommand_unknown h hn bytes
  refine ⟨hdec, fun hs => ?_⟩
  simp only [step, hs, hdec]

/-! ### A decoded operation is well formed -/

/-- What a decoder gives, if it gives an operation, has property `P`. -/
def Gives (P : Instr → Prop) (d : Decoded) : Prop := ∀ i, d = .ok i → P i

section

variable {P : Instr → Prop} {b : List Byte}

theorem gives_ok {i : Instr} (h : P i) : Gives P (.ok i) := by
  rintro j ⟨⟩
  exact h

theorem gives_error {e : DecodeError} : Gives P (.error e) := nofun

theorem gives_rdNat {n : Nat} {k : Nat → List Byte → Decoded} (h : ∀ v b, v < 256 ^ n → Gives P (k v b)) :
    Gives P (rdNat n b k) := by
  intro i hi
  obtain ⟨v, rest, hv, hk⟩ := rdNat_ok hi
  exact h v rest hv i hk

theorem gives_rdWord {k : Word → List Byte → Decoded} (h : ∀ v b, Gives P (k v b)) : Gives P (rdWord b k) := by
  intro i hi
  obtain ⟨v, rest, hk⟩ := rdWord_ok hi
  exact h v rest i hk

theorem gives_rdEnum {α : Type} {xs : List α} {k : α → List Byte → Decoded} (h : ∀ x b, Gives P (k x b)) :
    Gives P (rdEnum xs b k) := by
  intro i hi
  obtain ⟨x, rest, hk⟩ := rdEnum_ok hi
  exact h x rest i hk

theorem gives_rdRing {k : Dir → Nat → List Byte → Decoded} (h : ∀ d q b, q < 256 → Gives P (k d q b)) :
    Gives P (rdRing b k) := by
  intro i hi
  obtain ⟨d, q, rest, hq, hk⟩ := rdRing_ok hi
  exact h d q rest hq i hk

theorem gives_rdSlot {k : Nat → Nat → List Byte → Decoded} (h : ∀ q j b, slotWf q j = true → Gives P (k q j b)) :
    Gives P (rdSlot b k) := by
  intro i hi
  obtain ⟨q, j, rest, hq, hk⟩ := rdSlot_ok hi
  exact h q j rest hq i hk

theorem gives_rdFrame {k : Frame → List Byte → Decoded} (h : ∀ f b, f.wf = true → Gives P (k f b)) :
    Gives P (rdFrame b k) := by
  intro i hi
  obtain ⟨f, rest, hf, hk⟩ := rdFrame_ok hi
  exact h f rest hf i hk

theorem gives_rdConfig {k : Config → List Byte → Decoded} (h : ∀ c b, c.wf = true → Gives P (k c b)) :
    Gives P (rdConfig b k) := by
  intro i hi
  obtain ⟨c, rest, hc, hk⟩ := rdConfig_ok hi
  exact h c rest hc i hk

theorem gives_rdApp {k : App → List Byte → Decoded} (h : ∀ a b, Gives P (k a b)) : Gives P (rdApp b k) := by
  intro i hi
  obtain ⟨a, rest, hk⟩ := rdApp_ok hi
  exact h a rest i hk

theorem gives_checkWord {ok : Bool} {i : Instr} (h : ok = true → P i) : Gives P (checkWord ok i) := by
  intro j hj
  obtain ⟨rfl, hok⟩ := checkWord_ok hj
  exact h hok

theorem gives_checkReserved {w m : Word} {i : Instr} (h : (w &&& m == 0) = true → P i) :
    Gives P (checkReserved w m i) := gives_checkWord h

theorem gives_ite {c : Prop} [Decidable c] {d e : Decoded} (h : c → Gives P d) (h' : ¬c → Gives P e) :
    Gives P (if c then d else e) := by
  split
  · exact h ‹_›
  · exact h' ‹_›

end

/-- Two operand bounds together. -/
theorem bounds {a b m n : Nat} (ha : a < m) (hb : b < n) : (decide (a < m) && decide (b < n)) = true := by
  simp [ha, hb]

theorem decodeCommand_gives (v : Variant) (nq : Nat) (b : List Byte) :
    Gives (fun i => i.wf v nq = true) (decodeCommand b) := by
  unfold decodeCommand
  refine gives_rdNat fun id b _ => ?_
  split
  · exact gives_rdConfig fun c b hc => gives_ok hc
  · exact gives_ok rfl
  · exact gives_rdRing fun d q b hq => gives_rdNat fun n b hn => gives_ok (bounds hq hn)
  · exact gives_rdRing fun d q b hq => gives_ok (decide_eq_true hq)
  · exact gives_rdNat fun q b hq => gives_ok (decide_eq_true hq)
  · exact gives_rdRing fun d q b hq => gives_ok (decide_eq_true hq)
  · exact gives_rdNat fun q b hq => gives_rdFrame fun f b hf => gives_ok (Bool.and_eq_true_iff.2 ⟨decide_eq_true hq, hf⟩)
  · exact gives_rdNat fun q b hq => gives_rdNat fun n b hn => gives_ok (bounds hq hn)
  · exact gives_rdNat fun q b hq => gives_ok (decide_eq_true hq)
  · exact gives_rdNat fun q b hq => gives_rdFrame fun f b hf => gives_ok (Bool.and_eq_true_iff.2 ⟨decide_eq_true hq, hf⟩)
  · exact gives_rdSlot fun q j b hq => gives_ok hq
  · exact gives_rdNat fun c b hc => gives_rdNat fun w b hw => gives_ok (bounds hc hw)
  · exact gives_rdNat fun c b hc => gives_rdEnum fun ds b => gives_ok (decide_eq_true hc)
  · exact gives_rdNat fun c b hc => gives_rdEnum fun ds b => gives_ok (decide_eq_true hc)
  · exact gives_rdEnum fun d b => gives_rdNat fun n b hn => gives_ok (by simp only [Instr.wf, Bool.and_eq_true, decide_eq_true_eq]; omega)
  · exact gives_rdRing fun d q b hq => gives_ok (decide_eq_true hq)
  · exact gives_rdRing fun d q b hq => gives_ok (decide_eq_true hq)
  · exact gives_rdRing fun d q b hq => gives_ok (decide_eq_true hq)
  · exact gives_rdRing fun d q b hq => gives_ok (decide_eq_true hq)
  · exact gives_rdEnum fun up b => gives_ok rfl
  · exact gives_ok rfl
  · exact gives_rdNat fun off b _ => gives_ite (fun ho => gives_ok ho) fun _ => gives_error
  · exact gives_rdNat fun off b _ => gives_rdWord fun w b => gives_ite (fun ho => gives_ok ho) fun _ => gives_error
  · exact gives_rdNat fun q b hq => gives_ok (decide_eq_true hq)
  · exact gives_rdNat fun q b hq => gives_ok (decide_eq_true hq)
  · exact gives_ok rfl
  · exact gives_rdRing fun d q b hq => gives_ok (decide_eq_true hq)
  · exact gives_rdRing fun d q b hq => gives_rdEnum fun c b => gives_ok (decide_eq_true hq)
  · exact gives_rdRing fun d q b hq => gives_ok (decide_eq_true hq)
  · exact gives_rdRing fun d q b hq => gives_ok (decide_eq_true hq)
  · exact gives_error

/-- The row of a register of the machine is one of its rows. -/
theorem regInstr_wf {v : Variant} {nq off : Nat} (ho : offWf off = true) (t : Trans) :
    (regInstr v off t (decodeOff v nq off)).wf v nq = true := by
  have hok := decodeOff_ok v nq off
  cases hg : decodeOff v nq off with
  | reserved => exact Bool.and_eq_true_iff.2 ⟨ho, (decodeOff_reserved v nq off ho).1 hg⟩
  | chen d | chIer d | chIsr d | chIcr d | weight0 | weight1 =>
    rw [hg] at hok
    obtain rfl : v = .mc := hok
    rfl
  | cr r | sr r | curdesc r | taildesc r | isr r | ier r | icr r | tsfCnt q | tsfTag q | tsfLo q | tsfHi q =>
    rw [hg] at hok
    cases v with
    | sq => rfl
    | mc =>
      have hlt := hok
      simp only [regOk, chanOk] at hlt
      simp [regInstr, Instr.wf, hlt]

theorem decodeRegister_gives (v : Variant) (nq : Nat) (b : List Byte) :
    Gives (fun i => i.wf v nq = true) (decodeRegister v nq b) := by
  unfold decodeRegister
  refine gives_rdNat fun off b _ => gives_ite (fun _ => gives_error) fun hin => gives_ite (fun _ => gives_error)
    fun hal => gives_rdNat fun code b _ => ?_
  have ho : offWf off = true := (offWf_iff off).2 ⟨by omega, by omega⟩
  split
  · exact gives_ok (regInstr_wf ho .read)
  · exact gives_rdWord fun w b => gives_ok (regInstr_wf ho (.write w))
  · exact gives_error

theorem decodeDescWord_gives (v : Variant) (nq : Nat) (b : List Byte) :
    Gives (fun i => i.wf v nq = true) (decodeDescWord b) := by
  unfold decodeDescWord
  refine gives_rdWord fun w b => gives_rdNat fun place b _ => ?_
  split
  case h_2 | h_16 => exact gives_rdEnum fun d b => gives_rdSlot fun q j b hs => gives_ok hs
  case h_1 | h_3 | h_4 | h_5 | h_18 =>
    exact gives_rdEnum fun d b => gives_rdSlot fun q j b hs => gives_checkReserved fun hw =>
      Bool.and_eq_true_iff.2 ⟨hs, hw⟩
  case h_17 =>
    exact gives_rdEnum fun d b => gives_rdSlot fun q j b hs => gives_checkWord fun hw =>
      Bool.and_eq_true_iff.2 ⟨hs, hw⟩
  case h_6 | h_9 | h_10 =>
    exact gives_rdSlot fun q j b hs => gives_checkReserved fun hw => Bool.and_eq_true_iff.2 ⟨hs, hw⟩
  case h_19 => exact gives_error
  all_goals exact gives_rdSlot fun q j b hs => gives_ok hs

theorem decodeDescriptor_gives (v : Variant) (nq : Nat) (b : List Byte) :
    Gives (fun i => i.wf v nq = true) (decodeDescriptor v b) := by
  unfold decodeDescriptor
  cases v with
  | sq =>
    exact gives_rdWord fun _ b => gives_rdWord fun _ b => gives_rdWord fun _ b => gives_rdWord fun _ b =>
      gives_rdWord fun _ b => gives_rdWord fun _ b => gives_rdWord fun _ b => gives_rdWord fun _ b =>
      gives_rdApp fun _ b => gives_rdWord fun _ b => gives_rdWord fun _ b => gives_rdWord fun _ b =>
      gives_rdRing fun d q b hq => gives_ok (decide_eq_true hq)
  | mc =>
    exact gives_rdWord fun _ b => gives_rdWord fun _ b => gives_rdWord fun _ b => gives_rdWord fun _ b =>
      gives_rdWord fun _ b => gives_rdWord fun _ b => gives_rdWord fun _ b => gives_rdWord fun _ b =>
      gives_rdApp fun _ b => gives_rdWord fun _ b => gives_rdWord fun _ b => gives_rdWord fun _ b =>
      gives_rdRing fun d q b hq => gives_ok (decide_eq_true hq)

/-- What decodes is an operation of the machine. -/
theorem decode_wf {v : Variant} {nq : Nat} {op : RawOp} {i : Instr} (h : decode v nq op = .ok i) :
    i.wf v nq = true := by
  obtain ⟨fmt, b⟩ := op
  cases fmt with
  | command => exact decodeCommand_gives v nq b i h
  | register => exact decodeRegister_gives v nq b i h
  | descWord => exact decodeDescWord_gives v nq b i h
  | descriptor => exact decodeDescriptor_gives v nq b i h

end Sys2Proof

namespace Sys2Proof.Machine

/-! ### The environment's steps -/

theorem State.receive_rxe (s : State) (q : Chan) (f : StreamFrame) :
    (s.receive q f).rxe q = if q.val < s.cfg.nq ∧ 1 ≤ f.bytes.length ∧ f.bytes.length ≤ s.cfg.maxFrame
      then { s.rxe q with stream := (s.rxe q).stream ++ [f] } else s.rxe q := by
  unfold State.receive
  split <;> simp

theorem State.receive_frame (s : State) (q : Chan) (f : StreamFrame) (rest : List Sched) :
    Keeps { rxe := (· = q) } s ((s.setSched rest).receive q f) := by
  unfold State.receive
  split
  · constructor
    case rxe =>
      intro c (h : ¬c = q)
      simp [h]
    all_goals simp
  · constructor <;> simp

theorem State.inPool_iff (s : State) (a : Word) :
    s.inPool a = true ↔ ∃ r : RingId, (s.ring r).present = true ∧ within32 a (s.ring r).base (64 * (s.ring r).cap) := by
  simp [State.inPool, within32]

/-- A write of the environment that would reach a pool is not made, another is (R152, log 28). -/
theorem State.poke_eq (s : State) (a : Word) (bytes : List Byte) :
    ((∃ k r, k < bytes.length ∧ (s.ring r).present = true ∧
      within32 (a + BitVec.ofNat 32 k) (s.ring r).base (64 * (s.ring r).cap)) ∧ s.poke a bytes = s) ∨
    (¬(∃ k r, k < bytes.length ∧ (s.ring r).present = true ∧
      within32 (a + BitVec.ofNat 32 k) (s.ring r).base (64 * (s.ring r).cap)) ∧
      s.poke a bytes = s.setMem (memPutBytes s.mem a bytes)) := by
  have hiff : ((List.range bytes.length).all fun k => !s.inPool (a + BitVec.ofNat 32 k)) = true ↔
      ¬∃ k r, k < bytes.length ∧ (s.ring r).present = true ∧
        within32 (a + BitVec.ofNat 32 k) (s.ring r).base (64 * (s.ring r).cap) := by
    simp only [List.all_eq_true, List.mem_range, Bool.not_eq_true', Bool.eq_false_iff, ne_eq, State.inPool_iff]
    constructor
    · rintro h ⟨k, r, hk, hr⟩
      exact h k hk ⟨r, hr⟩
    · rintro h k hk ⟨r, hr⟩
      exact h ⟨k, r, hk, hr⟩
  unfold State.poke
  split
  · next h => exact .inr ⟨hiff.1 h, rfl⟩
  · next h => exact .inl ⟨not_not.1 (mt hiff.2 h), rfl⟩

/-- The `k`-th byte of a block that has been written. -/
theorem memByte_memPutBytes_at (m : Memory) (a : Word) {bytes : List Byte} (hl : bytes.length ≤ 2 ^ 32) {k : Nat}
    (hk : k < bytes.length) : some (memByte (memPutBytes m a bytes) (a + BitVec.ofNat 32 k)) = bytes[k]? := by
  have hoff : (a + BitVec.ofNat 32 k - a).toNat = k := by bv_omega
  rw [memByte_memPutBytes _ _ _ _ hl, hoff, List.getElem?_eq_getElem hk]
  rfl

/-- A byte outside a block that is written stays. -/
theorem memByte_memPutBytes_out (m : Memory) (a b : Word) {bytes : List Byte} (hl : bytes.length ≤ 2 ^ 32)
    (h : ¬within32 b a bytes.length) : memByte (memPutBytes m a bytes) b = memByte m b := by
  have hge : bytes.length ≤ (b - a).toNat := Nat.le_of_not_lt h
  rw [memByte_memPutBytes _ _ _ _ hl, List.getElem?_eq_none hge]
  rfl

/-- Settles O5: `step` runs what the head of the scheduler's list says; a decoded operation is well formed, and the two
steps of the environment are the only others. -/
theorem stepRunsDecoded : Obligations.StepRunsDecoded := by
  unfold Obligations.StepRunsDecoded
  refine ⟨fun s op rest i hs hi => ⟨decode_wf hi, ?_⟩, ⟨fun s k rest hs => ?_, fun s k rest hs => ?_, fun s hs => ?_,
    fun s k t ht => ?_⟩, ?_, ?_⟩
  · simp only [step, hs, hi]
  · simp only [step, hs]
  · simp only [step, hs]
  · simp only [step, hs]
  · simp only [resume, ht]
  · intro s q f rest hs offered
    have hsched : ((s.setSched rest).receive q f).sched = rest := by
      unfold State.receive
      split <;> rfl
    exact ⟨(s.setSched rest).receive q f, by simp only [step, hs], hsched, State.receive_rxe (s.setSched rest) q f,
      State.receive_frame s q f rest⟩
  · intro s a bytes rest hs hl inPool
    refine ⟨(s.setSched rest).poke a bytes, by simp only [step, hs], ?_⟩
    obtain ⟨hin, heq⟩ | ⟨hout, heq⟩ := State.poke_eq (s.setSched rest) a bytes
    · rw [heq]
      exact ⟨rfl, fun _ _ => rfl, fun h => absurd hin h, by constructor <;> simp⟩
    · rw [heq]
      refine ⟨rfl, fun h => absurd h hout, fun _ k hk => memByte_memPutBytes_at _ _ hl hk, ?_⟩
      constructor
      case bytes => exact fun b hb => memByte_memPutBytes_out _ _ _ hl hb
      all_goals simp

/-! ### Power-on -/

theorem powerOn_regs (v : Variant) (nq : Nat) (r : RingId) : (State.powerOn v nq).regs r = RingRegs.reset := by
  obtain ⟨d, q⟩ := r
  cases d <;> simp [State.regs, State.powerOn, Hw.powerOn, rget]

theorem powerOn_ring (v : Variant) (nq : Nat) (r : RingId) : (State.powerOn v nq).ring r = RingSw.absent := by
  obtain ⟨d, q⟩ := r
  cases d <;> simp [State.ring, State.powerOn, Sw.absent, rget]

theorem powerOn_credit (v : Variant) (nq : Nat) (c : Chan) : (State.powerOn v nq).credit c = 0 := by
  simp [State.credit, State.powerOn, Hw.powerOn]

theorem powerOn_tags (v : Variant) (nq : Nat) (c : Chan) : (State.powerOn v nq).tags c = ⟨0, []⟩ := by
  simp [State.tags, State.powerOn, Sw.absent]

theorem powerOn_legal (v : Variant) (nq : Nat) :
    Memory.wf (State.powerOn v nq).mem = true ∧ (State.powerOn v nq).RegsLegal ∧ (State.powerOn v nq).CursorsLegal ∧
      (State.powerOn v nq).TagsLegal := by
  refine ⟨rfl, ⟨fun r => ?_, fun c => ?_⟩, fun r => ?_, fun c => ?_⟩
  · rw [powerOn_regs]
    decide
  · rw [powerOn_credit]
    exact Nat.zero_le _
  · obtain ⟨d, q⟩ := r
    rw [powerOn_ring]
    cases d <;> rfl
  · rw [powerOn_tags]
    decide

/-- Settles O9: every ring, channel and byte of memory has the one legal value it is powered on with. -/
theorem resetLegal : Obligations.ResetLegal := ⟨powerOn_legal, powerOn_legal .sq 1⟩

end Sys2Proof.Machine
end

section
/-! SUPPORT. The register interface (`46_register_interface.md`), the registers with a meaning beyond their bits: the two
commands (R330), control and status (R331 to R333), the pointers (R334, R335) and the channel bitmaps (R343 to R346). -/

namespace Sys2Proof.Machine

/-! ### The two commands -/

theorem hasBlock_of_chanOk {s : State} {r : RingId} (h : chanOk s.cfg.variant s.cfg.nq r.q) : s.hasBlock r := by
  unfold State.hasBlock
  unfold chanOk at h
  split <;> simp_all

/-- The row an offset names runs the transaction of the register it names (R161). -/
theorem exec_regInstr {s : State} {off : Nat} (ho : offWf off = true) (t : Trans) :
    exec (regInstr s.cfg.variant off t (decodeOff s.cfg.variant s.cfg.nq off)) s =
      transact (decodeOff s.cfg.variant s.cfg.nq off) t s := by
  have hok := decodeOff_ok s.cfg.variant s.cfg.nq off
  have hres := exec_reservedOffset ho t s
  generalize decodeOff s.cfg.variant s.cfg.nq off = g at hok hres ⊢
  cases g with
  | reserved => exact hres
  | chen d | chIer d | chIsr d | chIcr d | weight0 | weight1 => exact if_pos hok
  | cr r => rw [← exec_cr s r t (hasBlock_of_chanOk hok)]; cases s.cfg.variant <;> rfl
  | sr r => rw [← exec_sr s r t (hasBlock_of_chanOk hok)]; cases s.cfg.variant <;> rfl
  | curdesc r => rw [← exec_curdesc s r t (hasBlock_of_chanOk hok)]; cases s.cfg.variant <;> rfl
  | taildesc r => rw [← exec_taildesc s r t (hasBlock_of_chanOk hok)]; cases s.cfg.variant <;> rfl
  | isr r => rw [← exec_isr s r t (hasBlock_of_chanOk hok)]; cases s.cfg.variant <;> rfl
  | ier r => rw [← exec_ier s r t (hasBlock_of_chanOk hok)]; cases s.cfg.variant <;> rfl
  | icr r => rw [← exec_icr s r t (hasBlock_of_chanOk hok)]; cases s.cfg.variant <;> rfl
  | tsfCnt q => rw [← exec_tsfCnt s q t (hasBlock_of_chanOk hok)]; cases s.cfg.variant <;> rfl
  | tsfTag q => rw [← exec_tsfTag s q t (hasBlock_of_chanOk hok)]; cases s.cfg.variant <;> rfl
  | tsfLo q => rw [← exec_tsfLo s q t (hasBlock_of_chanOk hok)]; cases s.cfg.variant <;> rfl
  | tsfHi q => rw [← exec_tsfHi s q t (hasBlock_of_chanOk hok)]; cases s.cfg.variant <;> rfl

/-- A write goes through unless it is a doorbell that rings before its `WMB` (R121). -/
theorem transact_write {g : Reg} {s : State} (h : ∀ r, g = .taildesc r → s.bellUnordered r = false) (v : Word) :
    transact g (.write v) s = .next (s.regWrite g v) := by
  cases g with
  | taildesc r => exact if_neg (by simp [h r rfl])
  | _ => rfl

/-- Settles O15: the commands and the row are the same transaction; a read answers, and only the doorbell has a test. -/
theorem regCommands : Obligations.RegCommands := by
  unfold Obligations.RegCommands
  intro s off v ho g
  refine ⟨?_, ?_, ?_, fun h => ?_⟩
  · rw [exec_regRead ho, exec_regInstr ho]
  · rw [exec_regWrite ho, exec_regInstr ho]
  · exact ⟨_, exec_regRead ho s, by simp [g]⟩
  · exact ⟨_, (exec_regWrite ho v s).trans (transact_write h v)⟩

/-! ### Control and status -/

theorem State.drawResetCompletes_cons {s : State} {b : Bool} {bs : List Bool} (h : s.env.resetCompletes = b :: bs) :
    s.drawResetCompletes = (b, { s with env := { s.env with resetCompletes := bs } }) := by
  simp only [State.drawResetCompletes, h]

theorem State.writeCr_busy {s : State} {r : RingId} (h : (s.regs r).resetBusy = true) (v : Word) : s.writeCr r v = s :=
  if_pos h

/-- A write with bit 2 asks for a reset, whose end is drawn, and gives up the grant (R331, R85). -/
theorem State.writeCr_reset {s : State} {r : RingId} {v : Word} (h : (s.regs r).resetBusy = false)
    (hv : v.getLsbD 2 = true) :
    s.writeCr r v = (s.drawResetCompletes.2.setRegs r
      { s.regs r with resetBusy := true, resetCompletes := s.drawResetCompletes.1 }).releaseGrant r := by
  unfold State.writeCr
  rw [if_neg (by simp [h]), if_pos hv]
  simp

/-- A write without bit 2 stores the coalescing fields, and the run bit in `SQ` (R331). -/
theorem State.writeCr_plain {s : State} {r : RingId} {v : Word} (h : (s.regs r).resetBusy = false)
    (hv : v.getLsbD 2 = false) :
    s.writeCr r v = s.setRegs r (if s.cfg.variant = .sq then runWriteRegs (v.getLsbD 0) (coalesceRegs v (s.regs r))
      else coalesceRegs v (s.regs r)) := by
  unfold State.writeCr
  rw [if_neg (by simp [h]), if_neg (by simp only [hv, Bool.false_eq_true, not_false_eq_true])]

/-- A write of `CR` changes its ring's registers, the grant and the draws only. -/
theorem State.writeCr_regs_ne (s : State) {r t : RingId} (v : Word) (h : t ≠ r) : (s.writeCr r v).regs t = s.regs t := by
  unfold State.writeCr
  split
  · rfl
  · split
    · simp [h]
    · simp [h]

theorem State.writeCr_frame (s : State) (r : RingId) (v : Word) :
    Keeps { regs := (· = r), grant := True, env := True } s (s.writeCr r v) := by
  constructor
  case regs => exact fun t h => State.writeCr_regs_ne s v h
  all_goals simp

/-- The run bit written to a ring whose reset is not busy (R331, R332). -/
theorem runWriteRegs_eq (on : Bool) {x : RingRegs} (h : x.resetBusy = false) :
    runWriteRegs on x = { x with
      run := if x.stopPending = false then on else x.run
      stopPending := if x.stopPending = false ∧ on = false ∧ x.run = true then true else x.stopPending
      tailValid := if x.stopPending = false ∧ on = true ∧ x.run = false then false else x.tailValid
      idle := if x.stopPending = false ∧ on = true ∧ x.run = false then false else x.idle } := by
  obtain ⟨run, busy, completes, stop⟩ := x
  obtain rfl : busy = false := h
  cases stop
  · cases run <;> cases on <;> rfl
  · rfl

theorem exec_cr_write {s : State} {r : RingId} (h : s.hasBlock r) (v : Word) :
    exec (ringRow s.cfg.variant r .crSq .crMc (.write v)) s = .next (s.writeCr r v) := exec_cr s r _ h

/-- Settles O16: a read of `CR` or `SR` gives the bits of its word; a write of `CR` is nothing, a reset request or a store
of the fields. -/
theorem controlAndStatus : Obligations.ControlAndStatus := by
  unfold Obligations.ControlAndStatus
  refine ⟨fun s r v hb => ?_, fun s r v hb => ?_⟩
  · refine ⟨⟨crWord (s.regs r), (exec_cr s r _ hb).trans (transact_read rfl), crWord_bits _⟩, fun hbusy => ?_,
      fun hbusy hv => ?_, fun hbusy hv => ?_⟩
    · rw [exec_cr_write hb, State.writeCr_busy hbusy]
    · refine ⟨_, s.drawResetCompletes.1, exec_cr_write hb v, ?_, fun b' bs he => ?_, ?_, State.writeCr_frame s r v⟩
      · rw [State.writeCr_reset hbusy hv]
        simp
      · rw [State.writeCr_reset hbusy hv, State.drawResetCompletes_cons he]
        simp
      · rw [State.writeCr_reset hbusy hv]
        simp
    · refine ⟨_, exec_cr_write hb v, ?_, ?_⟩
      · rw [State.writeCr_plain hbusy hv, State.setRegs_regs, if_pos rfl]
        by_cases hsq : s.cfg.variant = .sq
        · have hbusy' : (coalesceRegs v (s.regs r)).resetBusy = false := hbusy
          rw [if_pos hsq, runWriteRegs_eq _ hbusy']
          simp [coalesceRegs, hsq]
        · simp [coalesceRegs, hsq]
      · rw [State.writeCr_plain hbusy hv]
        exact State.setRegs_frame s r _
  · exact ⟨⟨srWord (s.regs r), (exec_sr s r _ hb).trans (transact_read rfl), srWord_bits _⟩, exec_sr s r _ hb⟩

/-! ### Pointers -/

theorem rings_iff (x : RingRegs) :
    rings x = true ↔ x.run = true ∧ x.stopPending = false ∧ x.resetBusy = false := by
  simp [rings, and_assoc]

theorem State.bellUnordered_iff (s : State) (r : RingId) :
    s.bellUnordered r = true ↔ ((s.regs r).run = true ∧ (s.regs r).stopPending = false ∧ (s.regs r).resetBusy = false) ∧
      s.unfenced r = true := by
  rw [← rings_iff, State.bellUnordered, Bool.and_eq_true]

/-- The doorbell (R335): nothing during a reset, else the pointer is stored, and a running ring is rung. -/
theorem tailWriteRegs_eq (v : Word) (x : RingRegs) :
    tailWriteRegs v x = if x.resetBusy = true then x
      else if x.run = true ∧ x.stopPending = false ∧ x.resetBusy = false then
        { x with taildesc := v &&& 0xFFFFFFC0, tailValid := true, idle := false }
      else { x with taildesc := v &&& 0xFFFFFFC0 } := by
  unfold tailWriteRegs
  by_cases hbusy : x.resetBusy = true
  · simp only [hbusy, if_true]
  · simp only [hbusy, align64, Bool.and_eq_true, Bool.not_eq_true', Bool.false_eq_true, if_false, and_true]

/-- Settles O17: both registers are stored through their own write function; the doorbell that rings unordered is refused. -/
theorem pointerAccess : Obligations.PointerAccess := by
  unfold Obligations.PointerAccess
  intro s r v hb x a
  refine ⟨(exec_curdesc s r _ hb).trans (transact_read rfl), (exec_taildesc s r _ hb).trans (transact_read rfl),
    ⟨s.setRegs r (curWriteRegs v x), exec_curdesc s r _ hb, ?_, State.setRegs_frame s r _⟩, fun hring hu => ?_,
    fun hord => ⟨s.setRegs r (tailWriteRegs v x), ?_, ?_, State.setRegs_frame s r _⟩⟩
  · rw [State.setRegs_regs, if_pos rfl, curWriteRegs]
    simp only [halted_iff]
    rfl
  · have hbell := (State.bellUnordered_iff s r).2 ⟨hring, hu⟩
    exact (exec_taildesc s r _ hb).trans (if_pos hbell)
  · have hbell : ¬s.bellUnordered r = true := fun h => hord ((State.bellUnordered_iff s r).1 h)
    exact (exec_taildesc s r _ hb).trans (if_neg hbell)
  · rw [State.setRegs_regs, if_pos rfl, tailWriteRegs_eq]

/-! ### Channel bitmaps -/

theorem mcReg_read {g : Reg} {s : State} (h : s.cfg.variant = .mc) (hg : s.afterRead g = s) :
    mcReg g .read s = .next (s.answer 0x50 (.okValue (s.regValue g))) := (if_pos h).trans (transact_read hg)

/-- What a read of a bitmap register says of each channel (R158). -/
theorem bitmapWord_bits (f : Chan → Bool) :
    (∀ c : Chan, (bitmapWord f).getLsbD c.val = f c) ∧ (bitmapWord f).extractLsb' 16 16 = 0 :=
  ⟨getLsbD_bitmapWord f, bitmapWord_hi f⟩

/-- A change of the registers of a direction's channels leaves everything else. -/
theorem State.mapDir_frame (s : State) (d : Dir) (f : Chan → RingRegs → RingRegs) :
    Keeps { regs := fun r => r.dir = d ∧ r.q.val < s.cfg.nq } s (s.mapDir d f) := by
  constructor
  case regs =>
    intro t (h : ¬(t.dir = d ∧ t.q.val < s.cfg.nq))
    rw [State.mapDir_regs, if_neg h]
  all_goals simp

theorem State.mapDir_regs_in (s : State) (d : Dir) (f : Chan → RingRegs → RingRegs) {c : Chan} (h : c.val < s.cfg.nq) :
    (s.mapDir d f).regs ⟨d, c⟩ = f c (s.regs ⟨d, c⟩) := by
  rw [State.mapDir_regs, if_pos ⟨rfl, h⟩]

/-- A write of a channel's bit of `CHEN` starts or stops the ring whose bit it changes (R343). -/
theorem runWriteRegs_chen (on : Bool) (x : RingRegs) :
    runWriteRegs on x = if x.resetBusy = true ∨ x.stopPending = true ∨ on = x.run then x
      else if x.run = true then { x with run := false, stopPending := true }
      else { x with run := true, tailValid := false, idle := false } := by
  obtain ⟨run, busy, completes, stop⟩ := x
  cases busy
  · cases stop
    · cases run <;> cases on <;> rfl
    · rfl
  · rfl

theorem State.writeChIer_regs (s : State) (d : Dir) (v : Word) (t : RingId) :
    (s.writeChIer d v).regs t = if t.dir = d ∧ t.q.val < s.cfg.nq then { s.regs t with chIer := v.getLsbD t.q.val }
      else s.regs t := by
  unfold State.writeChIer
  dsimp only
  split <;> simp

/-- A write of `CH_IER` raises the output exactly where a channel enabled by it has a recorded event (R344). -/
theorem State.writeChIer_irq (s : State) (d : Dir) (v : Word) (e : Dir) :
    (s.writeChIer d v).irq e = true ↔ s.irq e = true ∨
      e = d ∧ ∃ c : Chan, c.val < s.cfg.nq ∧ v.getLsbD c.val = true ∧ (s.regs ⟨d, c⟩).chIsr = true := by
  have hany : ((s.mapDir d fun c x => { x with chIer := v.getLsbD c.val }).chans.any fun c =>
      ((s.mapDir d fun c x => { x with chIer := v.getLsbD c.val }).regs ⟨d, c⟩).chIer &&
        ((s.mapDir d fun c x => { x with chIer := v.getLsbD c.val }).regs ⟨d, c⟩).chIsr) = true ↔
      ∃ c : Chan, c.val < s.cfg.nq ∧ v.getLsbD c.val = true ∧ (s.regs ⟨d, c⟩).chIsr = true := by
    simp only [List.any_eq_true, State.chans, State.mapDir_keeps, mem_chansBelow, Bool.and_eq_true]
    refine exists_congr fun c => and_congr_right fun hc => ?_
    rw [State.mapDir_regs_in s d _ hc]
  unfold State.writeChIer
  dsimp only
  by_cases hon : ∃ c : Chan, c.val < s.cfg.nq ∧ v.getLsbD c.val = true ∧ (s.regs ⟨d, c⟩).chIsr = true
  · rw [if_pos (hany.2 hon)]
    by_cases he : e = d <;> simp [he, hon]
  · rw [if_neg (mt hany.1 hon)]
    simp [hon]

theorem State.writeChIer_frame (s : State) (d : Dir) (v : Word) :
    Keeps { regs := fun r => r.dir = d ∧ r.q.val < s.cfg.nq, irq := (· = d) } s (s.writeChIer d v) := by
  constructor
  case regs =>
    intro t (h : ¬(t.dir = d ∧ t.q.val < s.cfg.nq))
    rw [State.writeChIer_regs, if_neg h]
  case irq =>
    intro e (h : ¬e = d)
    rw [Bool.eq_iff_iff, State.writeChIer_irq]
    simp [h]
  all_goals simp

/-- Settles O20: a read gives the channels' bits; a write changes each channel of the direction by its own bit. -/
theorem bitmapRegisters : Obligations.BitmapRegisters := by
  unfold Obligations.BitmapRegisters
  refine ⟨fun s d v hmc => ?_, fun s d v hmc => ?_, fun s d v hmc => ?_⟩
  · refine ⟨⟨_, mcReg_read hmc rfl, bitmapWord_bits _⟩, ⟨s.writeChen d v, if_pos hmc, fun c hc => ?_,
      State.mapDir_frame s d _⟩⟩
    exact (State.mapDir_regs_in s d _ hc).trans (runWriteRegs_chen _ _)
  · refine ⟨⟨_, mcReg_read hmc rfl, bitmapWord_bits _⟩, ⟨s.writeChIer d v, if_pos hmc, fun c hc => ?_, ?_, ?_⟩⟩
    · rw [State.writeChIer_regs, if_pos ⟨rfl, hc⟩]
    · rw [State.writeChIer_irq]
      simp only [true_and]
    · exact State.writeChIer_frame s d v
  · exact ⟨⟨_, mcReg_read hmc rfl, bitmapWord_bits _⟩, if_pos hmc, mcReg_read hmc rfl,
      ⟨s.writeChIcr d v, if_pos hmc, fun c hc => State.mapDir_regs_in s d _ hc, State.mapDir_frame s d _⟩⟩

end Sys2Proof.Machine
end

section
/-! SUPPORT. The engine's steps other than the two on descriptors (`47_dma_engine.md`): the delay timer (R391), the
controller-level fault (R392), the end of a reset (R393, R80) and of a stop (R397); and what a step that is not enabled does
(R380, log 7). -/

namespace Sys2Proof.Machine

/-! ### Steps that are not enabled -/

/-- A step on a ring of the hardware, given by its test and its effect. -/
theorem withRing_ite {r : RingId} {s : State} (h : r.q.val < s.cfg.nq) (p : RingId → Bool) (f : RingId → State) :
    withRing r.dir r.q.val s (fun r => if p r then .next (f r) else .next s) =
      if p r then .next (f r) else .next s := withRing_dir r s _ h

theorem delayEnabled_iff (x : RingRegs) :
    delayEnabled x = true ↔ x.dlyArmed = true ∧ x.run = true ∧ x.resetBusy = false := by
  simp [delayEnabled, and_assoc]

theorem faultEnabled_iff (x : RingRegs) : faultEnabled x = true ↔ x.run = true ∧ x.resetBusy = false := by
  simp [faultEnabled]

theorem resetDoneEnabled_iff (x : RingRegs) :
    resetDoneEnabled x = true ↔ x.resetBusy = true ∧ x.resetCompletes = true := by
  simp [resetDoneEnabled]

theorem stopDoneEnabled_iff (x : RingRegs) :
    stopDoneEnabled x = true ↔ x.stopPending = true ∧ x.resetBusy = false := by
  simp [stopDoneEnabled]

theorem arbEnabled_iff (s : State) : s.arbEnabled = true ↔
    s.cfg.variant = .mc ∧ s.hw.grant = none ∧ ∃ c, s.eligible c = true ∧ s.weight c ≠ 0 := by
  simp [State.arbEnabled, and_assoc]

theorem exec_txDesc {s : State} {r : RingId} (h : r.q.val < s.cfg.nq) (hd : r.dir = .tx) :
    exec (.eTxDesc r.q.val) s = if s.txEnabled r then .next (s.processNext r) else .next s := by
  obtain ⟨d, q⟩ := r
  obtain rfl : d = .tx := hd
  exact withRing_ite (r := ⟨.tx, q⟩) h s.txEnabled s.processNext

theorem exec_rxDesc {s : State} {r : RingId} (h : r.q.val < s.cfg.nq) (hd : r.dir = .rx) :
    exec (.eRxDesc r.q.val) s = if s.rxEnabled r then .next (s.processNext r) else .next s := by
  obtain ⟨d, q⟩ := r
  obtain rfl : d = .rx := hd
  exact withRing_ite (r := ⟨.rx, q⟩) h s.rxEnabled s.processNext

/-- Settles O14: each step is its test, and `next s` where the test fails. -/
theorem notEnabledDoesNothing : Obligations.NotEnabledDoesNothing := by
  unfold Obligations.NotEnabledDoesNothing
  intro s r w hq
  refine ⟨fun hd h => ?_, fun hd h => ?_, fun h => ?_, fun h => ?_, fun cause h => ?_, fun h => ?_, fun h => ?_,
    fun h => ?_⟩
  · rw [exec_txDesc hq hd, h]
    rfl
  · rw [exec_rxDesc hq hd, h]
    rfl
  · rw [exec_descriptorRow s r w hq, h]
    rfl
  · exact (withRing_ite hq (fun r => delayEnabled (s.regs r)) _).trans (if_neg (mt (delayEnabled_iff _).1 h))
  · exact (withRing_ite hq (fun r => faultEnabled (s.regs r)) _).trans (if_neg (mt (faultEnabled_iff _).1 h))
  · exact (withRing_ite hq (fun r => resetDoneEnabled (s.regs r)) _).trans (if_neg (mt (resetDoneEnabled_iff _).1 h))
  · exact (withRing_ite hq (fun r => stopDoneEnabled (s.regs r)) _).trans (if_neg (mt (stopDoneEnabled_iff _).1 h))
  · refine if_neg fun hen => ?_
    obtain ⟨hmc, hgrant, c, hc, hw⟩ := (arbEnabled_iff s).1 hen
    obtain hsq | hnone | hall := h
    · rw [hsq] at hmc
      cases hmc
    · exact hnone hgrant
    · exact hw (hall c hc)

/-! ### The delay timer -/

/-- A cause that asserts on registers that have just been stored touches what the cause touches. -/
theorem State.setRegs_raise_frame (s : State) (r : RingId) (x : RingRegs) (k : Irq) :
    Keeps { regs := (· = r), irq := (· = r.dir) } s ((s.setRegs r x).raise r k) := by
  constructor
  case regs =>
    intro t (h : ¬t = r)
    rw [(State.raise_frame (s.setRegs r x) r k).regs t h, State.setRegs_regs, if_neg h]
  case irq =>
    intro d (h : ¬d = r.dir)
    rw [(State.raise_frame (s.setRegs r x) r k).irq d h, State.setRegs_irq]
  all_goals simp

theorem State.setRegs_raise_regs_self (s : State) (r : RingId) (x : RingRegs) (k : Irq) :
    ((s.setRegs r x).raise r k).regs r = raised s.cfg.variant k.bit x := by
  rw [State.raise_regs_self, State.setRegs_regs, if_pos rfl, State.setRegs_cfg]

theorem State.setRegs_raise_irq (s : State) (r : RingId) (x : RingRegs) (k : Irq) :
    ((s.setRegs r x).raise r k).irq r.dir = (s.irq r.dir || raises s.cfg.variant k.bit x) := by
  rw [State.raise_irq, State.setRegs_regs, if_pos rfl, beq_self_eq_true, Bool.true_and]
  rfl

/-- Settles O23: the timer's own fields are stored, then `DLY` asserts. -/
theorem delayTimeout : Obligations.DelayTimeout := by
  unfold Obligations.DelayTimeout
  intro s r hq harmed hrun hbusy
  have hen := (delayEnabled_iff _).2 ⟨harmed, hrun, hbusy⟩
  exact ⟨_, (withRing_ite hq (fun r => delayEnabled (s.regs r)) _).trans (if_pos hen),
    State.setRegs_raise_regs_self s r _ .dly, State.setRegs_raise_irq s r _ .dly, State.setRegs_raise_frame s r _ .dly⟩

/-! ### The controller-level fault -/

theorem State.engineFault_regs_self (s : State) (r : RingId) (cause : Cause) :
    (s.engineFault r cause).regs r = raised s.cfg.variant 4 (faultRegs cause (s.regs r)) := by
  unfold State.engineFault
  rw [State.raise_regs_self]
  simp [Irq.bit]

theorem State.engineFault_regs_ne (s : State) {r t : RingId} (cause : Cause) (h : t ≠ r) :
    (s.engineFault r cause).regs t = s.regs t := by
  unfold State.engineFault
  rw [(State.raise_frame _ r .err).regs t h]
  simp [h]

theorem State.engineFault_irq (s : State) (r : RingId) (cause : Cause) (d : Dir) :
    (s.engineFault r cause).irq d = (s.irq d || (d == r.dir && raises s.cfg.variant 4 (s.regs r))) := by
  unfold State.engineFault
  rw [State.raise_irq]
  simp [raises, faultRegs, Irq.bit]

@[simp] theorem State.engineFault_txe (s : State) (r : RingId) (cause : Cause) (q : Chan) :
    (s.engineFault r cause).txe q = if r = ⟨.tx, q⟩ then { s.txe q with asm := asmInactive } else s.txe q := by
  simp [State.engineFault]

@[simp] theorem State.engineFault_rxe (s : State) (r : RingId) (cause : Cause) (q : Chan) :
    (s.engineFault r cause).rxe q = if r = ⟨.rx, q⟩ then { s.rxe q with rem := none } else s.rxe q := by
  simp [State.engineFault]

@[simp] theorem State.engineFault_grant (s : State) (r : RingId) (cause : Cause) :
    (s.engineFault r cause).hw.grant =
      if s.cfg.variant = .mc ∧ r.dir = .tx ∧ s.hw.grant = some r.q then none else s.hw.grant := by
  simp [State.engineFault]

/-- What a controller-level fault touches (R392). -/
theorem State.engineFault_frame (s : State) (r : RingId) (cause : Cause) :
    Keeps { regs := (· = r), txe := fun q => r = ⟨.tx, q⟩, rxe := fun q => r = ⟨.rx, q⟩, grant := True,
            irq := (· = r.dir) } s (s.engineFault r cause) := by
  constructor
  case regs => exact fun t h => State.engineFault_regs_ne s cause h
  case txe =>
    intro q (h : ¬r = ⟨.tx, q⟩)
    rw [State.engineFault_txe, if_neg h]
  case rxe =>
    intro q (h : ¬r = ⟨.rx, q⟩)
    rw [State.engineFault_rxe, if_neg h]
  case irq =>
    intro d (h : ¬d = r.dir)
    simp [State.engineFault_irq, h]
  all_goals simp

/-- A faulted ring is halted, and its `ERR` cause is recorded. -/
theorem raised_fault_halted (v : Variant) (cause : Cause) (x : RingRegs) (h : x.resetBusy = false) :
    halted (raised v 4 (faultRegs cause x)) = true ∧ (raised v 4 (faultRegs cause x)).isr.getLsbD 2 = true := by
  constructor
  · simp [halted, raised, faultRegs, h]
  · simp [raised, faultRegs]

/-- Settles O24: the fault stores the ring's registers, drops the frame in hand, gives up the grant and asserts `ERR`. -/
theorem faultTaken : Obligations.FaultTaken := by
  unfold Obligations.FaultTaken
  intro s r cause hq hrun hbusy x
  obtain ⟨hhalt, herr⟩ := raised_fault_halted s.cfg.variant cause x hbusy
  refine ⟨s.engineFault r cause, (withRing_ite hq (fun r => faultEnabled (s.regs r)) _).trans
    (if_pos ((faultEnabled_iff _).2 ⟨hrun, hbusy⟩)), State.engineFault_regs_self s r cause, ?_, ?_, ?_, fun hd => ?_,
    fun hd => ?_, State.engineFault_grant s r cause, State.engineFault_frame s r cause⟩
  · rwa [State.engineFault_regs_self]
  · rwa [State.engineFault_regs_self]
  · simp [State.engineFault_irq, x]
  · rw [State.engineFault_txe, if_pos (by rw [← hd])]
  · rw [State.engineFault_rxe, if_pos (by rw [← hd])]

/-! ### The end of a stop and of a reset -/

/-- Settles O25: a confirmed stop clears what was in hand and keeps the rest of the ring's registers. -/
theorem stopDone : Obligations.StopDone := by
  unfold Obligations.StopDone
  intro s r hq hstop hbusy
  refine ⟨((s.setRegs r (stopDoneRegs (s.regs r))).dropFrame r).releaseGrant r,
    (withRing_ite hq (fun r => stopDoneEnabled (s.regs r)) _).trans (if_pos ((stopDoneEnabled_iff _).2 ⟨hstop, hbusy⟩)),
    by simp [stopDoneRegs], fun hlegal => ?_, fun hd => ?_, fun hd => ?_, by simp, ?_⟩
  · obtain ⟨-, -, -, -, -, hexcl⟩ := (regsLegal_iff _).1 hlegal
    have hrun : (s.regs r).run = false := by
      cases hr : (s.regs r).run
      · rfl
      · rw [hexcl hr] at hstop
        cases hstop
    rw [(srWord_bits _).1]
    simp [stopDoneRegs, hrun, hbusy]
  · simp [← hd]
  · simp [← hd]
  · constructor
    case regs =>
      intro t (h : ¬t = r)
      simp [h]
    case txe =>
      intro q (h : ¬r = ⟨.tx, q⟩)
      simp [h]
    case rxe =>
      intro q (h : ¬r = ⟨.rx, q⟩)
      simp [h]
    all_goals simp

/-- Settles O10: the values of R80 stand in `Hw.powerOn` and `RingRegs.reset`; the end of a reset stores the latter in its
ring and empties its engine. -/
theorem resetValues : Obligations.ResetValues := by
  unfold Obligations.ResetValues
  refine ⟨?_, fun s r hq hbusy hcomp => ?_⟩
  · intro v nq r s x
    have hx : x = RingRegs.reset := powerOn_regs v nq r
    clear_value x
    subst hx
    refine ⟨rfl, rfl, rfl, rfl, rfl, rfl, rfl, by decide, by decide, rfl, rfl, rfl, rfl, rfl, rfl, rfl, rfl, rfl, rfl, rfl,
      ?_, ?_, ?_, ?_, powerOn_credit v nq r.q, rfl, rfl, ?_, rfl⟩
    · simp [s, State.txe, State.powerOn, Hw.powerOn]
    · simp [s, State.txe, State.powerOn, Hw.powerOn]
    · simp [s, State.rxe, State.powerOn, Hw.powerOn]
    · simp [s, State.weight, State.powerOn, Hw.powerOn]
    · obtain ⟨d, q⟩ := r
      cases d <;> rfl
  · refine ⟨((s.setRegs r (resetDoneRegs (s.regs r))).resetEngine r).releaseGrant r,
      (withRing_ite hq (fun r => resetDoneEnabled (s.regs r)) _).trans
        (if_pos ((resetDoneEnabled_iff _).2 ⟨hbusy, hcomp⟩)),
      by simp [resetDoneRegs, hcomp], fun hd => ?_, fun hd => ?_, by simp, ?_⟩
    · simp [← hd]
    · simp [← hd]
    · constructor
      case regs =>
        intro t (h : ¬t = r)
        simp [h]
      case txe =>
        intro q (h : ¬r = ⟨.tx, q⟩)
        simp [h]
      case rxe =>
        intro q (h : ¬r = ⟨.rx, q⟩)
        simp [h]
      all_goals simp

end Sys2Proof.Machine
end

section
/-! SUPPORT. The gates of the commands: context, ring, the ring's state (R219, R297, R426), and the refusals of `SUBMIT_TX`
in their order (R210); the link and the statistics (R428, R429). -/

namespace Sys2Proof.Machine

/-! ### Rings that turn commands away -/

theorem turnedAway_running {st : RState} (h : st = .running) : turnedAway st = none := by rw [h]; rfl

/-- The result that turns a command away (R219). -/
theorem turnedAway_eq {st : RState} {e : Result}
    (h : (st = .halting ∨ st = .halted ∨ st = .reconfiguring) ∧ e = .notReady ∨ st = .fatal ∧ e = .fatal) :
    turnedAway st = some e := by
  rcases h with ⟨rfl | rfl | rfl, rfl⟩ | ⟨rfl, rfl⟩ <;> rfl

theorem turnedAway_notReady {st : RState} (hf : st ≠ .fatal) (hr : st ≠ .running) : turnedAway st = some .notReady := by
  cases st <;> first | rfl | contradiction

theorem turnedAway_isSome {st : RState} (hr : st ≠ .running) : ∃ e, turnedAway st = some e := by
  cases st <;> first | exact ⟨_, rfl⟩ | contradiction

/-- A command on a ring of the hardware, with a context. -/
theorem onRing {s : State} (hc : s.sw.ctxPresent = true) {r : RingId} (hq : r.q.val < s.cfg.nq) (k : RingId → Res) :
    withContext s (withRing r.dir r.q.val s k) = k r := by
  rw [withContext_on s _ hc, withRing_dir r s k hq]

theorem exec_submitTx {s : State} (hc : s.sw.ctxPresent = true) {q : Chan} (hq : q.val < s.cfg.nq) (f : Frame) :
    exec (.submitTx q.val f) s =
      match s.submitCheck ⟨.tx, q⟩ f with
      | some e => .next (s.answer 0x10 e)
      | none =>
        match s.offloadTx q f with
        | none => .fault .tagCollision
        | some (app, s') => .next ((s'.submitFill ⟨.tx, q⟩ f app).answer 0x10 .ok) :=
  onRing hc (r := ⟨.tx, q⟩) hq _

theorem exec_submitTx_check {s : State} (hc : s.sw.ctxPresent = true) {q : Chan} (hq : q.val < s.cfg.nq) {f : Frame}
    {e : Result} (h : s.submitCheck ⟨.tx, q⟩ f = some e) : exec (.submitTx q.val f) s = .next (s.answer 0x10 e) := by
  rw [exec_submitTx hc hq, h]

theorem submitCheck_away {s : State} {r : RingId} {e : Result} (h : turnedAway (s.ring r).rstate = some e) (f : Frame) :
    s.submitCheck r f = some e := by
  simp only [State.submitCheck, h]

theorem exec_offloadTx_away {s : State} (hc : s.sw.ctxPresent = true) {q : Chan} (hq : q.val < s.cfg.nq) (f : Frame)
    {e : Result} (h : turnedAway (s.ring ⟨.tx, q⟩).rstate = some e) :
    exec (.offloadTx q.val f) s = .next (s.answer 0x18 e) := by
  refine (onRing hc (r := ⟨.tx, q⟩) hq _).trans ?_
  simp only [h]

theorem exec_offloadRx_away {s : State} (hc : s.sw.ctxPresent = true) {q : Chan} (hq : q.val < s.cfg.nq) (i : Nat)
    {e : Result} (h : turnedAway (s.ring ⟨.rx, q⟩).rstate = some e) :
    exec (.offloadRx q.val i) s = .next (s.answer 0x19 e) := by
  refine (onRing hc (r := ⟨.rx, q⟩) hq _).trans ?_
  simp only [h]

theorem withBody_away {s : State} {r : RingId} {e : Result} (h : turnedAway (s.ring r).rstate = some e) (id : Nat)
    (k : Res) : withBody id r s k = .next (s.answer id e) := by
  simp only [withBody, h]

theorem withBody_free {s : State} {r : RingId} (h : (s.ring r).rstate = .running) (hb : s.bodyBusy r = false) (id : Nat)
    (k : Res) : withBody id r s k = k := by
  simp [withBody, h, turnedAway, hb]

theorem exec_pollRx {s : State} (hc : s.sw.ctxPresent = true) {q : Chan} (hq : q.val < s.cfg.nq) (budget : Nat) :
    exec (.pollRx q.val budget) s =
      withBody 0x11 ⟨.rx, q⟩ s (begin (pollTask ⟨q, budget, 0, [], none⟩ s)) := onRing hc (r := ⟨.rx, q⟩) hq _

theorem exec_reclaimTx {s : State} (hc : s.sw.ctxPresent = true) {q : Chan} (hq : q.val < s.cfg.nq) :
    exec (.reclaimTx q.val) s = withBody 0x12 ⟨.tx, q⟩ s (begin (reclaimTask ⟨q, []⟩ s)) :=
  onRing hc (r := ⟨.tx, q⟩) hq _

theorem withFreeRing_away {s : State} (hc : s.sw.ctxPresent = true) (hctl : s.controlBusy = false) {r : RingId}
    (hq : r.q.val < s.cfg.nq) {e : Result} (h : turnedAway (s.ring r).rstate = some e) (id : Nat) (k : RingId → Res) :
    withFreeRing id r.dir r.q.val s k = .next (s.answer id e) := by
  refine (withRing_dir r s _ hq).trans ((withControl_off s _ hctl).trans ?_)
  have haway : s.away r = some e := (if_pos hc).trans h
  simp only [haway]

/-- Settles O40: each command meets the ring's state before it does anything. -/
theorem turnedAwayCommands : Obligations.TurnedAway := by
  unfold Obligations.TurnedAway
  intro s q f budget i n e hc hq away
  refine ⟨fun h => ?_, fun h => ?_, fun d h hctl => ?_⟩
  · have ht := turnedAway_eq h
    exact ⟨exec_submitTx_check hc hq (submitCheck_away ht f), (exec_reclaimTx hc hq).trans (withBody_away ht _ _),
      exec_offloadTx_away hc hq f ht⟩
  · have ht := turnedAway_eq h
    exact ⟨(exec_pollRx hc hq budget).trans (withBody_away ht _ _), exec_offloadRx_away hc hq i ht,
      fun hctl => withFreeRing_away hc hctl (r := ⟨.rx, q⟩) hq ht _ _⟩
  · have ht := turnedAway_eq h
    exact ⟨withFreeRing_away hc hctl (r := ⟨d, q⟩) hq ht _ _, withFreeRing_away hc hctl (r := ⟨d, q⟩) hq ht _ _,
      withFreeRing_away hc hctl (r := ⟨d, q⟩) hq ht _ _⟩

/-! ### The refusals of `SUBMIT_TX` -/

theorem validFrame_iff (f : Frame) (n m : Nat) : validFrame f n m = true ↔ FrameOk f n m := by
  simp only [validFrame, FrameOk, Bool.and_eq_true, decide_eq_true_eq, List.all_eq_true, bne_iff_ne, and_assoc]
  exact Iff.rfl

/-- The free descriptors of a TX ring are `completion - issue - 1` modulo N (R14). -/
theorem freeTx_eq {n issue : Nat} (completion : Nat) (h : issue < n) :
    (freeTx n issue completion : Int) = ((completion : Int) - issue - 1) % n := by
  have hsum : ((completion + (n - 1 - issue) : Nat) : Int) = (completion : Int) - issue - 1 + n := by omega
  rw [freeTx, Int.natCast_emod, hsum, Int.add_emod_right]

section

variable {s : State} {r : RingId} {f : Frame} (hr : (s.ring r).rstate = .running)
include hr

theorem submitCheck_linkDown (hl : s.sw.linkUp = false) : s.submitCheck r f = some .notReady := by
  simp [State.submitCheck, turnedAway_running hr, hl]

variable (hl : s.sw.linkUp = true)
include hl

theorem submitCheck_invalid (hv : ¬FrameOk f (s.ring r).cap s.cfg.maxFrame) :
    s.submitCheck r f = some .invalidFrame := by
  have hbad : ¬validFrame f (s.ring r).cap s.cfg.maxFrame = true := mt (validFrame_iff _ _ _).1 hv
  simp [State.submitCheck, turnedAway_running hr, hl, hbad]

variable (hv : FrameOk f (s.ring r).cap s.cfg.maxFrame) (hi : (s.ring r).issue < (s.ring r).cap)
include hv hi

theorem submitCheck_full
    (hroom : (((s.ring r).completion : Int) - (s.ring r).issue - 1) % (s.ring r).cap < f.frags.length) :
    s.submitCheck r f = some .ringFull := by
  have hgood := (validFrame_iff f (s.ring r).cap s.cfg.maxFrame).2 hv
  have hfull : freeTx (s.ring r).cap (s.ring r).issue (s.ring r).completion < f.frags.length := by
    rw [← freeTx_eq _ hi] at hroom
    omega
  simp [State.submitCheck, turnedAway_running hr, hl, hgood, hfull]

theorem submitCheck_pass
    (hroom : (f.frags.length : Int) ≤ (((s.ring r).completion : Int) - (s.ring r).issue - 1) % (s.ring r).cap) :
    s.submitCheck r f = none := by
  have hgood := (validFrame_iff f (s.ring r).cap s.cfg.maxFrame).2 hv
  have hfree : ¬freeTx (s.ring r).cap (s.ring r).issue (s.ring r).completion < f.frags.length := by
    rw [← freeTx_eq _ hi] at hroom
    omega
  simp [State.submitCheck, turnedAway_running hr, hl, hgood, hfree]

end

/-- Settles O39: the tests of `SUBMIT_TX` one after the other, each met after those before it have passed. -/
theorem submitRefusals : Obligations.SubmitRefusals := by
  unfold Obligations.SubmitRefusals
  intro s q f hc hq w
  refine ⟨fun h => ?_, fun hf hr => ?_, fun hr hl => ?_, fun hr hl hv => ?_, fun hr hl hv hp hroom => ?_⟩
  all_goals apply exec_submitTx_check hc hq
  · exact submitCheck_away (turnedAway_eq (.inr ⟨h, rfl⟩)) f
  · exact submitCheck_away (turnedAway_notReady hf hr) f
  · exact submitCheck_linkDown hr hl
  · exact submitCheck_invalid hr hl hv
  · obtain ⟨-, -, -, -, -, -, hissue, -⟩ := hp.facts
    exact submitCheck_full hr hl hv hissue hroom

/-! ### Link and statistics -/

/-- Settles O60: both commands run with a context when no `ATTACH` or `DETACH` is in progress; one stores the link, the
other answers. -/
theorem linkAndStatistics : Obligations.LinkAndStatistics := by
  unfold Obligations.LinkAndStatistics
  refine ⟨fun s up hc hctl => ?_, fun s hc hctl => ?_, fun s up hctl => ?_⟩
  · refine ⟨s.setLink up, (withControl_off s _ hctl).trans (withContext_on s _ hc), rfl, ?_⟩
    constructor <;> simp
  · exact ⟨_, (withControl_off s _ hctl).trans (withContext_on s _ hc), rfl, mem_ringsBelow s.cfg.nq⟩
  · exact ⟨withControl_on s _ hctl, withControl_on s _ hctl⟩

end Sys2Proof.Machine
end

section
/-! SUPPORT. The offload annotator (`45_offload_annotator.md`): the words and the tag of `OFFLOAD_TX` (R311, R312) and what
`OFFLOAD_RX` decodes (R315, R316). -/

namespace Sys2Proof.Machine

/-- The insert offset stands in the low half of `APP1`, the start in the high half (R147). -/
theorem csumWord_eq (start insert : BitVec 16) : csumWord start insert = start ++ insert := by
  apply BitVec.eq_of_getLsbD_eq
  intro i hi
  simp only [csumWord, BitVec.getLsbD_or, BitVec.getLsbD_append, BitVec.getLsbD_shiftLeft, BitVec.getLsbD_setWidth]
  by_cases h : i < 16
  · simp [h, hi]
  · have hlow : insert.getLsbD i = false := BitVec.getLsbD_of_ge _ _ (by omega)
    have hhigh : i - 16 < 32 := by omega
    simp [h, hi, hlow, hhigh]

/-- The five words before a tag is added, by the checksum mode (R311, R312). -/
theorem csumApp_eq (m : CsumMode) (f : Frame) (a4 : Word) :
    { csumApp m f with a4 := a4 } = (⟨if f.csumReq = true ∧ m = .full then 2 else if f.csumReq = true ∧ m = .part then 1 else 0,
      if f.csumReq = true ∧ m = .part then f.csumStart ++ f.csumInsert else 0,
      if f.csumReq = true ∧ m = .full ∨ f.csumReq = true ∧ m = .part then f.csumSeed else 0, 0, a4⟩ : App) := by
  unfold csumApp
  cases f.csumReq
  · rfl
  · cases m <;> simp [csumWord_eq, appZero]

theorem csumApp_a4 (m : CsumMode) (f : Frame) : { csumApp m f with a4 := 0 } = csumApp m f := by
  unfold csumApp
  cases f.csumReq
  · rfl
  · cases m <;> rfl

theorem wantsTag_iff (s : State) (f : Frame) : s.wantsTag f = true ↔ f.tsReq = true ∧ s.sw.tsEnabled = true := by
  simp [State.wantsTag]

theorem offloadTx_untagged {s : State} {f : Frame} (h : ¬s.wantsTag f = true) (q : Chan) :
    s.offloadTx q f = some (csumApp s.sw.txCsum f, s) := if_neg h

theorem offloadTx_collision {s : State} {f : Frame} {q : Chan} (h : s.wantsTag f = true)
    (hk : kvGet (s.tags q).tagmap (s.tags q).nextTag.toNat ≠ none) : s.offloadTx q f = none := by
  obtain ⟨x, hx⟩ := Option.ne_none_iff_exists'.1 hk
  simp only [State.offloadTx, h, hx, if_true]

theorem offloadTx_tagged {s : State} {f : Frame} {q : Chan} (h : s.wantsTag f = true)
    (hk : kvGet (s.tags q).tagmap (s.tags q).nextTag.toNat = none) :
    s.offloadTx q f = some ({ csumApp s.sw.txCsum f with a4 := tagWord (s.tags q).nextTag },
      s.setTags q ⟨nextTagOf (s.tags q).nextTag, kvPut (s.tags q).tagmap (s.tags q).nextTag.toNat f.handle⟩) := by
  simp only [State.offloadTx, h, hk, if_true]

theorem nextTagOf_toNat (tag : BitVec 16) : (nextTagOf tag).toNat = (tag.toNat + 1) % 0xFFFF := by
  have hlt : (tag.toNat + 1) % 0xFFFF < 0xFFFF := Nat.mod_lt _ (by decide)
  rw [nextTagOf, BitVec.toNat_ofNat]
  omega

section

variable {s : State} {q : Chan} {f : Frame} (hc : s.sw.ctxPresent = true) (hq : q.val < s.cfg.nq)
  (hr : (s.ring ⟨.tx, q⟩).rstate = .running)
include hc hq hr

theorem exec_offloadTx_some {app : App} {s' : State} (h : s.offloadTx q f = some (app, s')) :
    exec (.offloadTx q.val f) s = .next (s'.answer 0x18 (.okWords app)) := by
  refine (onRing hc (r := ⟨.tx, q⟩) hq _).trans ?_
  simp only [turnedAway_running hr, h]

theorem exec_offloadTx_none (h : s.offloadTx q f = none) : exec (.offloadTx q.val f) s = .fault .tagCollision := by
  refine (onRing hc (r := ⟨.tx, q⟩) hq _).trans ?_
  simp only [turnedAway_running hr, h]

end

/-- Settles O36: without a tag the words alone, with one the next tag, or the collision where it is still in the map. -/
theorem offloadTxWords : Obligations.OffloadTxWords := by
  unfold Obligations.OffloadTxWords
  intro s q f hc hq hr g full part ts app
  refine ⟨fun h => ?_, fun h hk => ?_, fun h hk => ?_⟩
  · rw [exec_offloadTx_some hc hq hr (offloadTx_untagged (mt (wantsTag_iff s f).1 h) q), ← csumApp_a4, csumApp_eq]
  · exact exec_offloadTx_none hc hq hr (offloadTx_collision ((wantsTag_iff s f).2 h) hk)
  · refine ⟨_, exec_offloadTx_some hc hq hr (offloadTx_tagged ((wantsTag_iff s f).2 h) hk), ?_, ?_, ?_,
      fun hs k hne => ?_, ?_⟩
    · rw [csumApp_eq]
      rfl
    · simp [nextTagOf_toNat, g]
    · simp [kvGet_kvPut_self, g]
    · simp [kvGet_kvPut_ne _ _ hne, g]
    · constructor
      case tags =>
        intro c (hne : ¬c = q)
        simp [hne]
      all_goals simp

/-- Settles O37: the three results by the mode, the switch and the words of the descriptor. -/
theorem offloadRxDecodes : Obligations.OffloadRxDecodes := by
  unfold Obligations.OffloadRxDecodes
  intro s q i hc hq hr hp hi r sts
  refine (onRing hc (r := ⟨.rx, q⟩) hq _).trans ?_
  simp only [turnedAway_running hr, hp, hi, Bool.not_true, Bool.false_eq_true, if_true, if_false]
  have hcsum : s.rxCsumOf r i = match s.sw.rxCsum with
      | .off => .unsupported
      | .part => .softwareVerifyNeeded
      | .full => if sts = 0b010 ∨ sts = 0b011 then .hardwareVerified
                 else if sts = 0b000 then .unsupported else .softwareVerifyNeeded := by
    unfold State.rxCsumOf
    cases s.sw.rxCsum <;> rfl
  have hraw : s.rxRawOf r i = if s.sw.rxCsum = .off then 0 else (s.getD r i 0x2C).extractLsb' 0 16 := by
    unfold State.rxRawOf
    cases s.sw.rxCsum <;> rfl
  rw [hcsum, hraw]
  rfl

end Sys2Proof.Machine
end

section
/-! SUPPORT. The reference arbiter (`42_multichannel_scheduler.md`, R250, log 20): which channel a grant goes to, and the
shares of one whole round (R254). -/

namespace Sys2Proof.Machine

/-! ### The round and the scan -/

theorem reload_eligible (s : State) (c : Chan) : s.reload.eligible c = s.eligible c := by
  simp [State.eligible]

/-- A new round begins when no eligible channel of nonzero weight has credit (R250). -/
def State.roundOver (s : State) : Prop := ∀ d, s.eligible d = true → s.weight d ≠ 0 → s.credit d = 0

theorem reload_test_iff (s : State) :
    (allChans.all fun c => !s.eligible c || s.creditLeft c == 0) = true ↔ s.roundOver := by
  simp only [List.all_eq_true, mem_allChans, true_implies, Bool.or_eq_true, Bool.not_eq_true', beq_iff_eq,
    State.creditLeft, ite_eq_left_iff, State.roundOver]
  refine forall_congr' fun c => ?_
  cases s.eligible c <;> simp

theorem reload_over {s : State} (h : s.roundOver) (c : Chan) : s.reload.credit c = (s.weight c).toNat := by
  unfold State.reload
  rw [if_pos ((reload_test_iff s).2 h)]
  simp [State.credit]

theorem reload_within {s : State} (h : ¬s.roundOver) : s.reload = s := if_neg (mt (reload_test_iff s).1 h)

/-- The scan from `rr_ptr` on comes to every channel. -/
theorem exists_chanAdd (p c : Chan) : ∃ k, k < 16 ∧ chanAdd p k = c := by
  refine ⟨(c.val + (16 - p.val)) % 16, Nat.mod_lt _ (by decide), Fin.ext ?_⟩
  have := p.isLt
  have := c.isLt
  simp only [chanAdd]
  omega

theorem allChans_getElem {k : Nat} (h : k < allChans.length) : (allChans[k]).val = k := by
  have hk : k < 16 := h
  interval_cases k <;> rfl

/-- The arbiter picks the first channel in the order of its scan that is eligible and has credit (R250). -/
theorem arbPick_first {s : State} (h : ∃ c, s.eligible c = true ∧ 0 < s.creditLeft c) :
    ∃ k, k < 16 ∧ s.arbPick = some (chanAdd s.hw.rrPtr k) ∧
      (s.eligible (chanAdd s.hw.rrPtr k) = true ∧ 0 < s.creditLeft (chanAdd s.hw.rrPtr k)) ∧
      ∀ j, j < k → ¬(s.eligible (chanAdd s.hw.rrPtr j) = true ∧ 0 < s.creditLeft (chanAdd s.hw.rrPtr j)) := by
  obtain ⟨c, hc⟩ := h
  obtain ⟨k₀, hk₀, rfl⟩ := exists_chanAdd s.hw.rrPtr c
  cases hp : s.arbPick with
  | none =>
    have hmiss := List.find?_eq_none.1 hp (chanAdd s.hw.rrPtr k₀)
      (List.mem_map.2 ⟨⟨k₀, hk₀⟩, mem_allChans _, rfl⟩)
    exact absurd (by simpa using hc) hmiss
  | some c =>
    obtain ⟨hgood, k, hk, hget, hfirst⟩ := List.find?_eq_some_iff_getElem.1 hp
    have hk16 : k < allChans.length := by simpa using hk
    rw [List.getElem_map, allChans_getElem] at hget
    subst hget
    refine ⟨k, hk16, rfl, by simpa using hgood, fun j hj hno => ?_⟩
    have := hfirst j hj
    rw [List.getElem_map, allChans_getElem] at this
    simp [hno.1, hno.2] at this

theorem exec_arbGrant {s : State} (hmc : s.cfg.variant = .mc) (hg : s.hw.grant = none)
    (he : ∃ c, s.eligible c = true ∧ s.weight c ≠ 0) {c : Chan} (hp : s.reload.arbPick = some c) :
    exec .eArbGrant s = .next (s.reload.grantTo c) := by
  refine (if_pos ((arbEnabled_iff s).2 ⟨hmc, hg, he⟩)).trans ?_
  simp only [hp]

theorem grantTo_credit (s : State) (c d : Chan) :
    (s.grantTo c).credit d = if d = c then s.credit c - 1 else s.credit d := vget_vset _ _ _ _

/-- A grant touches the credits and the grant only. -/
theorem reload_grantTo_frame (s : State) (c : Chan) :
    Keeps { credits := True, grant := True } s (s.reload.grantTo c) := by
  constructor <;> simp

/-- Settles O47: the scan of the reloaded state finds the first channel that may be granted, and the grant takes one
credit. -/
theorem arbiterGrants : Obligations.ArbiterGrants := by
  unfold Obligations.ArbiterGrants
  intro s hmc hg he used credit grantable
  have hcredit : ∀ c, s.reload.credit c = credit c := by
    intro c
    by_cases h : s.roundOver
    · exact (reload_over h c).trans (if_pos h).symm
    · exact (congrArg (State.credit · c) (reload_within h)).trans (if_neg h).symm
  have hiff : ∀ c, s.reload.eligible c = true ∧ 0 < s.reload.creditLeft c ↔ grantable c := by
    intro c
    rw [reload_eligible, State.creditLeft_pos, hcredit]
    simp [grantable]
  have hsome : ∃ c, s.reload.eligible c = true ∧ 0 < s.reload.creditLeft c := by
    by_cases h : s.roundOver
    · obtain ⟨c, hel, hw⟩ := he
      have hpos : 0 < (s.weight c).toNat := Nat.pos_of_ne_zero fun e => hw (BitVec.eq_of_toNat_eq e)
      have hfresh : credit c = (s.weight c).toNat := if_pos h
      exact ⟨c, (hiff c).2 ⟨hel, hw, hfresh ▸ hpos⟩⟩
    · obtain ⟨c, hel, hw, hc⟩ : ∃ c, s.eligible c = true ∧ s.weight c ≠ 0 ∧ s.credit c ≠ 0 := by
        simpa [State.roundOver] using h
      have hkept : credit c = s.credit c := if_neg h
      exact ⟨c, (hiff c).2 ⟨hel, hw, hkept ▸ Nat.pos_of_ne_zero hc⟩⟩
  obtain ⟨k, hk, hpick, hgood, hfirst⟩ := arbPick_first hsome
  have hrr : s.reload.hw.rrPtr = s.hw.rrPtr := by simp
  rw [hrr] at hpick hgood hfirst
  refine ⟨s.reload.grantTo (chanAdd s.hw.rrPtr k), k, exec_arbGrant hmc hg he hpick, hk, (hiff _).1 hgood,
    fun j hj hno => hfirst j hj ((hiff _).2 hno), rfl, fun d => ?_, ?_, reload_grantTo_frame s _⟩
  · rw [grantTo_credit, hcredit, hcredit]
  · obtain ⟨-, -, hpos⟩ := (hiff _).1 hgood
    have hone : s.reload.credit (chanAdd s.hw.rrPtr k) - 1 = 0 ↔ credit (chanAdd s.hw.rrPtr k) = 1 := by
      rw [hcredit]
      omega
    simp only [State.grantTo, hone]

/-! ### One whole round -/

/-- The credits of the eligible channels together. -/
def State.roundLeft (s : State) : Nat := ((allChans.filter s.eligible).map s.credit).sum

/-- A machine of the `MC` variant between two grants, whose eligible channels of weight 0 have no credit. -/
structure State.InRound (s : State) : Prop where
  mc : s.cfg.variant = .mc
  free : s.hw.grant = none
  idle : ∀ c, s.eligible c = true → s.weight c = 0 → s.credit c = 0

theorem State.InRound.reload {s : State} (hmc : s.cfg.variant = .mc) (hg : s.hw.grant = none) (ho : s.roundOver) :
    s.reload.InRound where
  mc := by simpa using hmc
  free := by simpa using hg
  idle c _ hw := by
    have hw' : s.weight c = 0 := by simpa using hw
    rw [reload_over ho, hw']
    rfl

/-- A grant of the round: one credit of an eligible channel, and the machine is in the round still. -/
theorem State.InRound.grant {s : State} (h : s.InRound) (hpos : 0 < s.roundLeft) :
    ∃ c, (s.eligible c = true ∧ 0 < s.credit c) ∧ exec .eArbGrant s = .next (s.grantTo c) ∧
      ((s.grantTo c).setGrant none).InRound := by
  obtain ⟨hmc, hfree, hidle⟩ := h
  obtain ⟨d, hel, hd⟩ : ∃ d, s.eligible d = true ∧ s.credit d ≠ 0 := by
    by_contra hno
    push Not at hno
    have hzero : s.roundLeft = 0 := by
      refine List.sum_eq_zero fun x hx => ?_
      obtain ⟨d, hd, rfl⟩ := List.mem_map.1 hx
      exact hno d (by simpa using hd)
    omega
  have hw : s.weight d ≠ 0 := fun e => hd (hidle d hel e)
  have hreload : s.reload = s := reload_within fun ho => hd (ho d hel hw)
  obtain ⟨k, -, hpick, ⟨hel', hleft⟩, -⟩ := arbPick_first ⟨d, hel, State.creditLeft_pos.2 ⟨hw, Nat.pos_of_ne_zero hd⟩⟩
  obtain ⟨hw', hcredit⟩ := State.creditLeft_pos.1 hleft
  have hexec := exec_arbGrant hmc hfree ⟨d, hel, hw⟩ (hreload.symm ▸ hpick)
  rw [hreload] at hexec
  refine ⟨_, ⟨hel', hcredit⟩, hexec, by simpa using hmc, rfl, fun c hc hwc => ?_⟩
  have hne : c ≠ chanAdd s.hw.rrPtr k := by
    rintro rfl
    exact hw' (by simpa using hwc)
  rw [State.setGrant_credit, grantTo_credit, if_neg hne]
  exact hidle c (by simpa [State.eligible] using hc) (by simpa using hwc)

/-- One unit less of one summand is one unit less of the sum. -/
theorem sum_map_pred {l : List Chan} (hl : l.Nodup) {c : Chan} (hc : c ∈ l) {f : Chan → Nat} (hf : 0 < f c) :
    (l.map fun d => if d = c then f c - 1 else f d).sum + 1 = (l.map f).sum := by
  induction l with
  | nil => cases hc
  | cons x xs ih =>
    obtain ⟨hx, hxs⟩ := List.nodup_cons.1 hl
    simp only [List.map_cons, List.sum_cons]
    by_cases hxc : x = c
    · subst hxc
      have hrest : (xs.map fun d => if d = x then f x - 1 else f d) = xs.map f :=
        List.map_congr_left fun d hd => if_neg (by rintro rfl; exact hx hd)
      rw [hrest, if_pos rfl]
      omega
    · have hmem : c ∈ xs := (List.mem_cons.1 hc).resolve_left fun e => hxc e.symm
      rw [if_neg hxc, ← ih hxs hmem]
      omega

theorem grantTo_eligible (s : State) (c d : Chan) : ((s.grantTo c).setGrant none).eligible d = s.eligible d := by
  simp [State.eligible]

theorem grantTo_roundLeft {s : State} {c : Chan} (hel : s.eligible c = true) (hc : 0 < s.credit c) :
    ((s.grantTo c).setGrant none).roundLeft + 1 = s.roundLeft := by
  have hnodup : (allChans.filter s.eligible).Nodup := List.Nodup.filter _ (by decide)
  have hmem : c ∈ allChans.filter s.eligible := List.mem_filter.2 ⟨mem_allChans c, hel⟩
  have hfilter : allChans.filter ((s.grantTo c).setGrant none).eligible = allChans.filter s.eligible :=
    List.filter_congr fun d _ => grantTo_eligible s c d
  rw [State.roundLeft, State.roundLeft, ← sum_map_pred hnodup hmem hc, hfilter]
  exact congrArg (fun l : List Nat => l.sum + 1)
    (List.map_congr_left fun d _ => by rw [State.setGrant_credit, grantTo_credit])

theorem grantRun_succ {s t : State} {c : Chan} (n : Nat) (h : exec .eArbGrant s = .next t) (hg : t.hw.grant = some c) :
    grantRun (n + 1) s = (c :: (grantRun n (t.setGrant none)).1, (grantRun n (t.setGrant none)).2) := by
  simp only [grantRun, h, hg]

/-- From inside a round, the grants until its credits are used up are each eligible channel's credits. -/
theorem grantRun_round (n : Nat) : ∀ s : State, s.InRound → s.roundLeft = n →
    (∀ c, (grantRun n s).1.count c = if s.eligible c = true then s.credit c else 0) ∧
      ∀ c, s.eligible c = true → (grantRun n s).2.credit c = 0 := by
  induction n with
  | zero =>
    intro s _ hleft
    have hzero : ∀ c, s.eligible c = true → s.credit c = 0 := by
      intro c hc
      have hmem : c ∈ allChans.filter s.eligible := List.mem_filter.2 ⟨mem_allChans c, hc⟩
      exact List.sum_eq_zero_iff.1 hleft _ (List.mem_map_of_mem hmem)
    refine ⟨fun c => ?_, hzero⟩
    split
    · next hc => exact (hzero c hc).symm
    · rfl
  | succ n ih =>
    intro s hs hleft
    obtain ⟨c, ⟨hel, hc⟩, hexec, hnext⟩ := hs.grant (by omega)
    have hone := grantTo_roundLeft hel hc
    obtain ⟨hcount, hend⟩ := ih _ hnext (by omega)
    rw [grantRun_succ n hexec rfl]
    refine ⟨fun d => ?_, fun d hd => hend d (by rwa [grantTo_eligible])⟩
    rw [List.count_cons, hcount, grantTo_eligible, State.setGrant_credit, grantTo_credit]
    by_cases hd : d = c
    · subst hd
      simp only [hel, if_true, beq_self_eq_true]
      omega
    · simp [hd, Ne.symm hd]

/-- The first grant of a round is the first after its reload. -/
theorem grantRun_reload {s : State} (hmc : s.cfg.variant = .mc) (hg : s.hw.grant = none) (ho : s.roundOver)
    (he : ∃ c, s.eligible c = true ∧ s.weight c ≠ 0) (n : Nat) : grantRun (n + 1) s = grantRun (n + 1) s.reload := by
  obtain ⟨d, hel, hw⟩ := he
  have hpos : 0 < (s.weight d).toNat := Nat.pos_of_ne_zero fun e => hw (BitVec.eq_of_toNat_eq e)
  have hel' : s.reload.eligible d = true := by rwa [reload_eligible]
  have hw' : s.reload.weight d ≠ 0 := by simpa using hw
  have hcredit : s.reload.credit d ≠ 0 := by
    rw [reload_over ho]
    omega
  have hstay : s.reload.reload = s.reload := reload_within fun h => hcredit (h d hel' hw')
  obtain ⟨k, -, hpick, -, -⟩ := arbPick_first ⟨d, hel', State.creditLeft_pos.2 ⟨hw', Nat.pos_of_ne_zero hcredit⟩⟩
  have hexec := exec_arbGrant hmc hg ⟨d, hel, hw⟩ hpick
  have hexec' := exec_arbGrant (s := s.reload) (by simpa using hmc) (by simpa using hg) ⟨d, hel', hw'⟩ (hstay.symm ▸ hpick)
  rw [hstay] at hexec'
  rw [grantRun_succ n hexec rfl, grantRun_succ n hexec' rfl]

/-- Settles O48: after the reload each eligible channel's credit is its weight, and the round grants the credits. -/
theorem roundIsProportional : Obligations.RoundIsProportional := by
  unfold Obligations.RoundIsProportional
  intro s hmc hg hzero n
  have ho : s.roundOver := fun d hd _ => hzero d hd
  have hin := State.InRound.reload hmc hg ho
  have hleft : s.reload.roundLeft = n := by
    have hfilter : allChans.filter s.reload.eligible = allChans.filter s.eligible :=
      List.filter_congr fun d _ => reload_eligible s d
    rw [State.roundLeft, hfilter]
    exact congrArg List.sum (List.map_congr_left fun d _ => reload_over ho d)
  obtain ⟨hcount, hend⟩ := grantRun_round n s.reload hin hleft
  simp only [reload_eligible, reload_over ho] at hcount hend
  have hmem {c : Chan} (hc : s.eligible c = true) : c ∈ allChans.filter s.eligible :=
    List.mem_filter.2 ⟨mem_allChans c, hc⟩
  by_cases he : ∃ c, s.eligible c = true ∧ s.weight c ≠ 0
  · obtain ⟨m, hm⟩ : ∃ m, n = m + 1 := by
      obtain ⟨c, hel, hw⟩ := he
      refine Nat.exists_eq_succ_of_ne_zero fun h0 => hw ?_
      exact BitVec.eq_of_toNat_eq (List.sum_eq_zero_iff.1 h0 _ (List.mem_map_of_mem (hmem hel)))
    rw [hm, grantRun_reload hmc hg ho he m, ← hm]
    exact ⟨hcount, hend⟩
  · push Not at he
    have hnone : n = 0 := by
      refine List.sum_eq_zero fun x hx => ?_
      obtain ⟨c, hc, rfl⟩ := List.mem_map.1 hx
      rw [he c (List.mem_filter.1 hc).2]
      rfl
    rw [hnone] at hcount ⊢
    exact ⟨hcount, fun c hc => hzero c hc⟩

end Sys2Proof.Machine
end

section
/-! SUPPORT. Frames composed, and the command that sets a channel's weight. -/

namespace Sys2Proof.Machine

/-! ### Frames -/

/-- What `c` names, `d` names too. -/
structure Touch.Le (c d : Touch) : Prop where
  regs : ∀ r, c.regs r → d.regs r := by simp +zetaDelta
  rings : ∀ r, c.rings r → d.rings r := by simp +zetaDelta
  fences : ∀ r, c.fences r → d.fences r := by simp +zetaDelta
  tags : ∀ q, c.tags q → d.tags q := by simp +zetaDelta
  txe : ∀ q, c.txe q → d.txe q := by simp +zetaDelta
  rxe : ∀ q, c.rxe q → d.rxe q := by simp +zetaDelta
  weights : ∀ q, c.weights q → d.weights q := by simp +zetaDelta
  credits : c.credits → d.credits := by simp +zetaDelta
  grant : c.grant → d.grant := by simp +zetaDelta
  irq : ∀ e, c.irq e → d.irq e := by simp +zetaDelta
  context : c.context → d.context := by simp +zetaDelta
  bytes : ∀ a, c.bytes a → d.bytes a := by simp +zetaDelta
  events : c.events → d.events := by simp +zetaDelta
  answers : c.answers → d.answers := by simp +zetaDelta
  env : c.env → d.env := by simp +zetaDelta
  tasks : c.tasks → d.tasks := by simp +zetaDelta
  cfg : c.cfg → d.cfg := by simp +zetaDelta

theorem Keeps.refl (c : Touch) (s : State) : Keeps c s s := by
  constructor <;> simp

theorem Keeps.trans {c : Touch} {s t u : State} (h : Keeps c s t) (k : Keeps c t u) : Keeps c s u where
  regs r hr := (k.regs r hr).trans (h.regs r hr)
  rings r hr := (k.rings r hr).trans (h.rings r hr)
  fences r hr := (k.fences r hr).trans (h.fences r hr)
  tags q hq := (k.tags q hq).trans (h.tags q hq)
  txe q hq := (k.txe q hq).trans (h.txe q hq)
  rxe q hq := (k.rxe q hq).trans (h.rxe q hq)
  weights q hq := (k.weights q hq).trans (h.weights q hq)
  credits hc := ⟨fun q => ((k.credits hc).1 q).trans ((h.credits hc).1 q), (k.credits hc).2.trans (h.credits hc).2⟩
  grant hc := (k.grant hc).trans (h.grant hc)
  irq e he := (k.irq e he).trans (h.irq e he)
  context hc := by
    obtain ⟨h1, h2, h3, h4, h5⟩ := h.context hc
    obtain ⟨k1, k2, k3, k4, k5⟩ := k.context hc
    exact ⟨k1.trans h1, k2.trans h2, k3.trans h3, k4.trans h4, k5.trans h5⟩
  bytes a ha := (k.bytes a ha).trans (h.bytes a ha)
  events hc := (k.events hc).trans (h.events hc)
  answers hc := (k.answers hc).trans (h.answers hc)
  env hc := (k.env hc).trans (h.env hc)
  tasks hc := (k.tasks hc).trans (h.tasks hc)
  cfg hc := (k.cfg hc).trans (h.cfg hc)

theorem Keeps.mono {c d : Touch} {s t : State} (h : Keeps c s t) (hle : c.Le d) : Keeps d s t where
  regs r hr := h.regs r (mt (hle.regs r) hr)
  rings r hr := h.rings r (mt (hle.rings r) hr)
  fences r hr := h.fences r (mt (hle.fences r) hr)
  tags q hq := h.tags q (mt (hle.tags q) hq)
  txe q hq := h.txe q (mt (hle.txe q) hq)
  rxe q hq := h.rxe q (mt (hle.rxe q) hq)
  weights q hq := h.weights q (mt (hle.weights q) hq)
  credits hc := h.credits (mt hle.credits hc)
  grant hc := h.grant (mt hle.grant hc)
  irq e he := h.irq e (mt (hle.irq e) he)
  context hc := h.context (mt hle.context hc)
  bytes a ha := h.bytes a (mt (hle.bytes a) ha)
  events hc := h.events (mt hle.events hc)
  answers hc := h.answers (mt hle.answers hc)
  env hc := h.env (mt hle.env hc)
  tasks hc := h.tasks (mt hle.tasks hc)
  cfg hc := h.cfg (mt hle.cfg hc)

theorem Keeps.comp {c d e : Touch} {s t u : State} (h : Keeps c s t) (k : Keeps d t u) (hc : c.Le e) (hd : d.Le e) :
    Keeps e s u := (h.mono hc).trans (k.mono hd)

theorem Keeps.after {d e : Touch} {s t u : State} (h : Keeps e s t) (k : Keeps d t u) (hd : d.Le e) : Keeps e s u :=
  h.trans (k.mono hd)

theorem State.answer_frame (s : State) (id : Nat) (x : Result) : Keeps { answers := True } s (s.answer id x) := by
  constructor <;> simp

/-! ### The channel of an operand -/

theorem State.chan?_of_lt {s : State} (hmc : s.cfg.variant = .mc) {c : Chan} (hc : c.val < s.cfg.nq) :
    s.chan? c.val = some c := by
  rw [State.chan?, if_pos hmc, dif_pos c.isLt, if_pos hc]

theorem State.chan?_none {s : State} {n : Nat} (h : s.cfg.variant = .sq ∨ s.cfg.nq ≤ n ∨ 16 ≤ n) : s.chan? n = none := by
  unfold State.chan?
  by_cases hmc : s.cfg.variant = .mc
  · have hn : s.cfg.nq ≤ n ∨ 16 ≤ n := h.resolve_left fun hsq => nomatch hsq.symm.trans hmc
    rw [if_pos hmc]
    split
    · next h16 => exact if_neg (by omega)
    · rfl
  · exact if_neg hmc

/-! ### `CONFIGURE_WEIGHT` -/

theorem exec_configureWeight {s : State} (hctl : s.controlBusy = false) (hc : s.sw.ctxPresent = true) {n w : Nat}
    {c : Chan} (hn : s.chan? n = some c) :
    exec (.configureWeight n w) s = if 1 ≤ w ∧ w ≤ 15 ∧ halted (s.regs ⟨.tx, c⟩) = true ∧ s.weightFits c w = true then
        .next ((s.regWrite (weightReg c) (weightField (s.regValue (weightReg c)) c w)).answer 0x20 .ok)
      else .next (s.answer 0x20 .invalidConfiguration) := by
  have hrun : exec (.configureWeight n w) s = (if w < 1 ∨ 15 < w then .next (s.answer 0x20 .invalidConfiguration)
      else if !(s.regValue (.sr ⟨.tx, c⟩)).getLsbD 0 then .next (s.answer 0x20 .invalidConfiguration)
      else if !s.weightFits c w then .next (s.answer 0x20 .invalidConfiguration)
      else .next ((s.regWrite (weightReg c) (weightField (s.regValue (weightReg c)) c w)).answer 0x20 .ok)) := by
    refine (withControl_off s _ hctl).trans ((withContext_on s _ hc).trans ?_)
    simp only [hn]
  have hsr : (s.regValue (.sr ⟨.tx, c⟩)).getLsbD 0 = halted (s.regs ⟨.tx, c⟩) := (srWord_bits _).1
  rw [hrun, hsr]
  by_cases hw : w < 1 ∨ 15 < w
  · rw [if_pos hw, if_neg (by omega)]
  · have hw' : 1 ≤ w ∧ w ≤ 15 := by omega
    cases halted (s.regs ⟨.tx, c⟩) <;> cases s.weightFits c w <;> simp only [hw, hw', if_false, if_true, Bool.not_true, Bool.not_false, and_true,
      and_false, Bool.false_eq_true]

theorem exec_configureWeight_none {s : State} (hctl : s.controlBusy = false) (hc : s.sw.ctxPresent = true) {n : Nat}
    (w : Nat) (hn : s.chan? n = none) : exec (.configureWeight n w) s = .next (s.answer 0x20 .invalidConfiguration) := by
  refine (withControl_off s _ hctl).trans ((withContext_on s _ hc).trans ?_)
  simp only [hn]

theorem sum_map_ite {α : Type} (l : List α) (p : α → Prop) [DecidablePred p] (f : α → Nat) :
    (l.map fun d => if p d then f d else 0).sum = ((l.filter p).map f).sum := by
  induction l with
  | nil => rfl
  | cons d l ih => by_cases h : p d <;> simp [h, ih]

theorem State.weightFits_iff (s : State) (c : Chan) (w : Nat) :
    s.weightFits c w = true ↔ ∀ m, s.cfg.weightSumLimit = some m → w + s.otherWeights c ≤ m := by
  unfold State.weightFits
  cases s.cfg.weightSumLimit <;> simp

theorem State.otherWeights_eq (s : State) (c : Chan) : s.otherWeights c = (((chansBelow s.cfg.nq).filter fun d =>
    d.val ≠ c.val ∧ (s.regs ⟨.tx, d⟩).run = true).map fun d => (s.weight d).toNat).sum := by
  rw [← sum_map_ite]
  refine congrArg List.sum (List.map_congr_left fun d _ => ?_)
  simp only [Fin.ext_iff, ne_eq]

/-- The word with one field replaced: the field's own bits are the weight's, all others are as they were. -/
theorem weightField_bit (v : Word) (c : Chan) {w : Nat} (hw : w ≤ 15) {k : Nat} (hk : k < 32) :
    (weightField v c w).getLsbD k = if k / 4 = c.val % 8 then (BitVec.ofNat 4 w).getLsbD (k % 4) else v.getLsbD k := by
  have hmask (j : Nat) : (0xF : Word).getLsbD j = decide (j < 4) := by
    by_cases hj : j < 4
    · interval_cases j <;> rfl
    · rw [show (0xF : Word) = (0xF : BitVec 4).setWidth 32 from rfl, BitVec.getLsbD_setWidth,
        BitVec.getLsbD_of_ge _ _ (by omega)]
      simp [hj]
  unfold weightField
  simp only [BitVec.getLsbD_or, BitVec.getLsbD_and, BitVec.getLsbD_not, BitVec.getLsbD_shiftLeft, hmask, hk,
    decide_true, Bool.true_and]
  by_cases hlow : k < 4 * (c.val % 8)
  · simp [hlow, show ¬k / 4 = c.val % 8 by omega]
  · by_cases hin : k / 4 = c.val % 8
    · have hsub : k - 4 * (c.val % 8) = k % 4 := by omega
      have hmod : k % 4 < 4 := by omega
      have hof : (BitVec.ofNat 32 w).getLsbD (k % 4) = (BitVec.ofNat 4 w).getLsbD (k % 4) := by
        simp only [BitVec.getLsbD_ofNat, hmod, show k % 4 < 32 by omega]
      rw [hsub, if_pos hin, ← hof]
      simp [hlow, hmod]
    · have hsub : 4 ≤ k - 4 * (c.val % 8) := by omega
      have hbit : w.testBit (k - 4 * (c.val % 8)) = false :=
        Nat.testBit_lt_two_pow (calc w < 2 ^ 4 := by omega
          _ ≤ 2 ^ (k - 4 * (c.val % 8)) := Nat.pow_le_pow_right (by decide) hsub)
      simp [hlow, hin, Nat.not_lt.2 hsub, BitVec.getLsbD_ofNat, hbit]

theorem weightField_field (v : Word) (c d : Chan) {w : Nat} (hw : w ≤ 15) :
    (weightField v c w).extractLsb' (4 * (d.val % 8)) 4 =
      if d.val % 8 = c.val % 8 then BitVec.ofNat 4 w else v.extractLsb' (4 * (d.val % 8)) 4 := by
  refine BitVec.eq_of_getLsbD_eq fun i hi => ?_
  have hdiv : (4 * (d.val % 8) + i) / 4 = d.val % 8 := by omega
  have hmod : (4 * (d.val % 8) + i) % 4 = i := by omega
  rw [BitVec.getLsbD_extractLsb', weightField_bit v c hw (by omega), hdiv, hmod]
  by_cases h : d.val % 8 = c.val % 8 <;> simp [h, hi]

theorem regWrite_weightReg (s : State) (c : Chan) (v : Word) :
    s.regWrite (weightReg c) v = s.writeWeight (decide (8 ≤ c.val)) v := by
  by_cases h : c.val < 8
  · rw [weightReg, if_pos h, decide_eq_false (by omega)]
    rfl
  · rw [weightReg, if_neg h, decide_eq_true (by omega)]
    rfl

theorem regValue_weightReg (s : State) (c : Chan) :
    s.regValue (weightReg c) = s.weightWord (decide (8 ≤ c.val)) := by
  by_cases h : c.val < 8
  · rw [weightReg, if_pos h, decide_eq_false (by omega)]
    rfl
  · rw [weightReg, if_neg h, decide_eq_true (by omega)]
    rfl

/-- The read and the write back of the register of `c` change the weight of `c` alone: the other fields are written with
the value read. -/
theorem weight_of_configured {s : State} {c : Chan} (hc : c.val < s.cfg.nq) (hh : halted (s.regs ⟨.tx, c⟩) = true) {w : Nat}
    (hw : w ≤ 15) (d : Chan) :
    (s.regWrite (weightReg c) (weightField (s.regValue (weightReg c)) c w)).weight d =
      if d = c then BitVec.ofNat 4 w else s.weight d := by
  rw [regWrite_weightReg, regValue_weightReg, writeWeight_weight, weightField_field _ _ _ hw]
  by_cases hd : d = c
  · subst hd
    simp [hc, hh]
  · rw [if_neg hd]
    split
    · next h =>
      obtain ⟨hhalf, hd', -⟩ := h
      have hne : ¬d.val % 8 = c.val % 8 := by
        have hval : d.val ≠ c.val := fun e => hd (Fin.ext e)
        rw [decide_eq_true_eq] at hhalf
        omega
      rw [if_neg hne, weightWord_field s _ d (by simpa using hhalf), if_pos hd']
    · rfl

/-- Settles O44: the command is the write of one field of a weight register, where every test of R240 is passed. -/
theorem weightConfigured : Obligations.WeightConfigured := by
  unfold Obligations.WeightConfigured
  intro s n w hc
  refine ⟨fun hctl => withControl_on s _ hctl, fun hctl => ?_⟩
  intro others allowed
  by_cases hin : s.cfg.variant = .mc ∧ n < s.cfg.nq ∧ n < 16
  · obtain ⟨hmc, hnq, h16⟩ := hin
    obtain ⟨c, rfl⟩ : ∃ c : Chan, c.val = n := ⟨⟨n, h16⟩, rfl⟩
    have hexec := exec_configureWeight (w := w) hctl hc (State.chan?_of_lt hmc hnq)
    have hiff : (1 ≤ w ∧ w ≤ 15 ∧ halted (s.regs ⟨.tx, c⟩) = true ∧ s.weightFits c w = true) ↔ allowed := by
      rw [State.weightFits_iff, State.otherWeights_eq]
      constructor
      · rintro ⟨h1, h15, hh, hfit⟩
        exact ⟨hmc, hnq, h16, h1, h15, fun d hd => Fin.ext hd ▸ hh, hfit⟩
      · rintro ⟨-, -, -, h1, h15, hh, hfit⟩
        exact ⟨h1, h15, hh c rfl, hfit⟩
    refine ⟨fun hno => by rw [hexec, if_neg (mt hiff.1 hno)], fun hyes => ?_⟩
    obtain ⟨-, h15, hh, -⟩ := hiff.2 hyes
    have hweight (d : Chan) := weight_of_configured hnq hh h15 d
    refine ⟨_, by rw [hexec, if_pos (hiff.2 hyes)], ?_, fun d => ?_, ?_⟩
    · rw [regWrite_weightReg]
      simp
    · rw [State.answer_weight, hweight]
      simp only [Fin.ext_iff]
    · constructor
      case weights =>
        intro d (hd : ¬d.val = c.val)
        rw [State.answer_weight, hweight, if_neg (fun e => hd (congrArg Fin.val e))]
      all_goals
        rw [regWrite_weightReg]
        simp
  · have hnone : s.chan? n = none := State.chan?_none (by
      cases hv : s.cfg.variant
      · exact Or.inl rfl
      · have hout : ¬(n < s.cfg.nq ∧ n < 16) := fun h => hin ⟨hv, h⟩
        omega)
    refine ⟨fun _ => exec_configureWeight_none hctl hc w hnone, fun hyes => absurd ?_ hin⟩
    obtain ⟨hmc, hnq, h16, -⟩ := hyes
    exact ⟨hmc, hnq, h16⟩

end Sys2Proof.Machine
end

section
/-! SUPPORT. The commands that enable and disable a channel: one bit of `CHEN` and one of `CH_IER` for each direction. -/

namespace Sys2Proof.Machine

/-! ### One bit of a bitmap register -/

theorem getLsbD_pow_chan (c d : Chan) : (BitVec.ofNat 32 (2 ^ c.val)).getLsbD d.val = decide (d = c) := by
  rw [BitVec.getLsbD_ofNat, Nat.testBit_two_pow, decide_eq_true (show d.val < 32 by omega), Bool.true_and]
  exact decide_eq_decide.2 ⟨fun e => Fin.ext e.symm, fun e => congrArg Fin.val e.symm⟩

theorem getLsbD_bitmapWord_set (f : Chan → Bool) (c d : Chan) :
    (bitmapWord f ||| BitVec.ofNat 32 (2 ^ c.val)).getLsbD d.val = (f d || decide (d = c)) := by
  rw [BitVec.getLsbD_or, getLsbD_bitmapWord, getLsbD_pow_chan]

theorem getLsbD_bitmapWord_clear (f : Chan → Bool) (c d : Chan) :
    (bitmapWord f &&& ~~~BitVec.ofNat 32 (2 ^ c.val)).getLsbD d.val = (f d && !decide (d = c)) := by
  rw [BitVec.getLsbD_and, BitVec.getLsbD_not, getLsbD_bitmapWord, getLsbD_pow_chan,
    decide_eq_true (show d.val < 32 by omega), Bool.true_and]

/-- A write of the run bit that a ring has changes nothing of it. -/
theorem runWriteRegs_same (x : RingRegs) : runWriteRegs x.run x = x := by
  rw [runWriteRegs_chen, if_pos (Or.inr (Or.inr rfl))]

theorem runWriteRegs_ch (on : Bool) (x : RingRegs) :
    (runWriteRegs on x).chIer = x.chIer ∧ (runWriteRegs on x).chIsr = x.chIsr := by
  rw [runWriteRegs_chen]
  split
  · exact ⟨rfl, rfl⟩
  · split <;> exact ⟨rfl, rfl⟩

theorem State.writeChen_regs (s : State) (d : Dir) (v : Word) (t : RingId) :
    (s.writeChen d v).regs t =
      if t.dir = d ∧ t.q.val < s.cfg.nq then runWriteRegs (v.getLsbD t.q.val) (s.regs t) else s.regs t :=
  State.mapDir_regs s d _ t

/-! ### The two bits of one ring -/

theorem RingId.eq_iff (t r : RingId) : t = r ↔ t.dir = r.dir ∧ t.q = r.q := by
  cases t
  cases r
  simp

/-- A bit of `CHEN` set or cleared starts or stops that channel's ring and leaves the others'. -/
theorem State.setChen_regs {s : State} {r : RingId} (hr : r.q.val < s.cfg.nq) (t : RingId) :
    (s.setBit (.chen r.dir) r.q).regs t = if t = r then runWriteRegs true (s.regs r) else s.regs t := by
  refine (State.writeChen_regs s r.dir _ t).trans ?_
  by_cases hin : t.dir = r.dir ∧ t.q.val < s.cfg.nq
  · obtain ⟨hd, hq⟩ := hin
    rw [if_pos ⟨hd, hq⟩, State.regValue, getLsbD_bitmapWord_set, decide_eq_true hq, Bool.true_and, ← hd]
    by_cases ht : t.q = r.q
    · obtain rfl := (RingId.eq_iff t r).2 ⟨hd, ht⟩
      rw [if_pos rfl, decide_eq_true rfl, Bool.or_true]
    · rw [if_neg fun e => ht (congrArg RingId.q e), decide_eq_false ht, Bool.or_false]
      exact runWriteRegs_same _
  · rw [if_neg hin, if_neg]
    rintro rfl
    exact hin ⟨rfl, hr⟩

theorem State.clearChen_regs {s : State} {r : RingId} (hr : r.q.val < s.cfg.nq) (t : RingId) :
    (s.clearBit (.chen r.dir) r.q).regs t = if t = r then runWriteRegs false (s.regs r) else s.regs t := by
  refine (State.writeChen_regs s r.dir _ t).trans ?_
  by_cases hin : t.dir = r.dir ∧ t.q.val < s.cfg.nq
  · obtain ⟨hd, hq⟩ := hin
    rw [if_pos ⟨hd, hq⟩, State.regValue, getLsbD_bitmapWord_clear, decide_eq_true hq, Bool.true_and, ← hd]
    by_cases ht : t.q = r.q
    · obtain rfl := (RingId.eq_iff t r).2 ⟨hd, ht⟩
      rw [if_pos rfl, decide_eq_true rfl, Bool.not_true, Bool.and_false]
    · rw [if_neg fun e => ht (congrArg RingId.q e), decide_eq_false ht, Bool.not_false, Bool.and_true]
      exact runWriteRegs_same _
  · rw [if_neg hin, if_neg]
    rintro rfl
    exact hin ⟨rfl, hr⟩

/-- A bit of `CH_IER` set or cleared is that channel's alone. -/
theorem State.setChIer_regs {s : State} {r : RingId} (hr : r.q.val < s.cfg.nq) (t : RingId) :
    (s.setBit (.chIer r.dir) r.q).regs t = if t = r then { s.regs r with chIer := true } else s.regs t := by
  refine (State.writeChIer_regs s r.dir _ t).trans ?_
  by_cases hin : t.dir = r.dir ∧ t.q.val < s.cfg.nq
  · obtain ⟨hd, hq⟩ := hin
    rw [if_pos ⟨hd, hq⟩, State.regValue, getLsbD_bitmapWord_set, decide_eq_true hq, Bool.true_and, ← hd]
    by_cases ht : t.q = r.q
    · obtain rfl := (RingId.eq_iff t r).2 ⟨hd, ht⟩
      rw [if_pos rfl, decide_eq_true rfl, Bool.or_true]
    · rw [if_neg fun e => ht (congrArg RingId.q e), decide_eq_false ht, Bool.or_false]
  · rw [if_neg hin, if_neg]
    rintro rfl
    exact hin ⟨rfl, hr⟩

theorem State.clearChIer_regs {s : State} {r : RingId} (hr : r.q.val < s.cfg.nq) (t : RingId) :
    (s.clearBit (.chIer r.dir) r.q).regs t = if t = r then { s.regs r with chIer := false } else s.regs t := by
  refine (State.writeChIer_regs s r.dir _ t).trans ?_
  by_cases hin : t.dir = r.dir ∧ t.q.val < s.cfg.nq
  · obtain ⟨hd, hq⟩ := hin
    rw [if_pos ⟨hd, hq⟩, State.regValue, getLsbD_bitmapWord_clear, decide_eq_true hq, Bool.true_and, ← hd]
    by_cases ht : t.q = r.q
    · obtain rfl := (RingId.eq_iff t r).2 ⟨hd, ht⟩
      rw [if_pos rfl, decide_eq_true rfl, Bool.not_true, Bool.and_false]
    · rw [if_neg fun e => ht (congrArg RingId.q e), decide_eq_false ht, Bool.not_false, Bool.and_true]
  · rw [if_neg hin, if_neg]
    rintro rfl
    exact hin ⟨rfl, hr⟩

theorem State.setChIer_irq (s : State) (r : RingId) (e : Dir) :
    (s.setBit (.chIer r.dir) r.q).irq e = true ↔ s.irq e = true ∨ e = r.dir ∧ ∃ c : Chan, c.val < s.cfg.nq ∧
      ((s.regs ⟨r.dir, c⟩).chIer = true ∨ c = r.q) ∧ (s.regs ⟨r.dir, c⟩).chIsr = true := by
  refine (State.writeChIer_irq s r.dir _ e).trans (or_congr_right (and_congr_right fun _ => exists_congr fun c =>
    and_congr_right fun hc => and_congr_left fun _ => ?_))
  rw [State.regValue, getLsbD_bitmapWord_set]
  simp [hc]

theorem State.clearChIer_irq (s : State) (r : RingId) (e : Dir) :
    (s.clearBit (.chIer r.dir) r.q).irq e = true ↔ s.irq e = true ∨ e = r.dir ∧ ∃ c : Chan, c.val < s.cfg.nq ∧
      ((s.regs ⟨r.dir, c⟩).chIer = true ∧ c ≠ r.q) ∧ (s.regs ⟨r.dir, c⟩).chIsr = true := by
  refine (State.writeChIer_irq s r.dir _ e).trans (or_congr_right (and_congr_right fun _ => exists_congr fun c =>
    and_congr_right fun hc => and_congr_left fun _ => ?_))
  rw [State.regValue, getLsbD_bitmapWord_clear]
  simp [hc]

/-! ### One direction of the commands -/

/-- The registers of a ring whose channel is enabled (R243), and of one whose channel is disabled (R245). -/
def enabledRegs (x : RingRegs) : RingRegs := { runWriteRegs true x with chIer := true }

def disabledRegs (x : RingRegs) : RingRegs := { runWriteRegs false x with chIer := false }

theorem enabledRegs_eq (x : RingRegs) : enabledRegs x =
    if x.resetBusy = true ∨ x.stopPending = true ∨ x.run = true then { x with chIer := true }
    else { x with chIer := true, run := true, tailValid := false, idle := false } := by
  obtain ⟨run, busy, completes, stop⟩ := x
  cases run <;> cases busy <;> cases stop <;> rfl

theorem disabledRegs_eq (x : RingRegs) : disabledRegs x =
    if x.resetBusy = true ∨ x.stopPending = true ∨ x.run = false then { x with chIer := false }
    else { x with chIer := false, run := false, stopPending := true } := by
  obtain ⟨run, busy, completes, stop⟩ := x
  cases run <;> cases busy <;> cases stop <;> rfl

theorem State.chEnableBits_regs {s : State} {r : RingId} (hr : r.q.val < s.cfg.nq) (t : RingId) :
    (s.chEnableBits r).regs t = if t = r then enabledRegs (s.regs r) else s.regs t := by
  have hr' : r.q.val < (s.setBit (.chen r.dir) r.q).cfg.nq := by simpa using hr
  rw [State.chEnableBits, State.setChIer_regs hr', State.setChen_regs hr, if_pos rfl]
  by_cases h : t = r
  · rw [if_pos h, if_pos h]
    rfl
  · rw [if_neg h, if_neg h, State.setChen_regs hr, if_neg h]

theorem State.chDisableBits_regs {s : State} {r : RingId} (hr : r.q.val < s.cfg.nq) (t : RingId) :
    (s.chDisableBits r).regs t = if t = r then disabledRegs (s.regs r) else s.regs t := by
  have hr' : r.q.val < (s.clearBit (.chIer r.dir) r.q).cfg.nq := by simpa using hr
  rw [State.chDisableBits, State.clearChen_regs hr', State.clearChIer_regs hr, if_pos rfl]
  by_cases h : t = r
  · rw [if_pos h, if_pos h, disabledRegs, runWriteRegs_chen, runWriteRegs_chen]
    split
    · rfl
    · split <;> rfl
  · rw [if_neg h, if_neg h, State.clearChIer_regs hr, if_neg h]

theorem State.chEnableBits_irq {s : State} {r : RingId} (hr : r.q.val < s.cfg.nq) (e : Dir) :
    (s.chEnableBits r).irq e = true ↔ s.irq e = true ∨ e = r.dir ∧ ∃ c : Chan, c.val < s.cfg.nq ∧
      ((s.regs ⟨r.dir, c⟩).chIer = true ∨ c = r.q) ∧ (s.regs ⟨r.dir, c⟩).chIsr = true := by
  have hchen (t : RingId) : ((s.setBit (.chen r.dir) r.q).regs t).chIer = (s.regs t).chIer ∧
      ((s.setBit (.chen r.dir) r.q).regs t).chIsr = (s.regs t).chIsr := by
    rw [State.setChen_regs hr]
    split
    · next h => exact h ▸ runWriteRegs_ch true _
    · exact ⟨rfl, rfl⟩
  have hirq : (s.setBit (.chen r.dir) r.q).irq e = s.irq e := rfl
  rw [State.chEnableBits, State.setChIer_irq, hirq]
  simp [hchen]

theorem State.chDisableBits_irq (s : State) (r : RingId) (e : Dir) :
    (s.chDisableBits r).irq e = true ↔ s.irq e = true ∨ e = r.dir ∧ ∃ c : Chan, c.val < s.cfg.nq ∧
      ((s.regs ⟨r.dir, c⟩).chIer = true ∧ c ≠ r.q) ∧ (s.regs ⟨r.dir, c⟩).chIsr = true := by
  have hirq : (s.chDisableBits r).irq e = (s.clearBit (.chIer r.dir) r.q).irq e := rfl
  rw [hirq, State.clearChIer_irq]

theorem State.setChen_frame {s : State} {r : RingId} (hr : r.q.val < s.cfg.nq) :
    Keeps { regs := (· = r) } s (s.setBit (.chen r.dir) r.q) :=
  { State.mapDir_frame s r.dir _ with
    regs := fun t ht => (State.setChen_regs hr t).trans (if_neg ht) }

theorem State.clearChen_frame {s : State} {r : RingId} (hr : r.q.val < s.cfg.nq) :
    Keeps { regs := (· = r) } s (s.clearBit (.chen r.dir) r.q) :=
  { State.mapDir_frame s r.dir _ with
    regs := fun t ht => (State.clearChen_regs hr t).trans (if_neg ht) }

theorem State.setChIer_frame {s : State} {r : RingId} (hr : r.q.val < s.cfg.nq) :
    Keeps { regs := (· = r), irq := (· = r.dir) } s (s.setBit (.chIer r.dir) r.q) :=
  { State.writeChIer_frame s r.dir _ with
    regs := fun t ht => (State.setChIer_regs hr t).trans (if_neg ht) }

theorem State.clearChIer_frame {s : State} {r : RingId} (hr : r.q.val < s.cfg.nq) :
    Keeps { regs := (· = r), irq := (· = r.dir) } s (s.clearBit (.chIer r.dir) r.q) :=
  { State.writeChIer_frame s r.dir _ with
    regs := fun t ht => (State.clearChIer_regs hr t).trans (if_neg ht) }

theorem State.chEnableBits_frame {s : State} {r : RingId} (hr : r.q.val < s.cfg.nq) :
    Keeps { regs := (· = r), irq := (· = r.dir) } s (s.chEnableBits r) :=
  ((State.setChen_frame hr).mono {}).trans (State.setChIer_frame (s := s.setBit (.chen r.dir) r.q) hr)

theorem State.chDisableBits_frame {s : State} {r : RingId} (hr : r.q.val < s.cfg.nq) :
    Keeps { regs := (· = r), irq := (· = r.dir) } s (s.chDisableBits r) :=
  (State.clearChIer_frame hr).trans
    ((State.clearChen_frame (s := s.clearBit (.chIer r.dir) r.q) (by simpa using hr)).mono {})

/-! ### Every direction asked for -/

theorem State.enableDirs_frame (c : Chan) (ds : List Dir) : ∀ {s : State}, c.val < s.cfg.nq →
    Keeps { regs := fun r => r.q = c ∧ r.dir ∈ ds, irq := (· ∈ ds) } s (s.enableDirs c ds) := by
  induction ds with
  | nil => exact fun _ => Keeps.refl _ _
  | cons d ds ih =>
    intro s hc
    have hone := State.chEnableBits_frame (s := s) (r := ⟨d, c⟩) hc
    have hrest := ih (s := s.chEnableBits ⟨d, c⟩) (by simpa using hc)
    exact (hone.mono { regs := by rintro _ rfl; simp }).trans (hrest.mono {
      regs := fun _ h => ⟨h.1, List.mem_cons_of_mem _ h.2⟩
      irq := fun _ h => List.mem_cons_of_mem _ h })

theorem State.disableDirs_frame (c : Chan) (ds : List Dir) : ∀ {s : State}, c.val < s.cfg.nq →
    Keeps { regs := fun r => r.q = c ∧ r.dir ∈ ds, irq := (· ∈ ds) } s (s.disableDirs c ds) := by
  induction ds with
  | nil => exact fun _ => Keeps.refl _ _
  | cons d ds ih =>
    intro s hc
    have hone := State.chDisableBits_frame (s := s) (r := ⟨d, c⟩) hc
    have hrest := ih (s := s.chDisableBits ⟨d, c⟩) (by simpa using hc)
    exact (hone.mono { regs := by rintro _ rfl; simp }).trans (hrest.mono {
      regs := fun _ h => ⟨h.1, List.mem_cons_of_mem _ h.2⟩
      irq := fun _ h => List.mem_cons_of_mem _ h })

/-- Each direction is enabled from its own registers: the directions before it change none of them. -/
theorem State.enableDirs_ring (c : Chan) (ds : List Dir) : ds.Nodup → ∀ {s : State}, c.val < s.cfg.nq → ∀ d ∈ ds,
    (s.enableDirs c ds).regs ⟨d, c⟩ = enabledRegs (s.regs ⟨d, c⟩) ∧
    ((s.enableDirs c ds).irq d = true ↔ (s.chEnableBits ⟨d, c⟩).irq d = true) := by
  induction ds with
  | nil => exact fun _ _ _ d hd => nomatch hd
  | cons e ds ih =>
    intro hnodup s hc d hd
    obtain ⟨he, hds⟩ := List.nodup_cons.1 hnodup
    have hc' : c.val < (s.chEnableBits ⟨e, c⟩).cfg.nq := by simpa using hc
    have hrest := State.enableDirs_frame c ds hc'
    obtain rfl | hin := List.mem_cons.1 hd
    · refine ⟨(hrest.regs ⟨d, c⟩ fun h => he h.2).trans ?_, (Bool.eq_iff_iff).1 (hrest.irq d he)⟩
      rw [State.chEnableBits_regs hc, if_pos rfl]
    · have hne : d ≠ e := fun h => he (h ▸ hin)
      have hone := State.chEnableBits_frame (s := s) (r := ⟨e, c⟩) hc
      have hsame (q : Chan) : (s.chEnableBits ⟨e, c⟩).regs ⟨d, q⟩ = s.regs ⟨d, q⟩ :=
        hone.regs ⟨d, q⟩ fun h => hne (congrArg RingId.dir h)
      obtain ⟨hregs, hirq⟩ := ih hds hc' d hin
      refine ⟨hregs.trans (congrArg enabledRegs (hsame c)), hirq.trans ?_⟩
      rw [State.chEnableBits_irq hc', State.chEnableBits_irq (r := ⟨d, c⟩) hc, hone.irq d hne]
      simp only [hsame, State.chEnableBits_keeps]

theorem State.disableDirs_ring (c : Chan) (ds : List Dir) : ds.Nodup → ∀ {s : State}, c.val < s.cfg.nq → ∀ d ∈ ds,
    (s.disableDirs c ds).regs ⟨d, c⟩ = disabledRegs (s.regs ⟨d, c⟩) ∧
    ((s.disableDirs c ds).irq d = true ↔ (s.chDisableBits ⟨d, c⟩).irq d = true) := by
  induction ds with
  | nil => exact fun _ _ _ d hd => nomatch hd
  | cons e ds ih =>
    intro hnodup s hc d hd
    obtain ⟨he, hds⟩ := List.nodup_cons.1 hnodup
    have hc' : c.val < (s.chDisableBits ⟨e, c⟩).cfg.nq := by simpa using hc
    have hrest := State.disableDirs_frame c ds hc'
    obtain rfl | hin := List.mem_cons.1 hd
    · refine ⟨(hrest.regs ⟨d, c⟩ fun h => he h.2).trans ?_, (Bool.eq_iff_iff).1 (hrest.irq d he)⟩
      rw [State.chDisableBits_regs hc, if_pos rfl]
    · have hne : d ≠ e := fun h => he (h ▸ hin)
      have hone := State.chDisableBits_frame (s := s) (r := ⟨e, c⟩) hc
      have hsame (q : Chan) : (s.chDisableBits ⟨e, c⟩).regs ⟨d, q⟩ = s.regs ⟨d, q⟩ :=
        hone.regs ⟨d, q⟩ fun h => hne (congrArg RingId.dir h)
      obtain ⟨hregs, hirq⟩ := ih hds hc' d hin
      refine ⟨hregs.trans (congrArg disabledRegs (hsame c)), hirq.trans ?_⟩
      rw [State.chDisableBits_irq, State.chDisableBits_irq s ⟨d, c⟩, hone.irq d hne]
      simp only [hsame, State.chDisableBits_keeps]

theorem dirsOf_nodup (dirs : Dirs) : (dirsOf dirs).Nodup := by
  cases dirs <;> decide

/-! ### The commands -/

theorem exec_enableChannel {s : State} (hctl : s.controlBusy = false) (hctx : s.sw.ctxPresent = true)
    (hmc : s.cfg.variant = .mc) {c : Chan} (hc : c.val < s.cfg.nq) (dirs : Dirs) :
    exec (.enableChannel c.val dirs) s =
      if (dirsOf dirs).any fun d => (s.ring ⟨d, c⟩).rstate == .fatal then .next (s.answer 0x21 .fatal)
      else if (dirsOf dirs).any fun d => (s.ring ⟨d, c⟩).rstate != .running then .next (s.answer 0x21 .notReady)
      else .next ((s.enableDirs c (dirsOf dirs)).answer 0x21 .ok) := by
  refine (withControl_off s _ hctl).trans ((withContext_on s _ hctx).trans ?_)
  simp only [State.chan?_of_lt hmc hc]

/-- Settles O45: each direction's two bits, of the ring's own registers, where every ring asked for is `Running`. -/
theorem channelEnabled : Obligations.ChannelEnabled := by
  unfold Obligations.ChannelEnabled
  intro s c n dirs hctx
  refine ⟨fun hctl => withControl_on s _ hctl, fun hctl => ?_⟩
  intro asked
  refine ⟨fun hnone => ?_, fun hmc hc => ?_⟩
  · refine (withControl_off s _ hctl).trans ((withContext_on s _ hctx).trans ?_)
    simp only [State.chan?_none hnone]
  · have hany (p : RState → Bool) : ((dirsOf dirs).any fun d => p (s.ring ⟨d, c⟩).rstate) = true ↔
        ∃ r, asked r ∧ p (s.ring r).rstate = true := by
      rw [List.any_eq_true]
      constructor
      · rintro ⟨d, hd, hp⟩
        exact ⟨⟨d, c⟩, ⟨rfl, hd⟩, hp⟩
      · rintro ⟨⟨d, q⟩, ⟨rfl, hd⟩, hp⟩
        exact ⟨d, hd, hp⟩
    have hfatal := hany fun x => x == .fatal
    have haway := hany fun x => x != .running
    simp only [beq_iff_eq, bne_iff_ne] at hfatal haway
    have hexec := exec_enableChannel hctl hctx hmc hc dirs
    refine ⟨fun h => ?_, fun hnof hno => ?_, fun hall => ?_⟩
    · rw [hexec, if_pos (hfatal.2 h)]
    · rw [hexec, if_neg fun h => ?_, if_pos (haway.2 hno)]
      obtain ⟨r, hr, hf⟩ := hfatal.1 h
      exact hnof r hr hf
    · have hnof : ¬∃ r, asked r ∧ (s.ring r).rstate = .fatal := by
        rintro ⟨r, hr, hf⟩
        exact nomatch hf.symm.trans (hall r hr)
      have hnon : ¬∃ r, asked r ∧ (s.ring r).rstate ≠ .running := by
        rintro ⟨r, hr, hf⟩
        exact hf (hall r hr)
      refine ⟨_, by rw [hexec, if_neg (mt hfatal.1 hnof), if_neg (mt haway.1 hnon)], by simp, ?_, ?_⟩
      · rintro ⟨d, q⟩ ⟨rfl, hd⟩
        obtain ⟨hregs, hirq⟩ := State.enableDirs_ring q (dirsOf dirs) (dirsOf_nodup dirs) hc d hd
        rw [State.answer_regs, State.answer_irq, hregs, hirq, enabledRegs_eq, State.chEnableBits_irq hc]
        refine ⟨rfl, or_congr_right ⟨?_, ?_⟩⟩
        · rintro ⟨-, e, he, hier | rfl, hisr⟩
          · exact Or.inr ⟨e, he, hier, hisr⟩
          · exact Or.inl hisr
        · rintro (hisr | ⟨e, he, hier, hisr⟩)
          · exact ⟨rfl, q, hc, Or.inr rfl, hisr⟩
          · exact ⟨rfl, e, he, Or.inl hier, hisr⟩
      · exact (State.enableDirs_frame c _ hc).comp (State.answer_frame _ _ _) { regs := fun _ h => h } {}

/-- Settles O46: each direction's two bits, of the ring's own registers. -/
theorem channelDisabled : Obligations.ChannelDisabled := by
  unfold Obligations.ChannelDisabled
  intro s c n dirs hctx
  refine ⟨fun hctl => withControl_on s _ hctl, fun hctl => ?_⟩
  intro asked
  refine ⟨fun hnone => ?_, fun hmc hc => ?_⟩
  · refine (withControl_off s _ hctl).trans ((withContext_on s _ hctx).trans ?_)
    simp only [State.chan?_none hnone]
  · refine ⟨(s.disableDirs c (dirsOf dirs)).answer 0x22 .ok, ?_, by simp, ?_, ?_⟩
    · refine (withControl_off s _ hctl).trans ((withContext_on s _ hctx).trans ?_)
      simp only [State.chan?_of_lt hmc hc]
    · rintro ⟨d, q⟩ ⟨rfl, hd⟩
      obtain ⟨hregs, hirq⟩ := State.disableDirs_ring q (dirsOf dirs) (dirsOf_nodup dirs) hc d hd
      rw [State.answer_regs, State.answer_irq, hregs, hirq, disabledRegs_eq, State.chDisableBits_irq]
      refine ⟨rfl, or_congr_right ⟨?_, ?_⟩⟩
      · rintro ⟨-, e, he, ⟨hier, hne⟩, hisr⟩
        exact ⟨e, hne, he, hier, hisr⟩
      · rintro ⟨e, hne, he, hier, hisr⟩
        exact ⟨rfl, e, he, ⟨hier, hne⟩, hisr⟩
    · exact (State.disableDirs_frame c _ hc).comp (State.answer_frame _ _ _) { regs := fun _ h => h } {}

end Sys2Proof.Machine
end

section
/-! SUPPORT. The commands in progress: what resuming one comes to. The first operations of a recovery (R291, R292) and the
first step of `ATTACH` (R420, R422). -/

namespace Sys2Proof.Machine

/-! ### Resuming a command -/

/-- The machine a step of command `k` runs in: the command is not in the list while it takes its step. -/
def State.rest (s : State) (k : Nat) : State := s.setTasks (s.tasks.eraseIdx k)

theorem State.rest_frame (s : State) (k : Nat) : Keeps { tasks := True } s (s.rest k) := by
  constructor <;> simp [State.rest]

theorem State.setTasks_frame (s : State) (ts : List Task) : Keeps { tasks := True } s (s.setTasks ts) := by
  constructor <;> simp

theorem resume_of {s : State} {k : Nat} {x : Task} (h : s.tasks[k]? = some x) :
    resume k s = putBack k (taskStep x (s.rest k)) := by
  simp only [resume, h, State.rest]

theorem set_of_eraseIdx {α : Type} {l : List α} {k : Nat} {x y : α} (h : l[k]? = some x) :
    (l.eraseIdx k).insertIdx k y = l.set k y :=
  List.insertIdx_eraseIdx_self (Nat.ne_of_lt (List.getElem?_eq_some_iff.1 h).1) y

/-- A step after which the command goes on as `y`. -/
theorem resume_more {s t : State} {k : Nat} {x y : Task} (h : s.tasks[k]? = some x)
    (hstep : taskStep x (s.rest k) = .more y t) (ht : t.tasks = s.tasks.eraseIdx k) :
    resume k s = .next (t.setTasks (s.tasks.set k y)) := by
  rw [resume_of h, hstep, putBack, ht, set_of_eraseIdx h]

/-- A step that ends the command. -/
theorem resume_done {s t : State} {k : Nat} {x : Task} (h : s.tasks[k]? = some x)
    (hstep : taskStep x (s.rest k) = .done t) : resume k s = .next t := by
  rw [resume_of h, hstep, putBack]

/-- A step that waits: the command is put back where it was. -/
theorem resume_waits {s : State} {k : Nat} {x : Task} (h : s.tasks[k]? = some x)
    (hstep : taskStep x (s.rest k) = .more x (s.rest k)) : resume k s = .next s := by
  obtain ⟨hk, rfl⟩ := List.getElem?_eq_some_iff.1 h
  rw [resume_more h hstep rfl, List.set_getElem_self]
  rfl

/-- A test of the commands in progress that command `k` does not meet is a test of the others. -/
theorem any_eraseIdx {α : Type} {l : List α} {k : Nat} {x : α} (h : l[k]? = some x) {p : α → Bool} (hx : p x = false) :
    (l.eraseIdx k).any p = l.any p := by
  obtain ⟨hk, rfl⟩ := List.getElem?_eq_some_iff.1 h
  have hperm := List.getElem_cons_eraseIdx_perm hk
  rw [Bool.eq_iff_iff, List.any_eq_true, List.any_eq_true]
  constructor
  · rintro ⟨y, hy, hp⟩
    exact ⟨y, hperm.mem_iff.1 (List.mem_cons_of_mem _ hy), hp⟩
  · rintro ⟨y, hy, hp⟩
    obtain rfl | hin := List.mem_cons.1 (hperm.mem_iff.2 hy)
    · exact absurd hp (by simp [hx])
    · exact ⟨y, hin, hp⟩

theorem follow_cons {f : State → Res} {fs : List (State → Res)} {s t : State} (h : f s = .next t) :
    follow (f :: fs) s = follow fs t := by
  simp only [follow, h]

theorem follow_one {f : State → Res} {s t : State} (h : f s = .next t) : follow [f] s = some t := follow_cons h

/-! ### Operations of a recovery -/

theorem withRState_at {st : RState} {r : RingId} {s : State} (hq : r.q.val < s.cfg.nq) (hc : s.sw.ctxPresent = true)
    (hst : (s.ring r).rstate = st) (k : RingId → Res) : withRState st r.dir r.q.val s k = k r := by
  rw [withRState, withContext_on s _ hc, withRing_dir r s _ hq, if_pos hst]

theorem State.setRing_frame (s : State) (r : RingId) (x : RingSw) : Keeps { rings := (· = r) } s (s.setRing r x) := by
  constructor
  case rings =>
    intro t (h : ¬t = r)
    rw [State.setRing_ring, if_neg h]
  all_goals simp

theorem State.emit_frame (s : State) (x : Event) : Keeps { events := True } s (s.emit x) := by
  constructor <;> simp

/-- The reset request of `RECOVER_BEGIN` (R291): a ring whose reset is busy stays as it is. -/
theorem State.writeCr_crReset_regs (s : State) (r : RingId) : ((s.writeCr r crReset).regs r) =
    if (s.regs r).resetBusy = true then s.regs r
    else { s.regs r with resetBusy := true, resetCompletes := s.drawResetCompletes.1 } := by
  cases hbusy : (s.regs r).resetBusy
  · rw [State.writeCr_reset hbusy rfl]
    simp
  · rw [State.writeCr_busy hbusy]
    simp

theorem State.writeCr_crReset_grant (s : State) (r : RingId) : (s.writeCr r crReset).hw.grant =
    if (s.regs r).resetBusy = false ∧ s.cfg.variant = .mc ∧ r.dir = .tx ∧ s.hw.grant = some r.q then none
    else s.hw.grant := by
  cases hbusy : (s.regs r).resetBusy
  · rw [State.writeCr_reset hbusy rfl]
    simp
  · rw [State.writeCr_busy hbusy]
    simp

/-- A ring whose reset is busy is not halted (R333). -/
theorem srWord_busy {x : RingRegs} (h : x.resetBusy = true) : (srWord x).getLsbD 0 = false := by
  rw [(srWord_bits x).1, h, Bool.not_true, Bool.and_false]

theorem exec_recoverBegin {s : State} {r : RingId} (hq : r.q.val < s.cfg.nq) (hc : s.sw.ctxPresent = true)
    (hst : (s.ring r).rstate = .running) (hp : (s.ring r).recoveryPending = true) :
    exec (.recoverBegin r.dir r.q.val) s = if s.controlBusy then .refused .contextBusy
      else if s.bodyBusy r then .refused .bodyInProgress
      else .next ((s.setRing r ((((s.ring r).become .halting).pending false).polls 0)).writeCr r crReset) := by
  refine (withRState_at hq hc hst _).trans (if_neg ?_)
  simp [hp]

/-- Settles O52: the two waits, else the ring's state and a reset request. -/
theorem recoveryBegins : Obligations.RecoveryBegins := by
  unfold Obligations.RecoveryBegins
  intro s r hq hc hst hp
  have hexec := exec_recoverBegin hq hc hst hp
  refine ⟨fun hctl => by rw [hexec, if_pos hctl], fun hctl hb => ?_, fun hctl hb => ?_⟩
  · rw [hexec, if_neg (by simp [hctl]), if_pos hb]
  · rw [if_neg (by simp [hctl]), if_neg (by simp [hb])] at hexec
    let u := s.setRing r ((((s.ring r).become .halting).pending false).polls 0)
    have hregs : (u.writeCr r crReset).regs r = if (s.regs r).resetBusy = true then s.regs r
        else { s.regs r with resetBusy := true, resetCompletes := u.drawResetCompletes.1 } := by
        simp only [State.writeCr_crReset_regs, u, State.setRing_regs]
    refine ⟨u.writeCr r crReset, u.drawResetCompletes.1, hexec, ?_, hregs, ?_, fun b' bs he => ?_, ?_, ?_⟩
    · simp [u, RingSw.become, RingSw.pending, RingSw.polls]
    · rw [hregs]
      split
      · next h => exact srWord_busy h
      · exact srWord_busy rfl
    · rw [State.drawResetCompletes_cons (s := u) he]
    · exact State.writeCr_crReset_grant u r
    · exact (State.setRing_frame s r _).comp (State.writeCr_frame u r _) {} {}

/-- Settles O53: what `SR` bit 0 shows decides; a poll that fails counts, and the last allowed one is the fault. -/
theorem recoveryPolls : Obligations.RecoveryPolls := by
  unfold Obligations.RecoveryPolls
  intro s r hq hc hst w n seen
  have hexec : exec (.recoverPoll r.dir r.q.val) s =
      if seen then .next (s.setRing r ((s.ring r).become .halted)) else .next (s.pollFailed r) :=
    withRState_at hq hc hst _
  by_cases hseen : seen
  · rw [if_pos hseen] at hexec
    refine ⟨_, hexec, ?_, ?_, (State.setRing_frame s r _).mono {}⟩
    · rw [if_pos hseen, State.setRing_ring, if_pos rfl]
      rfl
    · simp [hseen]
  · rw [if_neg hseen] at hexec
    refine ⟨_, hexec, ?_⟩
    by_cases hlast : s.cfg.resetRetryMax ≤ n
    · rw [State.pollFailed, if_pos hlast, if_neg hseen, if_pos hlast, if_pos ⟨hseen, hlast⟩]
      refine ⟨?_, by simp, (State.setRing_frame s r _).comp (State.emit_frame _ _) {} {}⟩
      rw [State.emit_ring, State.setRing_ring, if_pos rfl]
      rfl
    · rw [State.pollFailed, if_neg hlast, if_neg hseen, if_neg hlast, if_neg fun h => hlast h.2]
      refine ⟨?_, by simp, (State.setRing_frame s r _).mono {}⟩
      rw [State.setRing_ring, if_pos rfl]
      rfl

/-! ### `VALIDATE` and the first step of `ATTACH` -/

theorem within_iff (lo hi n : Nat) : within lo hi n = true ↔ lo ≤ n ∧ n ≤ hi := by
  simp [within]

theorem queueCountOk_iff (c : Config) :
    queueCountOk c = true ↔ match c.variant with | .sq => c.nq = 1 | .mc => 1 ≤ c.nq ∧ c.nq ≤ 16 := by
  unfold queueCountOk
  cases c.variant
  · exact beq_iff_eq
  · exact within_iff 1 16 c.nq

theorem ringSizeOk_iff (x : RingCfg) : ringSizeOk x = true ↔
    2 ≤ x.cap ∧ x.cap ≤ 32768 ∧ 1 ≤ x.thresh ∧ x.thresh ≤ 255 ∧ x.delay ≤ 255 := by
  simp [ringSizeOk, within_iff, and_assoc]

theorem sizeOk_iff (c : Config) : sizeOk c = true ↔
    (∀ r : RingId, r.q.val < c.nq → 2 ≤ (c.ring r).cap ∧ (c.ring r).cap ≤ 32768 ∧ 1 ≤ (c.ring r).thresh ∧
      (c.ring r).thresh ≤ 255 ∧ (c.ring r).delay ≤ 255) ∧
    1 ≤ c.maxFrame ∧ c.maxFrame ≤ 2 ^ 23 - 1 ∧ c.maxFrame ≤ c.rxBufSize ∧ c.rxBufSize ≤ 2 ^ 23 - 1 ∧
      1 ≤ c.resetRetryMax := by
  simp only [sizeOk, Bool.and_eq_true, List.all_eq_true, mem_ringsBelow, ringSizeOk_iff, within_iff, decide_eq_true_eq,
    and_assoc]

theorem weightsOk_iff (c : Config) : weightsOk c = true ↔ (c.variant = .mc →
    (∀ q : Chan, q.val < c.nq → 1 ≤ c.weight q ∧ c.weight q ≤ 15) ∧
    ∀ m, c.weightSumLimit = some m → ((allChans.filter fun q => q.val < c.nq).map c.weight).sum ≤ m) := by
  unfold weightsOk
  cases c.variant
  · simp
  · have hall : ((chansBelow c.nq).all fun q => within 1 15 (c.weight q)) = true ↔
        ∀ q : Chan, q.val < c.nq → 1 ≤ c.weight q ∧ c.weight q ≤ 15 := by
      simp only [List.all_eq_true, mem_chansBelow, within_iff]
    rw [Bool.and_eq_true, hall]
    cases c.weightSumLimit
    · simp
    · simp only [weightSum, chansBelow, forall_const, Option.some.injEq, forall_eq']
      exact and_congr_right fun _ => decide_eq_true_iff

theorem exec_attach {s : State} (hctl : s.controlBusy = false) (c : Config) : exec (.attach c) s =
    if s.sw.ctxPresent || !s.allHalted then .refused .attachNotEnabled
    else match validate c with
      | some e => .next (s.answer 0x01 (.configError e))
      | none => begin (.more (.attach .allocate c) s) := withControl_off s _ hctl

theorem State.allHalted_iff (s : State) : s.allHalted = true ↔ ∀ r, halted (s.regs r) = true := by
  simp only [State.allHalted, List.all_eq_true, mem_ringsBelow]
  exact ⟨fun h r => h r r.q.isLt, fun h r _ => h r⟩

theorem not_true_iff {b : Bool} {P : Prop} (h : b = true ↔ P) : (!b) = true ↔ ¬P := by
  rw [← h, Bool.not_eq_true', Bool.not_eq_true]

/-- Settles O57: the tests of `VALIDATE` one by one, then `ATTACH` begins with a configuration that passes. -/
theorem attachValidates : Obligations.AttachValidates := by
  unfold Obligations.AttachValidates
  refine ⟨fun c => ?_, fun s c hctl => ?_⟩
  · intro count aligned size weight
    have hcount : (!queueCountOk c) = true ↔ ¬count := not_true_iff (queueCountOk_iff c)
    have hsize : (!sizeOk c) = true ↔ ¬size := not_true_iff (sizeOk_iff c)
    have hweight : (!weightsOk c) = true ↔ ¬weight := not_true_iff (weightsOk_iff c)
    unfold validate
    refine ⟨fun h => ?_, fun h1 h => ?_, fun h1 h2 h => ?_, fun h1 h2 h3 h => ?_, fun h1 h2 h3 h4 => ?_⟩
    · rw [if_pos (hcount.2 h)]
    · rw [if_neg (mt hcount.1 (not_not.2 h1)), if_pos h]
    · rw [if_neg (mt hcount.1 (not_not.2 h1)), if_neg (not_not.2 h2), if_pos (hsize.2 h)]
    · rw [if_neg (mt hcount.1 (not_not.2 h1)), if_neg (not_not.2 h2), if_neg (mt hsize.1 (not_not.2 h3)),
        if_pos (hweight.2 h)]
    · rw [if_neg (mt hcount.1 (not_not.2 h1)), if_neg (not_not.2 h2), if_neg (mt hsize.1 (not_not.2 h3)),
        if_neg (mt hweight.1 (not_not.2 h4))]
  · have hexec := exec_attach hctl c
    refine ⟨fun h => ?_, fun hc hh => ?_⟩
    · rw [hexec, if_pos]
      rw [Bool.or_eq_true, Bool.not_eq_true', ← Bool.not_eq_true, State.allHalted_iff]
      refine h.imp_right ?_
      rintro ⟨r, hr⟩ hall
      exact nomatch hr.symm.trans (hall r)
    · rw [hc, (State.allHalted_iff s).2 hh, if_neg (by simp)] at hexec
      refine ⟨fun e he => ?_, fun hnone => ?_⟩
      · rw [hexec, he]
      · rw [hexec, hnone]
        rfl

end Sys2Proof.Machine
end

section
/-! SUPPORT. The interrupt handler (`43_completion_handler.md`): its start, its entry on a ring, and its return. -/

namespace Sys2Proof.Machine

/-! ### Steps of a command that stays in progress -/

/-- The machine in which command `k` goes on as `y`. -/
def State.withTask (s : State) (k : Nat) (y : Task) : State := s.setTasks (s.tasks.set k y)

theorem State.withTask_frame (s : State) (k : Nat) (y : Task) : Keeps { tasks := True } s (s.withTask k y) :=
  State.setTasks_frame s _

theorem State.withTask_task {s : State} {k : Nat} {x : Task} (h : s.tasks[k]? = some x) (y : Task) :
    (s.withTask k y).tasks[k]? = some y := by
  obtain ⟨hk, -⟩ := List.getElem?_eq_some_iff.1 h
  exact List.getElem?_set_self hk

theorem State.withTask_rest (s : State) (k : Nat) (y : Task) : (s.withTask k y).rest k = s.rest k := by
  rw [State.rest, State.rest, State.withTask, State.setTasks_tasks, List.eraseIdx_set_eq]
  rfl

theorem State.withTask_withTask (s : State) (k : Nat) (x y : Task) : (s.withTask k x).withTask k y = s.withTask k y := by
  rw [State.withTask, State.withTask, State.withTask, State.setTasks_tasks, List.set_set]
  rfl

/-- A step that changes nothing but where the command stands. -/
theorem resume_moves {s : State} {k : Nat} {x y : Task} (h : s.tasks[k]? = some x)
    (hstep : taskStep x (s.rest k) = .more y (s.rest k)) : resume k s = .next (s.withTask k y) :=
  resume_more (t := s.rest k) h hstep rfl

/-- The commands in progress where the handler has done with a ring: it goes on with the next channel, or ends. -/
def State.irqLeft (s : State) (k : Nat) (d : Dir) (budget : Nat) (qs : List Chan) : List Task :=
  match qs with
  | [] => s.tasks.eraseIdx k
  | _ :: _ => s.tasks.set k (.irq d budget qs .entry)

theorem resume_irqNext {s t : State} {k : Nat} {x : Task} {d : Dir} {budget : Nat} {qs : List Chan}
    (h : s.tasks[k]? = some x) (hstep : taskStep x (s.rest k) = irqNext d budget qs t)
    (ht : t.tasks = s.tasks.eraseIdx k) : resume k s = .next (t.setTasks (s.irqLeft k d budget qs)) := by
  cases qs with
  | nil =>
    rw [resume_done h hstep, State.irqLeft, ← ht]
    rfl
  | cons q qs => exact resume_more h hstep ht

theorem State.irqLeft_withTask (s : State) (k : Nat) (y : Task) (d : Dir) (budget : Nat) (qs : List Chan) :
    (s.withTask k y).irqLeft k d budget qs = s.irqLeft k d budget qs := by
  cases qs with
  | nil => exact List.eraseIdx_set_eq
  | cons q qs => exact List.set_set ..

/-! ### The start -/

theorem exec_irqService_high {s : State} {d : Dir} (h : s.irq d = true) (budget : Nat) : exec (.irqService d budget) s =
    if s.cfg.variant = .sq ∧ s.irqBusy d = true then .refused .bodyInProgress
    else .next ((s.setIrq d false).addTask (s.irqStart d budget)) := by
  refine if_neg ?_
  simp [h]

theorem State.writeChIcr_frame (s : State) (d : Dir) (v : Word) :
    Keeps { regs := fun r => r.dir = d ∧ r.q.val < s.cfg.nq } s (s.writeChIcr d v) := State.mapDir_frame s d _

/-- The bits of `CH_ISR` and `CH_IER` together: the channels recorded and enabled. -/
theorem served_bit (s : State) (d : Dir) (c : Chan) :
    (s.regValue (.chIsr d) &&& s.regValue (.chIer d)).getLsbD c.val =
      (decide (c.val < s.cfg.nq) && (s.regs ⟨d, c⟩).chIsr && (s.regs ⟨d, c⟩).chIer) := by
  rw [BitVec.getLsbD_and, State.regValue, State.regValue, getLsbD_bitmapWord, getLsbD_bitmapWord]
  cases decide (c.val < s.cfg.nq) <;> simp

/-- Settles O49: the first step lowers the output; in `MC` two reads and the write of `CH_ICR` select the channels. -/
theorem handlerStarts : Obligations.HandlerStarts := by
  unfold Obligations.HandlerStarts
  refine ⟨fun s d budget => ⟨fun hlow => ?_, fun hirq hsq hb => ?_, fun hirq hfree => ?_⟩, fun s k d budget hmc hk => ?_⟩
  · exact if_pos (by simp [hlow])
  · rw [exec_irqService_high hirq, if_pos ⟨hsq, hb⟩]
  · have hno : ¬(s.cfg.variant = .sq ∧ s.irqBusy d = true) := by
      rintro ⟨hsq, hb⟩
      obtain hmc | hnb := hfree
      · exact nomatch hsq.symm.trans hmc
      · exact nomatch hb.symm.trans hnb
    rw [exec_irqService_high hirq, if_neg hno]
    refine ⟨_, rfl, by simp, ?_, ?_⟩
    · rw [State.addTask_tasks, State.setIrq_tasks]
      rfl
    · constructor <;> simp +contextual
  · intro served
    let v := s.regValue (.chIsr d)
    let w := v &&& s.regValue (.chIer d)
    have h1 := resume_moves (y := .irq d budget [] (.readChIer v)) hk rfl
    have hk2 := State.withTask_task hk (.irq d budget [] (.readChIer v))
    have h2 := resume_moves (y := .irq d budget [] (.writeChIcr w)) hk2 rfl
    rw [State.withTask_withTask] at h2
    have hk3 := State.withTask_task hk (.irq d budget [] (.writeChIcr w))
    have h3 := resume_irqNext (t := (s.rest k).writeChIcr d w) (d := d) (budget := budget)
      (qs := allChans.filter served) hk3 (by
        have hserved : (s.rest k).chans.filter (fun c => w.getLsbD c.val) = allChans.filter served := by
          refine List.filter_filter.trans (List.filter_congr fun c _ => ?_)
          change (w.getLsbD c.val && decide (c.val < s.cfg.nq)) = _
          rw [served_bit]
          simp only [served]
          cases decide (c.val < s.cfg.nq) <;> simp
        rw [State.withTask_rest, ← hserved]
        rfl) (by simp [State.rest, State.withTask, List.eraseIdx_set_eq])
    rw [State.irqLeft_withTask] at h3
    refine ⟨_, (follow_cons h1).trans ((follow_cons h2).trans (follow_one h3)), fun c hc => ?_, fun hne => ?_,
      fun hnil => ?_, ?_⟩
    · have hregs := State.mapDir_regs_in (s.rest k) d (fun c x => { x with chIsr := x.chIsr && !w.getLsbD c.val }) hc
      refine hregs.trans ?_
      rw [served_bit, decide_eq_true hc]
      simp only [State.rest, State.setTasks_regs]
      cases (s.regs ⟨d, c⟩).chIsr <;> simp
    · rw [State.setTasks_tasks]
      cases hl : allChans.filter served with
      | nil => exact absurd hl hne
      | cons c cs => exact State.withTask_task hk _
    · rw [State.setTasks_tasks, hnil]
      rfl
    · exact Keeps.after (Keeps.after ((s.rest_frame k).mono {}) (State.writeChIcr_frame _ d w) { regs := fun _ h => h })
        (State.setTasks_frame _ _) {}

/-! ### Entry on a ring -/

theorem isr_read (v : BitVec 3) : (v.setWidth 32).extractLsb' 0 3 = v := by
  revert v
  decide

theorem err_bit (v : BitVec 3) : v &&& 4 ≠ 0 ↔ v.getLsbD 2 = true := by
  revert v
  decide

theorem irqEntry_waits {s : State} {d : Dir} {q : Chan} (h : s.irqBodyBusy ⟨d, q⟩ = true) (budget : Nat)
    (qs : List Chan) : irqEntry d budget q qs s = .more (.irq d budget (q :: qs) .entry) s := if_pos h

theorem irqEntry_free {s : State} {d : Dir} {q : Chan} (h : s.irqBodyBusy ⟨d, q⟩ = false) (budget : Nat)
    (qs : List Chan) : irqEntry d budget q qs s =
      if s.sw.ctxPresent = false ∨ (s.ring ⟨d, q⟩).rstate ≠ .running then irqNext d budget qs s
      else if (s.regs ⟨d, q⟩).isr = 0 then irqNext d budget qs s
      else if (s.regs ⟨d, q⟩).isr.getLsbD 2 = true then .more (.irq d budget qs (.maskIer q)) s
      else .more (.irq d budget qs (.call q (s.regs ⟨d, q⟩).isr)) s := by
  have hisr : (s.regValue (.isr ⟨d, q⟩)).extractLsb' 0 3 = (s.regs ⟨d, q⟩).isr := isr_read _
  unfold irqEntry
  simp only [h, hisr, err_bit, Bool.false_eq_true, if_false, Bool.or_eq_true, Bool.not_eq_true', bne_iff_ne]

theorem irqEntry_skips {s : State} {d : Dir} {q : Chan} (hb : s.irqBodyBusy ⟨d, q⟩ = false)
    (h : s.sw.ctxPresent = false ∨ (s.ring ⟨d, q⟩).rstate ≠ .running ∨ (s.regs ⟨d, q⟩).isr = 0) (budget : Nat)
    (qs : List Chan) : irqEntry d budget q qs s = irqNext d budget qs s := by
  rw [irqEntry_free hb]
  split
  · rfl
  · next hin =>
    rw [if_pos ((h.resolve_left fun hc => hin (Or.inl hc)).resolve_left fun hst => hin (Or.inr hst))]

/-- The ring the handler serves: in service, with a cause. -/
theorem irqEntry_serves {s : State} {d : Dir} {q : Chan} (hb : s.irqBodyBusy ⟨d, q⟩ = false)
    (hc : s.sw.ctxPresent = true) (hst : (s.ring ⟨d, q⟩).rstate = .running) (hne : (s.regs ⟨d, q⟩).isr ≠ 0)
    (budget : Nat) (qs : List Chan) : irqEntry d budget q qs s =
      if (s.regs ⟨d, q⟩).isr.getLsbD 2 = true then .more (.irq d budget qs (.maskIer q)) s
      else .more (.irq d budget qs (.call q (s.regs ⟨d, q⟩).isr)) s := by
  rw [irqEntry_free hb, if_neg (by simp [hc, hst]), if_neg hne]

theorem State.scheduleRecovery_frame (s : State) (r : RingId) :
    Keeps { rings := (· = r), events := True } s (s.scheduleRecovery r) :=
  (State.setRing_frame s r _).comp (State.emit_frame _ _) {} {}

theorem State.scheduleRecovery_ring (s : State) (r : RingId) :
    (s.scheduleRecovery r).ring r = { s.ring r with recoveryPending := true } := by
  rw [State.scheduleRecovery, State.emit_ring, State.setRing_ring, if_pos rfl]
  rfl

theorem State.scheduleRecovery_events (s : State) (r : RingId) :
    (s.scheduleRecovery r).events = s.events ++ [.scheduleRecovery r] := by
  simp [State.scheduleRecovery]

/-- `MASK_RING`'s write of `IER` (R270): no cause is enabled, so none is delivered. -/
theorem State.maskIer_regs {s : State} {r : RingId} (h : (s.regs r).resetBusy = false) :
    (s.writeIer r 0).regs r = { s.regs r with ier := 0 } := by
  rw [State.writeIer_regs_self]
  simp [h]

/-- Settles O50: what `irqEntry` does in each of its cases; the error path is the masks and `schedule_recovery`. -/
theorem handlerOnError : Obligations.HandlerOnError := by
  unfold Obligations.HandlerOnError
  intro s k d budget q qs hq hk r x goesOn
  have hgoes (t : State) (ht : t.tasks = s.irqLeft k d budget qs) : goesOn t := by
    cases qs <;> exact ht
  have hbusy : (s.rest k).irqBodyBusy r = s.irqBodyBusy r := any_eraseIdx hk (by simp [isIrq, taskRing])
  refine ⟨fun hb => resume_waits hk (irqEntry_waits (hbusy.trans hb) budget qs), fun hb => ?_⟩
  have hfree := hbusy.trans hb
  refine ⟨fun haway => ?_, fun hc hst hne hbit => ?_, fun hc hst hbit hnb => ?_⟩
  · have hstep := resume_irqNext hk (irqEntry_skips hfree haway budget qs) rfl
    exact ⟨_, hstep, hgoes _ rfl, (s.rest_frame k).trans (State.setTasks_frame _ _)⟩
  · have hstep := (irqEntry_serves hfree hc hst hne budget qs).trans (if_neg (ne_true_of_eq_false hbit))
    exact ⟨_, resume_moves hk hstep, rfl, State.withTask_frame s k _⟩
  · have hne : (s.regs r).isr ≠ 0 := by
      intro h
      rw [show x.isr = 0 from h] at hbit
      exact nomatch hbit
    have h1 : resume k s = .next (s.withTask k (.irq d budget qs (.maskIer q))) :=
      resume_moves hk ((irqEntry_serves hfree hc hst hne budget qs).trans (if_pos hbit))
    have hk1 := State.withTask_task hk (.irq d budget qs (.maskIer q))
    have hnb' : ((s.rest k).regs r).resetBusy = false := hnb
    cases hv : s.cfg.variant with
    | sq =>
      have hv' : (s.rest k).cfg.variant = .sq := hv
      have h2 := resume_irqNext (t := ((s.rest k).writeIer r 0).scheduleRecovery r) (d := d) (budget := budget) (qs := qs)
        hk1 (by
          rw [State.withTask_rest]
          simp only [taskStep, irqTask, irqMaskIer, hv']
          rfl) (by simp [State.rest, State.withTask, List.eraseIdx_set_eq])
      rw [State.irqLeft_withTask] at h2
      refine ⟨_, (follow_cons h1).trans (follow_one h2), hgoes _ rfl, ?_, ?_, ?_, ?_⟩
      · rw [State.setTasks_regs, (State.scheduleRecovery_frame _ r).regs r id, State.maskIer_regs hnb']
        simp [x, State.rest]
      · rw [State.setTasks_ring, State.scheduleRecovery_ring]
        simp [State.rest]
      · rw [State.setTasks_events, State.scheduleRecovery_events]
        simp [State.rest]
      · exact Keeps.after (Keeps.after (Keeps.after ((s.rest_frame k).mono {}) (State.writeIer_frame _ r 0) {})
          (State.scheduleRecovery_frame _ r) {}) (State.setTasks_frame _ _) {}
    | mc =>
      have hv' : (s.rest k).cfg.variant = .mc := hv
      let u := (s.rest k).writeIer r 0
      have htasks : u.tasks = s.tasks.eraseIdx k := by simp [u, State.rest]
      have h2 := resume_more (t := u) (y := .irq d budget qs (.maskChIer q)) hk1 (by
          rw [State.withTask_rest]
          simp only [taskStep, irqTask, irqMaskIer, hv']
          rfl) (by simp [htasks, State.withTask, List.eraseIdx_set_eq])
      rw [State.withTask, State.setTasks_tasks, List.set_set] at h2
      let u2 := u.setTasks (s.tasks.set k (.irq d budget qs (.maskChIer q)))
      have hk2 : u2.tasks[k]? = some (.irq d budget qs (.maskChIer q)) := State.withTask_task hk _
      have hrest : u2.rest k = u.setTasks (s.tasks.eraseIdx k) :=
        congrArg u.setTasks List.eraseIdx_set_eq
      let u3 := u.setTasks (s.tasks.eraseIdx k)
      have hq3 : r.q.val < u3.cfg.nq := by simpa [u3, u, State.rest] using hq
      have h3 := resume_irqNext (t := (u3.clearBit (.chIer d) q).scheduleRecovery r) (d := d) (budget := budget)
        (qs := qs) hk2 (by
          rw [hrest]
          rfl) (by simp [u3, u2, List.eraseIdx_set_eq])
      have hleft : u2.irqLeft k d budget qs = s.irqLeft k d budget qs := State.irqLeft_withTask s k _ d budget qs
      refine ⟨_, (follow_cons h1).trans ((follow_cons h2).trans (follow_one h3)), hgoes _ hleft, ?_, ?_, ?_, ?_⟩
      · rw [State.setTasks_regs, (State.scheduleRecovery_frame _ r).regs r id]
        refine (State.clearChIer_regs hq3 r).trans ?_
        rw [if_pos rfl, State.setTasks_regs, State.maskIer_regs hnb']
        simp [x, State.rest]
      · rw [State.setTasks_ring, State.scheduleRecovery_ring, (State.clearChIer_frame (r := r) hq3).rings r id]
        simp [u3, u, State.rest]
      · rw [State.setTasks_events, State.scheduleRecovery_events, (State.clearChIer_frame (r := r) hq3).events id]
        simp [u3, u, State.rest]
      · have hframe : Keeps { regs := (· = r), irq := (· = d), tasks := True } s u3 :=
          Keeps.after (Keeps.after ((s.rest_frame k).mono {}) (State.writeIer_frame _ r 0) {}) (State.setTasks_frame _ _) {}
        exact Keeps.after (Keeps.after (Keeps.after (hframe.mono {}) (State.clearChIer_frame (r := r) hq3) {})
          (State.scheduleRecovery_frame _ r) {}) (State.setTasks_frame _ _) {}

end Sys2Proof.Machine
end

section
/-! SUPPORT. The interrupt handler between its entry on a ring and its return (R270, R273, R274, R279). -/

namespace Sys2Proof.Machine

/-! ### The call -/

theorem irqCall_waits {s : State} {d : Dir} {q : Chan} (h : s.bodyBusy ⟨d, q⟩ = true) (budget : Nat) (v : BitVec 3)
    (qs : List Chan) : irqCall d budget q v qs s = .more (.irq d budget qs (.call q v)) s := if_pos h

theorem irqCall_noContext {s : State} {d : Dir} {q : Chan} (h : s.bodyBusy ⟨d, q⟩ = false) (hc : s.sw.ctxPresent = false)
    (budget : Nat) (v : BitVec 3) (qs : List Chan) : irqCall d budget q v qs s = irqNext d budget qs s := by
  unfold irqCall
  simp [h, hc]

/-- The stage after a call that is turned away (R219). -/
def awayStage (d : Dir) (q : Chan) (v : BitVec 3) : IrqStage :=
  match d with
  | .tx => .writeIcr q v
  | .rx => .deliver q v []

theorem irqCall_away {s : State} {d : Dir} {q : Chan} (h : s.bodyBusy ⟨d, q⟩ = false) (hc : s.sw.ctxPresent = true)
    (hst : (s.ring ⟨d, q⟩).rstate ≠ .running) (budget : Nat) (v : BitVec 3) (qs : List Chan) :
    irqCall d budget q v qs s = .more (.irq d budget qs (awayStage d q v)) s := by
  obtain ⟨e, he⟩ := turnedAway_isSome hst
  unfold irqCall
  simp only [h, hc, he, Bool.not_true, Bool.false_eq_true, if_false]
  cases d <;> rfl

/-! ### The causes cleared and enabled again -/

theorem icrWriteRegs_causes {x : RingRegs} (h : x.resetBusy = false) (v : BitVec 3) :
    icrWriteRegs (v.setWidth 32) x = { x with isr := x.isr &&& ~~~v } := by
  rw [icrWriteRegs, if_neg (by simp [h]), isr_read]

theorem State.writeIcr_frame (s : State) (r : RingId) (v : Word) : Keeps { regs := (· = r) } s (s.writeIcr r v) :=
  State.setRegs_frame s r _

/-- What is left to do for a ring: `IER` is read and written with the causes served (R270). -/
theorem irq_enables {s : State} {k : Nat} {d : Dir} {budget : Nat} {q : Chan} {v : BitVec 3} {qs : List Chan}
    (hk : s.tasks[k]? = some (.irq d budget qs (.readIer q v))) (hb : (s.regs ⟨d, q⟩).resetBusy = false) :
    let r : RingId := ⟨d, q⟩
    let x := s.regs r
    ∃ t, follow [resume k, resume k] s = some t ∧
      t.regs r = { x with
        ier := (x.ier ||| v) &&& ~~~x.isr
        chIsr := x.chIsr || (s.cfg.variant == .mc && (x.ier ||| v) &&& x.isr != 0) } ∧
      t.irq d = (s.irq d || (((x.ier ||| v) &&& x.isr != 0) && (s.cfg.variant == .sq || x.chIer))) ∧
      t.tasks = s.irqLeft k d budget qs ∧ Keeps { regs := (· = r), irq := (· = d), tasks := True } s t := by
  intro r x
  have hread : ((s.rest k).regValue (.ier r)).extractLsb' 0 3 = x.ier := isr_read _
  have h1 : resume k s = .next (s.withTask k (.irq d budget qs (.writeIer q v x.ier))) :=
    resume_moves hk (by simp only [taskStep, irqTask, ← hread]; rfl)
  have hk1 := State.withTask_task hk (.irq d budget qs (.writeIer q v x.ier))
  have h2 := resume_irqNext (t := (s.rest k).writeIer r (x.ier ||| v)) (d := d) (budget := budget) (qs := qs) hk1 (by
    rw [State.withTask_rest]
    simp only [taskStep, irqTask, State.regWrite, isr_read]
    rfl) (by simp [State.rest, State.withTask, List.eraseIdx_set_eq])
  rw [State.irqLeft_withTask] at h2
  have hb' : (x.resetBusy = true) = False := by simp [x, r, hb]
  refine ⟨_, (follow_cons h1).trans (follow_one h2), ?_, ?_, rfl, ?_⟩
  · rw [State.setTasks_regs, State.writeIer_regs_self]
    simp only [State.rest, State.setTasks_regs, State.setTasks_cfg]
    exact if_neg (by simp [hb', x])
  · rw [State.setTasks_irq, State.writeIer_irq]
    simp [State.rest, r, x, hb]
  · exact Keeps.after (Keeps.after ((s.rest_frame k).mono {}) (State.writeIer_frame _ r _) {})
      (State.setTasks_frame _ _) {}

/-- Settles O51: the call waits or ends, the frames go upward, and the causes served are cleared and enabled again. -/
theorem handlerReturns : Obligations.HandlerReturns := by
  unfold Obligations.HandlerReturns
  intro s k d budget q v qs r x goesOn others
  have hgoes (t : State) (ht : t.tasks = s.irqLeft k d budget qs) : goesOn t := by
    cases qs <;> exact ht
  refine ⟨fun hk => ⟨fun hb => ?_, fun hb hc => ?_, fun hb hc hst => ?_⟩, fun fs hk => ?_, fun steps left hcase hnb => ?_⟩
  · exact resume_waits hk (irqCall_waits (s := s.rest k) hb budget v qs)
  · have hstep := resume_irqNext hk (irqCall_noContext (s := s.rest k) hb hc budget v qs) rfl
    exact ⟨_, hstep, hgoes _ rfl, (s.rest_frame k).trans (State.setTasks_frame _ _)⟩
  · refine ⟨_, resume_moves hk (irqCall_away (s := s.rest k) hb hc hst budget v qs), State.withTask_frame s k _, ?_⟩
    cases d <;> rfl
  · intro more
    let u := (s.rest k).emits (fs.map (Event.rxDeliver q))
    have hmore : ((u.ring r).present && cmpltOf (u.statusD r (u.ring r).completion)) = true ↔ more := by
      rw [Bool.and_eq_true]
      rfl
    have hframe : Keeps { events := True, tasks := True } s u := by
      constructor <;> simp [u, State.rest]
    have hevents : u.events = s.events ++ fs.map (Event.rxDeliver q) := by simp [u, State.rest]
    have htasks : u.tasks = s.tasks.eraseIdx k := by simp [u, State.rest]
    have hstep : taskStep (.irq d budget qs (.deliver q v fs)) (s.rest k) =
        if more then .more (.irq d budget qs (.readIer q v)) u else .more (.irq d budget qs (.writeIcr q v)) u := by
      refine Eq.trans (b := if ((u.ring r).present && cmpltOf (u.statusD r (u.ring r).completion)) = true then
        TaskRes.more (.irq d budget qs (.readIer q v)) u else .more (.irq d budget qs (.writeIcr q v)) u) rfl ?_
      by_cases h : more
      · rw [if_pos h, if_pos (hmore.2 h)]
      · rw [if_neg h, if_neg (mt hmore.1 h)]
    by_cases h : more
    · rw [if_pos h] at hstep ⊢
      exact ⟨_, resume_more hk hstep htasks, hevents, rfl, hframe.after (State.setTasks_frame _ _) {}⟩
    · rw [if_neg h] at hstep ⊢
      exact ⟨_, resume_more hk hstep htasks, hevents, rfl, hframe.after (State.setTasks_frame _ _) {}⟩
  · obtain ⟨hk, rfl, rfl⟩ | ⟨hk, rfl, rfl⟩ := hcase
    · let u := ((s.rest k).writeIcr r (v.setWidth 32)).setTasks (s.tasks.set k (.irq d budget qs (.readIer q v)))
      have h1 : resume k s = .next u := resume_more (t := (s.rest k).writeIcr r (v.setWidth 32)) hk rfl rfl
      have hku : u.tasks[k]? = some (.irq d budget qs (.readIer q v)) := State.withTask_task hk _
      have hregs : u.regs r = { x with isr := x.isr &&& ~~~v } := by
        rw [State.setTasks_regs, State.writeIcr_regs_self, icrWriteRegs_causes (by simpa [State.rest, x] using hnb)]
        simp [State.rest, x]
      have hnb' : (u.regs r).resetBusy = false := by rw [hregs]; exact hnb
      have hframe : Keeps { regs := (· = r), irq := (· = d), tasks := True } s u :=
        Keeps.after (Keeps.after ((s.rest_frame k).mono {}) (State.writeIcr_frame _ r _) {}) (State.setTasks_frame _ _) {}
      obtain ⟨t, hfollow, ht, hirq, htasks, hkeep⟩ := irq_enables hku hnb'
      rw [show (⟨d, q⟩ : RingId) = r from rfl, hregs] at ht hirq
      refine ⟨t, (follow_cons h1).trans hfollow, ht, ?_, ?_, hframe.trans hkeep⟩
      · rw [hirq]
        simp [u, State.rest]
      · refine hgoes t (htasks.trans ?_)
        exact State.irqLeft_withTask s k _ d budget qs
    · obtain ⟨t, hfollow, ht, hirq, htasks, hkeep⟩ := irq_enables hk hnb
      exact ⟨t, hfollow, ht, hirq, hgoes t htasks, hkeep⟩

end Sys2Proof.Machine
end

section
/-! SUPPORT. The pools (`40_descriptor_pool.md`): `RESET_RING` (R193) and `ALLOCATE` (R190). -/

namespace Sys2Proof.Machine

/-! ### Bytes of a pool -/

theorem within32_iff (b a : Word) (n : Nat) : within32 a b n ↔ (a - b).toNat < n := Iff.rfl

/-- The byte at offset `k` of slot `i`. -/
theorem slot_byte_offset (b : Word) {i k n : Nat} (hn : 64 * n ≤ 2 ^ 32) (hi : i < n) (hk : k < 64) :
    (daddr b i + BitVec.ofNat 32 k - b).toNat = 64 * i + k := by
  rw [daddr_off, BitVec.add_comm, BitVec.add_sub_cancel, BitVec.toNat_ofNat, Nat.mod_eq_of_lt (by omega)]

/-- Where a byte of a descriptor word lies, counted from the base of the pool. -/
theorem State.inWord_offset {s : State} {r : RingId} {i off : Nat} {a : Word} (hn : 64 * (s.ring r).cap ≤ 2 ^ 32)
    (hi : i < (s.ring r).cap) (ho : wordOff off) (h : s.inWord r i off a) :
    64 * i + off ≤ (a - (s.ring r).base).toNat ∧ (a - (s.ring r).base).toNat < 64 * i + off + 4 := by
  obtain ⟨h4, ho⟩ := ho
  have hstart := slot_byte_offset (s.ring r).base hn hi ho
  unfold State.inWord State.slotAddr at h
  rw [within32_iff] at h
  generalize daddr (s.ring r).base i + BitVec.ofNat 32 off = w at h hstart
  have hsplit : a - (s.ring r).base = (a - w) + (w - (s.ring r).base) := by ring
  rw [hsplit, BitVec.toNat_add, hstart, Nat.mod_eq_of_lt (by omega)]
  omega

theorem wordOff_chain (v : Variant) {off : Nat} (h : off ∈ [nextOff, statusOff v]) : wordOff off := by
  simp only [List.mem_cons, List.not_mem_nil, or_false] at h
  obtain rfl | rfl := h
  · decide
  · exact wordOff_status v

/-- A byte of a descriptor word lies in the pool. -/
theorem State.inWord_pool {s : State} {r : RingId} {i off : Nat} {a : Word} (hn : 64 * (s.ring r).cap ≤ 2 ^ 32)
    (hi : i < (s.ring r).cap) (ho : wordOff off) (h : s.inWord r i off a) :
    within32 a (s.ring r).base (64 * (s.ring r).cap) := by
  have hoff := State.inWord_offset hn hi ho h
  obtain ⟨h4, ho⟩ := ho
  rw [within32_iff]
  omega

/-! ### `RESET_RING` -/

theorem resetRing_frame (s : State) (r : RingId) (hn : 64 * (s.ring r).cap ≤ 2 ^ 32) :
    Keeps { rings := (· = r), fences := (· = r),
            bytes := fun a => ∃ i, i < (s.ring r).cap ∧ s.inWords r i [0x00, statusOff s.cfg.variant] a }
      s (s.resetRing r) := by
  constructor
  case rings => exact fun t h => resetRing_ring_ne s r t h
  case fences =>
    intro t (h : ¬t = r)
    rw [resetRing_unfenced, if_neg h]
  case bytes => exact fun a h => resetRing_bytes s r hn fun i hi hw => h ⟨i, hi, hw⟩
  all_goals simp

/-- Settles O32: the loop writes the two words of every slot, then the cursors are zeroed and a `WMB` is owed. -/
theorem resetRingRelinks : Obligations.ResetRingRelinks := by
  unfold Obligations.ResetRingRelinks
  intro s r hp hf hh
  obtain ⟨-, -, -, hn, -⟩ := hp.facts
  refine ⟨s.resetRing r, exec_resetRing hp hf hh, resetRing_ring s r, ?_, fun i hi => resetRing_words s r hn hi,
    resetRing_frame s r hn⟩
  rw [resetRing_unfenced, if_pos rfl]

/-! ### `ALLOCATE` -/

/-- The machine with the block at `b` zeroed and recorded as the pool of ring `r`, before it is linked. -/
def State.zeroPool (s : State) (r : RingId) (n : Nat) (b : Word) : State :=
  (s.setMem (memPutBytes s.mem b (List.replicate (64 * n) 0))).setRing r ((s.ring r).pool b n)

theorem makePool_eq (s : State) (r : RingId) (n : Nat) (b : Word) : s.makePool r n b = (s.zeroPool r n b).resetRing r :=
  rfl

theorem State.zeroPool_ring (s : State) (r : RingId) (n : Nat) (b : Word) :
    (s.zeroPool r n b).ring r = (s.ring r).pool b n := by
  rw [State.zeroPool, State.setRing_ring, if_pos rfl]

theorem State.zeroPool_mem (s : State) (r : RingId) (n : Nat) (b : Word) :
    (s.zeroPool r n b).mem = memPutBytes s.mem b (List.replicate (64 * n) 0) := by
  rw [State.zeroPool, State.setRing_mem, State.setMem_mem]

theorem State.zeroPool_byte_in (s : State) (r : RingId) {n : Nat} {b a : Word} (hn : 64 * n ≤ 2 ^ 32)
    (h : within32 a b (64 * n)) : memByte (s.zeroPool r n b).mem a = 0 := by
  rw [State.zeroPool_mem, memByte_memPutBytes _ _ _ _ (by rwa [List.length_replicate]), List.getElem?_replicate,
    if_pos ((within32_iff ..).1 h)]
  rfl

theorem State.zeroPool_byte_out (s : State) (r : RingId) {n : Nat} {b a : Word} (hn : 64 * n ≤ 2 ^ 32)
    (h : ¬within32 a b (64 * n)) : memByte (s.zeroPool r n b).mem a = memByte s.mem a := by
  rw [State.zeroPool_mem]
  exact memByte_memPutBytes_out _ _ _ (by rwa [List.length_replicate]) (by rwa [List.length_replicate])

/-- Every byte of the new pool is 0 but those of the chain words: the status words are zeroed again, no other is written. -/
theorem makePool_byte_zero (s : State) (r : RingId) {n : Nat} {b : Word} (hn : 64 * n ≤ 2 ^ 32) {i k : Nat} (hi : i < n)
    (h4 : 4 ≤ k) (hk : k < 64) : memByte (s.makePool r n b).mem (daddr b i + BitVec.ofNat 32 k) = 0 := by
  have hring := State.zeroPool_ring s r n b
  have hcap : ((s.zeroPool r n b).ring r).cap = n := by rw [hring]; rfl
  have hbase : ((s.zeroPool r n b).ring r).base = b := by rw [hring]; rfl
  have hn' : 64 * ((s.zeroPool r n b).ring r).cap ≤ 2 ^ 32 := by rwa [hcap]
  have hoff := slot_byte_offset b hn hi hk
  have hzero : memByte (s.zeroPool r n b).mem (daddr b i + BitVec.ofNat 32 k) = 0 :=
    State.zeroPool_byte_in s r hn (by rw [within32_iff]; omega)
  rw [makePool_eq, ← hzero]
  by_cases hw : ∃ j, j < n ∧ (s.zeroPool r n b).inWord r j (statusOff (s.zeroPool r n b).cfg.variant)
      (daddr b i + BitVec.ofNat 32 k)
  · obtain ⟨j, hj, hw⟩ := hw
    have hj' : j < ((s.zeroPool r n b).ring r).cap := by rwa [hcap]
    refine memByte_of_memWord ?_ hw
    have hst := (resetRing_words (s.zeroPool r n b) r hn' hj').2
    rw [State.getD, resetRing_slotAddr] at hst
    rw [hst]
    have hall : ∀ x, within32 x ((s.zeroPool r n b).slotAddr r j (statusOff (s.zeroPool r n b).cfg.variant)) 4 →
        memByte (s.zeroPool r n b).mem x = 0 := by
      intro x hx
      have hpool := State.inWord_pool hn' hj' (wordOff_status _) hx
      rw [hcap, hbase] at hpool
      exact State.zeroPool_byte_in s r hn hpool
    unfold memWord
    rw [hall _ (by rw [within32_iff]; bv_omega), hall _ (by rw [within32_iff]; bv_omega),
      hall _ (by rw [within32_iff]; bv_omega), hall _ (by rw [within32_iff]; bv_omega)]
    rfl
  · refine resetRing_bytes _ r hn' fun j hj hw' => hw ⟨j, by rwa [hcap] at hj, ?_⟩
    obtain ⟨off, hin, hoffw⟩ := hw'
    simp only [List.mem_cons, List.not_mem_nil, or_false] at hin
    obtain rfl | rfl := hin
    · have hplace := State.inWord_offset hn' hj (by decide) hoffw
      rw [hbase, hoff] at hplace
      simp only [nextOff] at hplace
      omega
    · exact hoffw

theorem makePool_frame (s : State) (r : RingId) {n : Nat} (b : Word) (hn : 64 * n ≤ 2 ^ 32) :
    Keeps { rings := (· = r), fences := (· = r), bytes := fun a => within32 a b (64 * n) } s (s.makePool r n b) := by
  have hring := State.zeroPool_ring s r n b
  have hcap : ((s.zeroPool r n b).ring r).cap = n := by rw [hring]; rfl
  have hbase : ((s.zeroPool r n b).ring r).base = b := by rw [hring]; rfl
  have hn' : 64 * ((s.zeroPool r n b).ring r).cap ≤ 2 ^ 32 := by rwa [hcap]
  have hzero : Keeps { rings := (· = r), fences := (· = r), bytes := fun a => within32 a b (64 * n) } s
      (s.zeroPool r n b) := by
    constructor
    case rings =>
      intro t (h : ¬t = r)
      rw [State.zeroPool, State.setRing_ring, if_neg h, State.setMem_ring]
    case bytes => exact fun a h => State.zeroPool_byte_out s r hn h
    all_goals simp [State.zeroPool]
  refine hzero.after (resetRing_frame _ r hn') { bytes := fun a h => ?_ }
  obtain ⟨i, hi, off, hoff, ha⟩ := h
  have hpool := State.inWord_pool hn' hi (wordOff_chain _ hoff) ha
  rwa [hcap, hbase] at hpool

theorem makePool_words (s : State) (r : RingId) {n : Nat} (b : Word) (hn : 64 * n ≤ 2 ^ 32) {i : Nat} (hi : i < n) :
    (s.makePool r n b).getD r i nextOff = daddr b (incMod n i) ∧
      (s.makePool r n b).getD r i (statusOff s.cfg.variant) = 0 := by
  have hring := State.zeroPool_ring s r n b
  have hwords := resetRing_words (s.zeroPool r n b) r (i := i)
  rw [hring] at hwords
  exact hwords hn hi

theorem State.drawAlloc_cons {s : State} {o : Option Word} {rest : List (Option Word)} (h : s.env.allocs = o :: rest) :
    s.drawAlloc = (o, { s with env := { s.env with allocs := rest } }) := by
  simp only [State.drawAlloc, h]

/-- The machine after a block has been asked for. -/
def State.afterAlloc (s : State) (rest : List (Option Word)) : State :=
  { s with env := { s.env with allocs := rest } }

theorem State.afterAlloc_frame (s : State) (rest : List (Option Word)) :
    Keeps { env := True } s (s.afterAlloc rest) := by
  constructor
  case env => simp
  case credits => exact fun _ => ⟨fun _ => rfl, rfl⟩
  case context => exact fun _ => ⟨rfl, rfl, rfl, rfl, rfl⟩
  all_goals
    intros
    rfl

theorem State.allocate_draws {s : State} {r : RingId} {n : Nat} (h2 : 2 ≤ n) (hn : n ≤ 32768)
    (hp : (s.ring r).present = false) (hh : halted (s.regs r) = true) : s.allocate r n =
      match s.drawAlloc with
      | (none, t) => .outOfMemory t
      | (some b, t) => if blockOk b n then .ok (t.makePool r n b) else .alignment t := by
  have hsize : ¬(decide (n < 2) || decide (32768 < n)) = true := by
    simp only [Bool.or_eq_true, decide_eq_true_eq]
    omega
  unfold State.allocate
  rw [if_neg hsize, if_neg (by simp [hp]), if_neg (by simp [hh])]
  obtain ⟨_ | _, _⟩ := s.drawAlloc <;> rfl

theorem State.allocate_none {s : State} {r : RingId} {n : Nat} (h2 : 2 ≤ n) (hn : n ≤ 32768)
    (hp : (s.ring r).present = false) (hh : halted (s.regs r) = true) {rest : List (Option Word)}
    (he : s.env.allocs = none :: rest) : s.allocate r n = .outOfMemory (s.afterAlloc rest) := by
  rw [State.allocate_draws h2 hn hp hh, State.drawAlloc_cons he]
  rfl

theorem State.allocate_some {s : State} {r : RingId} {n : Nat} (h2 : 2 ≤ n) (hn : n ≤ 32768)
    (hp : (s.ring r).present = false) (hh : halted (s.regs r) = true) {b : Word} {rest : List (Option Word)}
    (he : s.env.allocs = some b :: rest) : s.allocate r n =
      if blockOk b n then .ok ((s.afterAlloc rest).makePool r n b) else .alignment (s.afterAlloc rest) := by
  rw [State.allocate_draws h2 hn hp hh, State.drawAlloc_cons he]
  rfl

theorem blockOk_iff (b : Word) (n : Nat) : blockOk b n = true ↔ b.toNat % 64 = 0 ∧ b.toNat + 64 * n ≤ 2 ^ 32 := by
  simp [blockOk]

/-- Settles O31: the size is tested first, then the ring; the block drawn is the pool where it fits. -/
theorem allocateOutcomes : Obligations.AllocateOutcomes := by
  unfold Obligations.AllocateOutcomes
  refine ⟨fun s r n b rest hq hf hp hh h2 hn he hal htop => ?_, fun s r n hq hf => ⟨fun hsize => ?_,
    fun h2 hn hp => ?_, fun h2 hn hp hh => ?_, fun rest h2 hn hp hh he => ?_, fun b rest h2 hn hp hh he hbad => ?_⟩⟩
  · have hn' : 64 * n ≤ 2 ^ 32 := by omega
    have hexec : exec (.allocate r.dir r.q.val n) s =
        .next (((s.afterAlloc rest).makePool r n b).answer 0x03 (.okRing r)) := by
      refine (exec_freeRing hq hf).trans ?_
      simp only [State.allocate_some h2 hn hp hh he, (blockOk_iff b n).2 ⟨hal, htop⟩, if_true]
    refine ⟨_, hexec, by simp [State.afterAlloc], ?_, ?_, fun i hi => (makePool_words _ r b hn' hi).1,
      fun i k hi h4 hk => makePool_byte_zero _ r hn' hi h4 hk, ?_, ?_⟩
    · rw [State.answer_ring, makePool_ring]
      rfl
    · rw [State.answer_unfenced, makePool_eq, resetRing_unfenced, if_pos rfl]
    · simp [State.afterAlloc]
    · exact Keeps.after (Keeps.after ((State.afterAlloc_frame s rest).mono {}) (makePool_frame _ r b hn') {})
        (State.answer_frame _ _ _) {}
  · refine (exec_freeRing hq hf).trans ?_
    have hal : s.allocate r n = .size := if_pos (by simpa using hsize)
    simp only [hal]
  · refine (exec_freeRing hq hf).trans ?_
    have hal : s.allocate r n = .present := by
      unfold State.allocate
      rw [if_neg (by simp only [Bool.or_eq_true, decide_eq_true_eq]; omega), if_pos hp]
    simp only [hal]
  · refine (exec_freeRing hq hf).trans ?_
    have hal : s.allocate r n = .running := by
      unfold State.allocate
      rw [if_neg (by simp only [Bool.or_eq_true, decide_eq_true_eq]; omega), if_neg (by simp [hp]), if_pos (by simp [hh])]
    simp only [hal]
  · refine (exec_freeRing hq hf).trans ?_
    simp only [State.allocate_none h2 hn hp hh he]
    rfl
  · refine (exec_freeRing hq hf).trans ?_
    have hno : ¬blockOk b n = true := by
      rw [blockOk_iff]
      omega
    simp only [State.allocate_some h2 hn hp hh he, hno]
    rfl

end Sys2Proof.Machine
end

section
/-! SUPPORT. Stores of several words of one descriptor, and what they leave of the rest of the memory. -/

namespace Sys2Proof.Machine

/-! ### Slots of a pool -/

/-- Slot `i` belongs to the pool of ring `r`, whose bytes are at different addresses. -/
structure State.HasSlot (s : State) (r : RingId) (i : Nat) : Prop where
  fits : 64 * (s.ring r).cap ≤ 2 ^ 32
  lt : i < (s.ring r).cap

theorem State.HasPool.slot {s : State} {r : RingId} (h : s.HasPool r) {i : Nat} (hi : i < (s.ring r).cap) :
    s.HasSlot r i := by
  obtain ⟨-, -, -, hfits, -⟩ := h.facts
  exact ⟨hfits, hi⟩

theorem State.HasSlot.congr {s t : State} {r : RingId} {i : Nat} (h : s.HasSlot r i)
    (hc : (t.ring r).cap = (s.ring r).cap) : t.HasSlot r i := ⟨hc ▸ h.fits, hc ▸ h.lt⟩

/-- A byte of one word of a pool is none of another slot's words, and none of another word of its slot. -/
theorem State.not_inWords {s : State} {r : RingId} {i j p : Nat} {offs : List Nat} {a : Word} (hi : s.HasSlot r i)
    (hj : s.HasSlot r j) (hp : wordOff p) (hoffs : ∀ o ∈ offs, wordOff o) (hne : i ≠ j ∨ p ∉ offs)
    (ha : s.inWord r j p a) : ¬s.inWords r i offs a := by
  rintro ⟨o, ho, hin⟩
  have h1 := State.inWord_offset hj.fits hj.lt hp ha
  have h2 := State.inWord_offset hi.fits hi.lt (hoffs o ho) hin
  have hop : i ≠ j ∨ p ≠ o := hne.imp_right fun h e => h (e ▸ ho)
  obtain ⟨hp4, hp⟩ := hp
  obtain ⟨ho4, ho'⟩ := hoffs o ho
  omega

/-- A word of a pool that holds its bytes holds its value. -/
theorem State.getD_congr {s t : State} {r : RingId} {j p : Nat} (hb : (t.ring r).base = (s.ring r).base)
    (h : ∀ a, s.inWord r j p a → memByte t.mem a = memByte s.mem a) : t.getD r j p = s.getD r j p := by
  unfold State.getD State.slotAddr
  rw [hb]
  exact memWord_congr h

theorem State.inWords_congr {s t : State} {r : RingId} (hb : (t.ring r).base = (s.ring r).base) (i : Nat)
    (offs : List Nat) (a : Word) : t.inWords r i offs a ↔ s.inWords r i offs a := by
  unfold State.inWords State.inWord State.slotAddr
  rw [hb]

/-! ### Several words of one slot -/

/-- The stores of the words `ws` of descriptor `i`, given with their offsets. -/
def State.putWords (s : State) (r : RingId) (i : Nat) (ws : List (Nat × Word)) : State :=
  ws.foldl (fun t w => t.putD r i w.1 w.2) s

theorem State.putWords_cons (s : State) (r : RingId) (i o : Nat) (v : Word) (ws : List (Nat × Word)) :
    s.putWords r i ((o, v) :: ws) = (s.putD r i o v).putWords r i ws := rfl

/-- They change memory alone. -/
theorem State.putWords_eq (s : State) (r : RingId) (i : Nat) (ws : List (Nat × Word)) :
    s.putWords r i ws = s.setMem (s.putWords r i ws).mem := by
  induction ws generalizing s with
  | nil => rfl
  | cons w ws ih =>
    obtain ⟨o, v⟩ := w
    rw [State.putWords_cons, ih (s.putD r i o v)]
    rfl

theorem State.putWords_ring (s : State) (r : RingId) (i : Nat) (ws : List (Nat × Word)) (t : RingId) :
    (s.putWords r i ws).ring t = s.ring t := by
  rw [State.putWords_eq, State.setMem_ring]

theorem State.putWords_bytes (r : RingId) (i : Nat) (ws : List (Nat × Word)) : ∀ {s : State} {a : Word},
    ¬s.inWords r i (ws.map Prod.fst) a → memByte (s.putWords r i ws).mem a = memByte s.mem a := by
  induction ws with
  | nil => exact fun _ => rfl
  | cons w ws ih =>
    intro s a h
    obtain ⟨o, v⟩ := w
    rw [State.putWords_cons, ih, State.memByte_putD]
    · exact fun ha => h ⟨o, List.mem_cons_self, ha⟩
    · rintro ⟨p, hp, ha⟩
      rw [State.inWord, State.putD_slotAddr] at ha
      exact h ⟨p, List.mem_cons_of_mem _ hp, ha⟩

/-- What they leave in memory depends on memory and the place of the pool alone. -/
theorem State.putWords_mem_congr (r : RingId) (i : Nat) (ws : List (Nat × Word)) : ∀ {s t : State}, t.mem = s.mem →
    (t.ring r).base = (s.ring r).base → (t.putWords r i ws).mem = (s.putWords r i ws).mem := by
  induction ws with
  | nil => exact fun h _ => h
  | cons w ws ih =>
    intro s t hm hb
    obtain ⟨o, v⟩ := w
    rw [State.putWords_cons, State.putWords_cons]
    refine ih ?_ (by simpa using hb)
    rw [State.putD, State.putD, State.setMem_mem, State.setMem_mem, State.slotAddr, State.slotAddr, hm, hb]

theorem State.putWords_frame (s : State) (r : RingId) (i : Nat) (ws : List (Nat × Word)) :
    Keeps { bytes := s.inWords r i (ws.map Prod.fst) } s (s.putWords r i ws) := by
  constructor
  case bytes => exact fun a h => State.putWords_bytes r i ws h
  all_goals
    rw [State.putWords_eq]
    simp

/-- A word that is not stored is as before. -/
theorem State.putWords_getD_ne {s : State} {r : RingId} {i j p : Nat} (hi : s.HasSlot r i) (hj : s.HasSlot r j)
    {ws : List (Nat × Word)} (hws : ∀ o ∈ ws.map Prod.fst, wordOff o) (hp : wordOff p)
    (hne : i ≠ j ∨ p ∉ ws.map Prod.fst) : (s.putWords r i ws).getD r j p = s.getD r j p :=
  State.getD_congr (by rw [State.putWords_ring])
    fun _ ha => State.putWords_bytes r i ws (State.not_inWords hi hj hp hws hne ha)

/-- A word that is stored once holds its value. -/
theorem State.putWords_getD_mem {r : RingId} {i : Nat} {ws : List (Nat × Word)} : ∀ {s : State}, s.HasSlot r i →
    (∀ o ∈ ws.map Prod.fst, wordOff o) → (ws.map Prod.fst).Nodup → ∀ {o : Nat} {v : Word}, (o, v) ∈ ws →
    (s.putWords r i ws).getD r i o = v := by
  induction ws with
  | nil => exact fun _ _ _ _ _ h => nomatch h
  | cons w ws ih =>
    intro s hi hws hnodup o v hin
    obtain ⟨o', v'⟩ := w
    obtain ⟨hfresh, hnodup⟩ := List.nodup_cons.1 hnodup
    have hi' : (s.putD r i o' v').HasSlot r i := hi.congr (by rw [State.putD_ring])
    have hws' : ∀ p ∈ ws.map Prod.fst, wordOff p := fun p hp => hws p (List.mem_cons_of_mem _ hp)
    rw [State.putWords_cons]
    obtain heq | hin := List.mem_cons.1 hin
    · obtain ⟨rfl, rfl⟩ := Prod.mk.inj heq
      rw [State.putWords_getD_ne hi' hi' hws' (hws o List.mem_cons_self) (Or.inr hfresh), State.getD_putD_self]
    · exact ih hi' hws' hnodup hin

/-! ### The words the slot operations store -/

theorem wordOff_filled (v : Variant) : ∀ o ∈ filledOffs v, wordOff o := by
  cases v <;> decide

theorem nodup_filled (v : Variant) : (filledOffs v).Nodup := by
  cases v <;> decide

theorem filledOffs_eq (v : Variant) : filledOffs v = 0x08 :: clearedOffs v := rfl

theorem wordOff_cleared (v : Variant) : ∀ o ∈ clearedOffs v, wordOff o :=
  fun o ho => wordOff_filled v o (List.mem_cons_of_mem _ ho)

theorem nodup_cleared (v : Variant) : (clearedOffs v).Nodup := (List.nodup_cons.1 (nodup_filled v)).2

theorem map_fst_const (offs : List Nat) (v : Word) : (offs.map fun o => (o, v)).map Prod.fst = offs := by
  rw [List.map_map]
  exact List.map_id' offs

theorem clearSlot_eq (s : State) (r : RingId) (i : Nat) :
    s.clearSlot r i = (s.putWords r i ((clearedOffs s.cfg.variant).map fun o => (o, 0))).owe r := rfl

theorem clearSlot_mem (s : State) (r : RingId) (i : Nat) :
    (s.clearSlot r i).mem = (s.putWords r i ((clearedOffs s.cfg.variant).map fun o => (o, 0))).mem := by
  rw [clearSlot_eq, State.owe_mem]

theorem clearSlot_unfenced (s : State) (r : RingId) (i : Nat) (t : RingId) :
    (s.clearSlot r i).unfenced t = if t = r then true else s.unfenced t := by
  rw [clearSlot_eq, State.owe_unfenced, State.putWords_eq, State.setMem_unfenced]

end Sys2Proof.Machine
end

section
/-! SUPPORT. The release of slots (R197): `FREE_RING` (R198) and `RECOVER_DRAIN` (R293) release a list of slots, in order. -/

namespace Sys2Proof.Machine

/-! ### One slot -/

/-- What the frames of `n` slots add to the drop counter: only TX frames count (R198). -/
def dropsOf (d : Dir) (n : Nat) : Long :=
  match d with
  | .tx => BitVec.ofNat 64 n
  | .rx => 0

/-- How many of the slots `l` hold a frame. -/
def State.heldIn (s : State) (r : RingId) (l : List Nat) : Nat := (l.filter fun i => s.getD r i 0x34 != 0).length

/-- The state after the events and the cleared words of `RELEASE_SLOT`, before a drop is counted. -/
def State.released (s : State) (r : RingId) (i : Nat) : State := (s.emits (s.releaseEvents r i)).clearSlot r i

theorem freeSlot_eq (s : State) (r : RingId) (i : Nat) : freeSlot r i s =
    if r.dir = .tx ∧ s.getD r i 0x34 ≠ 0 then (s.released r i).setRing r ((s.released r i).ring r).drop
    else s.released r i := by
  unfold freeSlot
  cases hd : r.dir
  · by_cases hz : s.getD r i 0x34 = 0
    · rw [if_neg fun h => h.2 hz]
      exact if_pos hz
    · rw [if_pos ⟨rfl, hz⟩]
      exact if_neg hz
  · rw [if_neg fun h => nomatch h.1]
    rfl

theorem State.released_ring (s : State) (r : RingId) (i : Nat) (t : RingId) : (s.released r i).ring t = s.ring t := by
  simp [State.released]

theorem State.released_mem (s : State) (r : RingId) (i : Nat) : (s.released r i).mem =
    (s.putWords r i ((clearedOffs s.cfg.variant).map fun o => (o, 0))).mem := by
  rw [State.released, clearSlot_mem, State.emits_cfg]
  exact State.putWords_mem_congr r i _ (State.emits_mem s _) (congrArg RingSw.base (State.emits_ring s _ r))

theorem freeSlot_mem (s : State) (r : RingId) (i : Nat) : (freeSlot r i s).mem =
    (s.putWords r i ((clearedOffs s.cfg.variant).map fun o => (o, 0))).mem := by
  rw [freeSlot_eq, ← State.released_mem]
  split
  · rw [State.setRing_mem]
  · rfl

theorem State.heldIn_one (s : State) (r : RingId) (i : Nat) :
    s.heldIn r [i] = if s.getD r i 0x34 ≠ 0 then 1 else 0 := by
  unfold State.heldIn
  by_cases hz : s.getD r i 0x34 = 0
  · rw [if_neg (not_not.2 hz), List.filter_cons_of_neg (by simp [hz])]
    rfl
  · rw [if_pos hz, List.filter_cons_of_pos (by simpa using hz)]
    rfl

theorem freeSlot_ring (s : State) (r : RingId) (i : Nat) : (freeSlot r i s).ring r =
    { s.ring r with dropped := (s.ring r).dropped + dropsOf r.dir (s.heldIn r [i]) } := by
  rw [freeSlot_eq]
  rw [State.heldIn_one]
  by_cases hz : s.getD r i 0x34 = 0
  · rw [if_neg fun h => h.2 hz, State.released_ring, if_neg (not_not.2 hz)]
    cases hd : r.dir <;> simp [dropsOf]
  · rw [if_pos hz]
    cases hd : r.dir
    · rw [if_pos ⟨rfl, hz⟩, State.setRing_ring, if_pos rfl, State.released_ring]
      rfl
    · rw [if_neg fun h => nomatch h.1]
      refine (State.released_ring s r i r).trans ?_
      simp [dropsOf]

theorem freeSlot_ring_ne (s : State) {r t : RingId} (i : Nat) (h : t ≠ r) : (freeSlot r i s).ring t = s.ring t := by
  rw [freeSlot_eq]
  split
  · rw [State.setRing_ring, if_neg h, State.released_ring]
  · rw [State.released_ring]

theorem freeSlot_events (s : State) (r : RingId) (i : Nat) :
    (freeSlot r i s).events = s.events ++ s.releaseEvents r i := by
  rw [freeSlot_eq]
  split <;> simp [State.released]

theorem freeSlot_unfenced (s : State) (r : RingId) (i : Nat) (t : RingId) :
    (freeSlot r i s).unfenced t = if t = r then true else s.unfenced t := by
  rw [freeSlot_eq]
  split <;> simp [State.released, clearSlot_unfenced]

theorem freeSlot_bytes (s : State) (r : RingId) (i : Nat) {a : Word} (h : ¬s.inWords r i (clearedOffs s.cfg.variant) a) :
    memByte (freeSlot r i s).mem a = memByte s.mem a := by
  rw [freeSlot_mem, State.putWords_bytes r i _ (by rwa [map_fst_const])]

theorem freeSlot_base (s : State) (r : RingId) (i : Nat) : ((freeSlot r i s).ring r).base = (s.ring r).base := by
  rw [freeSlot_ring]

theorem freeSlot_frame (s : State) (r : RingId) (i : Nat) :
    Keeps { rings := (· = r), fences := (· = r), events := True, bytes := s.inWords r i (clearedOffs s.cfg.variant) } s
      (freeSlot r i s) := by
  constructor
  case rings => exact fun t h => freeSlot_ring_ne s i h
  case fences =>
    intro t (h : ¬t = r)
    rw [freeSlot_unfenced, if_neg h]
  case bytes => exact fun a h => freeSlot_bytes s r i h
  all_goals simp

theorem freeSlot_cleared {s : State} {r : RingId} {i : Nat} (hi : s.HasSlot r i) {o : Nat}
    (ho : o ∈ clearedOffs s.cfg.variant) : (freeSlot r i s).getD r i o = 0 := by
  have hread : (freeSlot r i s).getD r i o =
      (s.putWords r i ((clearedOffs s.cfg.variant).map fun o => (o, 0))).getD r i o := by
    unfold State.getD State.slotAddr
    rw [freeSlot_mem, freeSlot_base, State.putWords_ring]
  rw [hread]
  refine State.putWords_getD_mem hi ?_ ?_ (List.mem_map_of_mem (f := fun o => (o, (0 : Word))) ho)
  · rw [map_fst_const]
    exact wordOff_cleared _
  · rw [map_fst_const]
    exact nodup_cleared _

/-- Another slot reads as before, and so do the words of the slot that are not cleared. -/
theorem freeSlot_getD {s : State} {r : RingId} {i j p : Nat} (hi : s.HasSlot r i) (hj : s.HasSlot r j) (hp : wordOff p)
    (hne : i ≠ j ∨ p ∉ clearedOffs s.cfg.variant) : (freeSlot r i s).getD r j p = s.getD r j p :=
  State.getD_congr (freeSlot_base s r i)
    fun _ ha => freeSlot_bytes s r i (State.not_inWords hi hj hp (wordOff_cleared _) hne ha)

theorem freeSlot_slot {s : State} {r : RingId} {j : Nat} (h : s.HasSlot r j) (i : Nat) : (freeSlot r i s).HasSlot r j :=
  h.congr (by rw [freeSlot_ring])

/-! ### A list of slots -/

/-- The slots `l` released one after the other. -/
def State.freeSlots (s : State) (r : RingId) (l : List Nat) : State := l.foldl (fun t i => freeSlot r i t) s

theorem State.freeSlots_cons (s : State) (r : RingId) (i : Nat) (l : List Nat) :
    s.freeSlots r (i :: l) = (freeSlot r i s).freeSlots r l := rfl

theorem State.freeSlots_frame (r : RingId) (l : List Nat) : ∀ s : State,
    Keeps { rings := (· = r), fences := (· = r), events := True,
            bytes := fun a => ∃ i ∈ l, s.inWords r i (clearedOffs s.cfg.variant) a } s (s.freeSlots r l) := by
  induction l with
  | nil => exact fun s => Keeps.refl _ s
  | cons i l ih =>
    intro s
    refine Keeps.after ((freeSlot_frame s r i).mono { bytes := fun a h => ⟨i, List.mem_cons_self, h⟩ })
      (ih (freeSlot r i s)) { bytes := ?_ }
    rintro a ⟨j, hj, ha⟩
    rw [State.inWords_congr (freeSlot_base s r i), (freeSlot_frame s r i).cfg id] at ha
    exact ⟨j, List.mem_cons_of_mem _ hj, ha⟩

/-- A slot that is not among them reads as before. -/
theorem State.freeSlots_getD (r : RingId) (l : List Nat) {j p : Nat} (hp : wordOff p) : ∀ {s : State}, s.HasSlot r j →
    (∀ i ∈ l, s.HasSlot r i) → j ∉ l → (s.freeSlots r l).getD r j p = s.getD r j p := by
  induction l with
  | nil => exact fun _ _ _ => rfl
  | cons i l ih =>
    intro s hj hl hnot
    have hne : i ≠ j := fun e => hnot (e ▸ List.mem_cons_self)
    rw [State.freeSlots_cons, ih (freeSlot_slot hj i) (fun k hk => freeSlot_slot (hl k (List.mem_cons_of_mem _ hk)) i)
      fun h => hnot (List.mem_cons_of_mem _ h)]
    exact freeSlot_getD (hl i List.mem_cons_self) hj hp (Or.inl hne)

theorem State.freeSlots_cleared (r : RingId) (l : List Nat) : ∀ {s : State}, l.Nodup → (∀ i ∈ l, s.HasSlot r i) →
    ∀ i ∈ l, (s.freeSlots r l).slotCleared r i := by
  induction l with
  | nil => exact fun _ _ i hi => nomatch hi
  | cons i l ih =>
    intro s hnodup hl j hj
    obtain ⟨hfresh, hnodup⟩ := List.nodup_cons.1 hnodup
    have hl' : ∀ k ∈ l, (freeSlot r i s).HasSlot r k :=
      fun k hk => freeSlot_slot (hl k (List.mem_cons_of_mem _ hk)) i
    obtain rfl | hin := List.mem_cons.1 hj
    · intro o ho
      have hi := hl j List.mem_cons_self
      rw [(State.freeSlots_frame r (j :: l) s).cfg id] at ho
      rw [State.freeSlots_cons, State.freeSlots_getD r l (wordOff_cleared _ o ho) (freeSlot_slot hi j) hl' hfresh]
      exact freeSlot_cleared hi ho
    · exact ih hnodup hl' j hin

/-- What the release of a slot reports is read from that slot alone. -/
theorem State.releaseEvents_congr {s t : State} {r : RingId} {j : Nat} (hc : t.cfg = s.cfg)
    (h : ∀ p, wordOff p → t.getD r j p = s.getD r j p) : t.releaseEvents r j = s.releaseEvents r j := by
  unfold State.releaseEvents
  rw [hc, h swMapOff (by decide), h bufOff (by decide), h swFrameOff (by decide), h _ (wordOff_ctrl _)]

theorem State.freeSlots_events (r : RingId) (l : List Nat) : ∀ {s : State}, l.Nodup → (∀ i ∈ l, s.HasSlot r i) →
    (s.freeSlots r l).events = s.events ++ l.flatMap (s.releaseEvents r) := by
  induction l with
  | nil => exact fun _ _ => (List.append_nil _).symm
  | cons i l ih =>
    intro s hnodup hl
    obtain ⟨hfresh, hnodup⟩ := List.nodup_cons.1 hnodup
    have hi := hl i List.mem_cons_self
    have hl' : ∀ k ∈ l, s.HasSlot r k := fun k hk => hl k (List.mem_cons_of_mem _ hk)
    have hsame : l.flatMap ((freeSlot r i s).releaseEvents r) = l.flatMap (s.releaseEvents r) :=
      List.flatMap_congr fun k hk => State.releaseEvents_congr ((freeSlot_frame s r i).cfg id) fun p hp =>
        freeSlot_getD hi (hl' k hk) hp (Or.inl fun e => hfresh (e ▸ hk))
    rw [State.freeSlots_cons, ih hnodup fun k hk => freeSlot_slot (hl' k hk) i, hsame, freeSlot_events,
      List.flatMap_cons, List.append_assoc]

theorem dropsOf_add (d : Dir) (m n : Nat) : dropsOf d (m + n) = dropsOf d m + dropsOf d n := by
  cases d
  · exact BitVec.ofNat_add m n
  · rfl

theorem State.heldIn_cons (s : State) (r : RingId) (i : Nat) (l : List Nat) :
    s.heldIn r (i :: l) = s.heldIn r [i] + s.heldIn r l := by
  unfold State.heldIn
  rw [← List.length_append, ← List.filter_append]
  rfl

theorem State.freeSlots_ring (r : RingId) (l : List Nat) : ∀ {s : State}, l.Nodup → (∀ i ∈ l, s.HasSlot r i) →
    (s.freeSlots r l).ring r =
      { s.ring r with dropped := (s.ring r).dropped + dropsOf r.dir (s.heldIn r l) } := by
  induction l with
  | nil =>
    intro s _ _
    cases hd : r.dir <;> simp [State.freeSlots, State.heldIn, dropsOf]
  | cons i l ih =>
    intro s hnodup hl
    obtain ⟨hfresh, hnodup⟩ := List.nodup_cons.1 hnodup
    have hi := hl i List.mem_cons_self
    have hl' : ∀ k ∈ l, s.HasSlot r k := fun k hk => hl k (List.mem_cons_of_mem _ hk)
    have hheld : (freeSlot r i s).heldIn r l = s.heldIn r l :=
      congrArg List.length (List.filter_congr fun k hk => by
        rw [freeSlot_getD hi (hl' k hk) (by decide) (Or.inl fun e => hfresh (e ▸ hk))])
    rw [State.freeSlots_cons, ih hnodup fun k hk => freeSlot_slot (hl' k hk) i, hheld, freeSlot_ring,
      State.heldIn_cons s r i l, dropsOf_add, BitVec.add_assoc]

theorem State.freeSlots_unfenced (r : RingId) (l : List Nat) : ∀ s : State,
    (s.freeSlots r l).unfenced r = (s.unfenced r || decide (0 < l.length)) := by
  induction l with
  | nil => exact fun s => (Bool.or_false _).symm
  | cons i l ih =>
    intro s
    rw [State.freeSlots_cons, ih, freeSlot_unfenced, if_pos rfl]
    simp

/-! ### `FREE_RING` -/

theorem loopN_eq (f : Nat → State → State) (n : Nat) : ∀ (i : Nat) (s : State),
    loopN f n i s = (List.range' i n).foldl (fun t j => f j t) s := by
  induction n with
  | zero => exact fun _ _ => rfl
  | succ n ih =>
    intro i s
    rw [loopN, ih, List.range'_succ, List.foldl_cons]

theorem freeRing_eq (s : State) (r : RingId) : s.freeRing r =
    (s.freeSlots r (List.range (s.ring r).cap)).setRing r ((s.freeSlots r (List.range (s.ring r).cap)).ring r).gone := by
  unfold State.freeRing
  rw [loopN_eq, ← List.range_eq_range']
  rfl

theorem State.HasPool.slots {s : State} {r : RingId} (h : s.HasPool r) :
    ∀ i ∈ List.range (s.ring r).cap, s.HasSlot r i := fun _ hi => h.slot (List.mem_range.1 hi)

theorem freeRing_ring {s : State} {r : RingId} (h : s.HasPool r) : (s.freeRing r).ring r =
    { s.ring r with
      present := false
      populated := false
      dropped := (s.ring r).dropped + dropsOf r.dir (s.heldIn r (List.range (s.ring r).cap)) } := by
  rw [freeRing_eq, State.setRing_ring, if_pos rfl, State.freeSlots_ring r _ List.nodup_range h.slots]
  rfl

theorem freeRing_events {s : State} {r : RingId} (h : s.HasPool r) : (s.freeRing r).events =
    s.events ++ (List.range (s.ring r).cap).flatMap (s.releaseEvents r) := by
  rw [freeRing_eq, State.setRing_events, State.freeSlots_events r _ List.nodup_range h.slots]

theorem freeRing_cleared {s : State} {r : RingId} (h : s.HasPool r) {i : Nat} (hi : i < (s.ring r).cap) :
    (s.freeRing r).slotCleared r i := by
  have hcleared := State.freeSlots_cleared r _ List.nodup_range h.slots i (List.mem_range.2 hi)
  rw [freeRing_eq]
  generalize s.freeSlots r (List.range (s.ring r).cap) = u at hcleared
  intro o ho
  refine Eq.trans (State.getD_congr (s := u) ?_ fun _ _ => rfl) (hcleared o ho)
  rw [State.setRing_ring, if_pos rfl]
  rfl

theorem freeRing_frame (s : State) (r : RingId) :
    Keeps { rings := (· = r), fences := (· = r), events := True,
            bytes := fun a => ∃ i, i < (s.ring r).cap ∧ s.inWords r i (clearedOffs s.cfg.variant) a } s
      (s.freeRing r) := by
  rw [freeRing_eq]
  refine Keeps.after ((State.freeSlots_frame r _ s).mono { bytes := ?_ }) (State.setRing_frame _ r _) {}
  rintro a ⟨i, hi, ha⟩
  exact ⟨i, List.mem_range.1 hi, ha⟩

/-- Settles O35: every slot of the pool is released, in order, and the pool is gone. -/
theorem freeRingReleases : Obligations.FreeRingReleases := by
  unfold Obligations.FreeRingReleases
  intro s r hp hf hh n held
  refine ⟨fun hc => (exec_pool hp hf hh).trans (if_pos hc), fun hc => ⟨s.freeRing r, ?_, (freeRing_ring hp).trans ?_,
    fun i hi => freeRing_cleared hp hi, freeRing_events hp, freeRing_frame s r⟩⟩
  · exact (exec_pool hp hf hh).trans (if_neg (by simp [hc]))
  · cases r.dir <;> rfl

/-! ### `RECOVER_DRAIN` -/

/-- The `m` slots from `i` on, modulo `n`. -/
def slotsFrom (n i m : Nat) : List Nat := (List.range m).map fun j => (i + j) % n

theorem slotsFrom_succ {n i : Nat} (m : Nat) (hi : i < n) :
    slotsFrom n i (m + 1) = i :: slotsFrom n (incMod n i) m := by
  unfold slotsFrom incMod
  rw [List.range_succ_eq_map, List.map_cons, List.map_map, Nat.add_zero, Nat.mod_eq_of_lt hi]
  refine congrArg (i :: ·) (List.map_congr_left fun j _ => ?_)
  simp only [Function.comp_apply]
  rw [Nat.mod_add_mod, show i + Nat.succ j = i + 1 + j by omega]

theorem slotsFrom_lt {n i m : Nat} (hn : 0 < n) : ∀ j ∈ slotsFrom n i m, j < n := by
  intro j hj
  obtain ⟨k, -, rfl⟩ := List.mem_map.1 hj
  exact Nat.mod_lt _ hn

theorem slotsFrom_nodup {n i m : Nat} (hm : m ≤ n) : (slotsFrom n i m).Nodup := by
  refine List.Nodup.map_on (fun j hj k hk h => ?_) List.nodup_range
  have hj' : j < n := Nat.lt_of_lt_of_le (List.mem_range.1 hj) hm
  have hk' : k < n := Nat.lt_of_lt_of_le (List.mem_range.1 hk) hm
  exact Nat.ModEq.eq_of_lt_of_lt (Nat.ModEq.add_left_cancel' i h) hj' hk'

/-- How far it is from `i` up to `j`, modulo `n`. -/
def dist (n i j : Nat) : Nat := (j + (n - i)) % n

theorem dist_self (n i : Nat) (hi : i < n) : dist n i i = 0 := by
  unfold dist
  rw [show i + (n - i) = n by omega, Nat.mod_self]

theorem dist_succ {n i j : Nat} (hi : i < n) (hj : j < n) (hne : i ≠ j) : dist n i j = dist n (incMod n i) j + 1 := by
  unfold dist incMod
  have hinc : (i + 1) % n = if i + 1 = n then 0 else i + 1 := by
    split
    · next h => rw [h, Nat.mod_self]
    · exact Nat.mod_eq_of_lt (by omega)
  rw [hinc]
  rcases Nat.lt_or_gt_of_ne hne with h | h
  · rw [show j + (n - i) = j - i + n by omega, Nat.add_mod_right, Nat.mod_eq_of_lt (by omega), if_neg (by omega),
      show j + (n - (i + 1)) = j - (i + 1) + n by omega, Nat.add_mod_right, Nat.mod_eq_of_lt (by omega)]
    omega
  · rw [Nat.mod_eq_of_lt (by omega)]
    split
    · rw [show j + (n - 0) = j + n by omega, Nat.add_mod_right, Nat.mod_eq_of_lt hj]
      omega
    · rw [Nat.mod_eq_of_lt (by omega)]
      omega

theorem dist_lt {n : Nat} (i j : Nat) (hn : 0 < n) : dist n i j < n := Nat.mod_lt _ hn

theorem dropSlot_eq {s : State} {r : RingId} (hd : r.dir = .tx) (i : Nat) : s.dropSlot r i = freeSlot r i s := by
  unfold freeSlot
  rw [hd]

/-- The drain releases the slots in flight. -/
theorem drainFrom_eq {r : RingId} (hd : r.dir = .tx) (n : Nat) : ∀ {s : State} {i : Nat}, i < (s.ring r).cap →
    (s.ring r).issue < (s.ring r).cap → dist (s.ring r).cap i (s.ring r).issue ≤ n →
    s.drainFrom r i n = s.freeSlots r (slotsFrom (s.ring r).cap i (dist (s.ring r).cap i (s.ring r).issue)) := by
  induction n with
  | zero =>
    intro s i _ _ h
    rw [Nat.le_zero.1 h]
    rfl
  | succ n ih =>
    intro s i hi hissue h
    by_cases he : i = (s.ring r).issue
    · rw [State.drainFrom, if_pos he, ← he, dist_self _ _ hi]
      rfl
    · have hdist := dist_succ hi hissue he
      have hcap : ((freeSlot r i s).ring r).cap = (s.ring r).cap := by rw [freeSlot_ring]
      have hiss : ((freeSlot r i s).ring r).issue = (s.ring r).issue := by rw [freeSlot_ring]
      have hrest := ih (s := freeSlot r i s) (i := incMod (s.ring r).cap i)
      rw [hcap, hiss] at hrest
      rw [State.drainFrom, if_neg he, dropSlot_eq hd, hrest (Nat.mod_lt _ (by omega)) hissue (by omega), hdist,
        slotsFrom_succ _ hi]
      rfl

/-- Forgetting the tags of a channel (R293). -/
def State.untag (s : State) (q : Chan) : State := s.setTags q { s.tags q with tagmap := [] }

theorem State.untag_frame (s : State) (q : Chan) : Keeps { tags := (· = q) } s (s.untag q) := by
  constructor
  case tags =>
    intro p (h : ¬p = q)
    rw [State.untag, State.setTags_tags, if_neg h]
  all_goals simp [State.untag]

theorem State.drain_rx {r : RingId} (h : r.dir = .rx) (s : State) : s.drain r = s := by
  unfold State.drain
  rw [h]

theorem State.drain_tx {s : State} {r : RingId} (h : r.dir = .tx) (hp : s.HasPool r) : s.drain r =
    (s.freeSlots r (slotsFrom (s.ring r).cap (s.ring r).completion
      (dist (s.ring r).cap (s.ring r).completion (s.ring r).issue))).untag r.q := by
  obtain ⟨-, -, h2, -, -, -, hissue, hcomp⟩ := hp.facts
  have hfree := drainFrom_eq h (s.ring r).cap hcomp hissue (Nat.le_of_lt (dist_lt _ _ (by omega)))
  unfold State.drain
  simp only [h, hfree]
  rfl

/-- Settles O54: the slots in flight are released; of an RX ring only the state changes. -/
theorem recoveryDrains : Obligations.RecoveryDrains := by
  unfold Obligations.RecoveryDrains
  intro s r hp hc hst w m slots held
  obtain ⟨hq, -, h2, -, -, -, hissue, hcomp⟩ := hp.facts
  have hexec : exec (.recoverDrain r.dir r.q.val) s =
      .next ((s.drain r).setRing r (((s.drain r).ring r).become .reconfiguring)) := withRState_at hq hc hst _
  have hcap : 0 < w.cap := Nat.lt_of_lt_of_le Nat.two_pos h2
  have hl : ∀ i ∈ slots, s.HasSlot r i := fun i hi => hp.slot (slotsFrom_lt hcap i hi)
  have hm : m < w.cap := Nat.mod_lt _ hcap
  have hnodup : slots.Nodup := slotsFrom_nodup (Nat.le_of_lt hm)
  refine ⟨_, hexec, ?_⟩
  cases hd : r.dir with
  | rx =>
    rw [State.drain_rx hd]
    refine ⟨fun h => (nomatch h), fun _ => ⟨?_, ?_, ?_, fun _ => ?_⟩, (State.setRing_frame s r _).mono {}⟩
    · rw [State.setRing_ring, if_pos rfl]
      rfl
    · rw [State.setRing_events]
    · rw [State.setRing_unfenced]
    · rw [State.setRing_mem]
  | tx =>
    have hdrain : s.drain r = (s.freeSlots r slots).untag r.q := State.drain_tx hd hp
    have hframe := State.freeSlots_frame r slots s
    have hring := State.freeSlots_ring r slots hnodup hl
    have hcleared := State.freeSlots_cleared r slots hnodup hl
    have hevents := State.freeSlots_events r slots hnodup hl
    have hfence := State.freeSlots_unfenced r slots s
    rw [hdrain]
    generalize s.freeSlots r slots = u at hframe hring hcleared hevents hfence
    have htag := State.untag_frame u r.q
    have hset := State.setRing_frame (u.untag r.q) r (((u.untag r.q).ring r).become .reconfiguring)
    refine ⟨fun _ => ⟨?_, ?_, fun i hi o ho => ?_, ?_, ?_⟩, fun h => (nomatch h), ?_⟩
    · rw [State.setRing_ring, if_pos rfl, htag.rings r id, hring, hd]
      rfl
    · rw [hset.fences r id, htag.fences r id, hfence]
      simp [slots]
    · refine Eq.trans (State.getD_congr (s := u) ?_ fun a _ => ?_) (hcleared i hi o ho)
      · rw [State.setRing_ring, if_pos rfl, htag.rings r id]
        rfl
      · rw [hset.bytes a id, htag.bytes a id]
    · rw [hset.events id, htag.events id, hevents]
    · rw [hset.tags r.q id, State.untag, State.setTags_tags, if_pos rfl, hframe.tags r.q id]
    · refine Keeps.after (Keeps.after (hframe.mono {}) htag { tags := ?_ }) hset {}
      rintro _ rfl
      exact (RingId.eq_iff _ _).2 ⟨hd, rfl⟩

end Sys2Proof.Machine
end

section
/-! SUPPORT. `ARM_RX` (R196), and the first step of `RECOVER_RECONFIG` (R294), which resets a ring and arms a receive ring. -/

namespace Sys2Proof.Machine

/-! ### One slot -/

/-- The draw of a slot without a buffer. -/
def State.armDraw (s : State) (r : RingId) (i : Nat) : State :=
  if s.getD r i 0x34 = 0 then s.drawRxBuffer.2 else s

/-- The words of a fresh buffer, and those every armed slot is given. -/
def State.freshWords (s : State) (r : RingId) (i : Nat) : List (Nat × Word) :=
  if s.getD r i 0x34 = 0 then [(0x08, s.drawRxBuffer.1.2), (0x34, s.drawRxBuffer.1.1), (0x38, 1)] else []

def armedWords (c : Config) : List (Nat × Word) :=
  [(ctrlOff c.variant, BitVec.ofNat 32 c.rxBufSize), (statusOff c.variant, 0), (0x20, 0), (0x24, 0), (0x28, 0),
    (0x2C, 0), (0x30, 0), (0x3C, 0)]

def State.armWords (s : State) (r : RingId) (i : Nat) : List (Nat × Word) := s.freshWords r i ++ armedWords s.cfg

theorem State.putWords_append (s : State) (r : RingId) (i : Nat) (ws vs : List (Nat × Word)) :
    s.putWords r i (ws ++ vs) = (s.putWords r i ws).putWords r i vs := List.foldl_append

theorem armSlot_eq (s : State) (r : RingId) (i : Nat) :
    armSlot r i s = (s.armDraw r i).putWords r i (s.armWords r i) := by
  unfold State.armWords State.freshWords State.armDraw
  by_cases h : s.getD r i swFrameOff = 0
  · have hfill : s.fillSlot r i = s.drawRxBuffer.2.putWords r i
        [(0x08, s.drawRxBuffer.1.2), (0x34, s.drawRxBuffer.1.1), (0x38, 1)] := rfl
    have hcfg : (s.fillSlot r i).cfg = s.cfg := by simp
    have h' : s.getD r i 0x34 = 0 := h
    rw [if_pos h', if_pos h', State.putWords_append, ← hfill, ← hcfg]
    unfold armSlot
    rw [if_pos h]
    rfl
  · have h' : ¬s.getD r i 0x34 = 0 := h
    rw [if_neg h', if_neg h']
    unfold armSlot
    rw [if_neg h]
    rfl

def armedOffs (v : Variant) : List Nat := [ctrlOff v, statusOff v, 0x20, 0x24, 0x28, 0x2C, 0x30, 0x3C]

theorem armedWords_offs (c : Config) : (armedWords c).map Prod.fst = armedOffs c.variant := rfl

theorem armedOffs_filled (v : Variant) : (∀ o ∈ armedOffs v, o ∈ filledOffs v) ∧ (armedOffs v).Nodup := by
  cases v <;> decide

theorem bufferOffs_filled (v : Variant) :
    (∀ o ∈ [0x08, 0x34, 0x38] ++ armedOffs v, o ∈ filledOffs v) ∧ ([0x08, 0x34, 0x38] ++ armedOffs v).Nodup := by
  cases v <;> decide

theorem bufferOffs_wordOff (v : Variant) : ∀ o ∈ [0x08, 0x34, 0x38], wordOff o ∧ o ∉ armedOffs v := by
  cases v <;> decide

theorem armWords_offs (s : State) (r : RingId) (i : Nat) :
    (∀ o ∈ (s.armWords r i).map Prod.fst, o ∈ filledOffs s.cfg.variant) ∧ ((s.armWords r i).map Prod.fst).Nodup := by
  unfold State.armWords State.freshWords
  rw [List.map_append, armedWords_offs]
  split
  · exact bufferOffs_filled _
  · exact armedOffs_filled _

theorem State.armDraw_frame (s : State) (r : RingId) (i : Nat) : Keeps { env := True } s (s.armDraw r i) := by
  unfold State.armDraw
  split
  · constructor <;> simp
  · exact Keeps.refl _ s

theorem armSlot_frame (s : State) (r : RingId) (i : Nat) :
    Keeps { env := True, bytes := s.inWords r i (filledOffs s.cfg.variant) } s (armSlot r i s) := by
  rw [armSlot_eq]
  have hdraw := State.armDraw_frame s r i
  refine Keeps.after (hdraw.mono {}) (State.putWords_frame _ r i _) { bytes := ?_ }
  rintro a ⟨o, ho, ha⟩
  refine ⟨o, (armWords_offs s r i).1 o ho, ?_⟩
  rwa [State.inWord, State.slotAddr, hdraw.rings r id] at ha

theorem armSlot_env (s : State) (r : RingId) (i : Nat) : (armSlot r i s).env = (s.armDraw r i).env := by
  rw [armSlot_eq]
  exact (State.putWords_frame _ r i _).env id

/-- Another slot, and a word that is not written, reads as before. -/
theorem armSlot_getD {s : State} {r : RingId} {i j p : Nat} (hi : s.HasSlot r i) (hj : s.HasSlot r j) (hp : wordOff p)
    (hne : i ≠ j ∨ p ∉ filledOffs s.cfg.variant) : (armSlot r i s).getD r j p = s.getD r j p := by
  have hframe := armSlot_frame s r i
  refine State.getD_congr (congrArg RingSw.base (hframe.rings r id)) fun a ha => hframe.bytes a ?_
  exact State.not_inWords hi hj hp (wordOff_filled _) hne ha

theorem armSlot_slot {s : State} {r : RingId} {j : Nat} (h : s.HasSlot r j) (i : Nat) : (armSlot r i s).HasSlot r j :=
  h.congr (congrArg RingSw.cap ((armSlot_frame s r i).rings r id))

/-- A word the slot is given. -/
theorem armSlot_word {s : State} {r : RingId} {i : Nat} (hi : s.HasSlot r i) {o : Nat} {v : Word}
    (h : (o, v) ∈ s.armWords r i) : (armSlot r i s).getD r i o = v := by
  obtain ⟨hoffs, hnodup⟩ := armWords_offs s r i
  rw [armSlot_eq]
  refine State.putWords_getD_mem (hi.congr ?_) (fun o ho => wordOff_filled _ o (hoffs o ho)) hnodup h
  rw [(State.armDraw_frame s r i).rings r id]

theorem armSlot_fresh {s : State} {r : RingId} {i : Nat} (hi : s.HasSlot r i) (h : s.getD r i 0x34 = 0) :
    (armSlot r i s).getD r i 0x08 = s.drawRxBuffer.1.2 ∧ (armSlot r i s).getD r i 0x34 = s.drawRxBuffer.1.1 ∧
      (armSlot r i s).getD r i 0x38 = 1 := by
  have hwords : s.freshWords r i = [(0x08, s.drawRxBuffer.1.2), (0x34, s.drawRxBuffer.1.1), (0x38, 1)] := if_pos h
  refine ⟨armSlot_word hi ?_, armSlot_word hi ?_, armSlot_word hi ?_⟩ <;> simp [State.armWords, hwords]

/-- A slot with a buffer keeps it. -/
theorem armSlot_keeps_buffer {s : State} {r : RingId} {i : Nat} (hi : s.HasSlot r i) (h : s.getD r i 0x34 ≠ 0) {p : Nat}
    (hp : p ∈ [0x08, 0x34, 0x38]) : (armSlot r i s).getD r i p = s.getD r i p := by
  have hwords : s.armWords r i = armedWords s.cfg := by
    rw [State.armWords, State.freshWords, if_neg h, List.nil_append]
  have hdraw : s.armDraw r i = s := if_neg h
  obtain ⟨hoff, hnot⟩ := bufferOffs_wordOff s.cfg.variant p hp
  rw [armSlot_eq, hdraw, hwords]
  refine State.putWords_getD_ne hi hi (fun o ho => ?_) hoff (Or.inr (by rwa [armedWords_offs]))
  exact wordOff_filled _ o ((armWords_offs s r i).1 o (by rwa [hwords]))

theorem nonzero_ne (h : Word) : nonzero h ≠ 0 := by
  unfold nonzero
  split
  · decide
  · next hne => exact hne

theorem nonzero_of_ne {h : Word} (hne : h ≠ 0) : nonzero h = h := if_neg hne

theorem State.drawRxBuffer_handle (s : State) : s.drawRxBuffer.1.1 ≠ 0 := by
  unfold State.drawRxBuffer
  split <;> exact nonzero_ne _

/-- What arming makes of slot `i`, which held the words it has in `s`. -/
structure State.ArmedFrom (s t : State) (r : RingId) (i : Nat) : Prop where
  ctrl : t.getD r i (ctrlOff s.cfg.variant) = BitVec.ofNat 32 s.cfg.rxBufSize
  status : t.getD r i (statusOff s.cfg.variant) = 0
  app : t.getApp r i = appZero
  tag : t.getD r i 0x3C = 0
  handle : t.getD r i 0x34 ≠ 0
  kept : s.getD r i 0x34 ≠ 0 →
    t.getD r i 0x34 = s.getD r i 0x34 ∧ t.getD r i 0x08 = s.getD r i 0x08 ∧ t.getD r i 0x38 = s.getD r i 0x38
  fresh : s.getD r i 0x34 = 0 → t.getD r i 0x38 = 1

theorem armSlot_armed {s : State} {r : RingId} {i : Nat} (hi : s.HasSlot r i) : s.ArmedFrom (armSlot r i s) r i where
  ctrl := armSlot_word hi (by simp [State.armWords, armedWords])
  status := armSlot_word hi (by simp [State.armWords, armedWords])
  app := by
    have hzero {o : Nat} (ho : o ∈ appOffs) : (armSlot r i s).getD r i o = 0 := by
      refine armSlot_word hi ?_
      simp only [appOffs, List.mem_cons, List.not_mem_nil, or_false] at ho
      obtain rfl | rfl | rfl | rfl | rfl := ho <;> simp [State.armWords, armedWords]
    unfold State.getApp
    rw [hzero (by decide), hzero (by decide), hzero (by decide), hzero (by decide), hzero (by decide)]
    rfl
  tag := armSlot_word hi (by simp [State.armWords, armedWords])
  handle := by
    by_cases h : s.getD r i 0x34 = 0
    · rw [(armSlot_fresh hi h).2.1]
      exact s.drawRxBuffer_handle
    · rwa [armSlot_keeps_buffer hi h (by decide)]
  kept h := ⟨armSlot_keeps_buffer hi h (by decide), armSlot_keeps_buffer hi h (by decide),
    armSlot_keeps_buffer hi h (by decide)⟩
  fresh h := (armSlot_fresh hi h).2.2

/-- The claim is about the words of the slot alone, before and after. -/
theorem State.ArmedFrom.congr {s s' t t' : State} {r : RingId} {i : Nat} (h : s.ArmedFrom t r i) (hc : s'.cfg = s.cfg)
    (hs : ∀ p, wordOff p → s'.getD r i p = s.getD r i p) (ht : ∀ p, wordOff p → t'.getD r i p = t.getD r i p) :
    s'.ArmedFrom t' r i where
  ctrl := by rw [hc, ht _ (wordOff_ctrl _), h.ctrl]
  status := by rw [hc, ht _ (wordOff_status _), h.status]
  app := by
    have happ := h.app
    unfold State.getApp at happ ⊢
    rw [ht _ (by decide), ht _ (by decide), ht _ (by decide), ht _ (by decide), ht _ (by decide), happ]
  tag := by rw [ht _ (by decide), h.tag]
  handle := by rw [ht _ (by decide)]; exact h.handle
  kept := by
    rw [ht _ (by decide), ht _ (by decide), ht _ (by decide), hs _ (by decide), hs _ (by decide), hs _ (by decide)]
    exact h.kept
  fresh := by
    rw [ht _ (by decide), hs _ (by decide)]
    exact h.fresh

/-! ### A list of slots -/

def State.armSlots (s : State) (r : RingId) (l : List Nat) : State := l.foldl (fun t i => armSlot r i t) s

theorem State.armSlots_cons (s : State) (r : RingId) (i : Nat) (l : List Nat) :
    s.armSlots r (i :: l) = (armSlot r i s).armSlots r l := rfl

theorem State.armSlots_frame (r : RingId) (l : List Nat) : ∀ s : State,
    Keeps { env := True, bytes := fun a => ∃ i ∈ l, s.inWords r i (filledOffs s.cfg.variant) a } s
      (s.armSlots r l) := by
  induction l with
  | nil => exact fun s => Keeps.refl _ s
  | cons i l ih =>
    intro s
    have hone := armSlot_frame s r i
    refine Keeps.after (hone.mono { bytes := fun a h => ⟨i, List.mem_cons_self, h⟩ }) (ih (armSlot r i s)) { bytes := ?_ }
    rintro a ⟨j, hj, ha⟩
    rw [State.inWords_congr (congrArg RingSw.base (hone.rings r id)), hone.cfg id] at ha
    exact ⟨j, List.mem_cons_of_mem _ hj, ha⟩

/-- A slot that is not among them, and a word that is never written, reads as before. -/
theorem State.armSlots_getD (r : RingId) (l : List Nat) {j p : Nat} (hp : wordOff p) {s : State} (hj : s.HasSlot r j)
    (hl : ∀ i ∈ l, s.HasSlot r i) (hnot : j ∉ l ∨ p ∉ filledOffs s.cfg.variant) :
    (s.armSlots r l).getD r j p = s.getD r j p := by
  have hframe := State.armSlots_frame r l s
  refine State.getD_congr (congrArg RingSw.base (hframe.rings r id)) fun a ha => hframe.bytes a ?_
  rintro ⟨i, hi, hin⟩
  exact State.not_inWords (hl i hi) hj hp (wordOff_filled _) (hnot.imp_left fun h e => h (e ▸ hi)) ha hin

theorem State.armSlots_armed (r : RingId) (l : List Nat) : ∀ {s : State}, l.Nodup → (∀ i ∈ l, s.HasSlot r i) →
    ∀ i ∈ l, s.ArmedFrom (s.armSlots r l) r i := by
  induction l with
  | nil => exact fun _ _ i hi => nomatch hi
  | cons i l ih =>
    intro s hnodup hl j hj
    obtain ⟨hfresh, hnodup⟩ := List.nodup_cons.1 hnodup
    have hi := hl i List.mem_cons_self
    have hl' : ∀ k ∈ l, s.HasSlot r k := fun k hk => hl k (List.mem_cons_of_mem _ hk)
    have hl'' : ∀ k ∈ l, (armSlot r i s).HasSlot r k := fun k hk => armSlot_slot (hl' k hk) i
    obtain rfl | hin := List.mem_cons.1 hj
    · exact (armSlot_armed hi).congr rfl (fun _ _ => rfl)
        fun p hp => State.armSlots_getD r l hp (armSlot_slot hi j) hl'' (Or.inl hfresh)
    · refine (ih hnodup hl'' j hin).congr ((armSlot_frame s r i).cfg id).symm (fun p hp => ?_) fun _ _ => rfl
      exact (armSlot_getD hi (hl' j hin) hp (Or.inl fun e => hfresh (e ▸ hin))).symm

/-! ### The buffers drawn -/

/-- The slots of the list without a buffer. -/
def State.emptySlots (s : State) (r : RingId) (l : List Nat) : List Nat := l.filter fun i => s.getD r i 0x34 == 0

theorem State.emptySlots_cons_full {s : State} {r : RingId} {i : Nat} (h : s.getD r i 0x34 ≠ 0) (l : List Nat) :
    s.emptySlots r (i :: l) = s.emptySlots r l := List.filter_cons_of_neg (by simpa using h)

theorem State.emptySlots_cons_empty {s : State} {r : RingId} {i : Nat} (h : s.getD r i 0x34 = 0) (l : List Nat) :
    s.emptySlots r (i :: l) = i :: s.emptySlots r l := List.filter_cons_of_pos (by simp [h])

theorem armSlot_emptySlots {s : State} {r : RingId} {i : Nat} {l : List Nat} (hi : s.HasSlot r i)
    (hl : ∀ k ∈ l, s.HasSlot r k) (hfresh : i ∉ l) : (armSlot r i s).emptySlots r l = s.emptySlots r l :=
  List.filter_congr fun k hk => by
    rw [armSlot_getD hi (hl k hk) (by decide) (Or.inl fun e => hfresh (e ▸ hk))]

theorem State.drawRxBuffer_cons {s : State} {h a : Word} {rest : List (Word × Word)}
    (he : s.env.rxBuffers = (h, a) :: rest) : s.drawRxBuffer.1 = (nonzero h, a) := by
  simp only [State.drawRxBuffer, he]

theorem State.drawRxBuffer_rest (s : State) : s.drawRxBuffer.2.env.rxBuffers = s.env.rxBuffers.drop 1 := by
  unfold State.drawRxBuffer
  split
  · next h => rw [h]; rfl
  · next h => rw [h]; exact h

theorem armSlot_buffers (s : State) (r : RingId) (i : Nat) : (armSlot r i s).env.rxBuffers =
    s.env.rxBuffers.drop (s.emptySlots r [i]).length := by
  rw [armSlot_env]
  unfold State.armDraw
  by_cases h : s.getD r i 0x34 = 0
  · rw [if_pos h, State.emptySlots_cons_empty h, State.drawRxBuffer_rest]
    rfl
  · rw [if_neg h, State.emptySlots_cons_full h]
    rfl

theorem State.emptySlots_cons (s : State) (r : RingId) (i : Nat) (l : List Nat) :
    s.emptySlots r (i :: l) = s.emptySlots r [i] ++ s.emptySlots r l := by
  unfold State.emptySlots
  rw [← List.filter_append]
  rfl

theorem State.armSlots_buffers (r : RingId) (l : List Nat) : ∀ {s : State}, l.Nodup → (∀ i ∈ l, s.HasSlot r i) →
    (s.armSlots r l).env.rxBuffers = s.env.rxBuffers.drop (s.emptySlots r l).length := by
  induction l with
  | nil => exact fun _ _ => rfl
  | cons i l ih =>
    intro s hnodup hl
    obtain ⟨hfresh, hnodup⟩ := List.nodup_cons.1 hnodup
    have hi := hl i List.mem_cons_self
    have hl' : ∀ k ∈ l, s.HasSlot r k := fun k hk => hl k (List.mem_cons_of_mem _ hk)
    rw [State.armSlots_cons, ih hnodup fun k hk => armSlot_slot (hl' k hk) i, armSlot_buffers,
      armSlot_emptySlots hi hl' hfresh, List.drop_drop, State.emptySlots_cons s r i l, List.length_append]

/-- With no slot to fill nothing is drawn. -/
theorem State.armSlots_env (r : RingId) (l : List Nat) : ∀ {s : State}, l.Nodup → (∀ i ∈ l, s.HasSlot r i) →
    s.emptySlots r l = [] → (s.armSlots r l).env = s.env := by
  induction l with
  | nil => exact fun _ _ _ => rfl
  | cons i l ih =>
    intro s hnodup hl hnone
    obtain ⟨hfresh, hnodup⟩ := List.nodup_cons.1 hnodup
    have hi := hl i List.mem_cons_self
    have hl' : ∀ k ∈ l, s.HasSlot r k := fun k hk => hl k (List.mem_cons_of_mem _ hk)
    have hfull : s.getD r i 0x34 ≠ 0 := fun h => by
      rw [State.emptySlots_cons_empty h] at hnone
      exact nomatch hnone
    rw [State.emptySlots_cons_full hfull] at hnone
    rw [State.armSlots_cons, ih hnodup (fun k hk => armSlot_slot (hl' k hk) i)
      (by rwa [armSlot_emptySlots hi hl' hfresh]), armSlot_env]
    exact congrArg State.env (if_neg hfull)

/-- The k-th slot without a buffer gets the k-th the environment supplies. -/
theorem State.armSlots_supplied (r : RingId) (l : List Nat) : ∀ {s : State}, l.Nodup → (∀ i ∈ l, s.HasSlot r i) →
    ∀ {k i : Nat} {h a : Word}, (s.emptySlots r l)[k]? = some i → s.env.rxBuffers[k]? = some (h, a) →
      (s.armSlots r l).getD r i 0x08 = a ∧ (h ≠ 0 → (s.armSlots r l).getD r i 0x34 = h) := by
  induction l with
  | nil => exact fun _ _ _ _ _ _ h => nomatch h
  | cons j l ih =>
    intro s hnodup hl k i h a hk hbuf
    obtain ⟨hfresh, hnodup⟩ := List.nodup_cons.1 hnodup
    have hj := hl j List.mem_cons_self
    have hl' : ∀ k ∈ l, s.HasSlot r k := fun k hk => hl k (List.mem_cons_of_mem _ hk)
    have hl'' : ∀ k ∈ l, (armSlot r j s).HasSlot r k := fun k hk => armSlot_slot (hl' k hk) j
    have hsame := armSlot_emptySlots hj hl' hfresh
    have hbuffers := armSlot_buffers s r j
    rw [State.armSlots_cons]
    by_cases hz : s.getD r j 0x34 = 0
    · rw [State.emptySlots_cons_empty hz] at hk hbuffers
      cases k with
      | zero =>
        obtain rfl := Option.some.inj hk
        obtain ⟨rest, he⟩ : ∃ rest, s.env.rxBuffers = (h, a) :: rest := by
          cases hl : s.env.rxBuffers with
          | nil => exact nomatch hl ▸ hbuf
          | cons x rest =>
            rw [hl] at hbuf
            exact ⟨rest, congrArg (· :: rest) (Option.some.inj hbuf)⟩
        obtain ⟨haddr, hhandle, -⟩ := armSlot_fresh hj hz
        rw [State.drawRxBuffer_cons he] at haddr hhandle
        have hkeep (p : Nat) (hp : wordOff p) := State.armSlots_getD r l hp (armSlot_slot hj j) hl'' (Or.inl hfresh)
        rw [hkeep _ (by decide), hkeep _ (by decide), haddr, hhandle]
        exact ⟨rfl, nonzero_of_ne⟩
      | succ k =>
        refine ih hnodup hl'' (k := k) (by rwa [hsame]) ?_
        rw [hbuffers, List.getElem?_drop, ← hbuf]
        exact congrArg (s.env.rxBuffers[·]?) (Nat.add_comm 1 k)
    · rw [State.emptySlots_cons_full hz] at hk hbuffers
      exact ih hnodup hl'' (by rwa [hsame]) (by rw [hbuffers]; exact hbuf)

/-! ### `ARM_RX` -/

theorem armRx_eq (s : State) (q : Chan) : s.armRx q =
    ((s.armSlots ⟨.rx, q⟩ (List.range (s.ring ⟨.rx, q⟩).cap)).setRing ⟨.rx, q⟩
      ((s.armSlots ⟨.rx, q⟩ (List.range (s.ring ⟨.rx, q⟩).cap)).ring ⟨.rx, q⟩).populate).wmb := by
  unfold State.armRx
  rw [loopN_eq, ← List.range_eq_range']
  rfl

theorem State.wmb_frame (s : State) : Keeps { fences := fun _ => True } s s.wmb := by
  constructor <;> simp

theorem armRx_ring (s : State) (q : Chan) (t : RingId) : (s.armRx q).ring t =
    if t = ⟨.rx, q⟩ then (s.ring ⟨.rx, q⟩).populate else s.ring t := by
  have hframe := State.armSlots_frame ⟨.rx, q⟩ (List.range (s.ring ⟨.rx, q⟩).cap) s
  rw [armRx_eq, State.wmb_ring, State.setRing_ring, hframe.rings _ id, hframe.rings _ id]

theorem armRx_unfenced (s : State) (q : Chan) (t : RingId) : (s.armRx q).unfenced t = false := by
  rw [armRx_eq, State.wmb_unfenced]

theorem armRx_frame (s : State) (q : Chan) :
    Keeps { rings := (· = ⟨.rx, q⟩), fences := fun _ => True, env := True,
            bytes := fun a => ∃ i, i < (s.ring ⟨.rx, q⟩).cap ∧ s.inWords ⟨.rx, q⟩ i (filledOffs s.cfg.variant) a } s
      (s.armRx q) := by
  rw [armRx_eq]
  have hframe := State.armSlots_frame ⟨.rx, q⟩ (List.range (s.ring ⟨.rx, q⟩).cap) s
  refine Keeps.after (Keeps.after (hframe.mono { bytes := ?_ }) (State.setRing_frame _ _ _) {}) (State.wmb_frame _) {}
  rintro a ⟨i, hi, ha⟩
  exact ⟨i, List.mem_range.1 hi, ha⟩

theorem armRx_getD (s : State) (q : Chan) (i p : Nat) : (s.armRx q).getD ⟨.rx, q⟩ i p =
    (s.armSlots ⟨.rx, q⟩ (List.range (s.ring ⟨.rx, q⟩).cap)).getD ⟨.rx, q⟩ i p := by
  rw [armRx_eq]
  refine State.getD_congr ?_ fun a _ => ?_
  · rw [State.wmb_ring, State.setRing_ring, if_pos rfl]
    rfl
  · rw [State.wmb_mem, State.setRing_mem]

theorem armRx_env (s : State) (q : Chan) :
    (s.armRx q).env = (s.armSlots ⟨.rx, q⟩ (List.range (s.ring ⟨.rx, q⟩).cap)).env := by
  rw [armRx_eq, State.wmb_env, State.setRing_env]

theorem armRx_armed {s : State} {q : Chan} (h : ∀ i, i < (s.ring ⟨.rx, q⟩).cap → s.HasSlot ⟨.rx, q⟩ i) {i : Nat}
    (hi : i < (s.ring ⟨.rx, q⟩).cap) : s.ArmedFrom (s.armRx q) ⟨.rx, q⟩ i :=
  (State.armSlots_armed _ _ List.nodup_range (fun j hj => h j (List.mem_range.1 hj)) i (List.mem_range.2 hi)).congr rfl
    (fun _ _ => rfl) fun p _ => armRx_getD s q i p

/-- Settles O34: every slot is armed in its turn, and the slots without a buffer draw one after the other. -/
theorem armRxArms : Obligations.ArmRxArms := by
  unfold Obligations.ArmRxArms
  intro s q hp hf hh r v n empty
  have hl : ∀ i, i < n → s.HasSlot r i := fun i hi => hp.slot hi
  have hl' : ∀ i ∈ List.range n, s.HasSlot r i := fun i hi => hl i (List.mem_range.1 hi)
  refine ⟨s.armRx q, exec_pool (r := r) hp hf hh, ?_, armRx_unfenced s q, fun i hi => ?_, fun k i h a hk hbuf => ?_, ?_,
    fun hnone => ?_, armRx_frame s q⟩
  · rw [armRx_ring, if_pos rfl]
    rfl
  · obtain ⟨hctrl, hstatus, happ, htag, hhandle, hkept, hfresh⟩ := armRx_armed hl hi
    exact ⟨hctrl, hstatus, happ, htag, hhandle, hkept, hfresh⟩
  · rw [armRx_getD, armRx_getD]
    exact State.armSlots_supplied r _ List.nodup_range hl' hk hbuf
  · rw [armRx_env]
    exact State.armSlots_buffers r _ List.nodup_range hl'
  · rw [armRx_env]
    exact State.armSlots_env r _ List.nodup_range hl' hnone

end Sys2Proof.Machine
end

section
/-! SUPPORT. The first step of `RECOVER_RECONFIG` (R294): the ring is reset, and a receive ring armed. -/

namespace Sys2Proof.Machine

/-- A word that is none of the two `RESET_RING` writes reads as before. -/
theorem resetRing_getD_ne {s : State} {r : RingId} {i p : Nat} (hp : s.HasPool r) (hi : i < (s.ring r).cap)
    (hoff : wordOff p) (hne : p ∉ [nextOff, statusOff s.cfg.variant]) : (s.resetRing r).getD r i p = s.getD r i p := by
  have hslot := hp.slot hi
  refine State.getD_congr (by rw [resetRing_ring]) fun a ha => resetRing_bytes s r hslot.fits fun j hj => ?_
  exact State.not_inWords (hp.slot hj) hslot hoff (fun o ho => wordOff_chain _ ho) (Or.inr hne) ha

theorem rebuild_tx {r : RingId} (h : r.dir = .tx) (s : State) : s.rebuild r = (s.resetRing r).wmb := by
  unfold State.rebuild
  simp only [h]

theorem rebuild_rx {r : RingId} (h : r.dir = .rx) (s : State) : s.rebuild r = ((s.resetRing r).armRx r.q).wmb := by
  unfold State.rebuild
  simp only [h]

theorem State.addTask_frame (s : State) (k : Task) : Keeps { tasks := True } s (s.addTask k) := by
  constructor <;> simp

theorem State.wmb_getD (s : State) (r : RingId) (i p : Nat) : s.wmb.getD r i p = s.getD r i p := rfl

theorem State.addTask_getD (s : State) (k : Task) (r : RingId) (i p : Nat) : (s.addTask k).getD r i p = s.getD r i p :=
  rfl

theorem exec_recoverReconfig {s : State} {r : RingId} (hq : r.q.val < s.cfg.nq) (hc : s.sw.ctxPresent = true)
    (hst : (s.ring r).rstate = .reconfiguring) (hb : s.bodyBusy r = false) (hh : halted (s.regs r) = true) :
    exec (.recoverReconfig r.dir r.q.val) s = .next ((s.rebuild r).addTask (.reconfig r .curdesc)) := by
  refine (withRState_at hq hc hst _).trans ?_
  rw [if_neg (by simp [hb]), if_neg (by simp [hh])]
  rfl

/-- What the armed slots of a ring that was reset hold: the chain word `RESET_RING` wrote, the armed words, and the buffer
the slot had. -/
theorem rebuilt_rx {s : State} {r : RingId} (hd : r.dir = .rx) (hp : s.HasPool r) {i : Nat} (hi : i < (s.ring r).cap) :
    ((s.resetRing r).armRx r.q).getD r i nextOff = daddr (s.ring r).base (incMod (s.ring r).cap i) ∧
      s.ArmedFrom ((s.resetRing r).armRx r.q) r i := by
  obtain ⟨d, q⟩ := r
  obtain rfl : d = .rx := hd
  have hcap : ((s.resetRing ⟨.rx, q⟩).ring ⟨.rx, q⟩).cap = (s.ring ⟨.rx, q⟩).cap := by rw [resetRing_ring]
  have hp' := hp.resetRing
  have hslots : ∀ j, j < ((s.resetRing ⟨.rx, q⟩).ring ⟨.rx, q⟩).cap → (s.resetRing ⟨.rx, q⟩).HasSlot ⟨.rx, q⟩ j :=
    fun j hj => hp'.slot hj
  have hi' : i < ((s.resetRing ⟨.rx, q⟩).ring ⟨.rx, q⟩).cap := by rwa [hcap]
  have harmed := armRx_armed hslots hi'
  have hcfg : (s.resetRing ⟨.rx, q⟩).cfg = s.cfg := by simp
  have hkept {p : Nat} (hin : p ∈ [0x08, 0x34, 0x38]) :
      (s.resetRing ⟨.rx, q⟩).getD ⟨.rx, q⟩ i p = s.getD ⟨.rx, q⟩ i p := by
    refine resetRing_getD_ne hp hi (bufferOffs_wordOff s.cfg.variant p hin).1 ?_
    simp only [List.mem_cons, List.not_mem_nil, or_false] at hin ⊢
    obtain rfl | rfl | rfl := hin <;> cases s.cfg.variant <;> decide
  refine ⟨?_, ?_⟩
  · rw [armRx_getD]
    refine (State.armSlots_getD _ _ (by decide) (hslots i hi')
      (fun j hj => hslots j (List.mem_range.1 hj)) (Or.inr ?_)).trans (resetRing_words s _ (hp.slot hi).fits hi).1
    cases (s.resetRing ⟨.rx, q⟩).cfg.variant <;> decide
  · obtain ⟨hctrl, hstatus, happ, htag, hhandle, hkeep, hfresh⟩ := harmed
    rw [hkept (by decide), hkept (by decide), hkept (by decide)] at hkeep
    rw [hkept (by decide)] at hfresh
    rw [hcfg] at hctrl hstatus
    exact ⟨hctrl, hstatus, happ, htag, hhandle, hkeep, hfresh⟩

/-- Settles O55: the cursors, the chain and the status words of `RESET_RING`, and the slots of `ARM_RX`. -/
theorem recoveryRebuilds : Obligations.RecoveryRebuilds := by
  unfold Obligations.RecoveryRebuilds
  intro s r hp hc hst hb hh v w
  obtain ⟨hq, -, -, hfits, -⟩ := hp.facts
  refine ⟨_, exec_recoverReconfig hq hc hst hb hh, ?_⟩
  have hreset := resetRing_frame s r hfits
  have htask := State.addTask_frame (s.rebuild r) (.reconfig r .curdesc)
  simp only [State.addTask_getD, State.addTask_tasks, State.addTask_ring, State.addTask_unfenced, State.addTask_env,
    State.getApp]
  cases hd : r.dir with
  | tx =>
    rw [rebuild_tx hd] at htask ⊢
    have hframe : Keeps { rings := (· = r), fences := fun _ => True,
                          bytes := fun a => ∃ i, i < w.cap ∧ s.inWords r i [0x00, statusOff v] a } s
        (s.resetRing r).wmb := Keeps.after (hreset.mono {}) (State.wmb_frame _) {}
    refine ⟨?_, fun r' => ?_, fun i hi => resetRing_words s r hfits hi, fun h => (nomatch h), fun _ => hframe.env id, ?_,
      Keeps.after (hframe.mono {}) htask {}⟩
    · rw [State.wmb_ring, resetRing_ring]
      simp [w]
    · rw [State.wmb_unfenced]
    · rw [hframe.tasks id]
  | rx =>
    rw [rebuild_rx hd] at htask ⊢
    have hring : (⟨.rx, r.q⟩ : RingId) = r := (RingId.eq_iff _ _).2 ⟨hd.symm, rfl⟩
    have harm := armRx_frame (s.resetRing r) r.q
    rw [hring] at harm
    have hframe : Keeps { rings := (· = r), fences := fun _ => True, env := True,
                          bytes := fun a => ∃ i, i < w.cap ∧ s.inWords r i (0x00 :: filledOffs v) a } s
        ((s.resetRing r).armRx r.q).wmb := by
      refine Keeps.after (Keeps.after (hreset.mono { bytes := ?_ }) harm { bytes := ?_ }) (State.wmb_frame _) {}
      · rintro a ⟨i, hi, o, ho, ha⟩
        refine ⟨i, hi, o, ?_, ha⟩
        simp only [List.mem_cons, List.not_mem_nil, or_false] at ho
        obtain rfl | rfl := ho
        · exact List.mem_cons_self
        · exact List.mem_cons_of_mem _ (by simp [filledOffs, v])
      · rintro a ⟨i, hi, ha⟩
        rw [State.inWords_congr (s := s) (by rw [resetRing_ring]), hreset.cfg id] at ha
        obtain ⟨o, ho, ha⟩ := ha
        refine ⟨i, ?_, o, List.mem_cons_of_mem _ ho, ha⟩
        rwa [resetRing_ring] at hi
    refine ⟨?_, fun r' => ?_, fun i hi => ?_, fun _ i hi => ?_, fun h => (nomatch h), ?_,
      Keeps.after (hframe.mono {}) htask {}⟩
    · rw [State.wmb_ring, armRx_ring, hring, if_pos rfl, resetRing_ring]
      simp [w, RingSw.populate]
    · rw [State.wmb_unfenced]
    · obtain ⟨hnext, harmed⟩ := rebuilt_rx hd hp hi
      exact ⟨hnext, harmed.status⟩
    · obtain ⟨-, hctrl, -, happ, htag, hhandle, hkeep, -⟩ := rebuilt_rx hd hp hi
      exact ⟨hctrl, happ, htag, hhandle, hkeep⟩
    · rw [hframe.tasks id]

end Sys2Proof.Machine
end

section
/-! SUPPORT. The register writes that put a ring in service (R294, R420), and a whole recovery (R300). -/

namespace Sys2Proof.Machine

/-! ### Words written -/

theorem align64_aligned {w : Word} (h : w.toNat % 64 = 0) : align64 w = w := by
  unfold align64
  refine BitVec.eq_of_getLsbD_eq fun i hi => ?_
  have hmask : (0xFFFFFFC0 : Word).getLsbD i = decide (6 ≤ i) := by
    interval_cases i <;> rfl
  rw [BitVec.getLsbD_and, hmask]
  by_cases h6 : 6 ≤ i
  · simp [h6]
  · have hbit : w.getLsbD i = false := by
      rw [BitVec.getLsbD, ← Nat.mod_add_div w.toNat 64, h, Nat.zero_add, show 64 = 2 ^ 6 from rfl,
        Nat.testBit_two_pow_mul]
      simp [h6]
    simp [hbit]

theorem daddr_aligned {b : Word} {n : Nat} (h : b.toNat % 64 = 0) (i : Nat) (hn : b.toNat + 64 * n ≤ 2 ^ 32) (hi : i < n) :
    align64 (daddr b i) = daddr b i := by
  refine align64_aligned ?_
  unfold daddr
  rw [BitVec.toNat_add, BitVec.toNat_ofNat, Nat.mod_eq_of_lt (show 64 * i < 2 ^ 32 by omega),
    Nat.mod_eq_of_lt (show b.toNat + 64 * i < 2 ^ 32 by omega)]
  omega

/-- The bits of a coalescing word (R294, R331): no run bit, no reset request, and the two fields. -/
theorem crValue_bit {delay thresh : Nat} (ht : thresh ≤ 255) {k : Nat} (hk : k < 32) :
    (crValue delay thresh).getLsbD k =
      if k < 16 then false else if k < 24 then thresh.testBit (k - 16) else delay.testBit (k - 24) := by
  have hhigh {j : Nat} (hj : 8 ≤ j) : thresh.testBit j = false :=
    Nat.testBit_lt_two_pow (calc thresh < 2 ^ 8 := by omega
      _ ≤ 2 ^ j := Nat.pow_le_pow_right (by decide) hj)
  unfold crValue
  simp only [BitVec.getLsbD_or, BitVec.getLsbD_shiftLeft, BitVec.getLsbD_ofNat, hk, decide_true, Bool.true_and]
  by_cases h16 : k < 16
  · simp [h16, show k < 24 by omega]
  · by_cases h24 : k < 24
    · simp [h16, h24, show k - 16 < 32 by omega]
    · simp [h16, h24, hhigh (show 8 ≤ k - 16 by omega), show k - 24 < 32 by omega]

theorem crValue_bits {delay thresh : Nat} (ht : thresh ≤ 255) :
    (crValue delay thresh).getLsbD 0 = false ∧ (crValue delay thresh).getLsbD 2 = false ∧
      (crValue delay thresh).extractLsb' 16 8 = BitVec.ofNat 8 thresh ∧
      (crValue delay thresh).extractLsb' 24 8 = BitVec.ofNat 8 delay := by
  refine ⟨?_, ?_, ?_, ?_⟩
  · rw [crValue_bit ht (by decide)]
    rfl
  · rw [crValue_bit ht (by decide)]
    rfl
  · refine BitVec.eq_of_getLsbD_eq fun i hi => ?_
    rw [BitVec.getLsbD_extractLsb', crValue_bit ht (by omega), if_neg (by omega), if_pos (by omega), BitVec.getLsbD_ofNat,
      show 16 + i - 16 = i by omega]
  · refine BitVec.eq_of_getLsbD_eq fun i hi => ?_
    rw [BitVec.getLsbD_extractLsb', crValue_bit ht (by omega), if_neg (by omega), if_neg (by omega), BitVec.getLsbD_ofNat,
      show 24 + i - 24 = i by omega]

/-- The word that sets the run bit and nothing else. -/
theorem crRun_bits (x : RingRegs) : (crWord x ||| 1).getLsbD 0 = true ∧ (crWord x ||| 1).getLsbD 2 = x.resetBusy ∧
    (crWord x ||| 1).extractLsb' 16 8 = x.thresh ∧ (crWord x ||| 1).extractLsb' 24 8 = x.delay := by
  obtain ⟨-, hbusy, hthresh, hdelay, -⟩ := crWord_bits x
  have hone {j : Nat} (hj : j ≠ 0) : (1 : Word).getLsbD j = false := by
    change (1#32).getLsbD j = false
    rw [BitVec.getLsbD_one]
    simp [hj]
  refine ⟨?_, ?_, ?_, ?_⟩
  · rw [BitVec.getLsbD_or]
    exact Bool.or_true _
  · rw [BitVec.getLsbD_or, hbusy, hone (by decide), Bool.or_false]
  · rw [← hthresh]
    refine BitVec.eq_of_getLsbD_eq fun i hi => ?_
    rw [BitVec.getLsbD_extractLsb', BitVec.getLsbD_extractLsb', BitVec.getLsbD_or, hone (by omega), Bool.or_false]
  · rw [← hdelay]
    refine BitVec.eq_of_getLsbD_eq fun i hi => ?_
    rw [BitVec.getLsbD_extractLsb', BitVec.getLsbD_extractLsb', BitVec.getLsbD_or, hone (by omega), Bool.or_false]

/-! ### Registers of a ring that is put in service -/

/-- The registers of a ring at rest: halted, no cause asserted. -/
structure AtRest (x : RingRegs) : Prop where
  run : x.run = false
  busy : x.resetBusy = false
  stop : x.stopPending = false
  isr : x.isr = 0

theorem AtRest.halted {x : RingRegs} (h : AtRest x) : halted x = true :=
  (halted_iff x).2 ⟨h.run, h.stop, h.busy⟩

theorem curWriteRegs_rest {x : RingRegs} (h : AtRest x) {b : Word} (hb : b.toNat % 64 = 0) :
    curWriteRegs b x = { x with curdesc := b } := by
  rw [curWriteRegs, if_pos h.halted, align64_aligned hb]

/-- The registers after the coalescing values are written. -/
def coalesced (thresh delay : BitVec 8) (x : RingRegs) : RingRegs :=
  { x with thresh := thresh, delay := delay, iocCount := thresh.toNat,
           dlyArmed := if delay = 0 then false else x.dlyArmed }

theorem State.writeCr_coal {s : State} {r : RingId} (h : AtRest (s.regs r)) {delay thresh : Nat} (h1 : 1 ≤ thresh)
    (ht : thresh ≤ 255) : s.writeCr r (crValue delay thresh) =
      s.setRegs r (coalesced (BitVec.ofNat 8 thresh) (BitVec.ofNat 8 delay) (s.regs r)) := by
  obtain ⟨hrun, hreset, hthresh, hdelay⟩ := crValue_bits (delay := delay) ht
  have hne : BitVec.ofNat 8 thresh ≠ 0 := by
    intro h0
    have hval := congrArg BitVec.toNat h0
    rw [BitVec.toNat_ofNat, Nat.mod_eq_of_lt (by omega)] at hval
    have hzero : (0 : BitVec 8).toNat = 0 := rfl
    omega
  have hcoal : coalesceRegs (crValue delay thresh) (s.regs r) =
      coalesced (BitVec.ofNat 8 thresh) (BitVec.ofNat 8 delay) (s.regs r) := by
    simp only [coalesceRegs, hthresh, hdelay, if_neg hne, coalesced]
  rw [State.writeCr_plain h.busy hreset, hrun, hcoal]
  have hsame : runWriteRegs false (coalesced (BitVec.ofNat 8 thresh) (BitVec.ofNat 8 delay) (s.regs r)) =
      coalesced (BitVec.ofNat 8 thresh) (BitVec.ofNat 8 delay) (s.regs r) :=
    (runWriteRegs_chen _ _).trans (if_pos (Or.inr (Or.inr h.run.symm)))
  rw [hsame, ite_self]

theorem ierWriteRegs_rest {x : RingRegs} (h : AtRest x) (e : BitVec 3) :
    ierWriteRegs e x = ({ x with ier := e }, false) := by
  have hnone : e &&& ~~~(e &&& 0) = e ∧ (e &&& 0 != 0) = false := by
    revert e
    decide
  unfold ierWriteRegs
  rw [h.isr, hnone.1, hnone.2]

theorem State.writeIer_rest {s : State} {r : RingId} (h : AtRest (s.regs r)) (e : BitVec 3) :
    s.writeIer r e = s.setRegs r { s.regs r with ier := e } := by
  unfold State.writeIer
  rw [if_neg (by simp [h.busy]), ierWriteRegs_rest h]
  rfl

/-- The registers of a ring that has been started: its `TAILDESC` is not valid yet. -/
def started (x : RingRegs) : RingRegs := { x with run := true, tailValid := false, idle := false }

theorem State.writeCr_run {s : State} {r : RingId} (h : AtRest (s.regs r)) (hsq : s.cfg.variant = .sq)
    (ht : (s.regs r).thresh ≠ 0) : s.writeCr r (crWord (s.regs r) ||| 1) =
      s.setRegs r (started (coalesced (s.regs r).thresh (s.regs r).delay (s.regs r))) := by
  obtain ⟨hrun, hreset, hthresh, hdelay⟩ := crRun_bits (s.regs r)
  have hcoal : coalesceRegs (crWord (s.regs r) ||| 1) (s.regs r) =
      coalesced (s.regs r).thresh (s.regs r).delay (s.regs r) := by
    simp only [coalesceRegs, hthresh, hdelay, if_neg ht, coalesced]
  rw [State.writeCr_plain h.busy (hreset.trans h.busy), hrun, hcoal, if_pos hsq, runWriteRegs_chen, if_neg, if_neg]
  · rfl
  · exact ne_true_of_eq_false h.run
  · rintro (hb | hst | hr)
    · exact nomatch hb.symm.trans h.busy
    · exact nomatch hst.symm.trans h.stop
    · exact nomatch hr.trans h.run

theorem enabledRegs_rest {x : RingRegs} (h : AtRest x) : enabledRegs x = { started x with chIer := true } := by
  rw [enabledRegs_eq, if_neg]
  · rfl
  · rintro (hb | hst | hr)
    · exact nomatch hb.symm.trans h.busy
    · exact nomatch hst.symm.trans h.stop
    · exact nomatch hr.symm.trans h.run

/-- The registers of a running ring that has been rung. -/
def rung (tail : Word) (x : RingRegs) : RingRegs := { x with taildesc := tail, tailValid := true, idle := false }

theorem tailWriteRegs_rung {x : RingRegs} (hb : x.resetBusy = false) (hr : x.run = true) (hs : x.stopPending = false)
    {tail : Word} (ht : align64 tail = tail) : tailWriteRegs tail x = rung tail x := by
  unfold tailWriteRegs
  rw [if_neg (by simp [hb]), if_pos (by simp [hr, hs]), ht]
  rfl

/-! ### The later steps of `RECOVER_RECONFIG` -/

theorem reconfigTask_of {s : State} {r : RingId} (h : (s.ring r).rstate = .reconfiguring) :
    reconfigTask r .curdesc s = .more (.reconfig r .cr) (s.setRegs r (curWriteRegs (s.ring r).base (s.regs r))) ∧
    reconfigTask r .cr s = .more (.reconfig r .ier) (s.writeCr r (s.coalWord r)) ∧
    reconfigTask r .ier s = .more (.reconfig r .enable) (s.writeIer r 7) :=
  ⟨if_neg (not_not.2 h), if_neg (not_not.2 h), if_neg (not_not.2 h)⟩

theorem reconfigTask_enable {s : State} {r : RingId} (h : (s.ring r).rstate = .reconfiguring)
    (hf : s.unfenced r = false) : reconfigTask r .enable s = .done (s.reenable r) := by
  have hbell : ¬(r.dir = .rx ∧ (s.enableRing r).bellUnordered r = true) := by
    rintro ⟨-, hb⟩
    have hu := ((State.bellUnordered_iff _ _).1 hb).2
    have hsame : (s.enableRing r).unfenced r = s.unfenced r := by simp
    exact nomatch (hsame.symm.trans hu).symm.trans hf
  unfold reconfigTask
  rw [if_neg (not_not.2 h)]
  exact if_neg hbell

/-- The registers a ring at rest has after they have been programmed, and after it has been enabled. -/
def programmed (base : Word) (thresh delay : BitVec 8) (x : RingRegs) : RingRegs :=
  { coalesced thresh delay { x with curdesc := base } with ier := 7 }

theorem AtRest.programmed {x : RingRegs} (h : AtRest x) (base : Word) (thresh delay : BitVec 8) :
    AtRest (programmed base thresh delay x) := ⟨h.run, h.busy, h.stop, h.isr⟩

theorem programmed_thresh (base : Word) (thresh delay : BitVec 8) (x : RingRegs) :
    (programmed base thresh delay x).thresh = thresh := rfl

/-- What a ring's registers say once it is in service again. -/
structure InService (v : Variant) (base : Word) (thresh delay : BitVec 8) (x : RingRegs) : Prop where
  run : x.run = true
  stop : x.stopPending = false
  busy : x.resetBusy = false
  curdesc : x.curdesc = base
  isr : x.isr = 0
  ier : x.ier = 7
  thresh : x.thresh = thresh
  delay : x.delay = delay
  chIer : v = .mc → x.chIer = true

theorem State.enableRing_regs {s : State} {r : RingId} (hq : r.q.val < s.cfg.nq) (h : AtRest (s.regs r))
    (ht : (s.regs r).thresh ≠ 0) (hi : (s.regs r).ier = 7) :
    InService s.cfg.variant (s.regs r).curdesc (s.regs r).thresh (s.regs r).delay ((s.enableRing r).regs r) ∧
      ((s.enableRing r).regs r).tailValid = false := by
  cases hv : s.cfg.variant with
  | sq =>
    have henable : s.enableRing r = s.writeCr r (crWord (s.regs r) ||| 1) := by
      simp only [State.enableRing, hv]
      rfl
    rw [henable, State.writeCr_run h hv ht, State.setRegs_regs, if_pos rfl]
    exact ⟨⟨rfl, h.stop, h.busy, rfl, h.isr, hi, rfl, rfl, fun hmc => nomatch hmc⟩, rfl⟩
  | mc =>
    have henable : s.enableRing r = s.chEnableBits r := by simp only [State.enableRing, hv]
    rw [henable, State.chEnableBits_regs hq, if_pos rfl, enabledRegs_rest h]
    exact ⟨⟨rfl, h.stop, h.busy, rfl, h.isr, hi, rfl, rfl, fun _ => rfl⟩, rfl⟩

theorem State.enableRing_frame {s : State} {r : RingId} (hq : r.q.val < s.cfg.nq) :
    Keeps { regs := (· = r), irq := (· = r.dir), grant := True, env := True } s (s.enableRing r) := by
  cases hv : s.cfg.variant with
  | sq =>
    have henable : s.enableRing r = s.writeCr r (s.regValue (.cr r) ||| 1) := by
      simp only [State.enableRing, hv]
      rfl
    rw [henable]
    exact (State.writeCr_frame s r _).mono {}
  | mc =>
    have henable : s.enableRing r = s.chEnableBits r := by simp only [State.enableRing, hv]
    rw [henable]
    exact (State.chEnableBits_frame hq).mono {}

end Sys2Proof.Machine
end

section
/-! SUPPORT. A whole recovery (R300): the halt, the drain, the rebuild, and the register writes of `RECOVER_RECONFIG`. -/

namespace Sys2Proof.Machine

/-! ### The only command in progress -/

theorem State.setTasks_setTasks_nil {u : State} (hu : u.tasks = []) (ts : List Task) : (u.setTasks ts).setTasks [] = u := by
  rw [← hu]
  rfl

/-- A step of the only command in progress: `u` is the machine without it. -/
theorem resume_stage {u u' : State} {x y : Task} (hu : u.tasks = []) (hstep : taskStep x u = .more y u')
    (hu' : u'.tasks = []) : resume 0 (u.setTasks [x]) = .next (u'.setTasks [y]) := by
  refine resume_more (t := u') rfl ?_ hu'
  rw [← hstep]
  exact congrArg (taskStep x) (State.setTasks_setTasks_nil hu _)

theorem resume_stage_done {u u' : State} {x : Task} (hu : u.tasks = []) (hstep : taskStep x u = .done u') :
    resume 0 (u.setTasks [x]) = .next u' := by
  refine resume_done (x := x) rfl ?_
  rw [← hstep]
  exact congrArg (taskStep x) (State.setTasks_setTasks_nil hu _)

/-! ### The register writes -/

theorem poolLegal_iff (w : RingSw) : poolLegal w = true ↔
    2 ≤ w.cap ∧ w.cap ≤ 32768 ∧ w.base.toNat % 64 = 0 ∧ w.base.toNat + 64 * w.cap ≤ 2 ^ 32 := by
  simp [poolLegal, and_assoc]

theorem State.ringRx_eq (s : State) (r : RingId) : s.ringRx r =
    s.setRegs r (tailWriteRegs (daddr (s.ring r).base ((s.ring r).cap - 1)) (s.regs r)) := rfl

/-- The registers of a running receive ring after its doorbell. -/
theorem tailWriteRegs_inService {v : Variant} {base : Word} {thresh delay : BitVec 8} {x : RingRegs}
    (h : InService v base thresh delay x) {tail : Word} (ht : align64 tail = tail) :
    InService v base thresh delay (tailWriteRegs tail x) ∧ (tailWriteRegs tail x).tailValid = true ∧
      (tailWriteRegs tail x).idle = false ∧ (tailWriteRegs tail x).taildesc = tail := by
  rw [tailWriteRegs_rung h.busy h.run h.stop ht]
  obtain ⟨hrun, hstop, hbusy, hcur, hisr, hier, hthresh, hdelay, hch⟩ := h
  exact ⟨⟨hrun, hstop, hbusy, hcur, hisr, hier, hthresh, hdelay, hch⟩, rfl, rfl, rfl⟩

/-- The last step of `RECOVER_RECONFIG` on a ring whose registers are programmed. -/
theorem State.reenable_regs {s : State} {r : RingId} (hq : r.q.val < s.cfg.nq) (h : AtRest (s.regs r))
    (ht : (s.regs r).thresh ≠ 0) (hi : (s.regs r).ier = 7) (hp : poolLegal (s.ring r) = true) :
    InService s.cfg.variant (s.regs r).curdesc (s.regs r).thresh (s.regs r).delay ((s.reenable r).regs r) ∧
      (r.dir = .tx → ((s.reenable r).regs r).tailValid = false) ∧
      (r.dir = .rx → ((s.reenable r).regs r).tailValid = true ∧ ((s.reenable r).regs r).idle = false ∧
        ((s.reenable r).regs r).taildesc = daddr (s.ring r).base ((s.ring r).cap - 1)) := by
  obtain ⟨hservice, htail⟩ := State.enableRing_regs hq h ht hi
  obtain ⟨h2, -, hal, htop⟩ := (poolLegal_iff _).1 hp
  unfold State.reenable
  cases hd : r.dir with
  | tx => exact ⟨hservice, fun _ => htail, fun h => (nomatch h)⟩
  | rx =>
    have hring : (s.enableRing r).ring r = s.ring r := (State.enableRing_frame hq).rings r id
    have hbell := tailWriteRegs_inService hservice
      (daddr_aligned hal ((s.ring r).cap - 1) htop (by omega))
    rw [State.setRing_regs, State.ringRx_eq, State.setRegs_regs, if_pos rfl, hring]
    exact ⟨hbell.1, fun h => (nomatch h), fun _ => hbell.2⟩

theorem State.reenable_frame {s : State} {r : RingId} (hq : r.q.val < s.cfg.nq) :
    Keeps { regs := (· = r), rings := (· = r), irq := (· = r.dir), grant := True, env := True } s (s.reenable r) := by
  have henable := State.enableRing_frame (s := s) hq
  unfold State.reenable
  cases hd : r.dir with
  | tx => exact Keeps.after (henable.mono { irq := by simp [hd] }) (State.setRing_frame _ r _) {}
  | rx =>
    exact Keeps.after (Keeps.after (henable.mono { irq := by simp [hd] }) (State.setRegs_frame _ r _) {}) (State.setRing_frame _ r _) {}

theorem State.reenable_ring {s : State} {r : RingId} (hq : r.q.val < s.cfg.nq) :
    (s.reenable r).ring r = (s.ring r).become .running := by
  have hring : (s.enableRing r).ring r = s.ring r := (State.enableRing_frame hq).rings r id
  unfold State.reenable
  cases r.dir with
  | tx => rw [State.setRing_ring, if_pos rfl, hring]
  | rx => rw [State.setRing_ring, if_pos rfl, State.ringRx_eq, State.setRegs_ring, hring]

theorem State.reenable_tasks (s : State) (r : RingId) : (s.reenable r).tasks = s.tasks := by
  simp

/-- The four register steps of `RECOVER_RECONFIG` on a ring at rest. -/
theorem reconfig_restores {u : State} {r : RingId} (hq : r.q.val < u.cfg.nq) (hu : u.tasks = [])
    (hst : (u.ring r).rstate = .reconfiguring) (h : AtRest (u.regs r)) (hf : u.unfenced r = false)
    (hp : poolLegal (u.ring r) = true) (h1 : 1 ≤ (u.cfg.ring r).thresh) (ht : (u.cfg.ring r).thresh ≤ 255) :
    ∃ t, follow [resume 0, resume 0, resume 0, resume 0] (u.setTasks [.reconfig r .curdesc]) = some t ∧
      InService u.cfg.variant (u.ring r).base (BitVec.ofNat 8 (u.cfg.ring r).thresh)
        (BitVec.ofNat 8 (u.cfg.ring r).delay) (t.regs r) ∧
      (r.dir = .tx → (t.regs r).tailValid = false) ∧
      (r.dir = .rx → (t.regs r).tailValid = true ∧ (t.regs r).idle = false ∧
        (t.regs r).taildesc = daddr (u.ring r).base ((u.ring r).cap - 1)) ∧
      t.ring r = (u.ring r).become .running ∧ t.tasks = [] ∧
      Keeps { regs := (· = r), rings := (· = r), irq := (· = r.dir), grant := True, env := True } u t := by
  obtain ⟨-, -, hal, -⟩ := (poolLegal_iff _).1 hp
  let x0 := u.regs r
  let thresh := BitVec.ofNat 8 (u.cfg.ring r).thresh
  let delay := BitVec.ofNat 8 (u.cfg.ring r).delay
  let u1 := u.setRegs r { x0 with curdesc := (u.ring r).base }
  have hx1 : u1.regs r = { x0 with curdesc := (u.ring r).base } := by rw [State.setRegs_regs, if_pos rfl]
  have hrest1 : AtRest (u1.regs r) := by
    rw [hx1]
    exact ⟨h.run, h.busy, h.stop, h.isr⟩
  have hstep1 : resume 0 (u.setTasks [.reconfig r .curdesc]) = .next (u1.setTasks [.reconfig r .cr]) := by
    refine resume_stage hu ((reconfigTask_of hst).1.trans ?_) hu
    rw [curWriteRegs_rest h hal]
  let u2 := u1.setRegs r (coalesced thresh delay (u1.regs r))
  have hx2 : u2.regs r = coalesced thresh delay (u1.regs r) := by rw [State.setRegs_regs, if_pos rfl]
  have hrest2 : AtRest (u2.regs r) := by
    rw [hx2]
    exact ⟨hrest1.run, hrest1.busy, hrest1.stop, hrest1.isr⟩
  have hstep2 : resume 0 (u1.setTasks [.reconfig r .cr]) = .next (u2.setTasks [.reconfig r .ier]) := by
    refine resume_stage hu ((reconfigTask_of (s := u1) hst).2.1.trans ?_) hu
    exact congrArg (TaskRes.more _) (State.writeCr_coal hrest1 h1 ht)
  let u3 := u2.setRegs r { u2.regs r with ier := 7 }
  have hx3 : u3.regs r = programmed (u.ring r).base thresh delay x0 := by
    rw [State.setRegs_regs, if_pos rfl, hx2, hx1]
    rfl
  have hstep3 : resume 0 (u2.setTasks [.reconfig r .ier]) = .next (u3.setTasks [.reconfig r .enable]) := by
    refine resume_stage hu ((reconfigTask_of (s := u2) hst).2.2.trans ?_) hu
    exact congrArg (TaskRes.more _) (State.writeIer_rest hrest2 7)
  have hstep4 : resume 0 (u3.setTasks [.reconfig r .enable]) = .next (u3.reenable r) :=
    resume_stage_done hu (reconfigTask_enable (s := u3) hst hf)
  have hne : thresh ≠ 0 := by
    intro h0
    have hval := congrArg BitVec.toNat h0
    rw [BitVec.toNat_ofNat, Nat.mod_eq_of_lt (by omega)] at hval
    have hzero : (0 : BitVec 8).toNat = 0 := rfl
    omega
  have hfinal := State.reenable_regs (s := u3) (r := r) hq (by rw [hx3]; exact h.programmed _ _ _) (by rwa [hx3])
    (by rw [hx3]; rfl) hp
  rw [hx3] at hfinal
  obtain ⟨hservice, htx, hrx⟩ := hfinal
  refine ⟨u3.reenable r, ?_, hservice, htx, hrx, State.reenable_ring (s := u3) hq, ?_, ?_⟩
  · exact (follow_cons hstep1).trans ((follow_cons hstep2).trans ((follow_cons hstep3).trans (follow_one hstep4)))
  · rw [State.reenable_tasks]
    exact hu
  · exact Keeps.after (Keeps.after (Keeps.after ((State.setRegs_frame u r _).mono {}) (State.setRegs_frame u1 r _) {})
      (State.setRegs_frame u2 r _) {}) (State.reenable_frame (s := u3) hq) {}

end Sys2Proof.Machine
end

section
/-! SUPPORT. A whole recovery (R300), from the pending fault to the ring in service. -/

namespace Sys2Proof.Machine

/-- What a recovery of ring `r` may change. -/
def recoveryTouch (r : RingId) : Touch :=
  { regs := (· = r), rings := (· = r), fences := fun _ => True, tags := fun q => r = ⟨.tx, q⟩, txe := fun _ => True,
    rxe := fun _ => True, irq := fun _ => True, grant := True, bytes := fun _ => True, events := True, env := True,
    tasks := True }

/-- A change of the ring's state and counters leaves it its pool. -/
theorem State.HasPool.congr {s t : State} {r : RingId} (h : s.HasPool r) (hc : t.cfg = s.cfg) {w : RingSw}
    (hw : t.ring r = w) (hp : w.present = (s.ring r).present) (hl : cursorsLegal r.dir w = cursorsLegal r.dir (s.ring r)) :
    t.HasPool r := by
  obtain ⟨hq, hpresent, hlegal⟩ := h
  exact ⟨hc ▸ hq, by rw [hw, hp, hpresent], by rw [hw, hl, hlegal]⟩

theorem State.HasPool.legal {s : State} {r : RingId} (h : s.HasPool r) : poolLegal (s.ring r) = true := by
  obtain ⟨-, hp, hc⟩ := h
  obtain ⟨-, -, hpool⟩ := (cursorsLegal_iff _ _).1 hc
  exact (poolLegal_iff _).2 (hpool hp).1

/-- The halt, up to the poll that sees it: the ring is `Halted`, its engine reset. -/
theorem recovery_halts {s : State} {r : RingId} (bs : List Bool) (hq : r.q.val < s.cfg.nq) (hc : s.sw.ctxPresent = true)
    (hst : (s.ring r).rstate = .running) (hpend : (s.ring r).recoveryPending = true) (htasks : s.tasks = [])
    (hbusy : (s.regs r).resetBusy = false) (henv : s.env.resetCompletes = true :: bs) :
    ∃ t1 t2 t3, exec (.recoverBegin r.dir r.q.val) s = .next t1 ∧ exec (.eResetDone r.dir r.q.val) t1 = .next t2 ∧
      exec (.recoverPoll r.dir r.q.val) t2 = .next t3 ∧
      t3.ring r = { s.ring r with rstate := .halted, recoveryPending := false, retries := 0 } ∧
      t3.regs r = { RingRegs.reset with resetCompletes := true } ∧ (∀ q, t3.tags q = s.tags q) ∧ t3.tasks = [] ∧
      Keeps (recoveryTouch r) s t3 := by
  have hnone : s.controlBusy = false ∧ s.bodyBusy r = false := by
    simp [State.controlBusy, State.bodyBusy, htasks]
  obtain ⟨-, -, hbegin⟩ := recoveryBegins s r hq hc hst hpend
  obtain ⟨t1, b, hexec1, hring1, hregs1, -, hb, -, hkeep1⟩ := hbegin hnone.1 hnone.2
  rw [if_neg (by simp [hbusy])] at hregs1
  obtain rfl := hb true bs henv
  have hcfg1 : t1.cfg = s.cfg := hkeep1.cfg id
  obtain ⟨t2, hexec2, hregs2, -, -, -, hkeep2⟩ :=
    resetValues.2 t1 r (hcfg1 ▸ hq) (by rw [hregs1]) (by rw [hregs1])
  have hcfg2 : t2.cfg = s.cfg := (hkeep2.cfg id).trans hcfg1
  have hctx2 : t2.sw.ctxPresent = true := ((hkeep2.context id).1.trans (hkeep1.context id).1).trans hc
  have hring2 := (hkeep2.rings r id).trans hring1
  obtain ⟨t3, hexec3, hring3, -, hkeep3⟩ := recoveryPolls t2 r (hcfg2 ▸ hq) hctx2 (by rw [hring2])
  have hseen : (srWord (t2.regs r)).getLsbD 0 = true := by
    rw [hregs2]
    decide
  rw [if_pos hseen, hring2] at hring3
  refine ⟨t1, t2, t3, hexec1, hexec2, hexec3, hring3, (hkeep3.regs r id).trans hregs2, fun q => ?_, ?_, ?_⟩
  · rw [hkeep3.tags q id, hkeep2.tags q id, hkeep1.tags q id]
  · rw [hkeep3.tasks id, hkeep2.tasks id, hkeep1.tasks id, htasks]
  · have hle1 : Keeps (recoveryTouch r) s t1 := hkeep1.mono (by constructor <;> simp [recoveryTouch])
    have hle2 : Keeps (recoveryTouch r) t1 t2 := hkeep2.mono (by constructor <;> simp [recoveryTouch])
    have hle3 : Keeps (recoveryTouch r) t2 t3 := hkeep3.mono (by constructor <;> simp [recoveryTouch])
    exact (hle1.trans hle2).trans hle3

/-- The drain and the rebuild of a halted ring. -/
theorem recovery_rebuilds {s : State} {r : RingId} (hp : s.HasPool r) (hc : s.sw.ctxPresent = true)
    (hst : (s.ring r).rstate = .halted) (htasks : s.tasks = []) (hh : halted (s.regs r) = true) :
    ∃ t1 t2, exec (.recoverDrain r.dir r.q.val) s = .next t1 ∧ exec (.recoverReconfig r.dir r.q.val) t1 = .next t2 ∧
      (t2.ring r).issue = 0 ∧ (t2.ring r).hwTail = 0 ∧ (t2.ring r).completion = 0 ∧
      (t2.ring r).rstate = .reconfiguring ∧ (t2.ring r).recoveryPending = (s.ring r).recoveryPending ∧
      (t2.ring r).packets = (s.ring r).packets ∧ (t2.ring r).bytes = (s.ring r).bytes ∧
      (t2.ring r).errors = (s.ring r).errors ∧ (t2.ring r).base = (s.ring r).base ∧ (t2.ring r).cap = (s.ring r).cap ∧
      (r.dir = .tx → t2.tags r.q = { s.tags r.q with tagmap := [] }) ∧ t2.regs r = s.regs r ∧ t2.unfenced r = false ∧
      t2.tasks = [.reconfig r .curdesc] ∧ Keeps (recoveryTouch r) s t2 := by
  obtain ⟨t1, hexec1, htx, hrx, hkeep1⟩ := recoveryDrains s r hp hc hst
  have hcfg1 : t1.cfg = s.cfg := hkeep1.cfg id
  obtain ⟨d, hring1⟩ : ∃ d, t1.ring r = { s.ring r with rstate := .reconfiguring, dropped := d } := by
    cases hd : r.dir with
    | tx => exact ⟨_, (htx hd).1⟩
    | rx => exact ⟨(s.ring r).dropped, (hrx hd).1⟩
  have hp1 : t1.HasPool r := hp.congr hcfg1 hring1 rfl rfl
  have htasks1 : t1.tasks = [] := (hkeep1.tasks id).trans htasks
  have hregs1 : t1.regs r = s.regs r := hkeep1.regs r id
  obtain ⟨t2, hexec2, hring2, hfence2, -, -, -, htasks2, hkeep2⟩ := recoveryRebuilds t1 r hp1
    ((hkeep1.context id).1.trans hc) (by rw [hring1]) (by simp [State.bodyBusy, htasks1]) (by rwa [hregs1])
  rw [hring1] at hring2
  have hle1 : Keeps (recoveryTouch r) s t1 := hkeep1.mono (by constructor <;> simp [recoveryTouch])
  have hle2 : Keeps (recoveryTouch r) t1 t2 := hkeep2.mono (by constructor <;> simp [recoveryTouch])
  refine ⟨t1, t2, hexec1, hexec2, by rw [hring2], by rw [hring2], by rw [hring2], by rw [hring2], by rw [hring2],
    by rw [hring2], by rw [hring2], by rw [hring2], by rw [hring2], by rw [hring2], fun hd => ?_,
    (hkeep2.regs r id).trans hregs1, hfence2 r, ?_, hle1.trans hle2⟩
  · obtain ⟨-, -, -, -, htags⟩ := htx hd
    exact (hkeep2.tags r.q id).trans htags
  · rw [htasks2, htasks1]
    rfl

/-- Settles O56: the halt, the rebuild and the register writes, one after the other. -/
theorem recoveryRestores : Obligations.RecoveryRestores := by
  unfold Obligations.RecoveryRestores
  intro s r bs hp hc hst hpend htasks hbusy henv h1 h255 hdelay d q
  obtain ⟨t1, t2, t3, hexec1, hexec2, hexec3, hring3, hregs3, htags3, htasks3, hkeep3⟩ :=
    recovery_halts bs hp.1 hc hst hpend htasks hbusy henv
  have hcfg3 : t3.cfg = s.cfg := hkeep3.cfg id
  have hp3 : t3.HasPool r := hp.congr hcfg3 hring3 rfl rfl
  obtain ⟨t4, t5, hexec4, hexec5, hissue, hhw, hcomp, hst5, hpend5, hpackets, hbytes, herrors, hbase, hcap, htags5, hregs5,
    hfence5, htasks5, hkeep5⟩ := recovery_rebuilds hp3 ((hkeep3.context id).1.trans hc) (by rw [hring3]) htasks3
      (by rw [hregs3]; rfl)
  rw [hring3] at hpend5 hpackets hbytes herrors hbase hcap
  rw [hregs3] at hregs5
  have hcfg5 : t5.cfg = s.cfg := (hkeep5.cfg id).trans hcfg3
  have hlegal : poolLegal (t5.ring r) = true := by
    have h := hp.legal
    rw [poolLegal_iff] at h ⊢
    rwa [hbase, hcap]
  let u := t5.setTasks []
  have hu : t5 = u.setTasks [.reconfig r .curdesc] := by
    rw [← htasks5]
    rfl
  have hrest : AtRest (u.regs r) := by
    rw [State.setTasks_regs, hregs5]
    exact ⟨rfl, rfl, rfl, rfl⟩
  obtain ⟨t, hfollow, hservice, htx, hrx, hring, htasks', hkeep⟩ := reconfig_restores (u := u) (r := r)
    (by rw [State.setTasks_cfg, hcfg5]; exact hp.1) rfl hst5 hrest hfence5 hlegal (by rw [State.setTasks_cfg, hcfg5]; exact h1)
    (by rw [State.setTasks_cfg, hcfg5]; exact h255)
  rw [← hu] at hfollow
  simp only [u, State.setTasks_cfg, State.setTasks_ring, hcfg5, hbase, hcap] at hservice hrx hring
  have hkeepu : Keeps (recoveryTouch r) t5 t :=
    ((State.setTasks_frame t5 []).mono (by constructor <;> simp [recoveryTouch])).trans
      (hkeep.mono (by constructor <;> simp [recoveryTouch]))
  have hkeeps : Keeps (recoveryTouch r) s t := (hkeep3.trans hkeep5).trans hkeepu
  obtain ⟨hrun, hstop, hnb, hcur, hisr, hier, hthresh, hdly, hch⟩ := hservice
  refine ⟨t, ?_, ?_, ?_, ?_, ?_, ?_, ?_, ?_, ?_, hrun, hstop, hnb, hcur, hisr, hier, hthresh, hdly, hch, fun hd => ?_,
    fun hd => hrx hd, fun r' hr => ⟨hkeeps.regs r' hr, hkeeps.rings r' hr⟩, htasks', hkeeps.answers id⟩
  · exact (follow_cons hexec1).trans ((follow_cons hexec2).trans ((follow_cons hexec3).trans
      ((follow_cons hexec4).trans ((follow_cons hexec5).trans hfollow))))
  · rw [hring]
    exact hissue
  · rw [hring]
    exact hhw
  · rw [hring]
    exact hcomp
  · rw [hring]
    rfl
  · rw [hring]
    exact hpend5
  · rw [hring]
    exact hpackets
  · rw [hring]
    exact hbytes
  · rw [hring]
    exact herrors
  · have htags : t.tags r.q = { s.tags r.q with tagmap := [] } := by
      rw [hkeep.tags r.q id, State.setTasks_tags, htags5 hd, htags3]
    rw [htags]
    exact ⟨htx hd, rfl, rfl⟩

end Sys2Proof.Machine
end

section
/-! SUPPORT. `DETACH` (R425): the rings made `Fatal`, masked and reset one access at a time, polled, and given back. -/

namespace Sys2Proof.Machine

/-! ### Every ring in turn -/

theorem chansBelow_nodup (nq : Nat) : (chansBelow nq).Nodup := List.Nodup.filter _ (by decide)

theorem ringsBelow_nodup (nq : Nat) : (ringsBelow nq).Nodup := by
  have hinj (d : Dir) : Function.Injective fun c : Chan => (⟨d, c⟩ : RingId) := fun _ _ h => congrArg RingId.q h
  refine List.nodup_append.2 ⟨(chansBelow_nodup nq).map (hinj .tx), (chansBelow_nodup nq).map (hinj .rx), ?_⟩
  intro r hr t ht
  obtain ⟨c, -, rfl⟩ := List.mem_map.1 hr
  obtain ⟨e, -, rfl⟩ := List.mem_map.1 ht
  exact fun h => nomatch congrArg RingId.dir h

/-- The rings `rs`, each changed by `g`. -/
def State.mapRings (s : State) (g : RingSw → RingSw) (rs : List RingId) : State :=
  s.eachRing (fun t r => t.setRing r (g (t.ring r))) rs

theorem State.mapRings_cons (s : State) (g : RingSw → RingSw) (r : RingId) (rs : List RingId) :
    s.mapRings g (r :: rs) = (s.setRing r (g (s.ring r))).mapRings g rs := rfl

theorem State.mapRings_frame (g : RingSw → RingSw) (rs : List RingId) : ∀ s : State,
    Keeps { rings := (· ∈ rs) } s (s.mapRings g rs) := by
  induction rs with
  | nil => exact fun s => Keeps.refl _ s
  | cons r rs ih =>
    intro s
    exact Keeps.after ((State.setRing_frame s r _).mono { rings := fun t h => List.mem_cons.2 (Or.inl h) })
      (ih (s.setRing r (g (s.ring r)))) { rings := fun t h => List.mem_cons_of_mem _ h }

theorem State.mapRings_ring (g : RingSw → RingSw) (rs : List RingId) : rs.Nodup → ∀ s : State, ∀ r ∈ rs,
    (s.mapRings g rs).ring r = g (s.ring r) := by
  induction rs with
  | nil => exact fun _ _ r hr => nomatch hr
  | cons r rs ih =>
    intro hnodup s t ht
    obtain ⟨hr, hrs⟩ := List.nodup_cons.1 hnodup
    rw [State.mapRings_cons]
    obtain rfl | hin := List.mem_cons.1 ht
    · rw [(State.mapRings_frame g rs _).rings t hr, State.setRing_ring, if_pos rfl]
    · have hne : t ≠ r := fun e => hr (e ▸ hin)
      rw [ih hrs _ t hin, State.setRing_ring, if_neg hne]

/-- The tags of the channels `qs` forgotten. -/
def State.noTags (s : State) (qs : List Chan) : State := qs.foldl (fun t q => t.setTags q ⟨0, []⟩) s

theorem State.setTags_frame (s : State) (q : Chan) (x : TagState) : Keeps { tags := (· = q) } s (s.setTags q x) := by
  constructor
  case tags =>
    intro p (h : ¬p = q)
    rw [State.setTags_tags, if_neg h]
  all_goals simp

theorem State.noTags_frame (qs : List Chan) : ∀ s : State, Keeps { tags := (· ∈ qs) } s (s.noTags qs) := by
  induction qs with
  | nil => exact fun s => Keeps.refl _ s
  | cons q qs ih =>
    intro s
    exact Keeps.after ((State.setTags_frame s q _).mono { tags := fun t h => List.mem_cons.2 (Or.inl h) })
      (ih (s.setTags q ⟨0, []⟩)) { tags := fun t h => List.mem_cons_of_mem _ h }

theorem State.noTags_tags (qs : List Chan) : ∀ s : State, ∀ q ∈ qs, (s.noTags qs).tags q = ⟨0, []⟩ := by
  induction qs with
  | nil => exact fun _ q hq => nomatch hq
  | cons p qs ih =>
    intro s q hq
    change ((s.setTags p ⟨0, []⟩).noTags qs).tags q = _
    by_cases hin : q ∈ qs
    · exact ih _ q hin
    · obtain rfl := (List.mem_cons.1 hq).resolve_right hin
      rw [(State.noTags_frame qs _).tags q hin, State.setTags_tags, if_pos rfl]

/-! ### The first step -/

theorem exec_detach {s : State} (hc : s.sw.ctxPresent = true) (hctl : s.controlBusy = false) : exec .detach s =
    if s.ringIds.any fun r => inRecovery (s.ring r).rstate then .refused .wrongRingState
    else .next (s.quiesce.addTask (.detach (.mask s.maskAccesses))) :=
  (withControl_off s _ hctl).trans (withContext_on s _ hc)

theorem detach_begins (s : State) (hc : s.sw.ctxPresent = true) :
    (s.controlBusy = true → exec .detach s = .refused .contextBusy) ∧
    (s.controlBusy = false → (∃ r : RingId, r.q.val < s.cfg.nq ∧ inRecovery (s.ring r).rstate = true) →
      exec .detach s = .refused .wrongRingState) ∧
    (s.controlBusy = false → (∀ r : RingId, r.q.val < s.cfg.nq → inRecovery (s.ring r).rstate = false) →
      ∃ t, exec .detach s = .next t ∧ t.tasks = s.tasks ++ [.detach (.mask s.maskAccesses)] ∧
        (∀ r : RingId, r.q.val < s.cfg.nq → t.ring r = { s.ring r with rstate := .fatal, recoveryPending := false }) ∧
        Keeps { rings := fun r => r.q.val < s.cfg.nq, tasks := True } s t) := by
  have hany : (s.ringIds.any fun r => inRecovery (s.ring r).rstate) = true ↔
      ∃ r : RingId, r.q.val < s.cfg.nq ∧ inRecovery (s.ring r).rstate = true := by
    simp only [List.any_eq_true, State.ringIds, mem_ringsBelow]
  refine ⟨fun hctl => withControl_on s _ hctl, fun hctl h => ?_, fun hctl h => ?_⟩
  · rw [exec_detach hc hctl, if_pos (hany.2 h)]
  · have hno : ¬(s.ringIds.any fun r => inRecovery (s.ring r).rstate) = true := by
      rw [hany]
      rintro ⟨r, hr, hin⟩
      exact nomatch hin.symm.trans (h r hr)
    have hquiet : s.quiesce = s.mapRings (fun w => (w.become .fatal).pending false) (ringsBelow s.cfg.nq) := rfl
    rw [exec_detach hc hctl, if_neg hno, hquiet]
    have hframe := State.mapRings_frame (fun w => (w.become .fatal).pending false) (ringsBelow s.cfg.nq) s
    refine ⟨_, rfl, ?_, fun r hr => ?_, Keeps.after (hframe.mono { rings := ?_ }) (State.addTask_frame _ _) {}⟩
    · rw [State.addTask_tasks, hframe.tasks id]
    · rw [State.addTask_ring, State.mapRings_ring _ _ (ringsBelow_nodup _) s r ((mem_ringsBelow _ _).2 hr)]
      rfl
    · exact fun r h => (mem_ringsBelow _ _).1 h

/-! ### One access -/

theorem accessStep_cons {a : Access} {s : State} (h : a.unordered s = false) (as : List Access)
    (k : List Access → State → TaskRes) : accessStep (a :: as) s k = k (a.left s as) (a.run s) := by
  rw [accessStep, if_neg (by simp [h])]

/-- An access of `DETACH`: no doorbell, and nothing is read. -/
theorem detachTask_mask {s : State} {a : Access} (hu : a.unordered s = false) {as : List Access} (hl : a.left s as = as) :
    detachTask (.mask (a :: as)) s = .more (.detach ((a.run s).detachMasks as)) (a.run s) := by
  rw [detachTask, accessStep_cons hu, hl]

theorem State.detachMasks_eq (s : State) (as : List Access) : s.detachMasks as =
    match as with | [] => DetachStage.poll (ringsBelow s.cfg.nq) 0 | _ :: _ => .mask as := by
  cases as <;> rfl

/-- The step of one access of `DETACH`, which runs `u`. -/
theorem resume_mask {s : State} {k : Nat} {a : Access} {as : List Access} (hk : s.tasks[k]? = some (.detach (.mask (a :: as))))
    (hu : a.unordered (s.rest k) = false) (hl : a.left (s.rest k) as = as) (hcfg : (a.run (s.rest k)).cfg = s.cfg)
    (htasks : (a.run (s.rest k)).tasks = s.tasks.eraseIdx k) :
    resume k s = .next ((a.run (s.rest k)).setTasks (s.tasks.set k (.detach (s.detachMasks as)))) := by
  have hmasks : (a.run (s.rest k)).detachMasks as = s.detachMasks as := by
    rw [State.detachMasks_eq, State.detachMasks_eq, hcfg]
  refine resume_more hk ?_ htasks
  rw [← hmasks]
  exact detachTask_mask hu hl

/-- One access of the mask phase, what it makes of its ring and what it leaves. -/
theorem detach_masks (s : State) (k : Nat) (r : RingId) (a : Access) (as : List Access)
    (hk : s.tasks[k]? = some (.detach (.mask (a :: as)))) (hq : r.q.val < s.cfg.nq)
    (ha : a = .maskIer r ∨ (s.cfg.variant = .mc ∧ a = .maskChIer r) ∨ a = .reset r) :
    let x := s.regs r
    ∃ t b, resume k s = .next t ∧ t.tasks = s.tasks.set k (.detach (s.detachMasks as)) ∧
      (a = .maskIer r → t.regs r = if x.resetBusy = true then x else { x with ier := 0 }) ∧
      (a = .maskChIer r → t.regs r = { x with chIer := false } ∧
        (t.irq r.dir = true ↔ s.irq r.dir = true ∨ ∃ c : Chan, c ≠ r.q ∧ c.val < s.cfg.nq ∧
          (s.regs ⟨r.dir, c⟩).chIer = true ∧ (s.regs ⟨r.dir, c⟩).chIsr = true)) ∧
      (a = .reset r →
        t.regs r = (if x.resetBusy = true then x else { x with resetBusy := true, resetCompletes := b }) ∧
        (∀ b' bs, s.env.resetCompletes = b' :: bs → b = b') ∧
        t.hw.grant = (if x.resetBusy = false ∧ s.cfg.variant = .mc ∧ r.dir = .tx ∧ s.hw.grant = some r.q
          then none else s.hw.grant)) ∧
      Keeps { regs := (· = r), irq := fun d => a = .maskChIer r ∧ d = r.dir, grant := a = .reset r, env := a = .reset r,
              tasks := True } s t := by
  intro x
  have hrest := s.rest_frame k
  obtain rfl | ⟨-, rfl⟩ | rfl := ha
  · let u := (s.rest k).writeIer r 0
    have hframe := State.writeIer_frame (s.rest k) r 0
    have hstep := resume_mask hk rfl rfl (hframe.cfg id) (hframe.tasks id)
    refine ⟨u.setTasks _, false, hstep, rfl, fun _ => ?_, fun h => (nomatch h), fun h => (nomatch h), ?_⟩
    · rw [State.setTasks_regs, State.writeIer_regs_self]
      simp [State.rest, x]
    · have hirq : Keeps { regs := (· = r) } (s.rest k) u := { hframe with
        irq := fun d _ => by simp [u, State.writeIer_irq] }
      exact Keeps.after (Keeps.after (hrest.mono {}) hirq {}) (State.setTasks_frame _ _) {}
  · let u := (s.rest k).clearBit (.chIer r.dir) r.q
    have hq' : r.q.val < (s.rest k).cfg.nq := hq
    have hframe := State.clearChIer_frame (r := r) hq'
    have hstep := resume_mask hk rfl rfl (hframe.cfg id) (hframe.tasks id)
    refine ⟨u.setTasks _, false, hstep, rfl, fun h => (nomatch h), fun _ => ⟨?_, ?_⟩, fun h => (nomatch h), ?_⟩
    · rw [State.setTasks_regs, State.clearChIer_regs hq', if_pos rfl]
      rfl
    · rw [State.setTasks_irq, State.clearChIer_irq]
      refine or_congr_right ⟨?_, ?_⟩
      · rintro ⟨-, c, hc, ⟨hier, hne⟩, hisr⟩
        exact ⟨c, hne, hc, hier, hisr⟩
      · rintro ⟨c, hne, hc, hier, hisr⟩
        exact ⟨rfl, c, hc, ⟨hier, hne⟩, hisr⟩
    · exact Keeps.after (Keeps.after (hrest.mono {}) hframe {}) (State.setTasks_frame _ _) {}
  · let u := (s.rest k).writeCr r crReset
    have hframe := State.writeCr_frame (s.rest k) r crReset
    have hstep := resume_mask hk rfl rfl (hframe.cfg id) (hframe.tasks id)
    refine ⟨u.setTasks _, (s.rest k).drawResetCompletes.1, hstep, rfl, fun h => (nomatch h), fun h => (nomatch h),
      fun _ => ⟨?_, fun b' bs he => ?_, ?_⟩, ?_⟩
    · rw [State.setTasks_regs, State.writeCr_crReset_regs]
      rfl
    · rw [State.drawResetCompletes_cons (s := s.rest k) he]
    · rw [State.setTasks_grant, State.writeCr_crReset_grant]
      rfl
    · exact Keeps.after (Keeps.after (hrest.mono {}) hframe {}) (State.setTasks_frame _ _) {}

/-! ### One poll -/

theorem detach_polls (s : State) (k n : Nat) (r : RingId) (rs : List RingId)
    (hk : s.tasks[k]? = some (.detach (.poll (r :: rs) n))) :
    (halted (s.regs r) = true →
      ∃ t, resume k s = .next t ∧ t.tasks = s.tasks.set k (.detach (.poll rs 0)) ∧ Keeps { tasks := True } s t) ∧
    (halted (s.regs r) = false → n + 1 < s.cfg.resetRetryMax →
      ∃ t, resume k s = .next t ∧ t.tasks = s.tasks.set k (.detach (.poll (r :: rs) (n + 1))) ∧
        Keeps { tasks := True } s t) ∧
    (halted (s.regs r) = false → s.cfg.resetRetryMax ≤ n + 1 →
      ∃ t, resume k s = .next t ∧ t.tasks = s.tasks.eraseIdx k ∧ t.answers = s.answers ++ [⟨0x02, .resetTimeout⟩] ∧
        t.ring r = { s.ring r with fatalCause := some .resetTimeout } ∧
        Keeps { rings := (· = r), answers := True, tasks := True } s t) := by
  have hsr : ((s.rest k).regValue (.sr r)).getLsbD 0 = halted (s.regs r) := (srWord_bits _).1
  refine ⟨fun hh => ?_, fun hh hn => ?_, fun hh hn => ?_⟩
  · exact ⟨_, resume_moves hk (if_pos (hsr.trans hh)), rfl, State.withTask_frame s k _⟩
  · have hno : ¬((s.rest k).regValue (.sr r)).getLsbD 0 = true := by
      rw [hsr, hh]
      exact Bool.false_ne_true
    have hmore : ¬(s.rest k).cfg.resetRetryMax ≤ n + 1 := Nat.not_le.2 hn
    exact ⟨_, resume_moves hk ((if_neg hno).trans (if_neg hmore)), rfl, State.withTask_frame s k _⟩
  · have hno : ¬((s.rest k).regValue (.sr r)).getLsbD 0 = true := by
      rw [hsr, hh]
      exact Bool.false_ne_true
    have hlast : (s.rest k).cfg.resetRetryMax ≤ n + 1 := hn
    refine ⟨_, resume_done hk ((if_neg hno).trans (if_pos hlast)), rfl, rfl, ?_, ?_⟩
    · rw [State.answer_ring, State.setRing_ring, if_pos rfl]
      rfl
    · exact Keeps.after (Keeps.after ((s.rest_frame k).mono {}) (State.setRing_frame _ r _) {})
        (State.answer_frame _ _ _) {}

end Sys2Proof.Machine
end

section
/-! SUPPORT. The last step of `DETACH` (R425): every pool given back, the pools being apart from each other. -/

namespace Sys2Proof.Machine

/-! ### Pools apart -/

/-- The pools of two rings do not overlap. -/
def State.PoolsApart (s : State) (r r' : RingId) : Prop :=
  (s.ring r).base.toNat + 64 * (s.ring r).cap ≤ (s.ring r').base.toNat ∨
    (s.ring r').base.toNat + 64 * (s.ring r').cap ≤ (s.ring r).base.toNat

theorem State.HasPool.top {s : State} {r : RingId} (h : s.HasPool r) :
    (s.ring r).base.toNat + 64 * (s.ring r).cap ≤ 2 ^ 32 := by
  obtain ⟨-, -, -, htop⟩ := (poolLegal_iff _).1 h.legal
  exact htop

/-- A byte of a descriptor word of a pool, counted from address 0. -/
theorem State.inWord_bounds {s : State} {r : RingId} {i off : Nat} {a : Word} (h : s.HasPool r) (hi : i < (s.ring r).cap)
    (ho : wordOff off) (ha : s.inWord r i off a) :
    (s.ring r).base.toNat ≤ a.toNat ∧ a.toNat < (s.ring r).base.toNat + 64 * (s.ring r).cap := by
  have hslot := h.slot hi
  have hpool := State.inWord_pool hslot.fits hi ho ha
  have htop := h.top
  rw [within32_iff] at hpool
  generalize (s.ring r).base = b at hpool htop ⊢
  bv_omega

/-- A byte of one pool's descriptors is none of another's. -/
theorem State.PoolsApart.not_inWords {s : State} {r r' : RingId} (h : s.PoolsApart r r') (hp : s.HasPool r)
    (hp' : s.HasPool r') {i j off : Nat} {offs : List Nat} {a : Word} (hi : i < (s.ring r).cap)
    (hj : j < (s.ring r').cap) (ho : wordOff off) (hoffs : ∀ o ∈ offs, wordOff o) (ha : s.inWord r' j off a) :
    ¬s.inWords r i offs a := by
  rintro ⟨o, hin, hw⟩
  have h1 := State.inWord_bounds hp hi (hoffs o hin) hw
  have h2 := State.inWord_bounds hp' hj ho ha
  obtain h | h := h <;> omega

/-! ### Every ring's pool given back -/

/-- The rings `rs` have pools, each apart from the others. -/
structure State.Pools (s : State) (rs : List RingId) : Prop where
  pool : ∀ r ∈ rs, s.HasPool r
  apart : ∀ r ∈ rs, ∀ r' ∈ rs, r ≠ r' → s.PoolsApart r r'

theorem State.Pools.tail {s : State} {r : RingId} {rs : List RingId} (h : s.Pools (r :: rs)) : s.Pools rs where
  pool t ht := h.pool t (List.mem_cons_of_mem _ ht)
  apart t ht t' ht' := h.apart t (List.mem_cons_of_mem _ ht) t' (List.mem_cons_of_mem _ ht')

/-- Another ring's pool stays as it is. -/
theorem freeRing_other_getD {s : State} {r r' : RingId} (hp : s.HasPool r) (hp' : s.HasPool r') (hne : r' ≠ r)
    (ha : s.PoolsApart r r') {j p : Nat} (hj : j < (s.ring r').cap) (ho : wordOff p) :
    (s.freeRing r).getD r' j p = s.getD r' j p := by
  have hframe := freeRing_frame s r
  refine State.getD_congr (congrArg RingSw.base (hframe.rings r' hne)) fun a hin => hframe.bytes a ?_
  rintro ⟨i, hi, hw⟩
  exact ha.not_inWords hp hp' hi hj ho (wordOff_cleared _) hin hw

theorem State.Pools.freeRing {s : State} {r : RingId} {rs : List RingId} (h : s.Pools (r :: rs)) (hr : r ∉ rs) :
    (s.freeRing r).Pools rs := by
  have hframe := freeRing_frame s r
  have hring {t : RingId} (ht : t ∈ rs) : (s.freeRing r).ring t = s.ring t :=
    hframe.rings t fun e => hr (e ▸ ht)
  refine ⟨fun t ht => (h.tail.pool t ht).congr (hframe.cfg id) (hring ht) rfl rfl, fun t ht t' ht' hne => ?_⟩
  unfold State.PoolsApart
  rw [hring ht, hring ht']
  exact h.tail.apart t ht t' ht' hne

def State.freeRings (s : State) (rs : List RingId) : State := s.eachRing State.freeRing rs

theorem State.freeRings_cons (s : State) (r : RingId) (rs : List RingId) :
    s.freeRings (r :: rs) = (s.freeRing r).freeRings rs := rfl

theorem State.freeRings_frame (rs : List RingId) : rs.Nodup → ∀ {s : State}, s.Pools rs →
    Keeps { rings := (· ∈ rs), fences := (· ∈ rs), events := True,
            bytes := fun a => ∃ r i, r ∈ rs ∧ i < (s.ring r).cap ∧ s.inWords r i (clearedOffs s.cfg.variant) a } s
      (s.freeRings rs) := by
  induction rs with
  | nil => exact fun _ s _ => Keeps.refl _ s
  | cons r rs ih =>
    intro hnodup s hp
    obtain ⟨hr, hrs⟩ := List.nodup_cons.1 hnodup
    have hone := freeRing_frame s r
    refine Keeps.after (hone.mono {
      rings := fun t h => List.mem_cons.2 (Or.inl h)
      fences := fun t h => List.mem_cons.2 (Or.inl h)
      bytes := ?_ }) (ih hrs (hp.freeRing hr)) {
      rings := fun t h => List.mem_cons_of_mem _ h
      fences := fun t h => List.mem_cons_of_mem _ h
      bytes := ?_ }
    · rintro a ⟨i, hi, ha⟩
      exact ⟨r, i, List.mem_cons_self, hi, ha⟩
    · rintro a ⟨t, i, ht, hi, ha⟩
      have hring := hone.rings t fun e => hr (e ▸ ht)
      rw [State.inWords_congr (congrArg RingSw.base hring), hone.cfg id] at ha
      rw [hring] at hi
      exact ⟨t, i, List.mem_cons_of_mem _ ht, hi, ha⟩

theorem State.freeRings_ring (rs : List RingId) : rs.Nodup → ∀ {s : State}, s.Pools rs → ∀ r ∈ rs,
    (s.freeRings rs).ring r = { s.ring r with
      present := false
      populated := false
      dropped := (s.ring r).dropped + dropsOf r.dir (s.heldIn r (List.range (s.ring r).cap)) } := by
  induction rs with
  | nil => exact fun _ _ _ r hr => nomatch hr
  | cons r rs ih =>
    intro hnodup s hp t ht
    obtain ⟨hr, hrs⟩ := List.nodup_cons.1 hnodup
    have hpr := hp.pool r List.mem_cons_self
    rw [State.freeRings_cons]
    obtain rfl | hin := List.mem_cons.1 ht
    · rw [(State.freeRings_frame rs hrs (hp.freeRing hr)).rings t hr, freeRing_ring hpr]
    · have hne : t ≠ r := fun e => hr (e ▸ hin)
      have hring := (freeRing_frame s r).rings t hne
      have hheld : (s.freeRing r).heldIn t (List.range (s.ring t).cap) = s.heldIn t (List.range (s.ring t).cap) :=
        congrArg List.length (List.filter_congr fun i hi => by
          rw [freeRing_other_getD hpr (hp.pool t ht) hne (hp.apart r List.mem_cons_self t ht hne.symm)
            (List.mem_range.1 hi) (by decide)])
      rw [ih hrs (hp.freeRing hr) t hin, hring, hheld]

theorem State.freeRings_events (rs : List RingId) : rs.Nodup → ∀ {s : State}, s.Pools rs → (s.freeRings rs).events =
    s.events ++ rs.flatMap fun r => (List.range (s.ring r).cap).flatMap (s.releaseEvents r) := by
  induction rs with
  | nil => exact fun _ _ _ => (List.append_nil _).symm
  | cons r rs ih =>
    intro hnodup s hp
    obtain ⟨hr, hrs⟩ := List.nodup_cons.1 hnodup
    have hpr := hp.pool r List.mem_cons_self
    have hsame : (rs.flatMap fun t => (List.range ((s.freeRing r).ring t).cap).flatMap ((s.freeRing r).releaseEvents t)) =
        rs.flatMap fun t => (List.range (s.ring t).cap).flatMap (s.releaseEvents t) := by
      refine List.flatMap_congr fun t ht => ?_
      have hne : t ≠ r := fun e => hr (e ▸ ht)
      have ht' := List.mem_cons_of_mem r ht
      rw [(freeRing_frame s r).rings t hne]
      refine List.flatMap_congr fun i hi => State.releaseEvents_congr ((freeRing_frame s r).cfg id) fun p hpoff => ?_
      exact freeRing_other_getD hpr (hp.pool t ht') hne (hp.apart r List.mem_cons_self t ht' hne.symm)
        (List.mem_range.1 hi) hpoff
    rw [State.freeRings_cons, ih hrs (hp.freeRing hr), hsame, freeRing_events hpr, List.flatMap_cons, List.append_assoc]

theorem State.freeRings_cleared (rs : List RingId) : rs.Nodup → ∀ {s : State}, s.Pools rs → ∀ r ∈ rs, ∀ i,
    i < (s.ring r).cap → ∀ off ∈ clearedOffs s.cfg.variant,
      memWord (s.freeRings rs).mem (s.slotAddr r i off) = 0 := by
  induction rs with
  | nil => exact fun _ _ _ r hr => nomatch hr
  | cons r rs ih =>
    intro hnodup s hp t ht i hi off hoff
    obtain ⟨hr, hrs⟩ := List.nodup_cons.1 hnodup
    have hpr := hp.pool r List.mem_cons_self
    have hone := freeRing_frame s r
    have hpools := hp.freeRing hr
    rw [State.freeRings_cons]
    obtain rfl | hin := List.mem_cons.1 ht
    · have hcleared := freeRing_cleared hpr hi off (by rwa [hone.cfg id])
      have haddr : (s.freeRing t).slotAddr t i off = s.slotAddr t i off := by
        rw [State.slotAddr, State.slotAddr, freeRing_ring hpr]
      rw [State.getD, haddr] at hcleared
      rw [← hcleared]
      refine memWord_congr fun a ha => (State.freeRings_frame rs hrs hpools).bytes a ?_
      rintro ⟨t', j, ht', hj, hw⟩
      have hne : t' ≠ t := fun e => hr (e ▸ ht')
      have hring := hone.rings t' hne
      rw [State.inWords_congr (congrArg RingSw.base hring), hone.cfg id] at hw
      rw [hring] at hj
      have hap := hp.apart t' (List.mem_cons_of_mem _ ht') t ht hne
      exact hap.not_inWords (hp.pool t' (List.mem_cons_of_mem _ ht')) hpr hj hi (wordOff_cleared _ off hoff)
        (wordOff_cleared _) ha hw
    · have hring := hone.rings t fun e => hr (e ▸ hin)
      have hih := ih hrs hpools t hin i (by rwa [hring]) off (by rwa [hone.cfg id])
      rwa [State.slotAddr, hring] at hih

/-! ### The ring manager without a context -/

theorem State.vacate_eq (s : State) : s.vacate =
    ((((s.mapRings RingSw.vacant s.ringIds).noTags s.chans).setLink false).setModes ⟨.off, .off, false⟩).setCtx false :=
  rfl

theorem State.setLink_frame (s : State) (up : Bool) : Keeps { context := True } s (s.setLink up) := by
  constructor <;> simp

theorem State.setModes_frame (s : State) (c : Caps) : Keeps { context := True } s (s.setModes c) := by
  constructor <;> simp

theorem State.setCtx_frame (s : State) (on : Bool) : Keeps { context := True } s (s.setCtx on) := by
  constructor <;> simp

theorem State.vacate_frame (s : State) :
    Keeps { rings := fun r => r.q.val < s.cfg.nq, tags := fun q => q.val < s.cfg.nq, context := True } s s.vacate := by
  rw [State.vacate_eq]
  exact Keeps.after (Keeps.after (Keeps.after (Keeps.after
    ((State.mapRings_frame RingSw.vacant s.ringIds s).mono { rings := fun r h => (mem_ringsBelow _ _).1 h })
    (State.noTags_frame s.chans _) { tags := fun q h => (mem_chansBelow _ _).1 h })
    (State.setLink_frame _ _) {}) (State.setModes_frame _ _) {}) (State.setCtx_frame _ _) {}

theorem State.vacate_ring (s : State) {r : RingId} (h : r.q.val < s.cfg.nq) : s.vacate.ring r = (s.ring r).vacant := by
  rw [State.vacate_eq, State.setCtx_ring, State.setModes_ring, State.setLink_ring, (State.noTags_frame s.chans _).rings r id]
  exact State.mapRings_ring _ _ (ringsBelow_nodup _) s r ((mem_ringsBelow _ _).2 h)

theorem State.vacate_tags (s : State) {q : Chan} (h : q.val < s.cfg.nq) : s.vacate.tags q = ⟨0, []⟩ := by
  rw [State.vacate_eq, State.setCtx_tags, State.setModes_tags, State.setLink_tags]
  exact State.noTags_tags s.chans _ q ((mem_chansBelow _ _).2 h)

theorem State.vacate_context (s : State) : s.vacate.sw.ctxPresent = false ∧ s.vacate.sw.linkUp = false ∧
    s.vacate.sw.txCsum = .off ∧ s.vacate.sw.rxCsum = .off ∧ s.vacate.sw.tsEnabled = false :=
  ⟨rfl, rfl, rfl, rfl, rfl⟩

/-! ### `DETACH` -/

/-- Settles O59: the first step, one access, one poll, and the last step, in which every pool is given back. -/
theorem detachProceeds : Obligations.DetachProceeds := by
  unfold Obligations.DetachProceeds
  refine ⟨fun s hc => detach_begins s hc, fun s k r a as hk => ?_, detach_polls, fun s k n hk => ?_⟩
  · intro x left hq ha
    have hleft : s.detachMasks as = left := State.detachMasks_eq s as
    have hmask := detach_masks s k r a as hk hq ha
    rw [hleft] at hmask
    exact hmask
  · intro here cap low held hpools hapart
    let u := s.rest k
    have hrest := s.rest_frame k
    have hp : u.Pools (ringsBelow s.cfg.nq) :=
      ⟨fun r hr => hpools r ((mem_ringsBelow _ _).1 hr), fun r hr r' hr' hne =>
        hapart r r' ((mem_ringsBelow _ _).1 hr) ((mem_ringsBelow _ _).1 hr') hne⟩
    have hnodup := ringsBelow_nodup s.cfg.nq
    have hframe := State.freeRings_frame _ hnodup hp
    have hring := State.freeRings_ring _ hnodup hp
    have hevents := State.freeRings_events _ hnodup hp
    have hcleared := State.freeRings_cleared _ hnodup hp
    have hstep : resume k s = .next ((u.freeRings (ringsBelow s.cfg.nq)).vacate.answer 0x02 .ok) := resume_done hk rfl
    generalize u.freeRings (ringsBelow s.cfg.nq) = f at hframe hring hevents hcleared hstep
    have hcfg : f.cfg = s.cfg := hframe.cfg id
    have hvacate := f.vacate_frame
    have hanswer := State.answer_frame f.vacate 0x02 .ok
    refine ⟨_, hstep, ?_, ?_, ?_, fun r hr off hoff i hi => ?_, fun r hr => ?_, fun q hq => ?_, ?_, ?_, ?_, ?_, ?_, ?_⟩
    · rw [hanswer.tasks id, hvacate.tasks id, hframe.tasks id]
      rfl
    · rw [State.answer_answers, hvacate.answers id, hframe.answers id, hrest.answers id]
    · rw [hanswer.events id, hvacate.events id, hevents]
      rfl
    · have hword := hcleared r ((mem_ringsBelow _ _).2 hr) i hi off hoff
      refine Eq.trans (memWord_congr fun a _ => ?_) hword
      rw [hanswer.bytes a id, hvacate.bytes a id]
    · have hr' : r.q.val < f.cfg.nq := by rw [hcfg]; exact hr
      rw [hanswer.rings r id, f.vacate_ring hr', hring r ((mem_ringsBelow _ _).2 hr)]
      cases hd : r.dir <;> rfl
    · have hq' : q.val < f.cfg.nq := by rw [hcfg]; exact hq
      rw [hanswer.tags q id, f.vacate_tags hq']
    · exact (hanswer.context id).1.trans f.vacate_context.1
    · exact (hanswer.context id).2.1.trans f.vacate_context.2.1
    · exact (hanswer.context id).2.2.1.trans f.vacate_context.2.2.1
    · exact (hanswer.context id).2.2.2.1.trans f.vacate_context.2.2.2.1
    · exact (hanswer.context id).2.2.2.2.trans f.vacate_context.2.2.2.2
    · refine Keeps.after (Keeps.after (Keeps.after (hrest.mono {}) hframe ?_) hvacate ?_) hanswer {}
      · refine { rings := fun r h => (mem_ringsBelow _ _).1 h, fences := fun r h => (mem_ringsBelow _ _).1 h, bytes := ?_ }
        rintro a ⟨r, i, hr, hi, ha⟩
        exact ⟨r, i, (mem_ringsBelow _ _).1 hr, hi, ha⟩
      · refine { rings := fun r h => ?_, tags := fun q h => ?_ }
        · rwa [hcfg] at h
        · rwa [hcfg] at h

end Sys2Proof.Machine
end

section
/-! SUPPORT. The phases of `ATTACH` that build the rings (R420): the pools, the software state, the receive buffers. -/

namespace Sys2Proof.Machine

/-! ### A single-queue configuration that validates -/

/-- The two rings of an `SQ` device. -/
abbrev ring0 (d : Dir) : RingId := ⟨d, 0⟩

theorem ringsBelow_one : ringsBelow 1 = [ring0 .tx, ring0 .rx] := by decide

theorem chansBelow_one : chansBelow 1 = [0] := by decide

/-- What a validated `SQ` configuration is. -/
structure SqConfig (c : Config) : Prop where
  variant : c.variant = .sq
  nq : c.nq = 1
  cap : ∀ d, 2 ≤ (c.ring (ring0 d)).cap ∧ (c.ring (ring0 d)).cap ≤ 32768
  thresh : ∀ d, 1 ≤ (c.ring (ring0 d)).thresh ∧ (c.ring (ring0 d)).thresh ≤ 255

theorem sqConfig_of_validate {c : Config} (hv : c.variant = .sq) (h : validate c = none) : SqConfig c := by
  unfold validate at h
  split at h
  · exact nomatch h
  next hcount =>
  split at h
  · exact nomatch h
  split at h
  · exact nomatch h
  next hsize =>
  have hnq := (queueCountOk_iff c).1 (by simpa using hcount)
  obtain ⟨hrings, -⟩ := (sizeOk_iff c).1 (by simpa using hsize)
  rw [hv] at hnq
  have hring (d : Dir) := hrings (ring0 d) (by rw [hnq]; exact Nat.one_pos)
  exact ⟨hv, hnq, fun d => ⟨(hring d).1, (hring d).2.1⟩, fun d => ⟨(hring d).2.2.1, (hring d).2.2.2.1⟩⟩

/-! ### The pools -/

theorem allocate_ok {s : State} {r : RingId} {n : Nat} (h2 : 2 ≤ n) (hn : n ≤ 32768) (hp : (s.ring r).present = false)
    (hh : halted (s.regs r) = true) {b : Word} {rest : List (Option Word)} (he : s.env.allocs = some b :: rest)
    (hb : blockOk b n = true) : s.allocate r n = .ok ((s.afterAlloc rest).makePool r n b) := by
  rw [State.allocate_some h2 hn hp hh he, if_pos hb]

theorem allocateAll_two {s t u : State} {r r' : RingId} (h : s.allocate r (s.cfg.ring r).cap = .ok t)
    (h' : t.allocate r' (t.cfg.ring r').cap = .ok u) : allocateAll [] s [r, r'] = .ok u := by
  simp only [allocateAll, h, h']

/-- The machine with both pools of an `SQ` device. -/
def State.twoPools (s : State) (c : Config) (b1 b2 : Word) (rest : List (Option Word)) : State :=
  ((((s.setCfg c).afterAlloc (some b2 :: rest)).makePool (ring0 .tx) (c.ring (ring0 .tx)).cap b1).afterAlloc rest).makePool
    (ring0 .rx) (c.ring (ring0 .rx)).cap b2

theorem allocateAll_sq {s : State} {c : Config} (hc : SqConfig c) {b1 b2 : Word} {rest : List (Option Word)}
    (hrings : ∀ r, halted (s.regs r) = true ∧ (s.ring r).present = false) (he : s.env.allocs = some b1 :: some b2 :: rest)
    (hb1 : blockOk b1 (c.ring (ring0 .tx)).cap = true) (hb2 : blockOk b2 (c.ring (ring0 .rx)).cap = true) :
    allocateAll [] (s.setCfg c) (ringsBelow c.nq) = .ok (s.twoPools c b1 b2 rest) := by
  obtain ⟨-, hnq, hcap, -⟩ := hc
  let t := ((s.setCfg c).afterAlloc (some b2 :: rest)).makePool (ring0 .tx) (c.ring (ring0 .tx)).cap b1
  have hframe : Keeps _ ((s.setCfg c).afterAlloc (some b2 :: rest)) t :=
    makePool_frame _ (ring0 .tx) b1 (by have := (hcap .tx).2; omega)
  rw [hnq, ringsBelow_one]
  have hfirst : (s.setCfg c).allocate (ring0 .tx) (c.ring (ring0 .tx)).cap = .ok t :=
    allocate_ok (s := s.setCfg c) (hcap .tx).1 (hcap .tx).2 (hrings _).2 (hrings _).1 he hb1
  refine allocateAll_two (t := t) hfirst ?_
  have hcfg : t.cfg = c := hframe.cfg id
  rw [hcfg]
  refine allocate_ok (hcap .rx).1 (hcap .rx).2 ?_ ?_ (congrArg Env.allocs (hframe.env id)) hb2
  · rw [hframe.rings (ring0 .rx) fun h => nomatch congrArg RingId.dir h]
    exact (hrings _).2
  · rw [hframe.regs (ring0 .rx) id]
    exact (hrings _).1

/-! ### The first steps -/

theorem State.attachSoftware_eq (s : State) (c : Config) : s.attachSoftware c =
    (((s.mapRings RingSw.zeroed s.ringIds).noTags s.chans).setLink false).setModes c.caps := rfl

/-- The machine after the phases that build the rings. -/
def State.built (s : State) (c : Config) (b1 b2 : Word) (rest : List (Option Word)) : State :=
  (((s.twoPools c b1 b2 rest).attachSoftware c).armRx 0).wmb

def sqProgram : List Access :=
  [.curdesc (ring0 .tx), .cr (ring0 .tx), .curdesc (ring0 .rx), .cr (ring0 .rx), .ier (ring0 .tx), .ier (ring0 .rx)]

theorem programAccesses_sq {s : State} (h : SqConfig s.cfg) : s.programAccesses = sqProgram := by
  unfold State.programAccesses State.ringIds
  rw [h.nq, h.variant, ringsBelow_one]
  rfl

theorem attachArm_sq {s : State} (h : s.cfg.nq = 1) : s.attachArm = (s.armRx 0).wmb := by
  unfold State.attachArm State.chans
  rw [h, chansBelow_one]
  rfl

theorem makePool_cfg (s : State) (r : RingId) (n : Nat) (b : Word) : (s.makePool r n b).cfg = s.cfg := by
  simp [State.makePool]

theorem State.twoPools_cfg (s : State) (c : Config) (b1 b2 : Word) (rest : List (Option Word)) :
    (s.twoPools c b1 b2 rest).cfg = c := by
  rw [State.twoPools, makePool_cfg]
  exact makePool_cfg _ _ _ _

/-- The software state of `ATTACH` (R420), what it leaves. -/
theorem State.attachSoftware_frame (s : State) (c : Config) :
    Keeps { rings := fun r => r.q.val < s.cfg.nq, tags := fun q => q.val < s.cfg.nq, context := True } s
      (s.attachSoftware c) := by
  rw [State.attachSoftware_eq]
  exact Keeps.after (Keeps.after (Keeps.after
    ((State.mapRings_frame RingSw.zeroed s.ringIds s).mono { rings := fun r h => (mem_ringsBelow _ _).1 h })
    (State.noTags_frame s.chans _) { tags := fun q h => (mem_chansBelow _ _).1 h })
    (State.setLink_frame _ _) {}) (State.setModes_frame _ _) {}

theorem State.attachSoftware_ring (s : State) (c : Config) {r : RingId} (h : r.q.val < s.cfg.nq) :
    (s.attachSoftware c).ring r = (s.ring r).zeroed := by
  rw [State.attachSoftware_eq, State.setModes_ring, State.setLink_ring, (State.noTags_frame s.chans _).rings r id]
  exact State.mapRings_ring _ _ (ringsBelow_nodup _) s r ((mem_ringsBelow _ _).2 h)

theorem State.attachSoftware_tags (s : State) (c : Config) {q : Chan} (h : q.val < s.cfg.nq) :
    (s.attachSoftware c).tags q = ⟨0, []⟩ := by
  rw [State.attachSoftware_eq, State.setModes_tags, State.setLink_tags]
  exact State.noTags_tags s.chans _ q ((mem_chansBelow _ _).2 h)

theorem State.noTags_ctx (qs : List Chan) (s : State) : (s.noTags qs).sw.ctxPresent = s.sw.ctxPresent :=
  ((State.noTags_frame qs s).context id).1

theorem State.attachSoftware_context (s : State) (c : Config) :
    (s.attachSoftware c).sw.ctxPresent = s.sw.ctxPresent ∧ (s.attachSoftware c).sw.linkUp = false ∧
      (s.attachSoftware c).sw.txCsum = c.caps.txCsum ∧ (s.attachSoftware c).sw.rxCsum = c.caps.rxCsum ∧
      (s.attachSoftware c).sw.tsEnabled = c.caps.ts := by
  refine ⟨?_, rfl, rfl, rfl, rfl⟩
  rw [State.attachSoftware_eq, State.setModes_ctxPresent, State.setLink_ctxPresent, State.noTags_ctx]
  exact ((State.mapRings_frame RingSw.zeroed s.ringIds s).context id).1

/-- The first four steps of an `ATTACH` of an `SQ` device. -/
theorem attach_builds {s : State} {c : Config} (hc : SqConfig c) (hval : validate c = none) {b1 b2 : Word}
    {rest : List (Option Word)} (htasks : s.tasks = []) (hctx : s.sw.ctxPresent = false)
    (hrings : ∀ r, halted (s.regs r) = true ∧ (s.ring r).present = false)
    (he : s.env.allocs = some b1 :: some b2 :: rest) (hb1 : blockOk b1 (c.ring (ring0 .tx)).cap = true)
    (hb2 : blockOk b2 (c.ring (ring0 .rx)).cap = true) :
    follow [exec (.attach c), resume 0, resume 0, resume 0] s =
      some ((s.built c b1 b2 rest).setTasks [.attach (.program sqProgram) c]) := by
  have hctl : s.controlBusy = false := by simp [State.controlBusy, htasks]
  let u1 := s.twoPools c b1 b2 rest
  let u2 := u1.attachSoftware c
  have hu1 : u1.tasks = [] := by
    refine Eq.trans ?_ htasks
    simp [u1, State.twoPools, State.makePool, State.afterAlloc]
  have hframe2 := u1.attachSoftware_frame c
  have hu2 : u2.tasks = [] := (hframe2.tasks id).trans hu1
  have hcfg2 : u2.cfg = c := (hframe2.cfg id).trans (s.twoPools_cfg c b1 b2 rest)
  have h0 : exec (.attach c) s = .next (s.setTasks [.attach .allocate c]) := by
    rw [((attachValidates.2 s c hctl).2 hctx fun r => (hrings r).1).2 hval, State.addTask, htasks]
    rfl
  have h1 : resume 0 (s.setTasks [.attach .allocate c]) = .next (u1.setTasks [.attach .software c]) := by
    refine resume_stage htasks ?_ hu1
    simp only [taskStep, attachTask, allocateAll_sq hc hrings he hb1 hb2]
    rfl
  have h2 : resume 0 (u1.setTasks [.attach .software c]) = .next (u2.setTasks [.attach .arm c]) :=
    resume_stage hu1 rfl hu2
  have h3 : resume 0 (u2.setTasks [.attach .arm c]) =
      .next ((s.built c b1 b2 rest).setTasks [.attach (.program sqProgram) c]) := by
    refine resume_stage hu2 ?_ ?_
    · have hprog : u2.programAccesses = sqProgram := programAccesses_sq (by rw [hcfg2]; exact hc)
      have harm : u2.attachArm = s.built c b1 b2 rest := attachArm_sq (by rw [hcfg2]; exact hc.nq)
      simp only [taskStep, attachTask, hprog, harm]
      rfl
    · exact ((State.wmb_frame _).tasks id).trans (((armRx_frame u2 0).tasks id).trans hu2)
  exact (follow_cons h0).trans ((follow_cons h1).trans ((follow_cons h2).trans (follow_one h3)))

end Sys2Proof.Machine
end

section
/-! SUPPORT. The rings of an `SQ` device as `ATTACH` has built them: their cursors, chains and receive buffers. -/

namespace Sys2Proof.Machine

/-! ### A new pool -/

/-- The words of a new pool other than the chain words are 0. -/
theorem makePool_getD_zero (s : State) (r : RingId) {n : Nat} {b : Word} (hn : 64 * n ≤ 2 ^ 32) {i off : Nat} (hi : i < n)
    (ho : wordOff off) (h4 : 4 ≤ off) : (s.makePool r n b).getD r i off = 0 := by
  obtain ⟨hal, h64⟩ := ho
  have hbyte {k : Nat} (hk : k < 4) :
      memByte (s.makePool r n b).mem (daddr b i + BitVec.ofNat 32 (off + k)) = 0 :=
    makePool_byte_zero s r hn hi (by omega) (by omega)
  unfold State.getD State.slotAddr memWord
  rw [makePool_ring, show (1 : Word) = BitVec.ofNat 32 1 from rfl, show (2 : Word) = BitVec.ofNat 32 2 from rfl,
    show (3 : Word) = BitVec.ofNat 32 3 from rfl]
  simp only [BitVec.add_assoc, ← BitVec.ofNat_add]
  rw [hbyte (by decide), hbyte (by decide), hbyte (by decide), show off = off + 0 from rfl, hbyte (by decide)]
  rfl

/-- The chain words and the receive slots that `ARM_RX` leaves on a ring whose slots all lie below the top of memory. -/
structure RxArmed (s t : State) (n i : Nat) : Prop where
  chain : t.getD (ring0 .rx) i 0x00 = s.getD (ring0 .rx) i 0x00
  status : t.getD (ring0 .rx) i (statusOff .sq) = 0
  ctrl : t.getD (ring0 .rx) i (ctrlOff .sq) = BitVec.ofNat 32 s.cfg.rxBufSize
  handle : t.getD (ring0 .rx) i 0x34 ≠ 0
  fresh : s.getD (ring0 .rx) i 0x34 = 0 → t.getD (ring0 .rx) i 0x38 = 1
  supplied : (∀ j, j < n → s.getD (ring0 .rx) j 0x34 = 0) → ∀ x a, s.env.rxBuffers[i]? = some (x, a) →
    t.getD (ring0 .rx) i 0x08 = a ∧ (x ≠ 0 → t.getD (ring0 .rx) i 0x34 = x)

theorem armRx_rxArmed {s : State} (hv : s.cfg.variant = .sq) {n i : Nat} (hcap : (s.ring (ring0 .rx)).cap = n)
    (hslots : ∀ j, j < n → s.HasSlot (ring0 .rx) j) (hi : i < n) : RxArmed s (s.armRx 0) n i := by
  subst hcap
  have harmed := armRx_armed hslots hi
  have hctrl := harmed.ctrl
  have hstatus := harmed.status
  rw [hv] at hctrl hstatus
  refine ⟨?_, hstatus, hctrl, harmed.handle, harmed.fresh, fun hempty x a hbuf => ?_⟩
  · rw [armRx_getD]
    exact State.armSlots_getD _ _ (by decide) (hslots i hi) (fun j hj => hslots j (List.mem_range.1 hj))
      (Or.inr (by rw [hv]; decide))
  · have hfilter : s.emptySlots ⟨.rx, 0⟩ (List.range (s.ring ⟨.rx, 0⟩).cap) = List.range (s.ring ⟨.rx, 0⟩).cap := by
      refine List.filter_eq_self.2 fun j hj => ?_
      rw [hempty j (List.mem_range.1 hj)]
      rfl
    have hsupplied := State.armSlots_supplied ⟨.rx, 0⟩ _ List.nodup_range (fun j hj => hslots j (List.mem_range.1 hj))
      (k := i) (i := i) (h := x) (a := a) (s := s)
    rw [hfilter, ← armRx_getD, ← armRx_getD] at hsupplied
    exact hsupplied (List.getElem?_range hi) hbuf

/-! ### What the build leaves -/

/-- The facts of a build of two pools that are apart from each other. -/
structure TwoBlocks (c : Config) (b1 b2 : Word) : Prop where
  sq : SqConfig c
  tx : blockOk b1 (c.ring (ring0 .tx)).cap = true
  rx : blockOk b2 (c.ring (ring0 .rx)).cap = true
  apart : b1.toNat + 64 * (c.ring (ring0 .tx)).cap ≤ b2.toNat ∨ b2.toNat + 64 * (c.ring (ring0 .rx)).cap ≤ b1.toNat

theorem ring0_ne : ring0 .tx ≠ ring0 .rx := by decide

/-- Where the pool of the ring of direction `d` lies. -/
def poolBase (b1 b2 : Word) (d : Dir) : Word := match d with | .tx => b1 | .rx => b2

theorem TwoBlocks.fits {c : Config} {b1 b2 : Word} (h : TwoBlocks c b1 b2) (d : Dir) :
    64 * (c.ring (ring0 d)).cap ≤ 2 ^ 32 := by
  have hcap := (h.sq.cap d).2
  omega

/-- The machine with the first of the two pools. -/
def State.onePool (s : State) (c : Config) (b1 b2 : Word) (rest : List (Option Word)) : State :=
  ((s.setCfg c).afterAlloc (some b2 :: rest)).makePool (ring0 .tx) (c.ring (ring0 .tx)).cap b1

theorem State.twoPools_eq (s : State) (c : Config) (b1 b2 : Word) (rest : List (Option Word)) : s.twoPools c b1 b2 rest =
    ((s.onePool c b1 b2 rest).afterAlloc rest).makePool (ring0 .rx) (c.ring (ring0 .rx)).cap b2 := rfl

theorem State.onePool_ring (s : State) (c : Config) (b1 b2 : Word) (rest : List (Option Word)) :
    (s.onePool c b1 b2 rest).ring (ring0 .tx) = { s.ring (ring0 .tx) with
      base := b1, cap := (c.ring (ring0 .tx)).cap, present := true, populated := false, issue := 0, hwTail := 0,
      completion := 0 } := makePool_ring _ _ _ _

/-- The ring of direction `d` with its pool made, its counters zeroed. -/
def builtRing (c : Config) (b1 b2 : Word) (d : Dir) (w : RingSw) : RingSw :=
  RingSw.zeroed { w with
    base := poolBase b1 b2 d, cap := (c.ring (ring0 d)).cap, present := true, populated := d == .rx, issue := 0,
    hwTail := 0, completion := 0 }

theorem State.twoPools_ring (s : State) (c : Config) (b1 b2 : Word) (rest : List (Option Word)) (d : Dir) :
    (s.twoPools c b1 b2 rest).ring (ring0 d) = { s.ring (ring0 d) with
      base := poolBase b1 b2 d, cap := (c.ring (ring0 d)).cap, present := true, populated := false, issue := 0,
      hwTail := 0, completion := 0 } := by
  rw [State.twoPools_eq]
  cases d with
  | tx =>
    rw [makePool_ring_ne _ (ring0 .rx) _ _ (ring0 .tx) ring0_ne]
    exact State.onePool_ring s c b1 b2 rest
  | rx =>
    rw [makePool_ring]
    have hring : ((s.onePool c b1 b2 rest).afterAlloc rest).ring (ring0 .rx) = s.ring (ring0 .rx) :=
      makePool_ring_ne _ (ring0 .tx) _ _ (ring0 .rx) ring0_ne.symm
    rw [hring]
    rfl

/-- The machine just before `ARM_RX`. -/
def State.unarmed (s : State) (c : Config) (b1 b2 : Word) (rest : List (Option Word)) : State :=
  (s.twoPools c b1 b2 rest).attachSoftware c

theorem State.built_eq (s : State) (c : Config) (b1 b2 : Word) (rest : List (Option Word)) :
    s.built c b1 b2 rest = ((s.unarmed c b1 b2 rest).armRx 0).wmb := rfl

theorem State.unarmed_frame (s : State) {c : Config} (hc : SqConfig c) (b1 b2 : Word) (rest : List (Option Word)) :
    Keeps { rings := fun r => r.q.val < 1, tags := fun q => q.val < 1, context := True } (s.twoPools c b1 b2 rest)
      (s.unarmed c b1 b2 rest) := by
  have hframe := (s.twoPools c b1 b2 rest).attachSoftware_frame c
  rwa [s.twoPools_cfg, hc.nq] at hframe

theorem State.unarmed_ring (s : State) {c : Config} (hc : SqConfig c) (b1 b2 : Word) (rest : List (Option Word)) (d : Dir) :
    (s.unarmed c b1 b2 rest).ring (ring0 d) = { builtRing c b1 b2 d (s.ring (ring0 d)) with populated := false } := by
  have hq : (ring0 d).q.val < (s.twoPools c b1 b2 rest).cfg.nq := by
    rw [s.twoPools_cfg, hc.nq]
    exact Nat.one_pos
  rw [State.unarmed, State.attachSoftware_ring _ _ hq, s.twoPools_ring]
  rfl

theorem State.built_ring (s : State) {c : Config} (hc : SqConfig c) (b1 b2 : Word) (rest : List (Option Word)) (d : Dir) :
    (s.built c b1 b2 rest).ring (ring0 d) = builtRing c b1 b2 d (s.ring (ring0 d)) := by
  rw [State.built_eq, State.wmb_ring, armRx_ring]
  cases d with
  | tx =>
    rw [if_neg ring0_ne, s.unarmed_ring hc]
    rfl
  | rx =>
    rw [if_pos rfl, s.unarmed_ring hc]
    rfl

theorem State.unarmed_slot (s : State) {c : Config} {b1 b2 : Word} (h : TwoBlocks c b1 b2) (rest : List (Option Word))
    {i : Nat} (hi : i < (c.ring (ring0 .rx)).cap) : (s.unarmed c b1 b2 rest).HasSlot (ring0 .rx) i := by
  have hring := s.unarmed_ring h.sq b1 b2 rest .rx
  refine ⟨?_, ?_⟩
  · rw [hring]
    exact h.fits .rx
  · rw [hring]
    exact hi

theorem State.twoPools_frame (s : State) {c : Config} {b1 b2 : Word} (h : TwoBlocks c b1 b2)
    (rest : List (Option Word)) :
    Keeps { rings := (· = ring0 .rx), fences := (· = ring0 .rx), env := True,
            bytes := fun a => within32 a b2 (64 * (c.ring (ring0 .rx)).cap) } (s.onePool c b1 b2 rest)
      (s.twoPools c b1 b2 rest) := by
  rw [State.twoPools_eq]
  exact Keeps.after ((State.afterAlloc_frame _ rest).mono {}) (makePool_frame _ _ b2 (h.fits .rx)) {}

/-- The build after the first pool writes in the second alone. -/
theorem State.built_bytes (s : State) {c : Config} {b1 b2 : Word} (h : TwoBlocks c b1 b2) (rest : List (Option Word))
    {a : Word} (ha : ¬within32 a b2 (64 * (c.ring (ring0 .rx)).cap)) :
    memByte (s.built c b1 b2 rest).mem a = memByte (s.onePool c b1 b2 rest).mem a := by
  have hring := s.unarmed_ring h.sq b1 b2 rest .rx
  rw [State.built_eq, State.wmb_mem, (armRx_frame (s.unarmed c b1 b2 rest) 0).bytes a,
    (s.unarmed_frame h.sq b1 b2 rest).bytes a id, (s.twoPools_frame h rest).bytes a ha]
  rintro ⟨i, hi, o, ho, hin⟩
  have hcap : ((s.unarmed c b1 b2 rest).ring (ring0 .rx)).cap = (c.ring (ring0 .rx)).cap := by
    rw [hring]
    rfl
  have hslot := s.unarmed_slot h rest (i := i) (hcap ▸ hi)
  have hpool := State.inWord_pool hslot.fits hslot.lt (wordOff_filled _ o ho) hin
  rw [hring] at hpool
  exact ha hpool

/-- The chain of the transmit ring stays as its `ALLOCATE` made it. -/
theorem State.built_tx_words (s : State) {c : Config} {b1 b2 : Word} (h : TwoBlocks c b1 b2) (rest : List (Option Word))
    {i p : Nat} (hi : i < (c.ring (ring0 .tx)).cap) (hp : wordOff p) :
    (s.built c b1 b2 rest).getD (ring0 .tx) i p = (s.onePool c b1 b2 rest).getD (ring0 .tx) i p := by
  have hring := s.onePool_ring c b1 b2 rest
  refine State.getD_congr ?_ fun a ha => s.built_bytes h rest fun hin => ?_
  · rw [s.built_ring h.sq, hring]
    rfl
  · have hslot : (s.onePool c b1 b2 rest).HasSlot (ring0 .tx) i := ⟨by rw [hring]; exact h.fits .tx, by rw [hring]; exact hi⟩
    have hpool := State.inWord_pool hslot.fits hslot.lt hp ha
    rw [hring, within32_iff] at hpool
    rw [within32_iff] at hin
    obtain ⟨-, htop1⟩ := (blockOk_iff _ _).1 h.tx
    obtain ⟨-, htop2⟩ := (blockOk_iff _ _).1 h.rx
    have hapart := h.apart
    generalize (c.ring (ring0 .tx)).cap = n1 at *
    generalize (c.ring (ring0 .rx)).cap = n2 at *
    have hge1 : b1.toNat ≤ a.toNat ∧ a.toNat < b1.toNat + 64 * n1 := by bv_omega
    have hge2 : b2.toNat ≤ a.toNat ∧ a.toNat < b2.toNat + 64 * n2 := by bv_omega
    omega

theorem State.unarmed_getD (s : State) {c : Config} {b1 b2 : Word} (h : TwoBlocks c b1 b2) (rest : List (Option Word))
    (i p : Nat) : (s.unarmed c b1 b2 rest).getD (ring0 .rx) i p = (s.twoPools c b1 b2 rest).getD (ring0 .rx) i p := by
  refine State.getD_congr ?_ fun a _ => (s.unarmed_frame h.sq b1 b2 rest).bytes a id
  rw [s.unarmed_ring h.sq, s.twoPools_ring]
  rfl

theorem State.unarmed_cfg (s : State) {c : Config} (hc : SqConfig c) (b1 b2 : Word) (rest : List (Option Word)) :
    (s.unarmed c b1 b2 rest).cfg = c :=
  ((s.unarmed_frame hc b1 b2 rest).cfg id).trans (s.twoPools_cfg c b1 b2 rest)

theorem State.twoPools_env (s : State) (c : Config) (b1 b2 : Word) (rest : List (Option Word)) :
    (s.twoPools c b1 b2 rest).env.rxBuffers = s.env.rxBuffers := by
  simp [State.twoPools, State.makePool, State.afterAlloc]

/-- What `ARM_RX` makes of the receive ring of the build. -/
theorem State.built_rxArmed (s : State) {c : Config} {b1 b2 : Word} (h : TwoBlocks c b1 b2) (rest : List (Option Word))
    {i : Nat} (hi : i < (c.ring (ring0 .rx)).cap) :
    RxArmed (s.unarmed c b1 b2 rest) (s.built c b1 b2 rest) (c.ring (ring0 .rx)).cap i := by
  have hring := s.unarmed_ring h.sq b1 b2 rest .rx
  have hv : (s.unarmed c b1 b2 rest).cfg.variant = .sq := by
    rw [s.unarmed_cfg h.sq]
    exact h.sq.variant
  have hslots {j : Nat} (hj : j < (c.ring (ring0 .rx)).cap) := s.unarmed_slot h rest hj
  have hcap := congrArg RingSw.cap hring
  rw [State.built_eq]
  generalize s.unarmed c b1 b2 rest = w at *
  obtain ⟨h0, h1, h2, h3, h4, h5⟩ := armRx_rxArmed hv hcap (fun j hj => hslots hj) hi
  exact ⟨h0, h1, h2, h3, h4, h5⟩

/-- Both chains are linked, and no descriptor is complete. -/
theorem State.built_chain (s : State) {c : Config} {b1 b2 : Word} (h : TwoBlocks c b1 b2) (rest : List (Option Word))
    (d : Dir) {i : Nat} (hi : i < (c.ring (ring0 d)).cap) :
    (s.built c b1 b2 rest).getD (ring0 d) i 0x00 = daddr (poolBase b1 b2 d) ((i + 1) % (c.ring (ring0 d)).cap) ∧
      (s.built c b1 b2 rest).getD (ring0 d) i (statusOff .sq) = 0 := by
  cases d with
  | tx =>
    have hwords := makePool_words ((s.setCfg c).afterAlloc (some b2 :: rest)) (ring0 .tx) b1 (h.fits .tx) hi
    have hcfg : ((s.setCfg c).afterAlloc (some b2 :: rest)).cfg = c := rfl
    rw [hcfg, h.sq.variant] at hwords
    rw [s.built_tx_words h rest hi (by decide), s.built_tx_words h rest hi (by decide)]
    exact hwords
  | rx =>
    have harmed := s.built_rxArmed h rest hi
    refine ⟨?_, harmed.status⟩
    rw [harmed.chain, s.unarmed_getD h]
    exact (makePool_words _ (ring0 .rx) b2 (h.fits .rx) hi).1

/-- Every receive slot is armed, the k-th with the k-th buffer the environment supplies. -/
theorem State.built_armed (s : State) {c : Config} {b1 b2 : Word} (h : TwoBlocks c b1 b2) (rest : List (Option Word))
    {i : Nat} (hi : i < (c.ring (ring0 .rx)).cap) :
    (s.built c b1 b2 rest).getD (ring0 .rx) i (ctrlOff .sq) = BitVec.ofNat 32 c.rxBufSize ∧
      (s.built c b1 b2 rest).getD (ring0 .rx) i 0x34 ≠ 0 ∧ (s.built c b1 b2 rest).getD (ring0 .rx) i 0x38 = 1 ∧
      ∀ x a, s.env.rxBuffers[i]? = some (x, a) → (s.built c b1 b2 rest).getD (ring0 .rx) i 0x08 = a ∧
        (x ≠ 0 → (s.built c b1 b2 rest).getD (ring0 .rx) i 0x34 = x) := by
  have harmed := s.built_rxArmed h rest hi
  have hzero (j : Nat) (hj : j < (c.ring (ring0 .rx)).cap) : (s.unarmed c b1 b2 rest).getD (ring0 .rx) j 0x34 = 0 := by
    rw [s.unarmed_getD h]
    exact makePool_getD_zero _ _ (h.fits .rx) hj (by decide) (by decide)
  have hctrl := harmed.ctrl
  rw [s.unarmed_cfg h.sq] at hctrl
  have hsupplied := harmed.supplied hzero
  rw [(s.unarmed_frame h.sq b1 b2 rest).env id, s.twoPools_env] at hsupplied
  exact ⟨hctrl, harmed.handle, harmed.fresh (hzero i hi), hsupplied⟩

/-- What the build leaves of the machine. -/
theorem State.built_frame (s : State) {c : Config} {b1 b2 : Word} (h : TwoBlocks c b1 b2) (rest : List (Option Word)) :
    Keeps { rings := fun r => r.q.val < 1, fences := fun _ => True, tags := fun q => q.val < 1, context := True,
            bytes := fun _ => True, env := True, cfg := True } s (s.built c b1 b2 rest) := by
  have hcfg : Keeps { cfg := True } s (s.setCfg c) := by constructor <;> simp
  have hone : Keeps { rings := (· = ring0 .tx), fences := (· = ring0 .tx), env := True, cfg := True,
                      bytes := fun _ => True } s (s.onePool c b1 b2 rest) :=
    Keeps.after (Keeps.after (hcfg.mono {}) (State.afterAlloc_frame _ _) {}) (makePool_frame _ _ b1 (h.fits .tx)) {}
  rw [State.built_eq]
  have hzero (d : Dir) : (ring0 d).q.val < 1 := Nat.one_pos
  exact Keeps.after (Keeps.after (Keeps.after (Keeps.after
    (hone.mono { rings := by rintro _ rfl; exact hzero .tx })
    (s.twoPools_frame h rest) { rings := by rintro _ rfl; exact hzero .rx })
    (s.unarmed_frame h.sq b1 b2 rest) {})
    (armRx_frame _ 0) { rings := by rintro _ rfl; exact hzero .rx }) (State.wmb_frame _) {}

theorem State.built_context (s : State) {c : Config} (b1 b2 : Word) (rest : List (Option Word)) :
    (s.built c b1 b2 rest).sw.linkUp = false ∧ (s.built c b1 b2 rest).sw.txCsum = c.caps.txCsum ∧
      (s.built c b1 b2 rest).sw.rxCsum = c.caps.rxCsum ∧ (s.built c b1 b2 rest).sw.tsEnabled = c.caps.ts := by
  have hctx := (s.twoPools c b1 b2 rest).attachSoftware_context c
  rw [← State.unarmed] at hctx
  rw [State.built_eq]
  generalize s.unarmed c b1 b2 rest = w at hctx ⊢
  obtain ⟨-, hlink, htx, hrx, hts⟩ := hctx
  obtain ⟨-, hlink', htx', hrx', hts'⟩ := (armRx_frame w 0).context id
  exact ⟨hlink'.trans hlink, htx'.trans htx, hrx'.trans hrx, hts'.trans hts⟩

theorem State.built_tags (s : State) {c : Config} (hc : SqConfig c) (b1 b2 : Word) (rest : List (Option Word)) :
    (s.built c b1 b2 rest).tags 0 = ⟨0, []⟩ := by
  rw [State.built_eq, State.wmb_tags, (armRx_frame _ 0).tags 0 id]
  refine State.attachSoftware_tags _ _ ?_
  rw [s.twoPools_cfg, hc.nq]
  exact Nat.one_pos

theorem State.built_cfg (s : State) {c : Config} (hc : SqConfig c) (b1 b2 : Word) (rest : List (Option Word)) :
    (s.built c b1 b2 rest).cfg = c := by
  rw [State.built_eq, State.wmb_cfg, (armRx_frame _ 0).cfg id, s.unarmed_cfg hc]

end Sys2Proof.Machine
end

section
/-! SUPPORT. The register phases of `ATTACH` (R420), and a whole `ATTACH` of an `SQ` device. -/

namespace Sys2Proof.Machine

theorem follow_append {fs : List (State → Res)} (gs : List (State → Res)) : ∀ {s t : State}, follow fs s = some t →
    follow (fs ++ gs) s = follow gs t := by
  induction fs with
  | nil =>
    intro s t h
    rw [List.nil_append, Option.some.inj h]
  | cons f fs ih =>
    intro s t h
    cases hf : f s with
    | next u =>
      rw [List.cons_append, follow_cons hf]
      exact ih ((follow_cons hf).symm.trans h)
    | fault e => simp [follow, hf] at h
    | refused e => simp [follow, hf] at h

/-! ### The accesses of the later phases -/

/-- A register write of phase 5. -/
theorem resume_program {u v : State} {a : Access} (as : List Access) (c : Config) (hu : u.tasks = [])
    (hun : a.unordered u = false) (hl : a.left u as = as) (hrun : a.run u = v) (hv : v.tasks = []) :
    resume 0 (u.setTasks [.attach (.program (a :: as)) c]) = .next (v.setTasks [.attach (.programs as) c]) := by
  refine resume_stage hu ?_ hv
  refine (accessStep_cons hun as fun as t => .more (.attach (.programs as) c) t).trans ?_
  rw [hl, hrun]

/-- A register access of phase 7 that is not the last. -/
theorem resume_enable {u v : State} {a x : Access} {as xs : List Access} (c : Config) (hu : u.tasks = [])
    (hun : a.unordered u = false) (hl : a.left u as = x :: xs) (hrun : a.run u = v) (hv : v.tasks = []) :
    resume 0 (u.setTasks [.attach (.enable (a :: as)) c]) = .next (v.setTasks [.attach (.enable (x :: xs)) c]) := by
  refine resume_stage hu ?_ hv
  change accessStep (a :: as) u _ = _
  rw [accessStep_cons hun, hl, hrun]
  rfl

/-- The last access of phase 7 returns. -/
theorem resume_enabled {u v : State} {a : Access} (c : Config) (hu : u.tasks = []) (hun : a.unordered u = false)
    (hl : a.left u [] = []) (hrun : a.run u = v) :
    resume 0 (u.setTasks [.attach (.enable [a]) c]) = .next (v.answer 0x01 .ok) := by
  refine resume_stage_done hu ?_
  change accessStep [a] u _ = _
  rw [accessStep_cons hun, hl, hrun]
  rfl

theorem setRegs_step (u : State) (r : RingId) (x : RingRegs) :
    (u.setRegs r x).regs r = x ∧ Keeps { regs := (· = r) } u (u.setRegs r x) :=
  ⟨by rw [State.setRegs_regs, if_pos rfl], State.setRegs_frame u r x⟩

/-- The pointer and the coalescing values of a ring at rest. -/
theorem attach_programs {u : State} {r : RingId} (as : List Access) (c : Config) (hu : u.tasks = [])
    (h : AtRest (u.regs r)) (hb : (u.ring r).base.toNat % 64 = 0) (h1 : 1 ≤ (u.cfg.ring r).thresh)
    (ht : (u.cfg.ring r).thresh ≤ 255) :
    ∃ t, follow [resume 0, resume 0] (u.setTasks [.attach (.program (.curdesc r :: .cr r :: as)) c]) =
        some (t.setTasks [.attach (.programs as) c]) ∧
      t.regs r = coalesced (BitVec.ofNat 8 (u.cfg.ring r).thresh) (BitVec.ofNat 8 (u.cfg.ring r).delay)
        { u.regs r with curdesc := (u.ring r).base } ∧
      Keeps { regs := (· = r) } u t := by
  obtain ⟨hx1, hk1⟩ := setRegs_step u r { u.regs r with curdesc := (u.ring r).base }
  have hrun1 : (Access.curdesc r).run u = u.setRegs r { u.regs r with curdesc := (u.ring r).base } :=
    congrArg (u.setRegs r) (curWriteRegs_rest h hb)
  have hstep1 := resume_program (.cr r :: as) c hu rfl rfl hrun1 ((hk1.tasks id).trans hu)
  generalize u.setRegs r { u.regs r with curdesc := (u.ring r).base } = v at hx1 hk1 hstep1
  have hrest : AtRest (v.regs r) := by
    rw [hx1]
    exact ⟨h.run, h.busy, h.stop, h.isr⟩
  have hcfg : v.cfg = u.cfg := hk1.cfg id
  rw [← hcfg] at h1 ht
  obtain ⟨hx2, hk2⟩ := setRegs_step v r
    (coalesced (BitVec.ofNat 8 (v.cfg.ring r).thresh) (BitVec.ofNat 8 (v.cfg.ring r).delay) (v.regs r))
  have hstep2 := resume_program (a := .cr r) as c ((hk1.tasks id).trans hu) rfl rfl (State.writeCr_coal hrest h1 ht)
    ((hk2.tasks id).trans ((hk1.tasks id).trans hu))
  refine ⟨_, (follow_cons hstep1).trans (follow_one hstep2), ?_, hk1.trans hk2⟩
  rw [hx2, hx1, hcfg]

/-- The causes of a ring at rest are enabled. -/
theorem attach_ier {u : State} {r : RingId} (as : List Access) (c : Config) (hu : u.tasks = []) (h : AtRest (u.regs r)) :
    ∃ t, follow [resume 0] (u.setTasks [.attach (.program (.ier r :: as)) c]) =
        some (t.setTasks [.attach (.programs as) c]) ∧
      t.regs r = { u.regs r with ier := 7 } ∧ Keeps { regs := (· = r) } u t := by
  obtain ⟨hx, hk⟩ := setRegs_step u r { u.regs r with ier := 7 }
  exact ⟨_, follow_one (resume_program as c hu rfl rfl (State.writeIer_rest h 7) ((hk.tasks id).trans hu)), hx, hk⟩

/-- The run bit of a ring at rest is read and written back set. -/
theorem attach_starts {u : State} {r : RingId} (a : Access) (as : List Access) (c : Config) (hu : u.tasks = [])
    (h : AtRest (u.regs r)) (hsq : u.cfg.variant = .sq) (ht : (u.regs r).thresh ≠ 0) :
    ∃ t, follow [resume 0, resume 0] (u.setTasks [.attach (.enable (.readRun r :: a :: as)) c]) =
        some (t.setTasks [.attach (.enable (a :: as)) c]) ∧
      t.regs r = started (coalesced (u.regs r).thresh (u.regs r).delay (u.regs r)) ∧ Keeps { regs := (· = r) } u t := by
  obtain ⟨hx, hk⟩ := setRegs_step u r (started (coalesced (u.regs r).thresh (u.regs r).delay (u.regs r)))
  have hstep1 : resume 0 (u.setTasks [.attach (.enable (.readRun r :: a :: as)) c]) =
      .next (u.setTasks [.attach (.enable (.writeRun r (crWord (u.regs r)) :: a :: as)) c]) :=
    resume_enable c hu rfl rfl rfl hu
  have hstep2 := resume_enable (a := .writeRun r (crWord (u.regs r))) (as := a :: as) c hu rfl rfl
    (State.writeCr_run h hsq ht) ((hk.tasks id).trans hu)
  exact ⟨_, (follow_cons hstep1).trans (follow_one hstep2), hx, hk⟩

/-- The doorbell of a running receive ring whose descriptor writes are ordered, and the return. -/
theorem attach_rings {u : State} {r : RingId} (c : Config) (hu : u.tasks = []) (hrun : (u.regs r).run = true)
    (hstop : (u.regs r).stopPending = false) (hbusy : (u.regs r).resetBusy = false) (hf : u.unfenced r = false)
    {tail : Word} (htail : daddr (u.ring r).base ((u.ring r).cap - 1) = tail) (ht : align64 tail = tail) :
    ∃ t, follow [resume 0] (u.setTasks [.attach (.enable [.bell r]) c]) = some t ∧
      t.regs r = rung tail (u.regs r) ∧ t.answers = u.answers ++ [⟨0x01, .ok⟩] ∧
      Keeps { regs := (· = r), answers := True } u t := by
  obtain ⟨hx, hk⟩ := setRegs_step u r (rung tail (u.regs r))
  have hbell : (Access.bell r).unordered u = false := by
    refine eq_false_of_ne_true fun hb => ?_
    exact nomatch ((State.bellUnordered_iff u r).1 hb).2.symm.trans hf
  have hring : (Access.bell r).run u = u.setRegs r (rung tail (u.regs r)) := by
    change u.ringRx r = _
    rw [State.ringRx_eq, htail, tailWriteRegs_rung hbusy hrun hstop ht]
  refine ⟨_, follow_one (resume_enabled c hu hbell rfl hring), hx, ?_, ?_⟩
  · exact congrArg (· ++ [⟨0x01, .ok⟩]) (hk.answers id)
  · exact Keeps.after (hk.mono {}) (State.answer_frame _ _ _) {}

/-! ### The context is present -/

theorem enableAccesses_sq {s : State} (h : SqConfig s.cfg) :
    s.enableAccesses = [.readRun (ring0 .tx), .readRun (ring0 .rx), .bell (ring0 .rx)] := by
  unfold State.enableAccesses State.ringIds State.chans
  rw [h.nq, h.variant, ringsBelow_one, chansBelow_one]
  rfl

/-- Phase 6 of `ATTACH` of an `SQ` device. -/
theorem attach_presents {u : State} {c : Config} (hc : SqConfig u.cfg) (hu : u.tasks = []) (hctx : u.sw.ctxPresent = false) :
    ∃ t, follow [resume 0] (u.setTasks [.attach (.programs []) c]) =
        some (t.setTasks [.attach (.enable [.readRun (ring0 .tx), .readRun (ring0 .rx), .bell (ring0 .rx)]) c]) ∧
      t.sw.ctxPresent = true ∧ t.sw.linkUp = u.sw.linkUp ∧ t.sw.txCsum = u.sw.txCsum ∧ t.sw.rxCsum = u.sw.rxCsum ∧
      t.sw.tsEnabled = u.sw.tsEnabled ∧ (∀ d, t.ring (ring0 d) = (u.ring (ring0 d)).become .running) ∧
      Keeps { rings := fun r => r.q.val < 1, context := True } u t := by
  have hids : u.ringIds = ringsBelow 1 := congrArg ringsBelow hc.nq
  have hframe := State.mapRings_frame (fun w => w.become .running) (ringsBelow 1) (u.setCtx true)
  have hring := State.mapRings_ring (fun w => w.become .running) (ringsBelow 1) (ringsBelow_nodup 1) (u.setCtx true)
  have hpresent : u.attachPresent = (u.setCtx true).mapRings (fun w => w.become .running) (ringsBelow 1) := by
    rw [← hids]
    rfl
  have hstep : taskStep (.attach .present c) u =
      .more (.attach (.enable [.readRun (ring0 .tx), .readRun (ring0 .rx), .bell (ring0 .rx)]) c)
        ((u.setCtx true).mapRings (fun w => w.become .running) (ringsBelow 1)) := by
    simp only [taskStep, attachTask, hctx, enableAccesses_sq hc, hpresent, Bool.false_eq_true, if_false]
  obtain ⟨hctx', hlink, htx, hrx, hts⟩ := hframe.context id
  refine ⟨_, follow_one (resume_stage hu hstep ((hframe.tasks id).trans hu)), hctx', hlink, htx, hrx, hts, fun d => ?_, ?_⟩
  · exact hring (ring0 d) ((mem_ringsBelow _ _).2 Nat.one_pos)
  · exact Keeps.after ((State.setCtx_frame u true).mono {}) hframe { rings := fun r hr => (mem_ringsBelow _ _).1 hr }

end Sys2Proof.Machine
end

section
/-! SUPPORT. A whole `ATTACH` of an `SQ` device (R420): from the built rings to the last access. -/

namespace Sys2Proof.Machine

theorem ofNat8_ne_zero {n : Nat} (h1 : 1 ≤ n) (h : n ≤ 255) : BitVec.ofNat 8 n ≠ 0 := by
  intro h0
  have hval := congrArg BitVec.toNat h0
  rw [BitVec.toNat_ofNat, Nat.mod_eq_of_lt (by omega)] at hval
  have hzero : (0 : BitVec 8).toNat = 0 := rfl
  omega

/-- The registers of ring `r` as phase 5 programs them, its pool at `base`. -/
def State.programmedRegs (u : State) (base : Word) (r : RingId) : RingRegs :=
  programmed base (BitVec.ofNat 8 (u.cfg.ring r).thresh) (BitVec.ofNat 8 (u.cfg.ring r).delay) (u.regs r)

/-- The registers of ring `r` once phase 7 has started it. -/
def State.attachedRegs (u : State) (base : Word) (r : RingId) : RingRegs :=
  started (coalesced (BitVec.ofNat 8 (u.cfg.ring r).thresh) (BitVec.ofNat 8 (u.cfg.ring r).delay)
    (u.programmedRegs base r))

/-- What the register phases of an `ATTACH` start from: the built machine `u`, the pool of the ring of direction `d` at
`base d`. -/
structure Built (u : State) (base : Dir → Word) : Prop where
  sq : SqConfig u.cfg
  tasks : u.tasks = []
  context : u.sw.ctxPresent = false
  rest : ∀ d, AtRest (u.regs (ring0 d))
  fenced : u.unfenced (ring0 .rx) = false
  origin : ∀ d, (u.ring (ring0 d)).base = base d
  cap : ∀ d, (u.ring (ring0 d)).cap = (u.cfg.ring (ring0 d)).cap
  aligned : ∀ d, (base d).toNat % 64 = 0
  top : (base .rx).toNat + 64 * (u.cfg.ring (ring0 .rx)).cap ≤ 2 ^ 32

theorem ring0_lt (d : Dir) : (ring0 d).q.val < 1 := Nat.one_pos

/-- Phase 5: the pointers and the coalescing values of both rings, then their causes. -/
theorem Built.programs {u : State} {base : Dir → Word} (h : Built u base) (c : Config) :
    ∃ t, follow (List.replicate 6 (resume 0)) (u.setTasks [.attach (.program sqProgram) c]) =
        some (t.setTasks [.attach .present c]) ∧
      (∀ d, t.regs (ring0 d) = u.programmedRegs (base d) (ring0 d)) ∧ Keeps { regs := fun r => r.q.val < 1 } u t := by
  have hbound (d : Dir) := h.sq.thresh d
  have hrest (d : Dir) := h.rest d
  obtain ⟨u1, hf1, hx1, hk1⟩ := attach_programs (r := ring0 .tx) (sqProgram.drop 2) c h.tasks (hrest .tx)
    (by rw [h.origin]; exact h.aligned .tx) (hbound .tx).1 (hbound .tx).2
  rw [h.origin] at hx1
  have hy1 : u1.regs (ring0 .rx) = u.regs (ring0 .rx) := hk1.regs _ ring0_ne.symm
  have hb1 : u1.ring (ring0 .rx) = u.ring (ring0 .rx) := hk1.rings _ id
  have hc1 : u1.cfg = u.cfg := hk1.cfg id
  obtain ⟨u2, hf2, hy2, hk2⟩ := attach_programs (r := ring0 .rx) (u := u1) (sqProgram.drop 4) c
    ((hk1.tasks id).trans h.tasks) (by rw [hy1]; exact hrest .rx) (by rw [hb1, h.origin]; exact h.aligned .rx)
    (by rw [hc1]; exact (hbound .rx).1) (by rw [hc1]; exact (hbound .rx).2)
  rw [hy1, hb1, hc1, h.origin] at hy2
  have hx2 := (hk2.regs (ring0 .tx) ring0_ne).trans hx1
  have hkeep2 := Keeps.after (e := { regs := fun r => r.q.val < 1 }) (hk1.mono { regs := by rintro _ rfl; exact ring0_lt .tx })
    hk2 { regs := by rintro _ rfl; exact ring0_lt .rx }
  obtain ⟨u3, hf3, hx3, hk3⟩ := attach_ier (r := ring0 .tx) (u := u2) (sqProgram.drop 5) c
    ((hkeep2.tasks id).trans h.tasks)
    (by rw [hx2]; exact ⟨(hrest .tx).run, (hrest .tx).busy, (hrest .tx).stop, (hrest .tx).isr⟩)
  have hy3 := (hk3.regs (ring0 .rx) ring0_ne.symm).trans hy2
  have hkeep3 := Keeps.after hkeep2 hk3 { regs := by rintro _ rfl; exact ring0_lt .tx }
  obtain ⟨t, hf4, hy4, hk4⟩ := attach_ier (r := ring0 .rx) (u := u3) [] c ((hkeep3.tasks id).trans h.tasks)
    (by rw [hy3]; exact ⟨(hrest .rx).run, (hrest .rx).busy, (hrest .rx).stop, (hrest .rx).isr⟩)
  refine ⟨t, ?_, fun d => ?_, Keeps.after hkeep3 hk4 { regs := by rintro _ rfl; exact ring0_lt .rx }⟩
  · change follow ([resume 0, resume 0] ++ ([resume 0, resume 0] ++ ([resume 0] ++ [resume 0]))) _ = _
    exact (follow_append _ hf1).trans ((follow_append _ hf2).trans ((follow_append _ hf3).trans hf4))
  · cases d with
    | tx => rw [hk4.regs _ ring0_ne, hx3, hx2]; rfl
    | rx => rw [hy4, hy3]; rfl

/-- Phase 7: both rings are started, the receive ring is rung, and the command returns. -/
theorem attach_enables {u v : State} {base : Dir → Word} (h : Built u base) (c : Config) (hcfg : v.cfg = u.cfg)
    (htasks : v.tasks = []) (hx : ∀ d, v.regs (ring0 d) = u.programmedRegs (base d) (ring0 d))
    (hring : ∀ d, v.ring (ring0 d) = (u.ring (ring0 d)).become .running) (hf : v.unfenced (ring0 .rx) = false) :
    ∃ t, follow (List.replicate 5 (resume 0))
        (v.setTasks [.attach (.enable [.readRun (ring0 .tx), .readRun (ring0 .rx), .bell (ring0 .rx)]) c]) = some t ∧
      t.regs (ring0 .tx) = u.attachedRegs (base .tx) (ring0 .tx) ∧
      t.regs (ring0 .rx) =
        rung (daddr (base .rx) ((u.cfg.ring (ring0 .rx)).cap - 1)) (u.attachedRegs (base .rx) (ring0 .rx)) ∧
      t.answers = v.answers ++ [⟨0x01, .ok⟩] ∧ Keeps { regs := fun r => r.q.val < 1, answers := True } v t := by
  have hrest (d : Dir) : AtRest (u.programmedRegs (base d) (ring0 d)) := (h.rest d).programmed _ _ _
  have hne (d : Dir) : (u.programmedRegs (base d) (ring0 d)).thresh ≠ 0 :=
    ofNat8_ne_zero (h.sq.thresh d).1 (h.sq.thresh d).2
  have hsq : v.cfg.variant = .sq := by
    rw [hcfg]
    exact h.sq.variant
  obtain ⟨u1, hf1, hx1, hk1⟩ := attach_starts (r := ring0 .tx) (.readRun (ring0 .rx)) [.bell (ring0 .rx)] c htasks
    (by rw [hx]; exact hrest .tx) hsq (by rw [hx]; exact hne .tx)
  rw [hx] at hx1
  have hy1 := (hk1.regs (ring0 .rx) ring0_ne.symm).trans (hx .rx)
  obtain ⟨u2, hf2, hy2, hk2⟩ := attach_starts (r := ring0 .rx) (u := u1) (.bell (ring0 .rx)) [] c
    ((hk1.tasks id).trans htasks) (by rw [hy1]; exact hrest .rx) (by rw [hk1.cfg id]; exact hsq)
    (by rw [hy1]; exact hne .rx)
  rw [hy1] at hy2
  have hkeep2 := Keeps.after (e := { regs := fun r => r.q.val < 1 }) (hk1.mono { regs := by rintro _ rfl; exact ring0_lt .tx })
    hk2 { regs := by rintro _ rfl; exact ring0_lt .rx }
  have hcap := (h.sq.cap .rx).1
  have htail : daddr (u2.ring (ring0 .rx)).base ((u2.ring (ring0 .rx)).cap - 1) =
      daddr (base .rx) ((u.cfg.ring (ring0 .rx)).cap - 1) := by
    rw [hkeep2.rings _ id, hring, ← h.origin, ← h.cap]
    rfl
  obtain ⟨t, hf3, hy3, hans, hk3⟩ := attach_rings (r := ring0 .rx) (u := u2) c ((hkeep2.tasks id).trans htasks)
    (by rw [hy2]; rfl) (by rw [hy2]; exact (h.rest .rx).stop) (by rw [hy2]; exact (h.rest .rx).busy)
    ((hkeep2.fences _ id).trans hf) htail (daddr_aligned (h.aligned .rx) _ h.top (by omega))
  refine ⟨t, ?_, ?_, ?_, ?_, ?_⟩
  · change follow ([resume 0, resume 0] ++ ([resume 0, resume 0] ++ [resume 0])) _ = _
    exact (follow_append _ hf1).trans ((follow_append _ hf2).trans hf3)
  · exact (hk3.regs _ ring0_ne).trans ((hk2.regs _ ring0_ne).trans hx1)
  · rw [hy3, hy2]
    rfl
  · rw [hans, hkeep2.answers id]
  · exact Keeps.after (hkeep2.mono {}) hk3 { regs := by rintro _ rfl; exact ring0_lt .rx }

/-- The register phases of an `ATTACH`. -/
theorem Built.brings_up {u : State} {base : Dir → Word} (h : Built u base) (c : Config) :
    ∃ t, follow (List.replicate 12 (resume 0)) (u.setTasks [.attach (.program sqProgram) c]) = some t ∧
      t.regs (ring0 .tx) = u.attachedRegs (base .tx) (ring0 .tx) ∧
      t.regs (ring0 .rx) =
        rung (daddr (base .rx) ((u.cfg.ring (ring0 .rx)).cap - 1)) (u.attachedRegs (base .rx) (ring0 .rx)) ∧
      (∀ d, t.ring (ring0 d) = (u.ring (ring0 d)).become .running) ∧
      t.sw.ctxPresent = true ∧ t.sw.linkUp = u.sw.linkUp ∧ t.sw.txCsum = u.sw.txCsum ∧ t.sw.rxCsum = u.sw.rxCsum ∧
      t.sw.tsEnabled = u.sw.tsEnabled ∧ t.answers = u.answers ++ [⟨0x01, .ok⟩] ∧
      Keeps { regs := fun r => r.q.val < 1, rings := fun r => r.q.val < 1, context := True, answers := True } u t := by
  obtain ⟨u1, hf1, hx1, hk1⟩ := h.programs c
  have hcfg1 : u1.cfg = u.cfg := hk1.cfg id
  obtain ⟨u2, hf2, hctx, hlink, htx, hrx, hts, hring2, hk2⟩ := attach_presents (u := u1) (c := c)
    (by rw [hcfg1]; exact h.sq) ((hk1.tasks id).trans h.tasks) ((hk1.context id).1.trans h.context)
  have hkeep2 := Keeps.after (e := { regs := fun r => r.q.val < 1, rings := fun r => r.q.val < 1, context := True })
    (hk1.mono {}) hk2 {}
  have hring (d : Dir) : u2.ring (ring0 d) = (u.ring (ring0 d)).become .running := by
    rw [hring2, hk1.rings _ id]
  obtain ⟨t, hf3, hx3, hy3, hans, hk3⟩ := attach_enables h c (hkeep2.cfg id) ((hkeep2.tasks id).trans h.tasks)
    (fun d => (hk2.regs _ id).trans (hx1 d)) hring ((hkeep2.fences _ id).trans h.fenced)
  obtain ⟨-, hlink1, htx1, hrx1, hts1⟩ := hk1.context id
  obtain ⟨hctx3, hlink3, htx3, hrx3, hts3⟩ := hk3.context id
  refine ⟨t, ?_, hx3, hy3, fun d => (hk3.rings _ id).trans (hring d), hctx3.trans hctx, ?_, ?_, ?_, ?_, ?_,
    Keeps.after (hkeep2.mono {}) hk3 {}⟩
  · change follow (List.replicate 6 (resume 0) ++ ([resume 0] ++ List.replicate 5 (resume 0))) _ = _
    exact (follow_append _ hf1).trans ((follow_append _ hf2).trans hf3)
  · rw [hlink3, hlink, hlink1]
  · rw [htx3, htx, htx1]
  · rw [hrx3, hrx, hrx1]
  · rw [hts3, hts, hts1]
  · rw [hans, hkeep2.answers id]

end Sys2Proof.Machine
end

section
/-! PROOF. A whole `ATTACH` of a single-queue device (R420). -/

namespace Sys2Proof.Machine

theorem State.onePool_context (s : State) {c : Config} {b1 b2 : Word} (h : TwoBlocks c b1 b2) (rest : List (Option Word)) :
    (s.onePool c b1 b2 rest).sw.ctxPresent = s.sw.ctxPresent :=
  ((makePool_frame ((s.setCfg c).afterAlloc (some b2 :: rest)) (ring0 .tx) b1 (h.fits .tx)).context id).1

theorem State.built_ctxPresent (s : State) {c : Config} {b1 b2 : Word} (h : TwoBlocks c b1 b2) (rest : List (Option Word)) :
    (s.built c b1 b2 rest).sw.ctxPresent = s.sw.ctxPresent := by
  have hunarmed := ((s.twoPools c b1 b2 rest).attachSoftware_context c).1
  rw [← State.unarmed, ((s.twoPools_frame h rest).context id).1, s.onePool_context h] at hunarmed
  rw [State.built_eq, State.wmb_ctxPresent, ((armRx_frame _ 0).context id).1, hunarmed]

/-- The register phases start from the rings that are built. -/
theorem State.built_built {s : State} {c : Config} {b1 b2 : Word} (h : TwoBlocks c b1 b2) (rest : List (Option Word))
    (htasks : s.tasks = []) (hctx : s.sw.ctxPresent = false) (hrest : ∀ d, AtRest (s.regs (ring0 d))) :
    Built (s.built c b1 b2 rest) (poolBase b1 b2) := by
  have hframe := s.built_frame h rest
  have hring := s.built_ring h.sq b1 b2 rest
  have hcfg := s.built_cfg h.sq b1 b2 rest
  have hsame : (s.built c b1 b2 rest).sw.ctxPresent = s.sw.ctxPresent := s.built_ctxPresent h rest
  have hfence : (s.built c b1 b2 rest).unfenced (ring0 .rx) = false := by
    rw [State.built_eq, State.wmb_unfenced]
  generalize s.built c b1 b2 rest = u at *
  subst hcfg
  refine ⟨h.sq, (hframe.tasks id).trans htasks, hsame.trans hctx, fun d => ?_, hfence, fun d => ?_, fun d => ?_, fun d => ?_,
    ((blockOk_iff _ _).1 h.rx).2⟩
  · rw [hframe.regs _ id]
    exact hrest d
  · rw [hring]
    rfl
  · rw [hring]
    rfl
  · cases d with
    | tx => exact ((blockOk_iff _ _).1 h.tx).1
    | rx => exact ((blockOk_iff _ _).1 h.rx).1

/-- Settles O58: the built rings, and the register phases on them. -/
theorem attachBringsUp : Obligations.AttachBringsUp := by
  intro s c b1 b2 rest htasks hctx hrings hisr hv hval he cap base rx hb1 hb2 hapart
  have hc := sqConfig_of_validate hv hval
  have h : TwoBlocks c b1 b2 := ⟨hc, hb1, hb2, hapart⟩
  have hrest (d : Dir) : AtRest (s.regs (ring0 d)) := by
    obtain ⟨hrun, hstop, hbusy⟩ := (halted_iff _).1 (hrings (ring0 d)).1
    exact ⟨hrun, hbusy, hstop, hisr d⟩
  have hfirst := attach_builds hc hval htasks hctx hrings he hb1 hb2
  have hbuilt := State.built_built h rest htasks hctx hrest
  have hframe := s.built_frame h rest
  have hring := s.built_ring hc b1 b2 rest
  have hcfg := s.built_cfg hc b1 b2 rest
  have htags := s.built_tags hc b1 b2 rest
  obtain ⟨hlinkB, htxB, hrxB, htsB⟩ := s.built_context (c := c) b1 b2 rest
  have hchain (d : Dir) {i : Nat} (hi : i < cap d) := s.built_chain h rest d hi
  have harmed {i : Nat} (hi : i < cap .rx) := s.built_armed h rest hi
  generalize s.built c b1 b2 rest = u at *
  obtain ⟨t, hlast, hx, hy, hringT, hctxT, hlink, htx, hrx, hts, hans, hk⟩ := hbuilt.brings_up c
  have hw (d : Dir) : t.ring (ring0 d) = (builtRing c b1 b2 d (s.ring (ring0 d))).become .running := by
    rw [hringT, hring]
  have hword (d : Dir) (i p : Nat) : t.getD (ring0 d) i p = u.getD (ring0 d) i p := by
    refine State.getD_congr ?_ fun a _ => hk.bytes a id
    rw [hringT]
    rfl
  refine ⟨t, ?_, (hk.cfg id).trans hcfg, (hk.tasks id).trans hbuilt.tasks, hctxT, hlink.trans hlinkB, htx.trans htxB,
    hrx.trans hrxB, hts.trans htsB, ?_, (hk.events id).trans (hframe.events id), (hk.tags 0 id).trans htags,
    fun d => (hk.irq d id).trans (hframe.irq d id), fun d => ?_, fun i hi => ?_, ?_⟩
  · change follow ([exec (.attach c), resume 0, resume 0, resume 0] ++ List.replicate 12 (resume 0)) s = some t
    exact (follow_append _ hfirst).trans hlast
  · rw [hans, hframe.answers id]
  · have hwords : ∀ i, i < cap d → t.getD ⟨d, 0⟩ i 0x00 = daddr (poolBase b1 b2 d) ((i + 1) % cap d) ∧
        t.getD ⟨d, 0⟩ i (statusOff .sq) = 0 := fun i hi => by
      rw [hword, hword]
      exact hchain d hi
    have hisr0 : (u.regs (ring0 d)).isr = 0 := (hbuilt.rest d).isr
    have hstop0 : (u.regs (ring0 d)).stopPending = false := (hbuilt.rest d).stop
    rw [← hcfg]
    cases d with
    | tx =>
      rw [hx, hw]
      exact ⟨rfl, rfl, rfl, rfl, rfl, rfl, rfl, rfl, rfl, rfl, rfl, rfl, rfl, rfl, rfl, hstop0, rfl, rfl, hisr0, rfl, rfl, rfl,
        rfl, hwords⟩
    | rx =>
      rw [hy, hw]
      exact ⟨rfl, rfl, rfl, rfl, rfl, rfl, rfl, rfl, rfl, rfl, rfl, rfl, rfl, rfl, rfl, hstop0, rfl, rfl, hisr0, rfl, rfl, rfl,
        rfl, hwords⟩
  · obtain ⟨hctrl, hhandle, hfresh, hsupplied⟩ := harmed hi
    refine ⟨(hword .rx i _).trans hctrl, fun h0 => hhandle ((hword .rx i _).symm.trans h0), (hword .rx i _).trans hfresh,
      fun x a hbuf => ?_⟩
    obtain ⟨hbufAddr, hbufHandle⟩ := hsupplied x a hbuf
    exact ⟨(hword .rx i _).trans hbufAddr, fun hx0 => (hword .rx i _).trans (hbufHandle hx0)⟩
  · change (t.regs (ring0 .rx)).taildesc = _
    rw [hy, hcfg]
    rfl

end Sys2Proof.Machine
end

section
/-! PROOF. What an accepted `SUBMIT_TX` writes (R210, R213, R214). -/

namespace Sys2Proof.Machine

/-! ### One descriptor -/

/-- The words of the descriptor of a fragment, in the order of their stores. -/
def fillWords (v : Variant) (g : Frag) (first last : Bool) (app : App) (h : Word) : List (Nat × Word) :=
  let a := if first then app else appZero
  [(0x08, g.addr), (ctrlOff v, txCtrl v g.len first last), (statusOff v, 0), (0x20, a.a0), (0x24, a.a1), (0x28, a.a2),
    (0x2C, a.a3), (0x30, a.a4), (0x34, if last then h else 0), (0x38, mapWord g.kind),
    (0x3C, if last && tsReqOf app.a4 then app.a4 else 0)]

theorem fillWords_offs (v : Variant) (g : Frag) (first last : Bool) (app : App) (h : Word) :
    (fillWords v g first last app h).map Prod.fst = filledOffs v := rfl

theorem fillWords_wordOff {v : Variant} {g : Frag} {first last : Bool} {app : App} {h : Word} {o : Nat} {w : Word}
    (hw : (o, w) ∈ fillWords v g first last app h) : wordOff o :=
  wordOff_filled v o (fillWords_offs v g first last app h ▸ List.mem_map_of_mem (f := Prod.fst) hw)

theorem State.fillTx_eq (s : State) (r : RingId) (i : Nat) (g : Frag) (first last : Bool) (app : App) (h : Word) :
    s.fillTx r i g first last app h = s.putWords r i (fillWords s.cfg.variant g first last app h) := rfl

theorem State.fillTx_ring (s : State) (r : RingId) (i : Nat) (g : Frag) (first last : Bool) (app : App) (h : Word)
    (t : RingId) : (s.fillTx r i g first last app h).ring t = s.ring t := by
  rw [State.fillTx_eq, State.putWords_ring]

theorem State.fillTx_frame (s : State) (r : RingId) (i : Nat) (g : Frag) (first last : Bool) (app : App) (h : Word) :
    Keeps { bytes := s.inWords r i (filledOffs s.cfg.variant) } s (s.fillTx r i g first last app h) := by
  have hframe := s.putWords_frame r i (fillWords s.cfg.variant g first last app h)
  rwa [fillWords_offs] at hframe

theorem State.fillTx_word {s : State} {r : RingId} {i : Nat} (hi : s.HasSlot r i) {g : Frag} {first last : Bool} {app : App}
    {h : Word} {o : Nat} {v : Word} (hw : (o, v) ∈ fillWords s.cfg.variant g first last app h) :
    (s.fillTx r i g first last app h).getD r i o = v := by
  rw [State.fillTx_eq]
  exact State.putWords_getD_mem hi (by rw [fillWords_offs]; exact wordOff_filled _)
    (by rw [fillWords_offs]; exact nodup_filled _) hw

/-! ### The descriptors of a frame -/

theorem fillFrame_cons (r : RingId) (app : App) (h : Word) (sof : Bool) (i : Nat) (g : Frag) (gs : List Frag) (s : State) :
    fillFrame r app h sof i (g :: gs) s =
      fillFrame r app h false (incMod (s.ring r).cap i) gs (s.fillTx r i g sof gs.isEmpty app h) := rfl

/-- The bytes of the descriptors of `m` slots from `i` on. -/
def State.inSlots (s : State) (r : RingId) (i m : Nat) (a : Word) : Prop :=
  ∃ j ∈ slotsFrom (s.ring r).cap i m, s.inWords r j (filledOffs s.cfg.variant) a

theorem fillFrame_frame (r : RingId) (app : App) (h : Word) (gs : List Frag) : ∀ (sof : Bool) (i : Nat) (s : State),
    i < (s.ring r).cap → Keeps { bytes := s.inSlots r i gs.length } s (fillFrame r app h sof i gs s) := by
  induction gs with
  | nil => exact fun _ _ s _ => Keeps.refl _ s
  | cons g gs ih =>
    intro sof i s hi
    have hfirst := s.fillTx_frame r i g sof gs.isEmpty app h
    have hnext := ih false (incMod (s.ring r).cap i) (s.fillTx r i g sof gs.isEmpty app h)
      (by rw [State.fillTx_ring]; exact Nat.mod_lt _ (by omega))
    have hslots := slotsFrom_succ gs.length hi
    rw [fillFrame_cons]
    refine Keeps.after (hfirst.mono { bytes := fun a ha => ⟨i, ?_, ha⟩ }) hnext { bytes := ?_ }
    · rw [List.length_cons, hslots]
      exact List.mem_cons_self
    · rintro a ⟨j, hj, ha⟩
      rw [State.fillTx_ring] at hj
      refine ⟨j, ?_, ?_⟩
      · rw [List.length_cons, hslots]
        exact List.mem_cons_of_mem _ hj
      · rw [hfirst.cfg id] at ha
        exact (State.inWords_congr (by rw [State.fillTx_ring]) _ _ _).1 ha

/-- The words of the descriptor of fragment `j`. -/
theorem fillFrame_word (r : RingId) (app : App) (h : Word) (gs : List Frag) : ∀ (sof : Bool) (i : Nat) (s : State),
    64 * (s.ring r).cap ≤ 2 ^ 32 → i < (s.ring r).cap → gs.length ≤ (s.ring r).cap → ∀ (j : Nat) (g : Frag), gs[j]? = some g →
    ∀ (o : Nat) (v : Word), (o, v) ∈ fillWords s.cfg.variant g (sof && j == 0) (j + 1 == gs.length) app h →
    (fillFrame r app h sof i gs s).getD r ((i + j) % (s.ring r).cap) o = v := by
  induction gs with
  | nil => exact fun _ _ _ _ _ _ _ _ hg => nomatch hg
  | cons g' gs ih =>
    intro sof i s hfits hi hlen j g hg o v hw
    have hcap : 0 < (s.ring r).cap := by omega
    let u := s.fillTx r i g' sof gs.isEmpty app h
    have hring : u.ring r = s.ring r := State.fillTx_ring _ _ _ _ _ _ _ _ _
    have hi' : incMod (s.ring r).cap i < (u.ring r).cap := by
      rw [hring]
      exact Nat.mod_lt _ hcap
    rw [fillFrame_cons]
    cases j with
    | zero =>
      obtain rfl := Option.some.inj hg
      have hempty : ((0 : Nat) + 1 == (g' :: gs).length) = gs.isEmpty := by cases gs <;> rfl
      rw [hempty, beq_self_eq_true, Bool.and_true] at hw
      have hslot : s.HasSlot r i := ⟨hfits, hi⟩
      have hslot' : u.HasSlot r i := hslot.congr (congrArg RingSw.cap hring)
      have hnodup := slotsFrom_nodup (i := i) hlen
      rw [List.length_cons, slotsFrom_succ gs.length hi] at hnodup
      have hfresh := (List.nodup_cons.1 hnodup).1
      have hoff : wordOff o := fillWords_wordOff hw
      have hframe := fillFrame_frame r app h gs false (incMod (s.ring r).cap i) u hi'
      rw [Nat.add_zero, Nat.mod_eq_of_lt hi, ← State.fillTx_word hslot hw]
      refine State.getD_congr (congrArg RingSw.base (hframe.rings r id)) fun a ha => hframe.bytes a ?_
      rintro ⟨k, hk, hin⟩
      rw [hring] at hk
      have hslotk : u.HasSlot r k := ⟨hslot'.fits, by rw [hring]; exact slotsFrom_lt hcap k hk⟩
      exact State.not_inWords hslotk hslot' hoff (wordOff_filled _) (Or.inl fun e => hfresh (e ▸ hk)) ha hin
    | succ j =>
      rw [List.length_cons] at hlen
      have hw' : (o, v) ∈ fillWords u.cfg.variant g (false && j == 0) (j + 1 == gs.length) app h := by
        have hcfg : u.cfg = s.cfg := (s.fillTx_frame r i g' sof gs.isEmpty app h).cfg id
        rw [hcfg]
        simpa using hw
      have hrest := ih false (incMod (s.ring r).cap i) u (by rwa [hring]) hi' (by rw [hring]; omega) j g hg o v hw'
      have hplace : (incMod (s.ring r).cap i + j) % (s.ring r).cap = (i + (j + 1)) % (s.ring r).cap := by
        rw [incMod, Nat.mod_add_mod, Nat.add_assoc, Nat.add_comm 1]
      rwa [hring, hplace] at hrest

/-! ### The whole of `SUBMIT_TX` -/

theorem offloadTx_frame {s s' : State} {q : Chan} {f : Frame} {app : App} (h : s.offloadTx q f = some (app, s')) :
    Keeps { tags := (· = q) } s s' := by
  obtain rfl | rfl := offloadTx_cases h
  · exact Keeps.refl _ _
  · constructor <;> simp +contextual

theorem State.submitFill_frame (s : State) (q : Chan) (f : Frame) (app : App)
    (hi : (s.ring ⟨.tx, q⟩).issue < (s.ring ⟨.tx, q⟩).cap) :
    Keeps { regs := (· = ⟨.tx, q⟩), rings := (· = ⟨.tx, q⟩), fences := fun _ => True,
            bytes := s.inSlots ⟨.tx, q⟩ (s.ring ⟨.tx, q⟩).issue f.frags.length } s (s.submitFill ⟨.tx, q⟩ f app) := by
  have hfill := fillFrame_frame ⟨.tx, q⟩ app f.handle f.frags true _ s hi
  refine Keeps.after (Keeps.after (Keeps.after (Keeps.after (hfill.mono {}) (State.setRing_frame _ ⟨.tx, q⟩ _) {})
    (State.wmb_frame _) {}) (State.setRegs_frame _ ⟨.tx, q⟩ _) {}) (State.setRing_frame _ ⟨.tx, q⟩ _) {}

/-- The slot before the one `k` slots from `i` on. -/
theorem decMod_after {n i k : Nat} (hn : 1 ≤ n) (hk : 1 ≤ k) : decMod n ((i + k) % n) = (i + (k - 1)) % n := by
  unfold decMod
  rw [Nat.mod_add_mod, show i + k + (n - 1) = i + (k - 1) + n by omega, Nat.add_mod_right]

theorem State.submitFill_regs (s : State) (r : RingId) (f : Frame) (app : App)
    (hi : (s.ring r).issue < (s.ring r).cap) : (s.submitFill r f app).regs r =
      tailWriteRegs (daddr (s.ring r).base (decMod (s.ring r).cap ((s.ring r).after f.frags.length))) (s.regs r) := by
  have hfill := fillFrame_frame r app f.handle f.frags true _ s hi
  have hring := hfill.rings r id
  have hregs := hfill.regs r id
  unfold State.submitFill
  generalize fillFrame r app f.handle true (s.ring r).issue f.frags s = u at *
  unfold State.submitBell State.submitMark
  simp [State.regWrite, hring, hregs, RingSw.toIssue]

theorem State.submitFill_unfenced (s : State) (r : RingId) (f : Frame) (app : App) (t : RingId) :
    (s.submitFill r f app).unfenced t = false := by
  unfold State.submitFill
  generalize fillFrame r app f.handle true (s.ring r).issue f.frags s = u
  simp [State.submitMark]

theorem State.submitFill_word {s : State} {q : Chan} {f : Frame} {app : App} (hp : s.HasPool ⟨.tx, q⟩)
    (hlen : f.frags.length ≤ (s.ring ⟨.tx, q⟩).cap) {j : Nat} {g : Frag} (hg : f.frags[j]? = some g) {o : Nat} {v : Word}
    (hw : (o, v) ∈ fillWords s.cfg.variant g (j == 0) (j + 1 == f.frags.length) app f.handle) :
    (s.submitFill ⟨.tx, q⟩ f app).getD ⟨.tx, q⟩ (((s.ring ⟨.tx, q⟩).issue + j) % (s.ring ⟨.tx, q⟩).cap) o = v := by
  obtain ⟨-, -, -, hfits, -, -, hi, -⟩ := hp.facts
  have hfill := fillFrame_word ⟨.tx, q⟩ app f.handle f.frags true _ s hfits hi hlen j g hg o v (by rwa [Bool.true_and])
  rw [← hfill]
  refine State.getD_congr ?_ fun a _ => by rw [State.submitFill_mem]
  rw [submitFill_ring, (fillFrame_frame _ app f.handle f.frags true _ s hi).rings _ id]

/-- The room that R212 asks for leaves one slot free. -/
theorem frame_fits {n i c k : Nat} (hn : 2 ≤ n) (h : (k : Int) ≤ ((c : Int) - i - 1) % n) : k ≤ n := by
  have hlt := Int.emod_lt_of_pos ((c : Int) - i - 1) (show (0 : Int) < n by omega)
  omega

theorem State.getApp_of {s : State} {r : RingId} {i : Nat} {a : App} (h0 : s.getD r i 0x20 = a.a0)
    (h1 : s.getD r i 0x24 = a.a1) (h2 : s.getD r i 0x28 = a.a2) (h3 : s.getD r i 0x2C = a.a3)
    (h4 : s.getD r i 0x30 = a.a4) : s.getApp r i = a := by
  unfold State.getApp
  rw [show appOff 0 = 0x20 from rfl, show appOff 1 = 0x24 from rfl, show appOff 2 = 0x28 from rfl,
    show appOff 3 = 0x2C from rfl, show appOff 4 = 0x30 from rfl, h0, h1, h2, h3, h4]

/-- The descriptor of fragment `j` of an accepted frame. -/
theorem State.submitFill_slot {s : State} {q : Chan} {f : Frame} {app : App} (hp : s.HasPool ⟨.tx, q⟩)
    (hlen : f.frags.length ≤ (s.ring ⟨.tx, q⟩).cap) {j : Nat} {g : Frag} (hg : f.frags[j]? = some g) :
    let r : RingId := ⟨.tx, q⟩
    let t := s.submitFill r f app
    let i := ((s.ring r).issue + j) % (s.ring r).cap
    let last := j + 1 == f.frags.length
    t.getD r i 0x08 = g.addr ∧ t.getD r i (ctrlOff s.cfg.variant) = txCtrl s.cfg.variant g.len (j == 0) last ∧
      t.getD r i (statusOff s.cfg.variant) = 0 ∧ t.getApp r i = (if (j == 0) = true then app else appZero) ∧
      t.getD r i 0x34 = (if last = true then f.handle else 0) ∧ t.getD r i 0x38 = mapWord g.kind ∧
      t.getD r i 0x3C = (if (last && tsReqOf app.a4) = true then app.a4 else 0) := by
  intro r t i last
  have hword {o : Nat} {v : Word} (hw : (o, v) ∈ fillWords s.cfg.variant g (j == 0) last app f.handle) :
      t.getD r i o = v := State.submitFill_word hp hlen hg hw
  unfold fillWords at hword
  refine ⟨hword ?_, hword ?_, hword ?_, State.getApp_of (hword ?_) (hword ?_) (hword ?_) (hword ?_) (hword ?_), hword ?_,
    hword ?_, hword ?_⟩
  all_goals simp

/-- The doorbell (R335): a ring that is not in a reset takes the pointer, and one that runs is rung. -/
theorem tailWriteRegs_doorbell (v : Word) (x : RingRegs) :
    tailWriteRegs v x = if x.resetBusy = true then x
      else if x.run = true ∧ x.stopPending = false then
        { x with taildesc := v &&& 0xFFFFFFC0, tailValid := true, idle := false }
      else { x with taildesc := v &&& 0xFFFFFFC0 } := by
  rw [tailWriteRegs_eq]
  by_cases hbusy : x.resetBusy = true
  · rw [if_pos hbusy, if_pos hbusy]
  · rw [if_neg hbusy, if_neg hbusy]
    by_cases hrun : x.run = true ∧ x.stopPending = false
    · rw [if_pos ⟨hrun.1, hrun.2, eq_false_of_ne_true hbusy⟩, if_pos hrun]
    · rw [if_neg fun h => hrun ⟨h.1, h.2.1⟩, if_neg hrun]

theorem bitIf_ite (p : Prop) [Decidable p] (pos : Nat) : bitIf (decide p) pos = if p then bitIf true pos else 0 := by
  by_cases h : p <;> simp [h, bitIf]

/-- Settles O38: the descriptors one after the other, then `issue`, the `WMB` and the doorbell. -/
theorem submitWrites : Obligations.SubmitWrites := by
  intro s s' q f app r w v x k slot hp hctx hst hlink hok hroom hoff
  obtain ⟨hq, -, hcap, -, -, -, hi, -⟩ := hp.facts
  obtain ⟨-, -, hal, htop⟩ := (poolLegal_iff _).1 hp.legal
  have hk1 : 1 ≤ k := hok.1
  have hlen : k ≤ w.cap := frame_fits hcap hroom
  have htags := offloadTx_frame hoff
  have hring : s'.ring r = w := htags.rings r id
  have hcfg : s'.cfg = s.cfg := htags.cfg id
  have hi' : (s'.ring r).issue < (s'.ring r).cap := by rwa [hring]
  have hp' : s'.HasPool r := hp.congr hcfg hring rfl rfl
  have hfill := s'.submitFill_frame q f app hi'
  have hcheck := submitCheck_pass (s := s) (r := r) (f := f) hst hlink hok hi hroom
  refine ⟨(s'.submitFill r f app).answer 0x10 .ok, ?_, ?_, ?_, fun t => ?_, ?_, fun j g hg => ?_, ?_, ?_⟩
  · have hrun := exec_submitTx hctx (q := q) hq f
    rw [hcheck, hoff] at hrun
    exact hrun
  · exact congrArg (· ++ [⟨0x10, .ok⟩]) ((hfill.answers id).trans (htags.answers id))
  · rw [State.answer_ring, submitFill_ring, hring]
    rfl
  · rw [State.answer_unfenced, State.submitFill_unfenced]
  · rw [State.answer_regs, State.submitFill_regs _ _ _ _ hi', hring, htags.regs r id, RingSw.after,
      decMod_after (by omega) hk1, tailWriteRegs_doorbell]
    have hslot : slot (k - 1) < w.cap := Nat.mod_lt _ (by omega)
    have halign : daddr w.base (slot (k - 1)) &&& 0xFFFFFFC0 = daddr w.base (slot (k - 1)) := daddr_aligned hal _ htop hslot
    rw [show (w.issue + (f.frags.length - 1)) % w.cap = slot (k - 1) from rfl, halign]
  · obtain ⟨haddr, hctrl, hstatus, happ, hhandle, hmap, htag⟩ :=
      State.submitFill_slot (app := app) hp' (by rw [hring]; exact hlen) hg
    rw [hcfg] at hctrl hstatus
    rw [hring] at *
    have hfirst : (j == 0) = decide (j = 0) := rfl
    have hlast : (j + 1 == f.frags.length) = decide (j = k - 1) := by
      have hiff : j + 1 = f.frags.length ↔ j = k - 1 := by omega
      exact (beq_eq_decide _ _).trans (decide_eq_decide.2 hiff)
    rw [hfirst, hlast, txCtrl, bitIf_ite, bitIf_ite] at hctrl
    rw [hfirst] at happ
    rw [hlast] at hhandle htag
    simp only [decide_eq_true_eq, Bool.and_eq_true] at happ hhandle htag
    exact ⟨haddr, hctrl, hstatus, happ, hhandle, hmap, htag⟩
  · rw [State.answer_tags]
    exact hfill.tags q id
  · refine Keeps.after (Keeps.after (htags.mono {}) hfill { bytes := ?_ }) (State.answer_frame _ _ _) {}
    rintro a ⟨i, hin, ha⟩
    rw [hring] at hin
    obtain ⟨j, hj, rfl⟩ := List.mem_map.1 hin
    rw [hcfg] at ha
    exact ⟨j, List.mem_range.1 hj, (State.inWords_congr (congrArg RingSw.base hring) _ _ _).1 ha⟩

end Sys2Proof.Machine
end

section
/-! SUPPORT. The three callers of `POLL_RX` and `RECLAIM_TX` (R215, R220, R270): the command, the command in progress, the
handler. -/

namespace Sys2Proof.Machine

/-! ### `POLL_RX` -/

theorem pollTask_takes {p p' : PollSt} {s u : State} (h : pollIter p s = some (p', u)) :
    pollTask p s = .more (.poll p') u := by
  simp only [pollTask, h]

theorem pollTask_ends {p : PollSt} {s : State} (h : pollIter p s = none) : pollTask p s = .done (pollReturn p s) := by
  simp only [pollTask, h]

theorem irqPoll_takes {p p' : PollSt} {s u : State} (h : pollIter p s = some (p', u)) (b : Nat) (q : Chan) (c : BitVec 3)
    (qs : List Chan) : irqPoll .rx b q c p qs s = .more (.irq .rx b qs (.poll q c p')) u := by
  simp only [irqPoll, h]

theorem irqPoll_ends {p : PollSt} {s : State} (h : pollIter p s = none) (b : Nat) (q : Chan) (c : BitVec 3)
    (qs : List Chan) : irqPoll .rx b q c p qs s = .more (.irq .rx b qs (.deliver q c p.out)) (pollFinish p s) := by
  simp only [irqPoll, h]

theorem irqCall_rx {s : State} {q : Chan} (hc : s.sw.ctxPresent = true) (hst : (s.ring ⟨.rx, q⟩).rstate = .running)
    (hb : s.bodyBusy ⟨.rx, q⟩ = false) (b : Nat) (c : BitVec 3) (qs : List Chan) :
    irqCall .rx b q c qs s = irqPoll .rx b q c ⟨q, b, 0, [], none⟩ qs s := by
  simp [irqCall, hb, hc, hst, turnedAway]

/-- The handler's step, at the call or later, is that of the scan it runs. -/
theorem taskStep_irqPoll {s : State} {k b : Nat} {q : Chan} {qs : List Chan} {c : BitVec 3} {p : PollSt}
    (h : s.tasks[k]? = some (.irq .rx b qs (.poll q c p)) ∨
      s.tasks[k]? = some (.irq .rx b qs (.call q c)) ∧ p = ⟨q, b, 0, [], none⟩ ∧ s.sw.ctxPresent = true ∧
        (s.ring ⟨.rx, q⟩).rstate = .running ∧ (s.rest k).bodyBusy ⟨.rx, q⟩ = false) :
    ∃ x, s.tasks[k]? = some x ∧ taskStep x (s.rest k) = irqPoll .rx b q c p qs (s.rest k) := by
  obtain hk | ⟨hk, rfl, hc, hst, hb⟩ := h
  · exact ⟨_, hk, rfl⟩
  · exact ⟨_, hk, irqCall_rx (s := s.rest k) hc hst hb b c qs⟩

theorem exec_pollRx_body {s : State} {q : Chan} (hq : q.val < s.cfg.nq) (hc : s.sw.ctxPresent = true)
    (hst : (s.ring ⟨.rx, q⟩).rstate = .running) (hb : s.bodyBusy ⟨.rx, q⟩ = false) (budget : Nat) :
    exec (.pollRx q.val budget) s = begin (pollTask ⟨q, budget, 0, [], none⟩ s) :=
  (exec_pollRx hc hq budget).trans (withBody_free hst hb _ _)

theorem begin_more {t : Task} {u : State} {ts : List Task} (h : u.tasks = ts) :
    begin (.more t u) = .next (u.setTasks (ts ++ [t])) := by
  rw [← h]
  rfl

/-! ### `RECLAIM_TX` -/

theorem reclaimTask_takes {p p' : ReclaimSt} {s u : State} (h : reclaimIter p s = some (p', u)) :
    reclaimTask p s = .more (.reclaim p') u := by
  simp only [reclaimTask, h]

theorem reclaimTask_ends {p : ReclaimSt} {s : State} (h : reclaimIter p s = none) :
    reclaimTask p s = .done (s.answer 0x12 (.okHandles p.out)) := by
  simp only [reclaimTask, h]

theorem irqReclaim_takes {p p' : ReclaimSt} {s u : State} (h : reclaimIter p s = some (p', u)) (b : Nat) (q : Chan)
    (c : BitVec 3) (qs : List Chan) : irqReclaim .tx b q c p qs s = .more (.irq .tx b qs (.reclaim q c p')) u := by
  simp only [irqReclaim, h]

theorem irqReclaim_ends {p : ReclaimSt} {s : State} (h : reclaimIter p s = none) (b : Nat) (q : Chan) (c : BitVec 3)
    (qs : List Chan) : irqReclaim .tx b q c p qs s = .more (.irq .tx b qs (.writeIcr q c)) s := by
  simp only [irqReclaim, h]

theorem irqCall_tx {s : State} {q : Chan} (hc : s.sw.ctxPresent = true) (hst : (s.ring ⟨.tx, q⟩).rstate = .running)
    (hb : s.bodyBusy ⟨.tx, q⟩ = false) (b : Nat) (c : BitVec 3) (qs : List Chan) :
    irqCall .tx b q c qs s = irqReclaim .tx b q c ⟨q, []⟩ qs s := by
  simp [irqCall, hb, hc, hst, turnedAway]

/-- The handler's step, at the call or later, is that of the scan it runs. -/
theorem taskStep_irqReclaim {s : State} {k b : Nat} {q : Chan} {qs : List Chan} {c : BitVec 3} {out : List Word}
    (h : s.tasks[k]? = some (.irq .tx b qs (.reclaim q c ⟨q, out⟩)) ∨
      s.tasks[k]? = some (.irq .tx b qs (.call q c)) ∧ out = [] ∧ s.sw.ctxPresent = true ∧
        (s.ring ⟨.tx, q⟩).rstate = .running ∧ (s.rest k).bodyBusy ⟨.tx, q⟩ = false) :
    ∃ x, s.tasks[k]? = some x ∧ taskStep x (s.rest k) = irqReclaim .tx b q c ⟨q, out⟩ qs (s.rest k) := by
  obtain hk | ⟨hk, rfl, hc, hst, hb⟩ := h
  · exact ⟨_, hk, rfl⟩
  · exact ⟨_, hk, irqCall_tx (s := s.rest k) hc hst hb b c qs⟩

theorem exec_reclaimTx_body {s : State} {q : Chan} (hq : q.val < s.cfg.nq) (hc : s.sw.ctxPresent = true)
    (hst : (s.ring ⟨.tx, q⟩).rstate = .running) (hb : s.bodyBusy ⟨.tx, q⟩ = false) :
    exec (.reclaimTx q.val) s = begin (reclaimTask ⟨q, []⟩ s) :=
  (exec_reclaimTx hc hq).trans (withBody_free hst hb _ _)

/-! ### Where a scan ends -/

theorem pollIter_none {p : PollSt} {s : State} (h : p.budget ≤ p.n ∨
      cmpltOf (s.statusD ⟨.rx, p.q⟩ (s.ring ⟨.rx, p.q⟩).completion) = false ∨ (s.ring ⟨.rx, p.q⟩).present = false) :
    pollIter p s = none := by
  refine if_neg fun hgo => ?_
  simp only [Bool.and_eq_true, decide_eq_true_eq] at hgo
  obtain ⟨⟨hpresent, hbudget⟩, hdone⟩ := hgo
  obtain h | h | h := h
  · omega
  · exact nomatch h.symm.trans hdone
  · exact nomatch h.symm.trans hpresent

theorem reclaimIter_none {p : ReclaimSt} {s : State} (h : (s.ring ⟨.tx, p.q⟩).completion = (s.ring ⟨.tx, p.q⟩).issue ∨
      cmpltOf (s.statusD ⟨.tx, p.q⟩ (s.ring ⟨.tx, p.q⟩).completion) = false ∨ (s.ring ⟨.tx, p.q⟩).present = false) :
    reclaimIter p s = none := by
  refine if_neg fun hgo => ?_
  simp only [Bool.and_eq_true, bne_iff_ne] at hgo
  obtain ⟨⟨hpresent, hleft⟩, hdone⟩ := hgo
  obtain h | h | h := h
  · exact hleft h
  · exact nomatch h.symm.trans hdone
  · exact nomatch h.symm.trans hpresent

/-- The end of the scan leaves the commands in progress alone. -/
theorem pollFinish_setTasks (p : PollSt) (s : State) (ts : List Task) :
    pollFinish p (s.setTasks ts) = (pollFinish p s).setTasks ts := by
  unfold pollFinish
  split
  · rfl
  · rw [State.setTasks_ring]
    split <;> rfl

theorem pollFinish_quiet {p : PollSt} {s : State} (h : p.last = none ∨ (s.ring ⟨.rx, p.q⟩).present = false) :
    pollFinish p s = s := by
  unfold pollFinish
  cases hl : p.last with
  | none => rfl
  | some i =>
    obtain hnone | hgone := h
    · exact nomatch hl.symm.trans hnone
    · exact if_neg (by simp [hgone])

theorem pollFinish_rings {p : PollSt} {s : State} {i : Nat} (hl : p.last = some i)
    (hp : (s.ring ⟨.rx, p.q⟩).present = true) : pollFinish p s =
      s.wmb.setRegs ⟨.rx, p.q⟩ (tailWriteRegs (daddr (s.ring ⟨.rx, p.q⟩).base i) (s.regs ⟨.rx, p.q⟩)) := by
  simp only [pollFinish, hl, hp, if_true]
  rfl

theorem pollFinish_tasks (p : PollSt) (s : State) : (pollFinish p s).tasks = s.tasks := by
  unfold pollFinish
  split
  · rfl
  · split <;> rfl

end Sys2Proof.Machine
end

section
/-! PROOF. Where `POLL_RX` and `RECLAIM_TX` end (R215, R217, R218, R220). -/

namespace Sys2Proof.Machine

theorem pollReturn_rest (p : PollSt) (s : State) (k : Nat) :
    pollReturn p (s.rest k) = ((pollFinish p s).setTasks (s.tasks.eraseIdx k)).answer 0x11 (.okFrames p.out) := by
  rw [pollReturn, State.rest, pollFinish_setTasks]

theorem resume_poll_ends {s : State} {k : Nat} {p : PollSt} (hk : s.tasks[k]? = some (.poll p))
    (h : pollIter p (s.rest k) = none) : resume k s =
      .next (((pollFinish p s).setTasks (s.tasks.eraseIdx k)).answer 0x11 (.okFrames p.out)) := by
  rw [← pollReturn_rest]
  exact resume_done hk (pollTask_ends h)

theorem abandon_poll {s : State} {k : Nat} {p : PollSt} (hk : s.tasks[k]? = some (.poll p)) : abandon k s =
      .next (((pollFinish p s).setTasks (s.tasks.eraseIdx k)).answer 0x11 (.okFrames p.out)) := by
  rw [← pollReturn_rest]
  simp only [abandon, hk]
  rfl

theorem resume_irqPoll_ends {s : State} {k b : Nat} {q : Chan} {qs : List Chan} {c : BitVec 3} {p : PollSt} {x : Task}
    (hk : s.tasks[k]? = some x) (hx : taskStep x (s.rest k) = irqPoll .rx b q c p qs (s.rest k))
    (h : pollIter p (s.rest k) = none) :
    resume k s = .next ((pollFinish p s).setTasks (s.tasks.set k (.irq .rx b qs (.deliver q c p.out)))) := by
  rw [resume_more hk (hx.trans (irqPoll_ends h b q c qs)) (pollFinish_tasks p (s.rest k)), State.rest,
    pollFinish_setTasks]
  rfl

theorem exec_reclaimTx_ends {s : State} {q : Chan} (hq : q.val < s.cfg.nq) (hc : s.sw.ctxPresent = true)
    (hst : (s.ring ⟨.tx, q⟩).rstate = .running) (hb : s.bodyBusy ⟨.tx, q⟩ = false) (h : reclaimIter ⟨q, []⟩ s = none) :
    exec (.reclaimTx q.val) s = .next (s.answer 0x12 (.okHandles [])) := by
  rw [exec_reclaimTx_body hq hc hst hb, reclaimTask_ends h]
  rfl

/-- The registers of a receive ring after the doorbell of its last re-armed slot. -/
theorem pollFinish_regs {p : PollSt} {s : State} {i : Nat} (hl : p.last = some i)
    (hp : (s.ring ⟨.rx, p.q⟩).present = true) :
    let x := s.regs ⟨.rx, p.q⟩
    let tail := daddr (s.ring ⟨.rx, p.q⟩).base i &&& 0xFFFFFFC0
    (pollFinish p s).regs ⟨.rx, p.q⟩ = if x.resetBusy = true then x
      else if x.run = true ∧ x.stopPending = false then { x with taildesc := tail, tailValid := true, idle := false }
      else { x with taildesc := tail } := by
  intro x tail
  rw [pollFinish_rings hl hp, State.setRegs_regs, if_pos rfl, tailWriteRegs_doorbell]

/-- Settles O42: each caller ends the scan with the same doorbell. -/
theorem scansEnd : Obligations.ScansEnd := by
  unfold Obligations.ScansEnd
  constructor
  · intro s p run ends r w x fresh stops hcall
    have hends : run s = .next (ends (pollFinish p s)) := by
      obtain ⟨hstops, hq, ⟨hc, hst, hp⟩, hb, rfl, rfl⟩ | ⟨k, hk, ⟨hstops, rfl⟩ | rfl, rfl⟩ |
        ⟨k, b, qs, c, hstops, rfl, rfl, hk⟩ := hcall
      · have hout : p.out = [] := congrArg PollSt.out hp
        rw [exec_pollRx_body hq hc hst hb, ← hp, pollTask_ends (pollIter_none hstops), pollReturn, hout]
        rfl
      · exact resume_poll_ends hk (pollIter_none (s := s.rest k) hstops)
      · exact abandon_poll hk
      · have hcaller : ∃ y, s.tasks[k]? = some y ∧ taskStep y (s.rest k) = irqPoll .rx b p.q c p qs (s.rest k) := by
          refine taskStep_irqPoll (hk.imp_right ?_)
          rintro ⟨htask, rfl, ⟨hc, hst, hp⟩, hb⟩
          exact ⟨htask, hp, hc, hst, hb⟩
        obtain ⟨y, hy, hstep⟩ := hcaller
        exact resume_irqPoll_ends hy hstep (pollIter_none (s := s.rest k) hstops)
    refine ⟨fun hquiet => ?_, fun i hl hp => ⟨pollFinish p s, hends, fun t => ?_, pollFinish_regs hl hp, ?_⟩⟩
    · rwa [pollFinish_quiet hquiet] at hends
    · rw [pollFinish_rings hl hp, State.setRegs_unfenced, State.wmb_unfenced]
    · rw [pollFinish_rings hl hp]
      exact Keeps.after ((State.wmb_frame s).mono {}) (State.setRegs_frame _ r _) {}
  · intro s q out r w hend
    refine ⟨fun hq hc hst hb => ?_, fun k hk => ?_, fun k b qs c hk => ?_⟩
    · exact exec_reclaimTx_ends hq hc hst hb (reclaimIter_none hend)
    · exact resume_done hk (reclaimTask_ends (reclaimIter_none (p := ⟨q, out⟩) (s := s.rest k) hend))
    · have hcaller : ∃ y out', s.tasks[k]? = some y ∧
          taskStep y (s.rest k) = irqReclaim .tx b q c ⟨q, out'⟩ qs (s.rest k) := by
        obtain hk | ⟨hk, hc, hst, hb⟩ := hk
        · exact ⟨_, out, hk, rfl⟩
        · obtain ⟨y, hy⟩ := taskStep_irqReclaim (out := []) (Or.inr ⟨hk, rfl, hc, hst, hb⟩)
          exact ⟨y, [], hy⟩
      obtain ⟨y, out', hy, hstep⟩ := hcaller
      have hnone : reclaimIter ⟨q, out'⟩ (s.rest k) = none := reclaimIter_none (s := s.rest k) hend
      exact resume_moves hy (hstep.trans (irqReclaim_ends hnone b q c qs))

end Sys2Proof.Machine
end

section
/-! PROOF. Each iteration of `POLL_RX` on a completed descriptor (R215, R216, R217). -/

namespace Sys2Proof.Machine

/-! ### Re-arming -/

/-- The words every re-armed slot is given (R217). -/
def rearmWords (c : Config) : List (Nat × Word) :=
  [(ctrlOff c.variant, BitVec.ofNat 32 c.rxBufSize), (0x20, 0), (0x24, 0), (0x28, 0), (0x2C, 0), (0x30, 0),
    (statusOff c.variant, 0)]

/-- The words of a fresh buffer. -/
def bufferWords (h a : Word) : List (Nat × Word) := [(0x08, a), (0x34, h), (0x38, 1)]

/-- The end of an iteration: the stores `ws` of slot `i`, the cursors, the `WMB` owed. -/
def State.rearmed (u : State) (r : RingId) (i : Nat) (ws : List (Nat × Word)) : State :=
  ((u.putWords r i ws).setRing r ((u.ring r).cursors (incMod (u.ring r).cap i))).owe r

/-- The offsets an iteration may write: all that are filled but the tag. -/
def RearmOffs (v : Variant) (offs : List Nat) : Prop :=
  (∀ o ∈ offs, o ∈ filledOffs v ∧ o ≠ 0x3C) ∧ offs.Nodup

theorem rearmWords_offs (c : Config) : RearmOffs c.variant ((rearmWords c).map Prod.fst) := by
  have hv (v : Variant) : RearmOffs v [ctrlOff v, 0x20, 0x24, 0x28, 0x2C, 0x30, statusOff v] := by
    cases v <;> unfold RearmOffs <;> decide
  exact hv c.variant

theorem freshWords_offs (c : Config) (h a : Word) :
    RearmOffs c.variant ((bufferWords h a ++ rearmWords c).map Prod.fst) := by
  have hv (v : Variant) :
      RearmOffs v ([0x08, 0x34, 0x38] ++ [ctrlOff v, 0x20, 0x24, 0x28, 0x2C, 0x30, statusOff v]) := by
    cases v <;> unfold RearmOffs <;> decide
  exact hv c.variant

section
variable {u : State} {r : RingId} {i : Nat} {ws : List (Nat × Word)}

theorem State.rearmed_ring : (u.rearmed r i ws).ring r = (u.ring r).cursors (incMod (u.ring r).cap i) := by
  rw [State.rearmed, State.owe_ring, State.setRing_ring, if_pos rfl]

theorem State.rearmed_unfenced : (u.rearmed r i ws).unfenced r = true := by
  rw [State.rearmed, State.owe_unfenced, if_pos rfl]

theorem State.rearmed_getD (j p : Nat) : (u.rearmed r i ws).getD r j p = (u.putWords r i ws).getD r j p := by
  refine State.getD_congr ?_ fun a _ => ?_
  · rw [State.rearmed_ring, State.putWords_ring]
    rfl
  · rw [State.rearmed, State.owe_mem, State.setRing_mem]

theorem State.owe_frame (s : State) (r : RingId) : Keeps { fences := (· = r) } s (s.owe r) := by
  constructor <;> simp +contextual

theorem State.rearmed_frame (h : ∀ o ∈ ws.map Prod.fst, o ∈ filledOffs u.cfg.variant) :
    Keeps { rings := (· = r), fences := (· = r), bytes := u.inWords r i (filledOffs u.cfg.variant) } u
      (u.rearmed r i ws) := by
  have hwords := u.putWords_frame r i ws
  refine Keeps.after (Keeps.after (hwords.mono { bytes := ?_ }) (State.setRing_frame _ r _) {}) (State.owe_frame _ r) {}
  rintro a ⟨o, ho, ha⟩
  exact ⟨o, h o ho, ha⟩

variable (hi : u.HasSlot r i) (hws : RearmOffs u.cfg.variant (ws.map Prod.fst))
include hi hws

theorem State.rearmed_word {o : Nat} {v : Word} (h : (o, v) ∈ ws) : (u.rearmed r i ws).getD r i o = v := by
  rw [State.rearmed_getD]
  exact State.putWords_getD_mem hi (fun o ho => wordOff_filled _ o (hws.1 o ho).1) hws.2 h

theorem State.rearmed_kept {p : Nat} (hp : wordOff p) (h : p ∉ ws.map Prod.fst) :
    (u.rearmed r i ws).getD r i p = u.getD r i p := by
  rw [State.rearmed_getD]
  exact State.putWords_getD_ne hi hi (fun o ho => wordOff_filled _ o (hws.1 o ho).1) hp (Or.inr h)

theorem State.rearmed_chain : (u.rearmed r i ws).getD r i 0x00 = u.getD r i 0x00 := by
  refine State.rearmed_kept hi hws (by decide) fun h => ?_
  have hv (v : Variant) : 0x00 ∉ filledOffs v := by cases v <;> decide
  exact hv _ (hws.1 _ h).1

theorem State.rearmed_tag : (u.rearmed r i ws).getD r i 0x3C = u.getD r i 0x3C :=
  State.rearmed_kept hi hws (by decide) fun h => (hws.1 _ h).2 rfl

/-- A re-armed slot. -/
theorem State.rearmed_slot (hsub : ∀ x ∈ rearmWords u.cfg, x ∈ ws) :
    (u.rearmed r i ws).getD r i (ctrlOff u.cfg.variant) = BitVec.ofNat 32 u.cfg.rxBufSize ∧
      (u.rearmed r i ws).getApp r i = appZero ∧ (u.rearmed r i ws).getD r i (statusOff u.cfg.variant) = 0 := by
  have hword {o : Nat} {v : Word} (h : (o, v) ∈ rearmWords u.cfg) := State.rearmed_word hi hws (hsub _ h)
  unfold rearmWords at hword
  refine ⟨hword ?_, State.getApp_of (hword ?_) (hword ?_) (hword ?_) (hword ?_) (hword ?_), hword ?_⟩
  all_goals simp [appZero]

end

/-! ### The iteration -/

theorem State.rearmSlot_eq (s : State) (r : RingId) (i : Nat) :
    s.rearmSlot r i = s.putWords r i (rearmWords s.cfg) := rfl

/-- The machine in which a good frame has been counted and its buffer given up. -/
def State.frameTaken (s : State) (r : RingId) (i : Nat) (st : Word) : State :=
  (s.emit (.unmap (s.getD r i 0x08) s.cfg.rxBufSize 1)).setRing r ((s.ring r).countPacket (lenOf st))

theorem State.takeFrame_eq (s : State) (r : RingId) (i : Nat) (st : Word) : s.takeFrame r i st =
    (s.frameTaken r i st).drawRxBuffer.2.putWords r i
      (bufferWords (s.frameTaken r i st).drawRxBuffer.1.1 (s.frameTaken r i st).drawRxBuffer.1.2) := rfl

theorem goodRx_iff (st : Word) : goodRx st = true ↔ errBits st = 0 ∧ rxSofOf st = true ∧ rxEofOf st = true := by
  simp [goodRx, and_assoc]

section
variable {p : PollSt} {s : State} (hp : (s.ring ⟨.rx, p.q⟩).present = true) (hn : p.n < p.budget)
  (hc : cmpltOf (s.statusD ⟨.rx, p.q⟩ (s.ring ⟨.rx, p.q⟩).completion) = true)
include hp hn hc

theorem pollIter_bad (hg : goodRx (s.statusD ⟨.rx, p.q⟩ (s.ring ⟨.rx, p.q⟩).completion) = false) :
    let r : RingId := ⟨.rx, p.q⟩
    let i := (s.ring r).completion
    pollIter p s = some (⟨p.q, p.budget, p.n + 1, p.out, some i⟩,
      (s.setRing r (s.ring r).countError).rearmed r i (rearmWords s.cfg)) := by
  intro r i
  have hring : ((s.setRing r (s.ring r).countError).putWords r i (rearmWords s.cfg)).ring r = (s.ring r).countError := by
    rw [State.putWords_ring, State.setRing_ring, if_pos rfl]
  have hgo : ((s.ring r).present && decide (p.n < p.budget) && cmpltOf (s.statusD r i)) = true := by
    simp [r, i, hp, hn, hc]
  refine (if_pos hgo).trans ?_
  simp only [hg, Bool.false_eq_true, if_false, State.rearmSlot_eq, State.rmb, State.setRing_cfg]
  rw [hring, State.rearmed, State.setRing_ring, if_pos rfl]

theorem pollIter_good (hg : goodRx (s.statusD ⟨.rx, p.q⟩ (s.ring ⟨.rx, p.q⟩).completion) = true) :
    let r : RingId := ⟨.rx, p.q⟩
    let i := (s.ring r).completion
    let st := s.statusD r i
    let u := s.frameTaken r i st
    pollIter p s = some (⟨p.q, p.budget, p.n + 1, p.out ++ [s.rxFrame r i st], some i⟩,
      u.drawRxBuffer.2.rearmed r i (bufferWords u.drawRxBuffer.1.1 u.drawRxBuffer.1.2 ++ rearmWords s.cfg)) := by
  intro r i st u
  have hcfg : (u.drawRxBuffer.2.putWords r i (bufferWords u.drawRxBuffer.1.1 u.drawRxBuffer.1.2)).cfg = s.cfg := by
    rw [State.putWords_eq]
    simp [u, State.frameTaken]
  have hring (ws : List (Nat × Word)) : (u.drawRxBuffer.2.putWords r i ws).ring r = u.drawRxBuffer.2.ring r :=
    State.putWords_ring _ _ _ _ _
  have hgo : ((s.ring r).present && decide (p.n < p.budget) && cmpltOf (s.statusD r i)) = true := by
    simp [r, i, hp, hn, hc]
  refine (if_pos hgo).trans ?_
  have htake : s.rmb.takeFrame r i st =
      u.drawRxBuffer.2.putWords r i (bufferWords u.drawRxBuffer.1.1 u.drawRxBuffer.1.2) := s.takeFrame_eq r i st
  simp only [hg, if_true]
  rw [htake, State.rearmSlot_eq, hcfg, ← State.putWords_append, hring]
  rfl

end

/-! ### What an iteration leaves -/

/-- Slot `i` is re-armed in `t`, and nothing else is changed but what an iteration counts and draws. -/
structure Rearmed (s t : State) (r : RingId) (i : Nat) : Prop where
  ctrl : t.getD r i (ctrlOff s.cfg.variant) = BitVec.ofNat 32 s.cfg.rxBufSize
  app : t.getApp r i = appZero
  status : t.getD r i (statusOff s.cfg.variant) = 0
  chain : t.getD r i 0x00 = s.getD r i 0x00
  tag : t.getD r i 0x3C = s.getD r i 0x3C
  owes : t.unfenced r = true
  frame : Keeps { rings := (· = r), fences := (· = r), events := True, env := True,
                  bytes := s.inWords r i (filledOffs s.cfg.variant) } s t

/-- The machine `u` differs from `s` only in what an iteration counts and draws. -/
structure Counted (s u : State) (r : RingId) : Prop where
  frame : Keeps { rings := (· = r), events := True, env := True } s u
  base : (u.ring r).base = (s.ring r).base
  cap : (u.ring r).cap = (s.ring r).cap

theorem Counted.getD {s u : State} {r : RingId} (h : Counted s u r) (j p : Nat) : u.getD r j p = s.getD r j p :=
  State.getD_congr h.base fun a _ => h.frame.bytes a id

theorem Counted.rearms {s u : State} {r : RingId} {i : Nat} {ws : List (Nat × Word)} (h : Counted s u r)
    (hi : s.HasSlot r i) (hws : RearmOffs s.cfg.variant (ws.map Prod.fst)) (hsub : ∀ x ∈ rearmWords s.cfg, x ∈ ws) :
    Rearmed s (u.rearmed r i ws) r i := by
  have hcfg : u.cfg = s.cfg := h.frame.cfg id
  have hi' : u.HasSlot r i := hi.congr h.cap
  have hsame := h.getD i
  obtain ⟨hframe, hbase, -⟩ := h
  rw [← hcfg] at hws hsub
  obtain ⟨hctrl, happ, hstatus⟩ := State.rearmed_slot hi' hws hsub
  have hfill := State.rearmed_frame (u := u) (r := r) (i := i) fun o ho => (hws.1 o ho).1
  rw [hcfg] at hctrl hstatus hfill
  refine ⟨hctrl, happ, hstatus, (State.rearmed_chain hi' hws).trans (hsame _), (State.rearmed_tag hi' hws).trans (hsame _),
    State.rearmed_unfenced, Keeps.after (hframe.mono {}) hfill { bytes := fun a ha => ?_ }⟩
  exact (State.inWords_congr hbase _ _ _).1 ha

theorem State.frameTaken_counted (s : State) (r : RingId) (i : Nat) (st : Word) :
    Counted s (s.frameTaken r i st).drawRxBuffer.2 r := by
  have hframe : Keeps { rings := (· = r), events := True, env := True } s (s.frameTaken r i st).drawRxBuffer.2 := by
    constructor <;> simp +contextual [State.frameTaken]
  have hring : (s.frameTaken r i st).drawRxBuffer.2.ring r = (s.ring r).countPacket (lenOf st) := by
    simp [State.frameTaken]
  exact ⟨hframe, by rw [hring]; rfl, by rw [hring]; rfl⟩

theorem State.countError_counted (s : State) (r : RingId) : Counted s (s.setRing r (s.ring r).countError) r := by
  have hring : (s.setRing r (s.ring r).countError).ring r = (s.ring r).countError := by rw [State.setRing_ring, if_pos rfl]
  exact ⟨(State.setRing_frame s r _).mono {}, by rw [hring]; rfl, by rw [hring]; rfl⟩

section
variable {p : PollSt} {s : State} (hp : (s.ring ⟨.rx, p.q⟩).present = true) (hn : p.n < p.budget)
  (hc : cmpltOf (s.statusD ⟨.rx, p.q⟩ (s.ring ⟨.rx, p.q⟩).completion) = true)
  (hi : s.HasSlot ⟨.rx, p.q⟩ (s.ring ⟨.rx, p.q⟩).completion)
include hp hn hc hi

/-- An iteration on a descriptor in error. -/
theorem pollIter_counts (hg : goodRx (s.statusD ⟨.rx, p.q⟩ (s.ring ⟨.rx, p.q⟩).completion) = false) :
    let r : RingId := ⟨.rx, p.q⟩
    let w := s.ring r
    let i := w.completion
    ∃ t, pollIter p s = some (⟨p.q, p.budget, p.n + 1, p.out, some i⟩, t) ∧ Rearmed s t r i ∧
      t.getD r i 0x08 = s.getD r i 0x08 ∧ t.getD r i 0x34 = s.getD r i 0x34 ∧ t.getD r i 0x38 = s.getD r i 0x38 ∧
      t.ring r = w.countError.cursors (incMod w.cap i) ∧ t.events = s.events ∧ t.env = s.env := by
  intro r w i
  have hiter := pollIter_bad hp hn hc hg
  have hcount := s.countError_counted r
  have hkept {p : Nat} (hp : wordOff p) (hv : ∀ v, p ∉ [ctrlOff v, 0x20, 0x24, 0x28, 0x2C, 0x30, statusOff v]) :
      ((s.setRing r (s.ring r).countError).rearmed r i (rearmWords s.cfg)).getD r i p = s.getD r i p :=
    (State.rearmed_kept (hi.congr hcount.cap) (rearmWords_offs s.cfg) hp (hv _)).trans (hcount.getD i p)
  have hframe := State.rearmed_frame (u := s.setRing r (s.ring r).countError) (r := r) (i := i) (ws := rearmWords s.cfg)
    fun o ho => ((rearmWords_offs s.cfg).1 o ho).1
  refine ⟨_, hiter, hcount.rearms hi (rearmWords_offs s.cfg) (fun x hx => hx), hkept (by decide) ?_, hkept (by decide) ?_,
    hkept (by decide) ?_, ?_, hframe.events id, hframe.env id⟩
  · intro v; cases v <;> decide
  · intro v; cases v <;> decide
  · intro v; cases v <;> decide
  · rw [State.rearmed_ring, State.setRing_ring, if_pos rfl]
    rfl

/-- An iteration on a good descriptor. -/
theorem pollIter_takes (hg : goodRx (s.statusD ⟨.rx, p.q⟩ (s.ring ⟨.rx, p.q⟩).completion) = true) {h a : Word}
    {rest : List (Word × Word)} (hbuf : s.env.rxBuffers = (h, a) :: rest) (hne : h ≠ 0) :
    let r : RingId := ⟨.rx, p.q⟩
    let w := s.ring r
    let i := w.completion
    let st := s.statusD r i
    ∃ t, pollIter p s = some (⟨p.q, p.budget, p.n + 1, p.out ++ [s.rxFrame r i st], some i⟩, t) ∧ Rearmed s t r i ∧
      t.getD r i 0x08 = a ∧ t.getD r i 0x34 = h ∧ t.getD r i 0x38 = 1 ∧
      t.ring r = (w.countPacket (lenOf st)).cursors (incMod w.cap i) ∧
      t.events = s.events ++ [.unmap (s.getD r i 0x08) s.cfg.rxBufSize 1] ∧ t.env.rxBuffers = rest := by
  intro r w i st
  have hiter : pollIter p s = some (⟨p.q, p.budget, p.n + 1, p.out ++ [s.rxFrame r i st], some i⟩,
      (s.frameTaken r i st).drawRxBuffer.2.rearmed r i (bufferWords (s.frameTaken r i st).drawRxBuffer.1.1
        (s.frameTaken r i st).drawRxBuffer.1.2 ++ rearmWords s.cfg)) := pollIter_good hp hn hc hg
  have hcount := s.frameTaken_counted r i st
  have henv : (s.frameTaken r i st).env.rxBuffers = (h, a) :: rest := hbuf
  have hdraw : (s.frameTaken r i st).drawRxBuffer.1 = (h, a) := by
    rw [State.drawRxBuffer_cons henv, nonzero_of_ne hne]
  have hrest : (s.frameTaken r i st).drawRxBuffer.2.env.rxBuffers = rest := by
    rw [State.drawRxBuffer_rest, henv]
    rfl
  have hring : (s.frameTaken r i st).drawRxBuffer.2.ring r = w.countPacket (lenOf st) := by
    simp [State.frameTaken, w]
  have hevents : (s.frameTaken r i st).drawRxBuffer.2.events = s.events ++ [.unmap (s.getD r i 0x08) s.cfg.rxBufSize 1] := by
    simp [State.frameTaken]
  rw [hdraw] at hiter
  generalize (s.frameTaken r i st).drawRxBuffer.2 = u at *
  have hoffs := freshWords_offs s.cfg h a
  have hcfg : u.cfg = s.cfg := hcount.frame.cfg id
  have hword {o : Nat} {v : Word} (hw : (o, v) ∈ bufferWords h a) :
      (u.rearmed r i (bufferWords h a ++ rearmWords s.cfg)).getD r i o = v :=
    State.rearmed_word (hi.congr hcount.cap) (by rwa [hcfg]) (List.mem_append_left _ hw)
  have hframe := State.rearmed_frame (u := u) (r := r) (i := i) (ws := bufferWords h a ++ rearmWords s.cfg)
    fun o ho => by rw [hcfg]; exact (hoffs.1 o ho).1
  refine ⟨_, hiter, hcount.rearms hi hoffs (fun x hx => List.mem_append_right _ hx), hword ?_, hword ?_, hword ?_, ?_,
    (hframe.events id).trans hevents, (congrArg Env.rxBuffers (hframe.env id)).trans hrest⟩
  · simp [bufferWords]
  · simp [bufferWords]
  · simp [bufferWords]
  · rw [State.rearmed_ring, hring]
    rfl

end

/-- What an iteration leaves does not depend on the commands in progress. -/
theorem Rearmed.setTasks {s t : State} {r : RingId} {i : Nat} {ts : List Task} (h : Rearmed (s.setTasks ts) t r i)
    (ts' : List Task) :
    let t' := t.setTasks ts'
    t'.getD r i (ctrlOff s.cfg.variant) = BitVec.ofNat 32 s.cfg.rxBufSize ∧ t'.getApp r i = appZero ∧
      t'.getD r i (statusOff s.cfg.variant) = 0 ∧ t'.getD r i 0x00 = s.getD r i 0x00 ∧
      t'.getD r i 0x3C = s.getD r i 0x3C ∧ t'.unfenced r = true ∧
      Keeps { rings := (· = r), fences := (· = r), events := True, env := True, tasks := True,
              bytes := s.inWords r i (filledOffs s.cfg.variant) } s t' := by
  obtain ⟨hctrl, happ, hstatus, hchain, htag, howes, hframe⟩ := h
  exact ⟨hctrl, happ, hstatus, hchain, htag, howes, Keeps.after (Keeps.after
    ((State.setTasks_frame s ts).mono {}) hframe { bytes := fun a ha => ha }) (State.setTasks_frame t ts') {}⟩

/-- Settles O41: the callers run one iteration, which re-arms its slot with the buffer it has or a fresh one. -/
theorem pollTakes : Obligations.PollTakes := by
  intro s q p run left h a rest r w v i st good hcall hpool hpq hn hc hbuf hne
  subst hpq
  have hrun : ∃ ts, ∀ p' u, pollIter p (s.setTasks ts) = some (p', u) → u.tasks = ts →
      run s = .next (u.setTasks (left p')) := by
    obtain ⟨hctx, hst, hb, hp, rfl, rfl⟩ | ⟨k, hk, rfl, rfl⟩ | ⟨k, b, qs, c, rfl, rfl, hk⟩ := hcall
    · refine ⟨s.tasks, fun p' u hiter htasks => ?_⟩
      rw [exec_pollRx_body hpool.1 hctx hst hb, ← hp, pollTask_takes (s := s) hiter, begin_more htasks]
    · exact ⟨s.tasks.eraseIdx k, fun p' u hiter htasks => resume_more hk (pollTask_takes (s := s.rest k) hiter) htasks⟩
    · obtain ⟨y, hy, hstep⟩ := taskStep_irqPoll hk
      exact ⟨s.tasks.eraseIdx k, fun p' u hiter htasks =>
        resume_more hy (hstep.trans (irqPoll_takes (s := s.rest k) hiter b p.q c qs)) htasks⟩
  obtain ⟨ts, hrun⟩ := hrun
  obtain ⟨-, hpresent, -, -, htail, hcomp, hissue, hlt⟩ := hpool.facts
  have hslot : (s.setTasks ts).HasSlot r i := ⟨(hpool.slot hlt).fits, hlt⟩
  by_cases hgood : good
  · obtain ⟨t, hiter, hrearm, haddr, hhandle, hmap, hring, hevents, henv⟩ := pollIter_takes (s := s.setTasks ts) hpresent hn hc
      hslot ((goodRx_iff st).2 hgood) hbuf hne
    obtain ⟨hctrl, happ, hstatus, hchain, htag, howes, hframe⟩ := hrearm.setTasks (left ⟨p.q, p.budget, p.n + 1,
      p.out ++ [s.rxFrame r i st], some i⟩)
    exact ⟨_, hrun _ _ hiter (hrearm.frame.tasks id), hctrl, happ, hstatus, hchain, htag, howes,
      fun _ => ⟨haddr, hhandle, hmap, hring, hevents, henv, rfl⟩, fun hbad => absurd hgood hbad, hframe⟩
  · obtain ⟨t, hiter, hrearm, haddr, hhandle, hmap, hring, hevents, henv⟩ := pollIter_counts (s := s.setTasks ts) hpresent hn hc
      hslot (eq_false_of_ne_true (mt (goodRx_iff st).1 hgood))
    obtain ⟨hctrl, happ, hstatus, hchain, htag, howes, hframe⟩ := hrearm.setTasks (left ⟨p.q, p.budget, p.n + 1, p.out,
      some i⟩)
    exact ⟨_, hrun _ _ hiter (hrearm.frame.tasks id), hctrl, happ, hstatus, hchain, htag, howes,
      fun h => absurd h hgood, fun _ => ⟨haddr, hhandle, hmap, hring, hevents, henv, rfl⟩, hframe⟩

end Sys2Proof.Machine
end

section
/-! PROOF. Each iteration of `RECLAIM_TX` on a completed descriptor (R220, R221, R222, R318). -/

namespace Sys2Proof.Machine

/-! ### The timestamp -/

theorem tsfTagWord_tag (f : List TsEntry) :
    (tsfTagWord f).extractLsb' 0 16 = (f.head?.map TsEntry.tag).getD 0xFFFF := by
  cases f with
  | nil => rfl
  | cons e es =>
    refine BitVec.eq_of_getLsbD_eq fun k hk => ?_
    simp [tsfTagWord, hk, show k < 32 by omega]

theorem tsfTag_read (s : State) (q : Chan) : (s.regValue (.tsfTag q)).extractLsb' 0 16 =
    ((s.txe q).tsf.head?.map TsEntry.tag).getD 0xFFFF := tsfTagWord_tag _

theorem tsfStamp_read {s : State} {q : Chan} {e : TsEntry} {es : List TsEntry} (h : (s.txe q).tsf = e :: es) :
    (s.regValue (.tsfHi q) ++ s.regValue (.tsfLo q) : Long) = e.ts := by
  change (tsfHiWord (s.txe q).tsf ++ tsfLoWord (s.txe q).tsf : Long) = e.ts
  rw [h]
  refine BitVec.eq_of_getLsbD_eq fun k hk => ?_
  simp only [tsfHiWord, tsfLoWord, BitVec.getLsbD_append, BitVec.getLsbD_extractLsb']
  by_cases h32 : k < 32
  · simp [h32]
  · simp [h32, show k - 32 < 32 by omega, show 32 + (k - 32) = k by omega]

section
variable {s : State} {q : Chan} {i : Nat}

/-- The tag is forgotten, whether or not an entry matches. -/
theorem State.tsCorrelate_tags : (s.tsCorrelate q i).tags q =
    { s.tags q with tagmap := kvDel (s.tags q).tagmap ((s.getD ⟨.tx, q⟩ i 0x3C).extractLsb' 0 16).toNat } := by
  unfold State.tsCorrelate
  dsimp only
  split
  · simp [State.afterRead, tagOf, swTagOff]
  · simp [tagOf, swTagOff]

theorem State.tsCorrelate_frame : Keeps { tags := (· = q), txe := (· = q), events := True } s (s.tsCorrelate q i) := by
  unfold State.tsCorrelate
  dsimp only
  split
  · constructor <;> simp +contextual [State.afterRead]
  · constructor <;> simp +contextual

theorem State.tsCorrelate_match {e : TsEntry} {es : List TsEntry} (h : (s.txe q).tsf = e :: es)
    (ht : e.tag = (s.getD ⟨.tx, q⟩ i 0x3C).extractLsb' 0 16) :
    (s.tsCorrelate q i).events = s.events ++ tsEvents (s.tags q).tagmap e.tag e.ts ∧
      (s.tsCorrelate q i).txe q = { s.txe q with tsf := es } := by
  have htag : (s.regValue (.tsfTag q)).extractLsb' 0 16 = tagOf (s.getD ⟨.tx, q⟩ i swTagOff) := by
    rw [tsfTag_read, h]
    exact ht
  unfold State.tsCorrelate
  dsimp only
  rw [if_pos htag, tsfStamp_read h, ← htag, tsfTag_read, h]
  simp [State.afterRead, h]

theorem State.tsCorrelate_none (h : ((s.txe q).tsf.head?.map TsEntry.tag) ≠ some ((s.getD ⟨.tx, q⟩ i 0x3C).extractLsb' 0 16))
    (ht : (s.getD ⟨.tx, q⟩ i 0x3C).extractLsb' 0 16 ≠ 0xFFFF) :
    (s.tsCorrelate q i).events = s.events ∧ (s.tsCorrelate q i).txe q = s.txe q := by
  have htag : ¬(s.regValue (.tsfTag q)).extractLsb' 0 16 = tagOf (s.getD ⟨.tx, q⟩ i swTagOff) := by
    rw [tsfTag_read]
    cases hhead : (s.txe q).tsf.head? with
    | none => exact fun hff => ht hff.symm
    | some e =>
      rw [hhead] at h
      exact fun he => h (congrArg some he)
  unfold State.tsCorrelate
  dsimp only
  rw [if_neg htag]
  simp

end

/-! ### The iteration -/

theorem State.emits_frame (s : State) (es : List Event) : Keeps { events := True } s (s.emits es) := by
  constructor <;> simp

theorem State.released_frame (s : State) (r : RingId) (i : Nat) :
    Keeps { fences := (· = r), events := True, bytes := s.inWords r i (clearedOffs s.cfg.variant) } s (s.released r i) := by
  have hwords := (s.emits (s.releaseEvents r i)).putWords_frame r i ((clearedOffs s.cfg.variant).map fun o => (o, 0))
  rw [map_fst_const] at hwords
  refine Keeps.after (Keeps.after ((s.emits_frame _).mono {}) hwords { bytes := fun a ha => ?_ }) (State.owe_frame _ r) {}
  exact (State.inWords_congr (congrArg RingSw.base (State.emits_ring s _ r)) _ _ _).1 ha

theorem State.released_cleared {s : State} {r : RingId} {i : Nat} (hi : s.HasSlot r i) : (s.released r i).slotCleared r i := by
  intro o ho
  have hframe := s.released_frame r i
  rw [hframe.cfg id] at ho
  have hread : (s.released r i).getD r i o =
      (s.putWords r i ((clearedOffs s.cfg.variant).map fun o => (o, 0))).getD r i o := by
    unfold State.getD State.slotAddr
    rw [State.released_mem, hframe.rings r id, State.putWords_ring]
  rw [hread]
  refine State.putWords_getD_mem hi ?_ ?_ (List.mem_map_of_mem (f := fun o => (o, (0 : Word))) ho)
  · rw [map_fst_const]
    exact wordOff_cleared _
  · rw [map_fst_const]
    exact nodup_cleared _

/-- The machine after a timestamp the slot asked for has been correlated. -/
def State.stampTaken (s : State) (q : Chan) (i : Nat) : State :=
  if (s.getD ⟨.tx, q⟩ i 0x3C).getLsbD 31 = true then s.tsCorrelate q i else s

theorem State.stampTaken_frame (s : State) (q : Chan) (i : Nat) :
    Keeps { tags := (· = q), txe := (· = q), events := True } s (s.stampTaken q i) := by
  unfold State.stampTaken
  split
  · exact State.tsCorrelate_frame
  · exact Keeps.refl _ s

/-- The machine in which the descriptor has been counted. -/
def State.reclaimCounted (s : State) (q : Chan) (i : Nat) : State :=
  (s.stampTaken q i).setRing ⟨.tx, q⟩ ((s.ring ⟨.tx, q⟩).countReclaim (s.statusD ⟨.tx, q⟩ i) (s.getD ⟨.tx, q⟩ i 0x34))

/-- The machine after an iteration on slot `i`. -/
def State.reclaimed (s : State) (q : Chan) (i : Nat) : State :=
  ((s.reclaimCounted q i).released ⟨.tx, q⟩ i).setRing ⟨.tx, q⟩
    (((s.ring ⟨.tx, q⟩).countReclaim (s.statusD ⟨.tx, q⟩ i) (s.getD ⟨.tx, q⟩ i 0x34)).toCompletion
      (incMod (s.ring ⟨.tx, q⟩).cap i))

theorem countReclaim_eq (w : RingSw) (st h : Word) : w.countReclaim st h = { w with
    bytes := w.bytes + BitVec.ofNat 64 (lenOf st)
    packets := if h ≠ 0 ∧ errBits st = 0 then w.packets + 1 else w.packets
    errors := if h ≠ 0 ∧ errBits st ≠ 0 then w.errors + 1 else w.errors } := by
  unfold RingSw.countReclaim
  by_cases hz : h = 0
  · simp [hz]
  · by_cases herr : errBits st = 0
    · rw [if_neg hz, if_pos herr, if_pos ⟨hz, herr⟩, if_neg fun h => h.2 herr]
    · rw [if_neg hz, if_neg herr, if_neg fun h => herr h.2, if_pos ⟨hz, herr⟩]
      rfl

section
variable {s : State} {q : Chan} {i : Nat}

theorem State.reclaimCounted_ring : (s.reclaimCounted q i).ring ⟨.tx, q⟩ =
    (s.ring ⟨.tx, q⟩).countReclaim (s.statusD ⟨.tx, q⟩ i) (s.getD ⟨.tx, q⟩ i 0x34) := by
  rw [State.reclaimCounted, State.setRing_ring, if_pos rfl]

theorem State.reclaimCounted_frame :
    Keeps { rings := (· = ⟨.tx, q⟩), tags := (· = q), txe := (· = q), events := True } s (s.reclaimCounted q i) :=
  Keeps.after ((s.stampTaken_frame q i).mono {}) (State.setRing_frame _ ⟨.tx, q⟩ _) {}

theorem State.reclaimCounted_getD (j p : Nat) : (s.reclaimCounted q i).getD ⟨.tx, q⟩ j p = s.getD ⟨.tx, q⟩ j p := by
  refine State.getD_congr ?_ fun a _ => State.reclaimCounted_frame.bytes a id
  rw [State.reclaimCounted_ring, countReclaim_eq]

theorem State.reclaimed_frame :
    Keeps { rings := (· = ⟨.tx, q⟩), fences := (· = ⟨.tx, q⟩), tags := (· = q), txe := (· = q), events := True,
            bytes := s.inWords ⟨.tx, q⟩ i (clearedOffs s.cfg.variant) } s (s.reclaimed q i) := by
  have hcount := State.reclaimCounted_frame (s := s) (q := q) (i := i)
  have hring := State.reclaimCounted_ring (s := s) (q := q) (i := i)
  have hrel := (s.reclaimCounted q i).released_frame ⟨.tx, q⟩ i
  refine Keeps.after (Keeps.after (hcount.mono {}) hrel { bytes := fun a ha => ?_ }) (State.setRing_frame _ ⟨.tx, q⟩ _) {}
  rw [hcount.cfg id] at ha
  refine (State.inWords_congr ?_ _ _ _).1 ha
  rw [hring, countReclaim_eq]

theorem State.reclaimed_events : (s.reclaimed q i).events = (s.stampTaken q i).events ++ s.releaseEvents ⟨.tx, q⟩ i := by
  have hsame : (s.reclaimCounted q i).releaseEvents ⟨.tx, q⟩ i = s.releaseEvents ⟨.tx, q⟩ i :=
    State.releaseEvents_congr (State.reclaimCounted_frame.cfg id) fun p _ => State.reclaimCounted_getD i p
  rw [State.reclaimed, State.setRing_events, State.released, ← hsame]
  simp [State.reclaimCounted]

theorem State.reclaimed_ring : (s.reclaimed q i).ring ⟨.tx, q⟩ =
    ((s.ring ⟨.tx, q⟩).countReclaim (s.statusD ⟨.tx, q⟩ i) (s.getD ⟨.tx, q⟩ i 0x34)).toCompletion
      (incMod (s.ring ⟨.tx, q⟩).cap i) := by
  rw [State.reclaimed, State.setRing_ring, if_pos rfl]

theorem State.reclaimed_stamp : (s.reclaimed q i).tags q = (s.stampTaken q i).tags q ∧
    (s.reclaimed q i).txe q = (s.stampTaken q i).txe q := by
  constructor <;> simp [State.reclaimed, State.released, State.reclaimCounted]

theorem State.reclaimed_cleared (hi : s.HasSlot ⟨.tx, q⟩ i) : (s.reclaimed q i).slotCleared ⟨.tx, q⟩ i := by
  have hring := State.reclaimCounted_ring (s := s) (q := q) (i := i)
  have hslot : (s.reclaimCounted q i).HasSlot ⟨.tx, q⟩ i := hi.congr (by rw [hring, countReclaim_eq])
  have hrel := ((s.reclaimCounted q i).released_frame ⟨.tx, q⟩ i).rings ⟨.tx, q⟩ id
  intro o ho
  rw [← State.released_cleared hslot o ho]
  refine State.getD_congr ?_ fun a _ => by rw [State.reclaimed, State.setRing_mem]
  rw [State.reclaimed_ring, hrel, hring]
  rfl

theorem reclaimIter_takes {out : List Word} (he : (s.ring ⟨.tx, q⟩).completion = i)
    (hp : (s.ring ⟨.tx, q⟩).present = true) (hi : i ≠ (s.ring ⟨.tx, q⟩).issue)
    (hc : cmpltOf (s.statusD ⟨.tx, q⟩ i) = true) :
    reclaimIter ⟨q, out⟩ s = some (⟨q, out ++ if s.getD ⟨.tx, q⟩ i 0x34 = 0 then [] else [s.getD ⟨.tx, q⟩ i 0x34]⟩,
      s.reclaimed q i) := by
  have hkeep := s.stampTaken_frame q i
  have hring1 : (s.stampTaken q i).ring ⟨.tx, q⟩ = s.ring ⟨.tx, q⟩ := hkeep.rings _ id
  have hread1 : (s.stampTaken q i).getD ⟨.tx, q⟩ i 0x34 = s.getD ⟨.tx, q⟩ i 0x34 :=
    State.getD_congr (congrArg RingSw.base hring1) fun a _ => hkeep.bytes a id
  have hcounted : (s.stampTaken q i).setRing ⟨.tx, q⟩ (((s.stampTaken q i).ring ⟨.tx, q⟩).countReclaim
      (s.statusD ⟨.tx, q⟩ i) ((s.stampTaken q i).getD ⟨.tx, q⟩ i 0x34)) = s.reclaimCounted q i := by
    rw [hring1, hread1]
    rfl
  have hhandle := State.reclaimCounted_getD (s := s) (q := q) (i := i) i 0x34
  have hring3 : ((s.reclaimCounted q i).released ⟨.tx, q⟩ i).ring ⟨.tx, q⟩ =
      (s.ring ⟨.tx, q⟩).countReclaim (s.statusD ⟨.tx, q⟩ i) (s.getD ⟨.tx, q⟩ i 0x34) := by
    rw [State.released_ring, State.reclaimCounted_ring]
  have hcap (st h : Word) : ((s.ring ⟨.tx, q⟩).countReclaim st h).cap = (s.ring ⟨.tx, q⟩).cap := by rw [countReclaim_eq]
  have hout (h : Word) : (if h = 0 then out else out ++ [h]) = out ++ if h = 0 then [] else [h] := by
    by_cases hz : h = 0
    · rw [if_pos hz, if_pos hz, List.append_nil]
    · rw [if_neg hz, if_neg hz]
  have hgo : ((s.ring ⟨.tx, q⟩).present && i != (s.ring ⟨.tx, q⟩).issue && cmpltOf (s.statusD ⟨.tx, q⟩ i)) = true := by
    simp [hp, hi, hc]
  have hstamp : (if tsReqOf (s.getD ⟨.tx, q⟩ i swTagOff) = true then s.tsCorrelate q i else s) = s.stampTaken q i := rfl
  have hreleased (u : State) : (u.emits (u.releaseEvents ⟨.tx, q⟩ i)).clearSlot ⟨.tx, q⟩ i = u.released ⟨.tx, q⟩ i := rfl
  unfold reclaimIter
  simp only [he, hgo, if_true, State.rmb, State.releaseSlot, hstamp, swFrameOff, hcounted, hreleased, hhandle, hring3,
    hcap, hout]
  rfl

end

/-- What an iteration leaves does not depend on the commands in progress. -/
theorem State.reclaimed_keeps (s : State) (q : Chan) (i : Nat) (ts ts' : List Task) :
    Keeps { rings := (· = ⟨.tx, q⟩), fences := (· = ⟨.tx, q⟩), tags := (· = q), txe := (· = q), events := True,
            tasks := True, bytes := s.inWords ⟨.tx, q⟩ i (clearedOffs s.cfg.variant) } s
      (((s.setTasks ts).reclaimed q i).setTasks ts') :=
  Keeps.after (Keeps.after ((State.setTasks_frame s ts).mono {}) State.reclaimed_frame { bytes := fun a ha => ha })
    (State.setTasks_frame _ ts') {}

/-- Settles O43: the callers run one iteration, which correlates, counts and releases its slot. -/
theorem reclaimTakes : Obligations.ReclaimTakes := by
  intro s q out run left r w i st h sw tag stamped hcall hpool hne hc
  have hrun : ∃ ts, ∀ p' u, reclaimIter ⟨q, out⟩ (s.setTasks ts) = some (p', u) → u.tasks = ts →
      run s = .next (u.setTasks (left p')) := by
    obtain ⟨hctx, hst, hb, rfl, rfl, rfl⟩ | ⟨k, hk, rfl, rfl⟩ | ⟨k, b, qs, c, rfl, rfl, hk⟩ := hcall
    · refine ⟨s.tasks, fun p' u hiter htasks => ?_⟩
      rw [exec_reclaimTx_body hpool.1 hctx hst hb, reclaimTask_takes (s := s) hiter, begin_more htasks]
    · exact ⟨s.tasks.eraseIdx k, fun p' u hiter htasks => resume_more hk (reclaimTask_takes (s := s.rest k) hiter) htasks⟩
    · obtain ⟨y, hy, hstep⟩ := taskStep_irqReclaim hk
      exact ⟨s.tasks.eraseIdx k, fun p' u hiter htasks =>
        resume_more hy (hstep.trans (irqReclaim_takes (s := s.rest k) hiter b q c qs)) htasks⟩
  obtain ⟨ts, hrun⟩ := hrun
  obtain ⟨-, hpresent, -, -, -, -, -, hlt⟩ := hpool.facts
  have hslot : (s.setTasks ts).HasSlot r i := ⟨(hpool.slot hlt).fits, hlt⟩
  have hiter := reclaimIter_takes (s := s.setTasks ts) (q := q) (i := i) (out := out) rfl hpresent hne hc
  have hkeeps := s.reclaimed_keeps q i ts (left ⟨q, out ++ if h = 0 then [] else [h]⟩)
  have hring : ((s.setTasks ts).reclaimed q i).ring r = (w.countReclaim st h).toCompletion (incMod w.cap i) :=
    State.reclaimed_ring
  have hcleared := State.reclaimed_cleared hslot
  have hevents : ((s.setTasks ts).reclaimed q i).events = ((s.setTasks ts).stampTaken q i).events ++ s.releaseEvents r i :=
    State.reclaimed_events
  obtain ⟨htags, htxe⟩ := State.reclaimed_stamp (s := s.setTasks ts) (q := q) (i := i)
  have htasks := (State.reclaimed_frame (s := s.setTasks ts) (q := q) (i := i)).tasks id
  have hstamp : (s.setTasks ts).stampTaken q i = if stamped then (s.setTasks ts).tsCorrelate q i else s.setTasks ts := rfl
  rw [countReclaim_eq] at hring
  generalize (s.setTasks ts).reclaimed q i = t at *
  refine ⟨_, hrun _ _ hiter htasks, hring, hcleared, rfl, fun hno => ?_, fun e es hs hhead htag => ?_, fun hs hhead htag => ?_,
    fun hs => ?_, hkeeps⟩
  · rw [hstamp, if_neg hno] at hevents htags htxe
    exact ⟨hevents, htags, htxe⟩
  · rw [hstamp, if_pos hs] at hevents htxe
    obtain ⟨hev, htx⟩ := State.tsCorrelate_match (s := s.setTasks ts) (q := q) (i := i) hhead htag
    rw [hev, htag] at hevents
    exact ⟨hevents, htxe.trans htx⟩
  · rw [hstamp, if_pos hs] at hevents htxe
    obtain ⟨hev, htx⟩ := State.tsCorrelate_none (s := s.setTasks ts) (q := q) (i := i) hhead htag
    rw [hev] at hevents
    exact ⟨hevents, htxe.trans htx⟩
  · rw [hstamp, if_pos hs] at htags
    exact htags.trans State.tsCorrelate_tags

end Sys2Proof.Machine
end

section
/-! PROOF. The word rows of a descriptor (R141 to R149, R15, R121, R152), and who owns a descriptor (R62). -/

namespace Sys2Proof.Machine

/-! ### The rows -/

theorem State.away_isSome (s : State) (r : RingId) :
    (s.away r).isSome = true ↔ s.sw.ctxPresent = true ∧ (s.ring r).rstate ≠ .running := by
  unfold State.away
  by_cases hc : s.sw.ctxPresent = true
  · rw [if_pos hc]
    cases (s.ring r).rstate <;> simp [hc, turnedAway]
  · rw [if_neg hc]
    simp [hc]

theorem State.putD_frame (s : State) (r : RingId) (i o : Nat) (v : Word) :
    Keeps { bytes := s.inWord r i o } s (s.putD r i o v) := by
  constructor
  case bytes => exact fun a ha => State.memByte_putD s r i o v a ha
  all_goals simp

theorem State.owe_getD (s : State) (r t : RingId) (i o : Nat) : (s.owe r).getD t i o = s.getD t i o := rfl

/-! ### A range of a TX ring -/

/-- The indices from `c` up to `t` modulo `n`. -/
theorem inRange_iff {n c t i : Nat} (hc : c < n) (hi : i < n) :
    inRange n c t i = true ↔ ∃ k, k < (t + (n - c)) % n ∧ i = (c + k) % n := by
  have hplace {k : Nat} (hk : k < n) : ((c + k) % n + (n - c)) % n = k := by
    rw [Nat.mod_add_mod, show c + k + (n - c) = k + n by omega, Nat.add_mod_right, Nat.mod_eq_of_lt hk]
  have hlt {m : Nat} : m % n < n := Nat.mod_lt _ (by omega)
  rw [inRange, decide_eq_true_eq]
  constructor
  · intro h
    refine ⟨_, h, ?_⟩
    rw [Nat.add_mod_mod, show c + (i + (n - c)) = i + n by omega, Nat.add_mod_right, Nat.mod_eq_of_lt hi]
  · rintro ⟨k, hk, rfl⟩
    rwa [hplace (hk.trans hlt)]

/-! ### The chain of an RX ring -/

theorem daddr_inj {b : Word} {n i j : Nat} (hn : 64 * n ≤ 2 ^ 32) (hi : i < n) (hj : j < n) (h : daddr b i = daddr b j) :
    i = j := by
  unfold daddr at h
  have h' := congrArg BitVec.toNat (add_left_cancel h)
  rw [BitVec.toNat_ofNat, BitVec.toNat_ofNat, Nat.mod_eq_of_lt (by omega), Nat.mod_eq_of_lt (by omega)] at h'
  omega

/-- The addresses of the `m + 1` descriptors from index `c` on. -/
def chainFrom (b : Word) (n c m : Nat) : List Word := (List.range (m + 1)).map fun k => daddr b ((c + k) % n)

theorem chainFrom_succ (b : Word) {n c : Nat} (m : Nat) (hc : c < n) :
    chainFrom b n c (m + 1) = daddr b c :: chainFrom b n (incMod n c) m := by
  unfold chainFrom incMod
  rw [List.range_succ_eq_map, List.map_cons, List.map_map, Nat.add_zero, Nat.mod_eq_of_lt hc]
  refine congrArg _ (List.map_congr_left fun k _ => ?_)
  simp only [Function.comp, Nat.mod_add_mod, Nat.succ_eq_add_one]
  rw [show c + (k + 1) = c + 1 + k by omega]

/-- The engine follows the `NEXT` words of a closed chain up to the tail. -/
theorem chainTo_closed {mem : Memory} {b : Word} {n : Nat} (hal : b.toNat % 64 = 0) (htop : b.toNat + 64 * n ≤ 2 ^ 32)
    (hnext : ∀ j, j < n → memWord mem (daddr b j + BitVec.ofNat 32 nextOff) = daddr b ((j + 1) % n)) :
    ∀ (m fuel c : Nat), m < fuel → m < n → c < n →
      chainTo mem (daddr b ((c + m) % n)) fuel (daddr b c) = some (chainFrom b n c m) := by
  intro m
  induction m with
  | zero =>
    intro fuel c hf hm hc
    obtain ⟨fuel, rfl⟩ : ∃ f, fuel = f + 1 := ⟨fuel - 1, by omega⟩
    rw [Nat.add_zero, Nat.mod_eq_of_lt hc, chainTo, if_pos rfl]
    simp [chainFrom, Nat.mod_eq_of_lt hc]
  | succ m ih =>
    intro fuel c hf hm hc
    obtain ⟨fuel, rfl⟩ : ∃ f, fuel = f + 1 := ⟨fuel - 1, by omega⟩
    have hc' : (c + 1) % n < n := Nat.mod_lt _ (by omega)
    have hne : daddr b c ≠ daddr b ((c + (m + 1)) % n) := by
      intro h
      have hidx := daddr_inj (by omega) hc (Nat.mod_lt _ (by omega)) h
      by_cases hwrap : c + (m + 1) < n
      · rw [Nat.mod_eq_of_lt hwrap] at hidx
        omega
      · rw [Nat.mod_eq_sub_mod (by omega), Nat.mod_eq_of_lt (by omega)] at hidx
        omega
    have hplace : (c + (m + 1)) % n = ((c + 1) % n + m) % n := by
      rw [Nat.mod_add_mod, show c + (m + 1) = c + 1 + m by omega]
    rw [chainTo, if_neg hne, hnext c hc, show align64 (daddr b ((c + 1) % n)) = daddr b ((c + 1) % n) from
      daddr_aligned hal _ htop hc', hplace, ih fuel _ (by omega) (by omega) hc', Option.map_some, chainFrom_succ b m hc]
    rfl

theorem State.beforeTail_iff {s : State} {r : RingId} (hp : s.HasPool r)
    (hnext : ∀ j, j < (s.ring r).cap → s.getD r j 0x00 = daddr (s.ring r).base ((j + 1) % (s.ring r).cap)) {c n i : Nat}
    (hc : c < (s.ring r).cap) (hn : n < (s.ring r).cap) (hi : i < (s.ring r).cap)
    (hcur : (s.regs r).curdesc = daddr (s.ring r).base c)
    (htail : (s.regs r).taildesc = daddr (s.ring r).base ((c + n) % (s.ring r).cap)) :
    s.beforeTail r i = true ↔ ∃ k, k ≤ n ∧ i = (c + k) % (s.ring r).cap := by
  obtain ⟨-, -, hal, htop⟩ := (poolLegal_iff _).1 hp.legal
  have hchain := chainTo_closed hal htop hnext n (s.ring r).cap c hn hn hc
  unfold State.beforeTail
  rw [hcur, htail, hchain]
  simp only [List.contains_iff_mem, chainFrom, List.mem_map, List.mem_range]
  constructor
  · rintro ⟨k, hk, he⟩
    exact ⟨k, by omega, (daddr_inj (by omega) (Nat.mod_lt _ (by omega)) hi he).symm⟩
  · rintro ⟨k, hk, rfl⟩
    exact ⟨k, by omega, rfl⟩

/-- Settles O30: the tests of a row one after the other; ownership is a range of indices or a piece of the chain. -/
theorem descriptorWords : Obligations.DescriptorWords := by
  unfold Obligations.DescriptorWords
  constructor
  · intro s r i w p hq hp hi hrow stays ruled
    have hexec := exec_wordRow s r i w p hq hp hi hrow
    have hruled : s.writable r i p.2 w = true ↔ ruled := State.writable_iff s r i p.2 w
    have haway := s.away_isSome r
    refine ⟨fun h => ?_, fun h hown hr => ?_, fun h hown hr => ?_, fun h hown => ?_⟩
    · rw [hexec, if_pos (haway.2 h)]
    · have hnext : exec p.1 s = .next ((s.putD r i p.2 w).owe r) := by
        rw [hexec, if_neg (mt haway.1 h), if_neg (by simp [hown]), if_pos (hruled.2 hr)]
      refine ⟨_, hnext, ?_, ?_, Keeps.after ((s.putD_frame r i p.2 w).mono {}) (State.owe_frame _ r) {}⟩
      · rw [State.owe_getD, State.getD_putD_self]
      · rw [State.owe_unfenced, if_pos rfl]
    · rw [hexec, if_neg (mt haway.1 h), if_neg (by simp [hown]), if_neg (mt hruled.1 hr)]
    · rw [hexec, if_neg (mt haway.1 h), if_pos hown]
  · intro s r i hp hi w complete
    obtain ⟨-, -, -, -, -, -, -, hcomp⟩ := hp.facts
    refine ⟨fun hd => ?_, fun hd hnext c n hc hn hcur htail => ?_⟩
    · rw [← inRange_iff hcomp hi, State.engineOwns, hd, Bool.and_eq_true, Bool.not_eq_true']
      rfl
    · rw [← State.beforeTail_iff hp hnext hc hn hi hcur htail, State.engineOwns, hd, Bool.and_eq_true,
        Bool.not_eq_true', Bool.and_eq_true]
      rfl

end Sys2Proof.Machine
end

section
/-! SUPPORT. What the engine's accesses and its descriptor steps can touch (R381, R388, R398). -/

namespace Sys2Proof.Machine

/-! ### The accesses -/

theorem State.drawBus_frame (s : State) : Keeps { env := True } s s.drawBus.2 := by
  constructor <;> simp

theorem State.setMem_frame {s : State} {m : Memory} {p : Word → Prop} (h : ∀ a, ¬p a → memByte m a = memByte s.mem a) :
    Keeps { bytes := p } s (s.setMem m) := by
  constructor
  case bytes => exact fun a ha => h a ha
  all_goals simp

theorem State.setWord_frame (s : State) (x w : Word) :
    Keeps { bytes := fun a => within32 a x 4 } s (s.setMem (memPutWord s.mem x w)) :=
  State.setMem_frame fun _ ha => memByte_memPutWord_out _ _ _ _ ha

theorem lenOf_lt (w : Word) : lenOf w < 2 ^ 23 := (w.extractLsb' 0 23).isLt

theorem State.setTxe_frame (s : State) (q : Chan) (x : TxEngine) : Keeps { txe := (· = q) } s (s.setTxe q x) := by
  constructor <;> simp +contextual

theorem State.setRxe_frame (s : State) (q : Chan) (x : RxEngine) : Keeps { rxe := (· = q) } s (s.setRxe q x) := by
  constructor <;> simp +contextual

theorem State.dropGrant_frame (s : State) : Keeps { grant := True } s s.dropGrant := by
  constructor <;> simp

/-- What the engine of ring `r` touches of the machine besides memory. -/
@[simp] def engineTouch (r : RingId) (p : Word → Prop) : Touch :=
  { regs := (· = r), txe := fun q => r = ⟨.tx, q⟩, rxe := fun q => r = ⟨.rx, q⟩, grant := r.dir = .tx, irq := (· = r.dir),
    events := r.dir = .tx, env := True, bytes := p }

theorem State.engineFault_touches (s : State) (r : RingId) (cause : Cause) (p : Word → Prop) :
    Keeps (engineTouch r p) s (s.engineFault r cause) := by
  have hframe := State.engineFault_frame s r cause
  have hgrant : ¬r.dir = .tx → (s.engineFault r cause).hw.grant = s.hw.grant := fun hd => by
    rw [State.engineFault_grant, if_neg fun h => hd h.2.1]
  have hall := hframe.mono (d := { engineTouch r p with grant := True }) {}
  exact { hall with grant := hgrant }

theorem State.writeStatus_frame (s : State) (r : RingId) (d w : Word) :
    Keeps (engineTouch r fun a => within32 a (d + BitVec.ofNat 32 (statusOff s.cfg.variant)) 4) s (s.writeStatus r d w).2 := by
  have hdraw := (State.drawBus_frame s).mono
    (d := engineTouch r fun a => within32 a (d + BitVec.ofNat 32 (statusOff s.cfg.variant)) 4) {}
  have hcfg : s.drawBus.2.cfg = s.cfg := hdraw.cfg id
  unfold State.writeStatus
  generalize s.drawBus = x at hdraw hcfg ⊢
  obtain ⟨b, s'⟩ := x
  have hcfg' : s'.cfg = s.cfg := hcfg
  cases b with
  | okay =>
    refine hdraw.trans ((State.setWord_frame s' _ w).mono { bytes := fun a ha => ?_ })
    rwa [hcfg'] at ha
  | slverr => exact hdraw.trans (s'.engineFault_touches r .slv _)
  | decerr => exact hdraw.trans (s'.engineFault_touches r .dec _)

theorem State.packetDone_frame (s : State) (r : RingId) : Keeps { regs := (· = r), irq := (· = r.dir) } s (s.packetDone r) := by
  unfold State.packetDone
  dsimp only
  split
  · exact State.setRegs_raise_frame s r _ .ioc
  · exact (State.setRegs_frame s r _).mono {}

theorem State.advance_frame (s : State) (r : RingId) (d n : Word) (done : Bool) (p : Word → Prop) :
    Keeps (engineTouch r p) s (s.advance r d n done) := by
  have hregs := (State.setRegs_frame s r (advanceRegs d n (s.regs r))).mono (d := engineTouch r p) {}
  have hgrant : Keeps (engineTouch r p) s (if (d == (s.regs r).taildesc && r.dir == .tx) = true then
      (s.setRegs r (advanceRegs d n (s.regs r))).dropGrant else s.setRegs r (advanceRegs d n (s.regs r))) := by
    split
    · next htail =>
      have hd : r.dir = .tx := by simpa using (Bool.and_eq_true_iff.1 htail).2
      exact Keeps.after hregs (State.dropGrant_frame _) { grant := fun _ => hd }
    · exact hregs
  unfold State.advance
  dsimp only
  split
  · exact Keeps.after hgrant (State.packetDone_frame _ r) {}
  · exact hgrant

/-! ### Transmit -/

theorem txData_frame (w : Desc) (e : BitVec 3) (a : Asm) (s : State) : Keeps { env := True } s (txData w e a s).2.2 := by
  unfold txData
  split
  · exact s.drawBus_frame
  · exact Keeps.refl _ s

theorem State.drawTs_frame (s : State) : Keeps { env := True } s s.drawTs.2 := by
  constructor <;> simp

theorem State.tsPush_frame (s : State) (q : Chan) (g : BitVec 16) : Keeps { txe := (· = q), env := True } s (s.tsPush q g) := by
  unfold State.tsPush
  dsimp only
  split
  · exact Keeps.after (s.drawTs_frame.mono {}) (State.setTxe_frame _ q _) {}
  · exact s.drawTs_frame.mono {}

theorem State.txEmit_frame (s : State) (q : Chan) (a : Asm) :
    Keeps { txe := (· = q), env := True, events := True } s (s.txEmit q a) := by
  unfold State.txEmit
  dsimp only
  split
  · exact Keeps.after ((s.emit_frame _).mono {}) (State.tsPush_frame _ q _) {}
  · exact (s.emit_frame _).mono {}

theorem State.txClose_frame (s : State) (q : Chan) (a : Asm) (eof : Bool) :
    Keeps { txe := (· = q), env := True, events := True, grant := True } s (s.txClose q a eof) := by
  have hemit : Keeps { txe := (· = q), env := True, events := True } s (if a.err = true then s else s.txEmit q a) := by
    split
    · exact Keeps.refl _ s
    · exact s.txEmit_frame q a
  unfold State.txClose
  split
  · exact Keeps.after (Keeps.after (hemit.mono {}) (State.setTxe_frame _ q _) {}) (State.dropGrant_frame _) {}
  · exact (State.setTxe_frame s q _).mono {}

/-- The flags, the frame record and the state before a TX descriptor is closed (R381, R383, R384). -/
def txPlan (s : State) (r : RingId) (w : Desc) : BitVec 3 × Asm × State :=
  let p := txStart s.cfg.variant w (s.txe r.q).asm
  let z := txData w p.1 p.2 s
  ((txErr z.1 z.2.1).1, (txErr z.1 z.2.1).2, z.2.2)

/-- A TX descriptor after its fetch: the frame is closed, `STATUS` is written, the engine moves on. -/
theorem State.runTx_eq (s : State) (r : RingId) (d : Word) (w : Desc) : s.runTx r d w =
    let p := txPlan s r w
    let u := (p.2.2.txClose r.q p.2.1 (eofOf s.cfg.variant w.ctrl)).writeStatus r d
      (statusWord p.1 false false (lenOf w.ctrl))
    if u.1 = true then u.2.advance r d w.next (eofOf s.cfg.variant w.ctrl) else u.2 := by
  unfold State.runTx txPlan
  dsimp only
  split <;> next h => rw [h]; rfl

theorem State.runTx_frame (s : State) {r : RingId} (hd : r.dir = .tx) (d : Word) (w : Desc) :
    Keeps (engineTouch r fun a => within32 a (d + BitVec.ofNat 32 (statusOff s.cfg.variant)) 4) s (s.runTx r d w) := by
  have hr : r = ⟨.tx, r.q⟩ := by rw [← hd]
  rw [State.runTx_eq]
  dsimp only
  have hplan : Keeps { env := True } s (txPlan s r w).2.2 := txData_frame w _ _ s
  generalize txPlan s r w = x at hplan ⊢
  obtain ⟨e, a, s1⟩ := x
  have hclose := Keeps.after (e := { txe := (· = r.q), env := True, events := True, grant := True }) (hplan.mono {})
    (s1.txClose_frame r.q a (eofOf s.cfg.variant w.ctrl)) {}
  dsimp only
  have hstatus := (s1.txClose r.q a (eofOf s.cfg.variant w.ctrl)).writeStatus_frame r d
    (statusWord e false false (lenOf w.ctrl))
  rw [hclose.cfg id] at hstatus
  have hboth := (hclose.mono (d := engineTouch r fun a => within32 a (d + BitVec.ofNat 32 (statusOff s.cfg.variant)) 4)
    { txe := by rintro q rfl; exact hr, grant := fun _ => hd, events := fun _ => hd }).trans hstatus
  split
  · exact hboth.trans (State.advance_frame _ r d w.next _ _)
  · exact hboth

/-! ### Receive -/

theorem State.rxData_frame (s : State) (w : Desc) (m : RxRem) :
    Keeps { env := True, bytes := fun a => within32 a w.buf (lenOf w.ctrl) } s (s.rxData w m).2.2 := by
  unfold State.rxData
  split
  · exact Keeps.refl _ s
  · dsimp only
    split
    · refine Keeps.after (s.drawBus_frame.mono {}) (State.setMem_frame (p := fun a => within32 a w.buf (lenOf w.ctrl))
        fun a ha => ?_) {}
      have hlen : (m.bytes.take (min (lenOf w.ctrl) m.bytes.length)).length ≤ lenOf w.ctrl := by
        rw [List.length_take]
        omega
      have h23 := lenOf_lt w.ctrl
      exact memByte_memPutBytes_out _ _ _ (by omega) fun hin => ha (Nat.lt_of_lt_of_le hin hlen)
    · exact s.drawBus_frame.mono {}

theorem State.putAppWord_frame (s : State) (x v : Word) :
    Keeps { env := True, bytes := fun a => within32 a x 4 } s (s.putAppWord x v) :=
  Keeps.after (s.drawBus_frame.mono {}) (State.setWord_frame s.drawBus.2 x v) {}

theorem State.writeApp_frame (s : State) (d : Word) (a : App) :
    Keeps { env := True, bytes := fun x => within32 x (d + 0x20) 20 } s (s.writeApp d a) := by
  have hword {k : Nat} (hk : k < 5) (x : Word) (h : within32 x (d + BitVec.ofNat 32 (appOff k)) 4) :
      within32 x (d + 0x20) 20 := by
    unfold within32 appOff at *
    interval_cases k <;> bv_omega
  refine Keeps.after (Keeps.after (Keeps.after (Keeps.after ((State.putAppWord_frame s _ _).mono { bytes := hword ?_ })
    (State.putAppWord_frame _ _ _) { bytes := hword ?_ }) (State.putAppWord_frame _ _ _) { bytes := hword ?_ })
    (State.putAppWord_frame _ _ _) { bytes := hword ?_ }) (State.putAppWord_frame _ _ _) { bytes := hword ?_ }
  all_goals decide

/-- The bytes an engine may write for a received frame: the buffer, `STATUS`, the application words. -/
def rxBytes (v : Variant) (d : Word) (w : Desc) (a : Word) : Prop :=
  within32 a (d + BitVec.ofNat 32 (statusOff v)) 4 ∨ within32 a (d + 0x20) 20 ∨ within32 a w.buf (lenOf w.ctrl)

/-- The state before `STATUS` of an RX descriptor is written: the buffer, the application words, what is left of the frame. -/
def State.rxSpread (s : State) (r : RingId) (d : Word) (w : Desc) (m : RxRem) : State :=
  let x := s.rxData w m
  let last := x.1 != 0 || x.2.1 == m.bytes.length
  let u := if last && x.1 == 0 then x.2.2.writeApp d m.app else x.2.2
  u.setRxe r.q { u.rxe r.q with rem := if last then none else some ⟨m.bytes.drop x.2.1, m.app, false⟩ }

/-- An RX descriptor after its fetch: the bytes are spread, `STATUS` is written, the engine moves on. -/
theorem State.fillRx_eq (s : State) (r : RingId) (d : Word) (w : Desc) (m : RxRem) : s.fillRx r d w m =
    let x := s.rxData w m
    let last := x.1 != 0 || x.2.1 == m.bytes.length
    let u := (s.rxSpread r d w m).writeStatus r d (statusWord x.1 m.first last x.2.1)
    if u.1 = true then u.2.advance r d w.next last else u.2 := by
  unfold State.fillRx State.rxSpread
  dsimp only
  split <;> next h => rw [h]; rfl

theorem State.rxSpread_frame (s : State) (r : RingId) (d : Word) (w : Desc) (m : RxRem) :
    Keeps { env := True, rxe := (· = r.q), bytes := fun a => within32 a (d + 0x20) 20 ∨ within32 a w.buf (lenOf w.ctrl) } s
      (s.rxSpread r d w m) := by
  have hdata := (s.rxData_frame w m).mono
    (d := { env := True, rxe := (· = r.q),
            bytes := fun a => within32 a (d + 0x20) 20 ∨ within32 a w.buf (lenOf w.ctrl) })
    { bytes := fun a ha => Or.inr ha }
  unfold State.rxSpread
  dsimp only
  refine Keeps.after ?_ (State.setRxe_frame _ r.q _) {}
  split
  · exact Keeps.after hdata (State.writeApp_frame _ d m.app) { bytes := fun a ha => Or.inl ha }
  · exact hdata

theorem State.fillRx_frame (s : State) {r : RingId} (hd : r.dir = .rx) (d : Word) (w : Desc) (m : RxRem) :
    Keeps (engineTouch r (rxBytes s.cfg.variant d w)) s (s.fillRx r d w m) := by
  have hr : r = ⟨.rx, r.q⟩ := by rw [← hd]
  have hspread := (s.rxSpread_frame r d w m).mono (d := engineTouch r (rxBytes s.cfg.variant d w))
    { rxe := by rintro q rfl; exact hr, bytes := fun a ha => Or.inr ha }
  rw [State.fillRx_eq]
  dsimp only
  have hstatus := (s.rxSpread r d w m).writeStatus_frame r d (statusWord (s.rxData w m).1 m.first
    ((s.rxData w m).1 != 0 || (s.rxData w m).2.1 == m.bytes.length) (s.rxData w m).2.1)
  rw [hspread.cfg id] at hstatus
  have hboth := hspread.trans (hstatus.mono { bytes := fun a ha => Or.inl ha })
  split
  · exact hboth.trans (State.advance_frame _ r d w.next _ _)
  · exact hboth

theorem State.rxTake_frame {s t : State} {q : Chan} {m : RxRem} (h : s.rxTake q = some (m, t)) :
    Keeps { rxe := (· = q) } s t := by
  unfold State.rxTake at h
  split at h
  · obtain ⟨-, rfl⟩ := Prod.mk.inj (Option.some.inj h)
    exact Keeps.refl _ _
  · obtain ⟨-, rfl⟩ := Prod.mk.inj (Option.some.inj h)
    exact State.setRxe_frame s q _
  · exact nomatch h

theorem State.runRx_frame (s : State) {r : RingId} (hd : r.dir = .rx) (d : Word) (w : Desc) :
    Keeps (engineTouch r (rxBytes s.cfg.variant d w)) s (s.runRx r d w) := by
  have hr : r = ⟨.rx, r.q⟩ := by rw [← hd]
  unfold State.runRx
  split
  · exact Keeps.refl _ s
  · next m t ht =>
    have htake := State.rxTake_frame ht
    have hfill := t.fillRx_frame hd d w m
    rw [htake.cfg id] at hfill
    exact Keeps.trans (htake.mono { rxe := by rintro q rfl; exact hr }) hfill

/-! ### A descriptor step -/

/-- The bytes the engine of ring `r` may write in one step. -/
def State.engineBytes (s : State) (r : RingId) (a : Word) : Prop :=
  let d := (s.regs r).curdesc
  let w := readDesc s.cfg.variant s.mem d
  within32 a (d + BitVec.ofNat 32 (statusOff s.cfg.variant)) 4 ∨
    (r.dir = .rx ∧ (within32 a (d + 0x20) 20 ∨ within32 a w.buf (lenOf w.ctrl)))

/-- What a fetch comes to: a fault, or the descriptor at `d`. -/
theorem State.fetch_cases (s : State) (r : RingId) (d : Word) :
    (∃ c, s.fetch r d = .faulted (s.drawBus.2.engineFault r c)) ∨
      s.fetch r d = .ok (readDesc s.cfg.variant s.mem d) s.drawBus.2 := by
  have hcfg : s.drawBus.2.cfg = s.cfg := s.drawBus_frame.cfg id
  have hmem : s.drawBus.2.mem = s.mem := by simp
  unfold State.fetch
  generalize s.drawBus = x at hcfg hmem ⊢
  obtain ⟨b, s'⟩ := x
  cases b with
  | okay =>
    unfold checkFetched
    dsimp only at hcfg hmem ⊢
    rw [hcfg, hmem]
    split
    · exact Or.inl ⟨.int, rfl⟩
    · exact Or.inr rfl
  | slverr => exact Or.inl ⟨.slv, rfl⟩
  | decerr => exact Or.inl ⟨.dec, rfl⟩

theorem State.processNext_frame (s : State) (r : RingId) :
    Keeps (engineTouch r (s.engineBytes r)) s (s.processNext r) := by
  have hdraw := s.drawBus_frame.mono (d := engineTouch r (s.engineBytes r)) {}
  have hcfg : s.drawBus.2.cfg = s.cfg := s.drawBus_frame.cfg id
  unfold State.processNext
  obtain ⟨c, h⟩ | h := s.fetch_cases r (s.regs r).curdesc
  · rw [h]
    exact hdraw.trans (State.engineFault_touches _ r c _)
  · rw [h]
    dsimp only
    split
    · next hd =>
      refine hdraw.trans ((State.runTx_frame _ hd _ _).mono { bytes := fun a ha => ?_ })
      rw [hcfg] at ha
      exact Or.inl ha
    · next hd =>
      refine hdraw.trans ((State.runRx_frame _ hd _ _).mono { bytes := fun a ha => ?_ })
      rw [hcfg] at ha
      exact ha.imp_right fun h => ⟨hd, h⟩

end Sys2Proof.Machine
end

section
/-! PROOF. No engine step changes what belongs to software (R398). -/

namespace Sys2Proof.Machine

/-! ### The registers software alone writes -/

def SameSoft (x y : RingRegs) : Prop := y.taildesc = x.taildesc ∧ y.thresh = x.thresh ∧ y.delay = x.delay

/-- What belongs to the ring manager, and the register fields that only software writes, are as before. -/
structure SoftKept (s t : State) : Prop where
  sw : t.sw = s.sw
  soft : ∀ r, SameSoft (s.regs r) (t.regs r)

theorem SoftKept.refl (s : State) : SoftKept s s := ⟨rfl, fun _ => ⟨rfl, rfl, rfl⟩⟩

theorem SoftKept.trans {s t u : State} (h : SoftKept s t) (k : SoftKept t u) : SoftKept s u := by
  refine ⟨k.sw.trans h.sw, fun r => ?_⟩
  obtain ⟨h1, h2, h3⟩ := h.soft r
  obtain ⟨k1, k2, k3⟩ := k.soft r
  exact ⟨k1.trans h1, k2.trans h2, k3.trans h3⟩

theorem softKept_of_regs {s t : State} (hsw : t.sw = s.sw) (h : ∀ r, t.regs r = s.regs r) : SoftKept s t :=
  ⟨hsw, fun r => by rw [h]; exact ⟨rfl, rfl, rfl⟩⟩

theorem State.setRegs_soft {s : State} {r : RingId} {x : RingRegs} (h : SameSoft (s.regs r) x) :
    SoftKept s (s.setRegs r x) := by
  refine ⟨State.setRegs_sw s r x, fun t => ?_⟩
  rw [State.setRegs_regs]
  by_cases ht : t = r
  · rw [if_pos ht, ht]
    exact h
  · rw [if_neg ht]
    exact ⟨rfl, rfl, rfl⟩

theorem State.raise_soft (s : State) (r : RingId) (k : Irq) : SoftKept s (s.raise r k) := by
  refine ⟨by simp, fun t => ?_⟩
  by_cases ht : t = r
  · rw [ht, State.raise_regs_self]
    exact ⟨rfl, rfl, rfl⟩
  · rw [(State.raise_frame s r k).regs t ht]
    exact ⟨rfl, rfl, rfl⟩

theorem State.engineFault_soft (s : State) (r : RingId) (c : Cause) : SoftKept s (s.engineFault r c) := by
  refine ⟨by simp, fun t => ?_⟩
  by_cases ht : t = r
  · rw [ht, State.engineFault_regs_self]
    exact ⟨rfl, rfl, rfl⟩
  · rw [State.engineFault_regs_ne s c ht]
    exact ⟨rfl, rfl, rfl⟩

theorem packetDoneRegs_soft (x : RingRegs) : SameSoft x (packetDoneRegs x).1 := by
  unfold packetDoneRegs
  split
  · exact ⟨rfl, rfl, rfl⟩
  · split <;> exact ⟨rfl, rfl, rfl⟩

theorem State.packetDone_soft (s : State) (r : RingId) : SoftKept s (s.packetDone r) := by
  have hregs := State.setRegs_soft (packetDoneRegs_soft (s.regs r))
  unfold State.packetDone
  dsimp only
  split
  · exact hregs.trans (State.raise_soft _ r .ioc)
  · exact hregs

theorem State.advance_soft (s : State) (r : RingId) (d n : Word) (done : Bool) : SoftKept s (s.advance r d n done) := by
  have hregs : SoftKept s (s.setRegs r (advanceRegs d n (s.regs r))) := State.setRegs_soft ⟨rfl, rfl, rfl⟩
  have hgrant : SoftKept s (if (d == (s.regs r).taildesc && r.dir == .tx) = true then
      (s.setRegs r (advanceRegs d n (s.regs r))).dropGrant else s.setRegs r (advanceRegs d n (s.regs r))) := by
    split
    · exact hregs.trans (softKept_of_regs (by simp) (by simp))
    · exact hregs
  unfold State.advance
  dsimp only
  split
  · exact hgrant.trans (State.packetDone_soft _ r)
  · exact hgrant

/-! ### The descriptor steps -/

theorem State.drawBus_soft (s : State) : SoftKept s s.drawBus.2 := softKept_of_regs (by simp) (by simp)

theorem State.writeStatus_soft (s : State) (r : RingId) (d w : Word) : SoftKept s (s.writeStatus r d w).2 := by
  have hdraw := s.drawBus_soft
  unfold State.writeStatus
  generalize s.drawBus = x at hdraw ⊢
  obtain ⟨b, s'⟩ := x
  cases b with
  | okay => exact hdraw.trans (softKept_of_regs rfl fun _ => rfl)
  | slverr => exact hdraw.trans (s'.engineFault_soft r .slv)
  | decerr => exact hdraw.trans (s'.engineFault_soft r .dec)

theorem State.runTx_soft (s : State) (r : RingId) (d : Word) (w : Desc) : SoftKept s (s.runTx r d w) := by
  have hplan : SoftKept s (txPlan s r w).2.2 := softKept_of_regs (by simp [txPlan]) (by simp [txPlan])
  rw [State.runTx_eq]
  dsimp only
  generalize txPlan s r w = x at hplan ⊢
  obtain ⟨e, a, s1⟩ := x
  have hclose : SoftKept s1 (s1.txClose r.q a (eofOf s.cfg.variant w.ctrl)) := softKept_of_regs (by simp) (by simp)
  have hboth := hplan.trans (hclose.trans (State.writeStatus_soft _ r d (statusWord e false false (lenOf w.ctrl))))
  split
  · exact hboth.trans (State.advance_soft _ r d w.next _)
  · exact hboth

theorem State.fillRx_soft (s : State) (r : RingId) (d : Word) (w : Desc) (m : RxRem) : SoftKept s (s.fillRx r d w m) := by
  have hspread : SoftKept s (s.rxSpread r d w m) := by
    unfold State.rxSpread
    dsimp only
    split
    · exact softKept_of_regs (by simp) (by simp)
    · exact softKept_of_regs (by simp) (by simp)
  rw [State.fillRx_eq]
  dsimp only
  have hboth := hspread.trans (State.writeStatus_soft _ r d (statusWord (s.rxData w m).1 m.first
    ((s.rxData w m).1 != 0 || (s.rxData w m).2.1 == m.bytes.length) (s.rxData w m).2.1))
  split
  · exact hboth.trans (State.advance_soft _ r d w.next _)
  · exact hboth

theorem State.runRx_soft (s : State) (r : RingId) (d : Word) (w : Desc) : SoftKept s (s.runRx r d w) := by
  unfold State.runRx State.rxTake
  split
  · exact SoftKept.refl s
  · next m t ht =>
    refine SoftKept.trans ?_ (State.fillRx_soft t r d w m)
    split at ht
    · obtain ⟨-, rfl⟩ := Prod.mk.inj (Option.some.inj ht)
      exact SoftKept.refl _
    · obtain ⟨-, rfl⟩ := Prod.mk.inj (Option.some.inj ht)
      exact softKept_of_regs rfl fun _ => rfl
    · exact nomatch ht

theorem State.processNext_soft (s : State) (r : RingId) : SoftKept s (s.processNext r) := by
  unfold State.processNext
  obtain ⟨c, h⟩ | h := s.fetch_cases r (s.regs r).curdesc
  · rw [h]
    exact s.drawBus_soft.trans (State.engineFault_soft _ r c)
  · rw [h]
    dsimp only
    split
    · exact s.drawBus_soft.trans (State.runTx_soft _ r _ _)
    · exact s.drawBus_soft.trans (State.runRx_soft _ r _ _)

/-! ### Every engine step -/

/-- What an engine step other than the end of a reset leaves; `p` holds of the bytes it may write. -/
structure EngineKept (p : Word → Prop) (s t : State) : Prop where
  soft : SoftKept s t
  weights : ∀ c, t.weight c = s.weight c
  cfg : t.cfg = s.cfg
  answers : t.answers = s.answers
  tasks : t.tasks = s.tasks
  bytes : ∀ a, ¬p a → memByte t.mem a = memByte s.mem a

theorem EngineKept.refl (p : Word → Prop) (s : State) : EngineKept p s s :=
  ⟨SoftKept.refl s, fun _ => rfl, rfl, rfl, rfl, fun _ _ => rfl⟩

theorem engineKept_of_frame {c : Touch} {s t : State} (hsoft : SoftKept s t) (h : Keeps c s t) (hw : ∀ q, ¬c.weights q)
    (ha : ¬c.answers) (ht : ¬c.tasks) (hc : ¬c.cfg) : EngineKept c.bytes s t :=
  ⟨hsoft, fun q => h.weights q (hw q), h.cfg hc, h.answers ha, h.tasks ht, h.bytes⟩

theorem State.processNext_kept (s : State) (r : RingId) : EngineKept (s.engineBytes r) s (s.processNext r) :=
  engineKept_of_frame (s.processNext_soft r) (s.processNext_frame r) (fun _ => id) id id id

theorem weights_ext {s t : State} (h : ∀ c, t.weight c = s.weight c) : t.hw.weight = s.hw.weight := by
  refine Vector.ext fun k hk => ?_
  exact h ⟨k, hk⟩

/-- The bytes instruction `i` may write, if it is a descriptor step. -/
def descBytes (i : Instr) (s : State) (a : Word) : Prop :=
  ∃ r : RingId, (i = engineRow r ∨ ∃ w, i = descriptorRow s.cfg.variant r w) ∧ s.engineBytes r a

/-- A step that runs the engine of ring `r` or does nothing. -/
theorem engineRun_kept {s t : State} {r : RingId} {i : Instr} {p : Prop} [Decidable p]
    (hi : i = engineRow r ∨ ∃ w, i = descriptorRow s.cfg.variant r w)
    (h : (if p then Host.Outcome.next (s.processNext r) else .next s : Res) = .next t) : EngineKept (descBytes i s) s t := by
  split at h
  · obtain rfl := Host.Outcome.next.inj h
    obtain ⟨hsoft, hw, hcfg, hans, htasks, hbytes⟩ := s.processNext_kept r
    exact ⟨hsoft, hw, hcfg, hans, htasks, fun a ha => hbytes a fun hin => ha ⟨r, hi, hin⟩⟩
  · obtain rfl := Host.Outcome.next.inj h
    exact EngineKept.refl _ _

/-- A step that stores `u` or does nothing. -/
theorem engineStore_kept {s t u : State} {q : Word → Prop} {p : Prop} [Decidable p] (hu : EngineKept q s u)
    (h : (if p then Host.Outcome.next u else .next s : Res) = .next t) : EngineKept q s t := by
  split at h
  · obtain rfl := Host.Outcome.next.inj h
    exact hu
  · obtain rfl := Host.Outcome.next.inj h
    exact EngineKept.refl _ _

theorem grantTo_kept (s : State) (c : Chan) (p : Word → Prop) : EngineKept p s (s.reload.grantTo c) :=
  ⟨softKept_of_regs (by simp) (by simp), by simp, by simp, by simp, by simp, by simp⟩

theorem arbGrant_kept {s t : State} (h : exec .eArbGrant s = .next t) (p : Word → Prop) : EngineKept p s t := by
  change execEArbGrant s = .next t at h
  unfold execEArbGrant at h
  split at h
  · split at h
    · next c _ =>
      obtain rfl := Host.Outcome.next.inj h
      exact grantTo_kept s c p
    · obtain rfl := Host.Outcome.next.inj h
      exact EngineKept.refl _ _
  · obtain rfl := Host.Outcome.next.inj h
    exact EngineKept.refl _ _

theorem delayTimeout_kept (s : State) (r : RingId) (p : Word → Prop) :
    EngineKept p s ((s.setRegs r (delayTimeoutRegs (s.regs r))).raise r .dly) := by
  have hregs : SoftKept s (s.setRegs r (delayTimeoutRegs (s.regs r))) := State.setRegs_soft ⟨rfl, rfl, rfl⟩
  exact ⟨hregs.trans (State.raise_soft _ r .dly), by simp, by simp, by simp, by simp, by simp⟩

theorem engineFault_kept (s : State) (r : RingId) (c : Cause) (p : Word → Prop) : EngineKept p s (s.engineFault r c) :=
  ⟨s.engineFault_soft r c, by simp, by simp, by simp, by simp, by simp⟩

theorem stopDone_kept (s : State) (r : RingId) (p : Word → Prop) :
    EngineKept p s (((s.setRegs r (stopDoneRegs (s.regs r))).dropFrame r).releaseGrant r) := by
  have hregs : SoftKept s (s.setRegs r (stopDoneRegs (s.regs r))) := State.setRegs_soft ⟨rfl, rfl, rfl⟩
  exact ⟨hregs.trans (softKept_of_regs (by simp) (by simp)), by simp, by simp, by simp, by simp, by simp⟩

theorem resetDone_left {s t : State} {d : Dir} {q : Nat} (h : exec (.eResetDone d q) s = .next t) :
    t.sw = s.sw ∧ (∀ c, t.weight c = s.weight c) ∧ t.cfg = s.cfg ∧ t.answers = s.answers ∧ t.tasks = s.tasks ∧
      t.mem = s.mem := by
  obtain ⟨r, -, -, -, h⟩ := withRing_next h
  split at h
  · obtain rfl := Host.Outcome.next.inj h
    simp
  · obtain rfl := Host.Outcome.next.inj h
    exact ⟨rfl, fun _ => rfl, rfl, rfl, rfl, rfl⟩

/-- A descriptor row of variant `v` on a ring that exists. -/
theorem engineDesc_kept {v : Variant} {d : Dir} {q : Nat} {w : Desc} {s t : State} {i : Instr}
    (hi : ∀ r : RingId, r.dir = d → r.q.val = q → i = descriptorRow v r w) (h : engineDesc v d q w s = .next t) :
    EngineKept (descBytes i s) s t := by
  unfold engineDesc at h
  split at h
  · next hv =>
    obtain ⟨r, hd, hq, -, h⟩ := withRing_next h
    exact engineRun_kept (Or.inr ⟨w, by rw [hv]; exact hi r hd hq⟩) h
  · exact nomatch h

theorem engineStep_kept {i : Instr} {s t : State} (hi : isEngineStep i = true) (h : exec i s = .next t) :
    (∃ d q, i = .eResetDone d q) ∨ EngineKept (descBytes i s) s t := by
  unfold isEngineStep at hi
  split at hi
  · obtain ⟨⟨d, q⟩, rfl, rfl, -, h⟩ := withRing_next h
    exact Or.inr (engineRun_kept (r := ⟨.tx, q⟩) (Or.inl rfl) h)
  · obtain ⟨⟨d, q⟩, rfl, rfl, -, h⟩ := withRing_next h
    exact Or.inr (engineRun_kept (r := ⟨.rx, q⟩) (Or.inl rfl) h)
  · exact Or.inr (arbGrant_kept h _)
  · obtain ⟨r, -, -, -, h⟩ := withRing_next h
    exact Or.inr (engineStore_kept (delayTimeout_kept s r _) h)
  · obtain ⟨r, -, -, -, h⟩ := withRing_next h
    exact Or.inr (engineStore_kept (engineFault_kept s r _ _) h)
  · exact Or.inl ⟨_, _, rfl⟩
  · obtain ⟨r, -, -, -, h⟩ := withRing_next h
    exact Or.inr (engineStore_kept (stopDone_kept s r _) h)
  · exact Or.inr (engineDesc_kept (v := .sq) (by rintro r rfl rfl; rfl) h)
  · exact Or.inr (engineDesc_kept (v := .mc) (by rintro r rfl rfl; rfl) h)
  · exact nomatch hi

/-- Settles O12: what the accesses of each engine step touch. -/
theorem engineLeavesSoftware : Obligations.EngineLeavesSoftware := by
  intro i s t hi h
  obtain ⟨d, q, rfl⟩ | ⟨hsoft, hw, hcfg, hans, htasks, hbytes⟩ := engineStep_kept hi h
  · obtain ⟨hsw, hw, hcfg, hans, htasks, hmem⟩ := resetDone_left h
    exact ⟨hsw, weights_ext hw, hcfg, hans, htasks, fun hno => absurd rfl (hno d q), fun a ha => absurd (by rw [hmem]) ha⟩
  · refine ⟨hsoft.sw, weights_ext hw, hcfg, hans, htasks, fun _ r => hsoft.soft r, fun a ha => ?_⟩
    by_contra hno
    exact ha (hbytes a hno)

end Sys2Proof.Machine
end

section
/-! SUPPORT. What the engine's accesses come to where their answers are given (R381, R382, R385), and the end of a descriptor
step. -/

namespace Sys2Proof.Machine

/-! ### Answers -/

/-- The machine with the answers `l` still to be given. -/
def State.withBus (s : State) (l : List BusResp) : State := { s with env := { s.env with busResp := l } }

theorem State.withBus_frame (s : State) (l : List BusResp) : Keeps { env := True } s (s.withBus l) where
  regs _ _ := rfl
  rings _ _ := rfl
  fences _ _ := rfl
  tags _ _ := rfl
  txe _ _ := rfl
  rxe _ _ := rfl
  weights _ _ := rfl
  credits _ := ⟨fun _ => rfl, rfl⟩
  grant _ := rfl
  irq _ _ := rfl
  context _ := ⟨rfl, rfl, rfl, rfl, rfl⟩
  bytes _ _ := rfl
  events _ := rfl
  answers _ := rfl
  env h := absurd trivial h
  tasks _ := rfl
  cfg _ := rfl

theorem State.drawBus_cons {s : State} {b : BusResp} {l : List BusResp} (h : s.env.busResp = b :: l) :
    s.drawBus = (b, s.withBus l) := by
  simp only [State.drawBus, h]
  rfl

/-- The fault that a bad answer is. -/
def badCause : BusResp → Cause
  | .okay => .int
  | .slverr => .slv
  | .decerr => .dec

theorem State.fetch_okay {s : State} {r : RingId} {d : Word} {l : List BusResp} (h : s.env.busResp = .okay :: l)
    (hc : cmpltOf (readDesc s.cfg.variant s.mem d).status = false) :
    s.fetch r d = .ok (readDesc s.cfg.variant s.mem d) (s.withBus l) := by
  unfold State.fetch
  rw [State.drawBus_cons h]
  exact if_neg (by rw [show (s.withBus l).cfg = s.cfg from rfl, show (s.withBus l).mem = s.mem from rfl, hc]; decide)

theorem State.fetch_complete {s : State} {r : RingId} {d : Word} {l : List BusResp} (h : s.env.busResp = .okay :: l)
    (hc : cmpltOf (readDesc s.cfg.variant s.mem d).status = true) :
    s.fetch r d = .faulted ((s.withBus l).engineFault r .int) := by
  unfold State.fetch
  rw [State.drawBus_cons h]
  exact if_pos hc

theorem State.fetch_bad {s : State} {r : RingId} {d : Word} {b : BusResp} {l : List BusResp} (h : s.env.busResp = b :: l)
    (hb : b ≠ .okay) : s.fetch r d = .faulted ((s.withBus l).engineFault r (badCause b)) := by
  unfold State.fetch
  rw [State.drawBus_cons h]
  cases b with
  | okay => exact absurd rfl hb
  | slverr => rfl
  | decerr => rfl

theorem State.writeStatus_okay {s : State} {l : List BusResp} (h : s.env.busResp = .okay :: l) (r : RingId) (d w : Word) :
    s.writeStatus r d w =
      (true, (s.withBus l).setMem (memPutWord s.mem (d + BitVec.ofNat 32 (statusOff s.cfg.variant)) w)) := by
  unfold State.writeStatus
  rw [State.drawBus_cons h]
  rfl

theorem State.writeStatus_bad {s : State} {b : BusResp} {l : List BusResp} (h : s.env.busResp = b :: l) (hb : b ≠ .okay)
    (r : RingId) (d w : Word) : s.writeStatus r d w = (false, (s.withBus l).engineFault r (badCause b)) := by
  unfold State.writeStatus
  rw [State.drawBus_cons h]
  cases b with
  | okay => exact absurd rfl hb
  | slverr => rfl
  | decerr => rfl

theorem State.processNext_tx {s : State} {r : RingId} (hd : r.dir = .tx) {l : List BusResp} (h : s.env.busResp = .okay :: l)
    (hc : cmpltOf (readDesc s.cfg.variant s.mem (s.regs r).curdesc).status = false) : s.processNext r =
      (s.withBus l).runTx r (s.regs r).curdesc (readDesc s.cfg.variant s.mem (s.regs r).curdesc) := by
  unfold State.processNext
  rw [State.fetch_okay h hc, hd]

theorem State.processNext_rx {s : State} {r : RingId} (hd : r.dir = .rx) {l : List BusResp} (h : s.env.busResp = .okay :: l)
    (hc : cmpltOf (readDesc s.cfg.variant s.mem (s.regs r).curdesc).status = false) : s.processNext r =
      (s.withBus l).runRx r (s.regs r).curdesc (readDesc s.cfg.variant s.mem (s.regs r).curdesc) := by
  unfold State.processNext
  rw [State.fetch_okay h hc, hd]

/-! ### The end of a descriptor step -/

theorem packetDoneRegs_last {x : RingRegs} (h : x.iocCount = 1) :
    packetDoneRegs x = ({ x with iocCount := x.thresh.toNat, dlyArmed := false }, true) := by
  rw [packetDoneRegs, if_pos (by omega)]

theorem packetDoneRegs_counts {x : RingRegs} (h1 : 1 ≤ x.iocCount) (h : x.iocCount ≠ 1) :
    packetDoneRegs x = ({ x with iocCount := x.iocCount - 1, dlyArmed := x.dlyArmed || x.delay != 0 }, false) := by
  rw [packetDoneRegs, if_neg (by omega)]
  by_cases hd : x.delay = 0
  · rw [if_neg (not_not.2 hd), hd, show ((0 : BitVec 8) != 0) = false from rfl, Bool.or_false]
  · rw [if_pos hd, bne_iff_ne.2 hd, Bool.or_true]

theorem State.packetDone_regs (s : State) (r : RingId) (h1 : 1 ≤ (s.regs r).iocCount) : (s.packetDone r).regs r =
    (if (s.regs r).iocCount = 1 then
      raised s.cfg.variant 1 { s.regs r with iocCount := (s.regs r).thresh.toNat, dlyArmed := false }
     else { s.regs r with
      iocCount := (s.regs r).iocCount - 1, dlyArmed := (s.regs r).dlyArmed || (s.regs r).delay != 0 }) := by
  unfold State.packetDone
  by_cases h : (s.regs r).iocCount = 1
  · rw [packetDoneRegs_last h, if_pos h]
    exact State.setRegs_raise_regs_self s r _ .ioc
  · rw [packetDoneRegs_counts h1 h, if_neg h]
    exact (State.setRegs_regs s r _ r).trans (if_pos rfl)

theorem State.packetDone_irq (s : State) (r : RingId) (h1 : 1 ≤ (s.regs r).iocCount) :
    (s.packetDone r).irq r.dir = (s.irq r.dir || ((s.regs r).iocCount == 1 && raises s.cfg.variant 1 (s.regs r))) := by
  unfold State.packetDone
  by_cases h : (s.regs r).iocCount = 1
  · rw [packetDoneRegs_last h, h]
    exact State.setRegs_raise_irq s r _ .ioc
  · rw [packetDoneRegs_counts h1 h, beq_false_of_ne h, Bool.false_and, Bool.or_false]
    exact State.setRegs_irq s r _ _

/-- The machine after `CURDESC` has moved on and a TX grant at the tail has been given up. -/
def State.movedOn (s : State) (r : RingId) (next : Word) : State :=
  let s1 := s.setRegs r (movedRegs next (s.regs r))
  if (s.regs r).curdesc = (s.regs r).taildesc ∧ r.dir = .tx then s1.dropGrant else s1

theorem State.advance_eq {s : State} {r : RingId} {d : Word} (hd : d = (s.regs r).curdesc) (hi : (s.regs r).idle = false)
    (next : Word) (done : Bool) :
    s.advance r d next done = if done = true then (s.movedOn r next).packetDone r else s.movedOn r next := by
  have hregs : advanceRegs d next (s.regs r) = movedRegs next (s.regs r) := by
    rw [advanceRegs, movedRegs, hd, hi, Bool.false_or]
    rfl
  have htail : (if (d == (s.regs r).taildesc && r.dir == .tx) = true then
      (s.setRegs r (advanceRegs d next (s.regs r))).dropGrant else s.setRegs r (advanceRegs d next (s.regs r))) =
        s.movedOn r next := by
    rw [hregs, State.movedOn, hd]
    simp only [Bool.and_eq_true, beq_iff_eq]
  unfold State.advance
  dsimp only
  rw [htail]

theorem State.movedOn_regs (s : State) (r : RingId) (next : Word) : (s.movedOn r next).regs r = movedRegs next (s.regs r) := by
  unfold State.movedOn
  dsimp only
  split
  · simp
  · simp

theorem State.movedOn_irq (s : State) (r : RingId) (next : Word) (d : Dir) : (s.movedOn r next).irq d = s.irq d := by
  unfold State.movedOn
  dsimp only
  split
  · simp
  · simp

theorem State.movedOn_cfg (s : State) (r : RingId) (next : Word) : (s.movedOn r next).cfg = s.cfg := by
  unfold State.movedOn
  dsimp only
  split
  · simp
  · simp

theorem State.movedOn_grant (s : State) (r : RingId) (next : Word) : (s.movedOn r next).hw.grant =
    if s.cfg.variant = .mc ∧ (s.regs r).curdesc = (s.regs r).taildesc ∧ r.dir = .tx then none else s.hw.grant := by
  unfold State.movedOn
  dsimp only
  split
  · next h => simp [State.dropGrant, h]; split <;> simp
  · next h => rw [if_neg fun h' => h h'.2]; rfl

section
variable {s : State} {r : RingId} {d : Word} (hd : d = (s.regs r).curdesc) (hi : (s.regs r).idle = false) (next : Word)
include hd hi

/-- Inside a frame the engine only moves on. -/
theorem State.advance_moves : (s.advance r d next false).regs r = movedRegs next (s.regs r) ∧
    (s.advance r d next false).irq r.dir = s.irq r.dir ∧
    (s.advance r d next false).hw.grant =
      if s.cfg.variant = .mc ∧ (s.regs r).curdesc = (s.regs r).taildesc ∧ r.dir = .tx then none else s.hw.grant := by
  rw [State.advance_eq hd hi, if_neg Bool.false_ne_true]
  exact ⟨s.movedOn_regs r next, s.movedOn_irq r next _, s.movedOn_grant r next⟩

/-- At the end of a frame the frame is counted too. -/
theorem State.advance_counts (h1 : 1 ≤ (s.regs r).iocCount) :
    (s.advance r d next true).regs r = doneRegs s.cfg.variant next (s.regs r) ∧
    (s.advance r d next true).irq r.dir =
      (s.irq r.dir || ((s.regs r).iocCount == 1 && raises s.cfg.variant 1 (s.regs r))) ∧
    (s.advance r d next true).hw.grant =
      if s.cfg.variant = .mc ∧ (s.regs r).curdesc = (s.regs r).taildesc ∧ r.dir = .tx then none else s.hw.grant := by
  have hregs := s.movedOn_regs r next
  have hcount : 1 ≤ ((s.movedOn r next).regs r).iocCount := by rw [hregs]; exact h1
  rw [State.advance_eq hd hi, if_pos rfl]
  refine ⟨?_, ?_, ?_⟩
  · rw [State.packetDone_regs _ _ hcount, hregs, s.movedOn_cfg]
    rfl
  · rw [State.packetDone_irq _ _ hcount, hregs, s.movedOn_cfg, s.movedOn_irq]
    rfl
  · rw [(State.packetDone_frame _ r).grant id, s.movedOn_grant]

end

end Sys2Proof.Machine
end

section
/-! SUPPORT. A transmit descriptor from its fetch to the end of the step (R381, R383, R384, R386, R387). -/

namespace Sys2Proof.Machine

/-! ### The plan of a descriptor -/

/-- A descriptor with an error of its own: its length, or its place in the frame (R383). -/
def txBroken (v : Variant) (w : Desc) (a : Asm) : Prop := lenOf w.ctrl = 0 ∨ sofOf v w.ctrl = a.active

/-- The frame record a descriptor goes on with, before its bytes (R381). -/
def startAsm (v : Variant) (w : Desc) (a : Asm) : Asm :=
  if (sofOf v w.ctrl || !a.active) = true then ⟨true, [], if sofOf v w.ctrl then w.app else appZero, false⟩ else a

theorem txStart_broken {v : Variant} {w : Desc} {a : Asm} (h : txBroken v w a) : txStart v w a = (errInt, startAsm v w a) := by
  unfold txBroken at h
  unfold txStart startAsm
  by_cases h0 : lenOf w.ctrl = 0
  · simp only [h0, if_true, BitVec.or_self, ite_self]
    split <;> rfl
  · have hplace : sofOf v w.ctrl = a.active := h.resolve_left h0
    have hstarts : (a.active || !a.active) = true := by cases a.active <;> rfl
    simp only [h0, hplace, hstarts, if_true, if_false, beq_self_eq_true]
    rfl

theorem txStart_fine {v : Variant} {w : Desc} {a : Asm} (h : ¬txBroken v w a) : txStart v w a = (0, startAsm v w a) := by
  unfold txBroken at h
  obtain ⟨h0, hplace⟩ := not_or.1 h
  have hne : (sofOf v w.ctrl == a.active) = false := beq_false_of_ne hplace
  unfold txStart startAsm
  simp only [h0, hne, if_false, Bool.false_eq_true]
  split <;> rfl

theorem startAsm_starts {v : Variant} {w : Desc} {a : Asm} (hs : sofOf v w.ctrl = true) :
    startAsm v w a = ⟨true, [], w.app, false⟩ := by
  simp [startAsm, hs]

theorem startAsm_goes {v : Variant} {w : Desc} {a : Asm} (hs : sofOf v w.ctrl = false) (ha : a.active = true) :
    startAsm v w a = a := by
  simp [startAsm, hs, ha]

/-- The frame record after an error. -/
theorem startAsm_dropped (v : Variant) (w : Desc) (a : Asm) : { startAsm v w a with err := true } =
    if sofOf v w.ctrl = true then ⟨true, [], w.app, true⟩
    else if a.active = true then { a with err := true } else ⟨true, [], appZero, true⟩ := by
  unfold startAsm
  cases sofOf v w.ctrl <;> cases h : a.active <;> simp [h]

section
variable {s : State} {r : RingId} {w : Desc}

/-- A descriptor with an error, or of a frame with one, is closed without its buffer being read. -/
theorem txPlan_dropped (h : txBroken s.cfg.variant w (s.txe r.q).asm ∨
      (sofOf s.cfg.variant w.ctrl = false ∧ (s.txe r.q).asm.active = true ∧ (s.txe r.q).asm.err = true)) :
    txPlan s r w = (errInt, { startAsm s.cfg.variant w (s.txe r.q).asm with err := true }, s) := by
  unfold txPlan
  by_cases hb : txBroken s.cfg.variant w (s.txe r.q).asm
  · have hdata (a : Asm) : txData w errInt a s = (errInt, a, s) := if_neg fun he => absurd he.1 (by decide)
    simp only [txStart_broken hb, hdata]
    rfl
  · obtain ⟨hs, ha, herr⟩ := h.resolve_left hb
    have hdata : txData w 0 (s.txe r.q).asm s = (0, (s.txe r.q).asm, s) := if_neg fun he => nomatch he.2.symm.trans herr
    simp only [txStart_fine hb, startAsm_goes hs ha, hdata, txErr, herr]
    rfl

variable (hb : ¬txBroken s.cfg.variant w (s.txe r.q).asm) (ha : (startAsm s.cfg.variant w (s.txe r.q).asm).err = false)
  {l : List BusResp}
include hb ha

theorem txPlan_good (h : s.env.busResp = .okay :: l) : txPlan s r w = (0, { startAsm s.cfg.variant w (s.txe r.q).asm with
    bytes := (startAsm s.cfg.variant w (s.txe r.q).asm).bytes ++ memBytes s.mem w.buf (lenOf w.ctrl) }, s.withBus l) := by
  have hdata : txData w 0 (startAsm s.cfg.variant w (s.txe r.q).asm) s =
      (0, { startAsm s.cfg.variant w (s.txe r.q).asm with bytes :=
        (startAsm s.cfg.variant w (s.txe r.q).asm).bytes ++ memBytes s.mem w.buf (lenOf w.ctrl) }, s.withBus l) := by
    unfold txData
    rw [if_pos ⟨rfl, ha⟩, State.drawBus_cons h]
    rfl
  unfold txPlan
  simp only [txStart_fine hb, hdata, txErr, ha]
  rfl

theorem txPlan_bad {b : BusResp} (h : s.env.busResp = b :: l) (hbad : b ≠ .okay) : txPlan s r w =
    (respErr b, { startAsm s.cfg.variant w (s.txe r.q).asm with err := true }, s.withBus l) := by
  have hdata : txData w 0 (startAsm s.cfg.variant w (s.txe r.q).asm) s =
      (respErr b, startAsm s.cfg.variant w (s.txe r.q).asm, s.withBus l) := by
    unfold txData
    rw [if_pos ⟨rfl, ha⟩, State.drawBus_cons h]
    simp only [if_neg hbad]
  have herr : respErr b ≠ 0 := by
    cases b with
    | okay => exact absurd rfl hbad
    | slverr => decide
    | decerr => decide
  unfold txPlan
  simp only [txStart_fine hb, hdata, txErr, herr, false_and, if_false, ne_eq, not_false_eq_true, if_true]

end

/-! ### The close of a frame -/

theorem State.drawTs_eq (s : State) : s.drawTs.1 = (match s.env.ts with | x :: _ => x | [] => Config.freeTs s.env.drawn) ∧
    s.drawTs.2.env.busResp = s.env.busResp := by
  unfold State.drawTs
  cases s.env.ts <;> exact ⟨rfl, rfl⟩

theorem State.tsPush_busResp (s : State) (q : Chan) (g : BitVec 16) : (s.tsPush q g).env.busResp = s.env.busResp := by
  unfold State.tsPush
  dsimp only
  split
  · exact s.drawTs_eq.2
  · exact s.drawTs_eq.2

theorem State.tsPush_tsf (s : State) (q : Chan) (g : BitVec 16) : ((s.tsPush q g).txe q).tsf =
    if (s.txe q).tsf.length < (s.ring ⟨.tx, q⟩).cap - 1 then (s.txe q).tsf ++ [⟨g, s.drawTs.1⟩] else (s.txe q).tsf := by
  have hframe := s.drawTs_frame
  have htxe := hframe.txe q id
  have hring := hframe.rings ⟨.tx, q⟩ id
  unfold State.tsPush
  dsimp only
  rw [htxe, hring]
  split
  · simp
  · rw [htxe]

theorem State.txEmit_busResp (s : State) (q : Chan) (a : Asm) : (s.txEmit q a).env.busResp = s.env.busResp := by
  unfold State.txEmit
  dsimp only
  split
  · exact State.tsPush_busResp _ _ _
  · rfl

theorem State.txClose_busResp (s : State) (q : Chan) (a : Asm) (eof : Bool) :
    (s.txClose q a eof).env.busResp = s.env.busResp := by
  have hdrop (u : State) : u.dropGrant.env = u.env := by simp
  unfold State.txClose
  split
  · dsimp only
    rw [hdrop, State.setTxe_env]
    split
    · rfl
    · exact s.txEmit_busResp q a
  · rfl

/-- Inside a frame its record is kept. -/
theorem State.txClose_inner (s : State) (q : Chan) (a : Asm) : (s.txClose q a false).events = s.events ∧
    (s.txClose q a false).txe q = { s.txe q with asm := a } ∧ (s.txClose q a false).hw.grant = s.hw.grant := by
  have heq : s.txClose q a false = s.setTxe q { s.txe q with asm := a } := rfl
  rw [heq]
  simp

theorem State.dropGrant_grant_eq (s : State) : s.dropGrant.hw.grant = if s.cfg.variant = .mc then none else s.hw.grant := by
  unfold State.dropGrant
  split <;> simp

/-- The end of a frame in error. -/
theorem State.txClose_dropped (s : State) (q : Chan) {a : Asm} (ha : a.err = true) :
    (s.txClose q a true).events = s.events ∧ (s.txClose q a true).txe q = { s.txe q with asm := asmInactive } ∧
      (s.txClose q a true).hw.grant = if s.cfg.variant = .mc then none else s.hw.grant := by
  have heq : s.txClose q a true = (s.setTxe q { s.txe q with asm := asmInactive }).dropGrant := by
    simp only [State.txClose, ha, if_true]
  rw [heq, State.dropGrant_grant_eq]
  simp

/-- The end of a good frame: it leaves on the stream, and its timestamp enters the FIFO. -/
theorem State.txClose_sent (s : State) (q : Chan) {a : Asm} (ha : a.err = false) :
    (s.txClose q a true).events = s.events ++ [.txStream q a.bytes a.app] ∧
      ((s.txClose q a true).txe q).asm = asmInactive ∧
      (tsReqOf a.app.a4 = false → ((s.txClose q a true).txe q).tsf = (s.txe q).tsf) ∧
      (tsReqOf a.app.a4 = true → ((s.txClose q a true).txe q).tsf =
        if (s.txe q).tsf.length < (s.ring ⟨.tx, q⟩).cap - 1 then (s.txe q).tsf ++ [⟨tagOf a.app.a4, s.drawTs.1⟩]
        else (s.txe q).tsf) ∧
      (s.txClose q a true).hw.grant = if s.cfg.variant = .mc then none else s.hw.grant := by
  have heq : s.txClose q a true =
      ((s.txEmit q a).setTxe q { (s.txEmit q a).txe q with asm := asmInactive }).dropGrant := by
    simp only [State.txClose, ha, if_true, Bool.false_eq_true, if_false]
  rw [heq, State.dropGrant_grant_eq]
  refine ⟨?_, ?_, fun hts => ?_, fun hts => ?_, ?_⟩
  · unfold State.txEmit
    dsimp only
    split <;> simp
  · simp
  · have hemit : s.txEmit q a = s.emit (.txStream q a.bytes a.app) := if_neg (ne_true_of_eq_false hts)
    simp [hemit]
  · have hemit : s.txEmit q a = (s.emit (.txStream q a.bytes a.app)).tsPush q (tagOf a.app.a4) := if_pos hts
    have hpush := (s.emit (.txStream q a.bytes a.app)).tsPush_tsf q (tagOf a.app.a4)
    have hts : (s.emit (.txStream q a.bytes a.app)).drawTs.1 = s.drawTs.1 := by
      rw [(State.drawTs_eq _).1, (State.drawTs_eq _).1]
      rfl
    rw [hts] at hpush
    rw [hemit]
    simpa using hpush
  · simp

end Sys2Proof.Machine
end

section
/-! PROOF. Transmit descriptors, completed (R381 to R387, R394). -/

namespace Sys2Proof.Machine

/-- A descriptor step, by its own row or by the row of the descriptor the engine stands at. -/
theorem exec_descStep {s : State} {r : RingId} {i : Instr} (hq : r.q.val < s.cfg.nq) (he : s.descEnabled r = true)
    (hi : i = engineRow r ∨ ∃ h k g, i = descriptorRow s.cfg.variant r
      { readDesc s.cfg.variant s.mem (s.regs r).curdesc with swFrame := h, swMap := k, swTag := g }) :
    exec i s = .next (s.processNext r) := by
  obtain rfl | ⟨h, k, g, rfl⟩ := hi
  · rw [exec_engineRow s r hq, if_pos he]
  · rw [exec_descriptorRow s r _ hq, if_pos (Bool.and_eq_true_iff.2 ⟨he, (s.standsAt_iff r _).2 ⟨h, k, g, rfl⟩⟩)]

theorem processing_idle {x : RingRegs} (h : processing x = true) : x.idle = false := by
  unfold processing at h
  simpa using (Bool.and_eq_true_iff.1 h).2

theorem State.txEnabled_of {s : State} {r : RingId} (hp : processing (s.regs r) = true)
    (hg : s.cfg.variant = .mc → s.hw.grant = some r.q) : s.txEnabled r = true := by
  unfold State.txEnabled
  rw [hp, Bool.true_and]
  cases hv : s.cfg.variant with
  | sq => rfl
  | mc => rw [hg hv]; simp

/-- The end of a descriptor step, inside a frame or at its end. -/
theorem State.advance_ends {s : State} {r : RingId} {d : Word} (hd : d = (s.regs r).curdesc)
    (hi : (s.regs r).idle = false) (next : Word) (done : Bool) (h1 : 1 ≤ (s.regs r).iocCount) :
    (s.advance r d next done).regs r =
      (if done = true then doneRegs s.cfg.variant next (s.regs r) else movedRegs next (s.regs r)) ∧
    (s.advance r d next done).irq r.dir = (if done = true then
      s.irq r.dir || ((s.regs r).iocCount == 1 && raises s.cfg.variant 1 (s.regs r)) else s.irq r.dir) ∧
    (s.advance r d next done).hw.grant =
      if s.cfg.variant = .mc ∧ (s.regs r).curdesc = (s.regs r).taildesc ∧ r.dir = .tx then none else s.hw.grant := by
  cases done with
  | true => exact State.advance_counts hd hi next h1
  | false => exact State.advance_moves hd hi next

/-- What a TX descriptor step touches. -/
def State.txTouch (s : State) (r : RingId) : Touch :=
  { regs := (· = r), txe := (· = r.q), grant := True, irq := (· = r.dir), events := True, env := True,
    bytes := fun b => within32 b ((s.regs r).curdesc + BitVec.ofNat 32 (statusOff s.cfg.variant)) 4 }

theorem State.processNext_txFrame (s : State) {r : RingId} (hd : r.dir = .tx) : Keeps (s.txTouch r) s (s.processNext r) :=
  (s.processNext_frame r).mono
    { regs := fun t h => h
      txe := fun q h => (congrArg RingId.q h).symm
      rxe := fun q h => nomatch hd.symm.trans (congrArg RingId.dir h)
      grant := fun _ => trivial
      irq := fun k h => h
      events := fun _ => trivial
      env := fun _ => trivial
      bytes := fun b h => h.resolve_right fun h => nomatch hd.symm.trans h.1 }

section
variable {s : State} {r : RingId} {w : Desc} {e : BitVec 3} {a : Asm} {l₀ l : List BusResp}
  (hplan : txPlan (s.withBus l₀) r w = (e, a, s.withBus (.okay :: l)))
include hplan

/-- A TX descriptor whose `STATUS` is written: the frame is closed, and the engine moves on. -/
theorem State.runTx_okay (d : Word) : ∃ y : State,
    (s.withBus l₀).runTx r d w = y.advance r d w.next (eofOf s.cfg.variant w.ctrl) ∧
    y.mem = memPutWord s.mem (d + BitVec.ofNat 32 (statusOff s.cfg.variant)) (statusWord e false false (lenOf w.ctrl)) ∧
    y.env.busResp = l ∧ y.cfg = s.cfg ∧ y.regs r = s.regs r ∧ y.irq r.dir = s.irq r.dir ∧
    y.events = ((s.withBus (.okay :: l)).txClose r.q a (eofOf s.cfg.variant w.ctrl)).events ∧
    y.txe r.q = ((s.withBus (.okay :: l)).txClose r.q a (eofOf s.cfg.variant w.ctrl)).txe r.q ∧
    y.hw.grant = ((s.withBus (.okay :: l)).txClose r.q a (eofOf s.cfg.variant w.ctrl)).hw.grant := by
  have hcfg : (s.withBus l₀).cfg = s.cfg := rfl
  have hclose := (s.withBus (.okay :: l)).txClose_frame r.q a (eofOf s.cfg.variant w.ctrl)
  have hbus := (s.withBus (.okay :: l)).txClose_busResp r.q a (eofOf s.cfg.variant w.ctrl)
  have hmem : ((s.withBus (.okay :: l)).txClose r.q a (eofOf s.cfg.variant w.ctrl)).mem = s.mem :=
    ((s.withBus (.okay :: l)).txClose_keeps r.q a _).2.2.2.2.2.2.2.2.2.2.2.1
  rw [State.runTx_eq, hplan, hcfg]
  dsimp only
  generalize (s.withBus (.okay :: l)).txClose r.q a (eofOf s.cfg.variant w.ctrl) = z at hclose hbus hmem ⊢
  have hzcfg : z.cfg = s.cfg := hclose.cfg id
  rw [State.writeStatus_okay hbus, if_pos rfl, hzcfg, hmem]
  exact ⟨_, rfl, rfl, rfl, hzcfg, hclose.regs r id, hclose.irq r.dir id, rfl, rfl, rfl⟩

/-- A TX descriptor step whose `STATUS` is written. -/
theorem State.processNext_txOkay (hd : r.dir = .tx) (hl : s.env.busResp = .okay :: l₀)
    (hw : w = readDesc s.cfg.variant s.mem (s.regs r).curdesc) (hc : cmpltOf w.status = false)
    (hp : processing (s.regs r) = true) (h1 : 1 ≤ (s.regs r).iocCount) :
    memWord (s.processNext r).mem ((s.regs r).curdesc + BitVec.ofNat 32 (statusOff s.cfg.variant)) =
      statusWord e false false (lenOf w.ctrl) ∧
    (s.processNext r).env.busResp = l ∧
    (s.processNext r).events = ((s.withBus (.okay :: l)).txClose r.q a (eofOf s.cfg.variant w.ctrl)).events ∧
    (s.processNext r).txe r.q = ((s.withBus (.okay :: l)).txClose r.q a (eofOf s.cfg.variant w.ctrl)).txe r.q ∧
    (s.processNext r).regs r = (if eofOf s.cfg.variant w.ctrl = true then doneRegs s.cfg.variant w.next (s.regs r)
      else movedRegs w.next (s.regs r)) ∧
    (s.processNext r).irq r.dir = (if eofOf s.cfg.variant w.ctrl = true then
      s.irq r.dir || ((s.regs r).iocCount == 1 && raises s.cfg.variant 1 (s.regs r)) else s.irq r.dir) ∧
    (s.processNext r).hw.grant = (if s.cfg.variant = .mc ∧ (s.regs r).curdesc = (s.regs r).taildesc ∧ r.dir = .tx then none
      else ((s.withBus (.okay :: l)).txClose r.q a (eofOf s.cfg.variant w.ctrl)).hw.grant) := by
  subst hw
  obtain ⟨y, hy, hmem, hbus, hcfg, hregs, hirq, hev, htxe, hgrant⟩ := State.runTx_okay hplan (s.regs r).curdesc
  rw [State.processNext_tx hd hl hc, hy]
  generalize readDesc s.cfg.variant s.mem (s.regs r).curdesc = w at *
  have hcur : (s.regs r).curdesc = (y.regs r).curdesc := by rw [hregs]
  have hidle : (y.regs r).idle = false := by rw [hregs, processing_idle hp]
  have hcount : 1 ≤ (y.regs r).iocCount := by rw [hregs]; exact h1
  have hends := State.advance_ends hcur hidle w.next (eofOf s.cfg.variant w.ctrl) hcount
  rw [hregs, hirq, hcfg, hgrant] at hends
  obtain ⟨-, -, -, -, -, ktxe, -, -, -, -, kmem, kev, -, kenv, -⟩ := y.advance_keeps r (s.regs r).curdesc w.next
    (eofOf s.cfg.variant w.ctrl)
  refine ⟨?_, by rw [kenv, hbus], by rw [kev, hev], by rw [ktxe, htxe], hends⟩
  rw [kmem, hmem]
  exact memWord_memPutWord_self _ _ _

end

/-- The `STATUS` of a completed TX descriptor without an error. -/
theorem statusWord_sent (n : Nat) : statusWord 0 false false n = 0x80000000 ||| BitVec.ofNat 32 n := by
  unfold statusWord
  rw [if_pos rfl]
  exact congrArg (· ||| BitVec.ofNat 32 n) (by decide)

/-- At the end of a frame the grant is given up, at the tail or before it. -/
theorem ite_grant_ended (v : Variant) (p : Prop) [Decidable p] (g : Option Chan) :
    (if v = .mc ∧ p then none else if v = .mc then none else g) = if v = .mc then none else g := by
  by_cases hv : v = .mc <;> simp [hv]

/-- Settles O26: the descriptor is good, so its bytes join the frame, which is closed at `EOF`. -/
theorem txFrameSent : Obligations.TxFrameSent := by
  unfold Obligations.TxFrameSent
  intro s q i rest hq r v x w a bytes app hi hl hp hg h1 hc hlen hsof herr
  have hb : ¬txBroken v w a := fun h => h.elim hlen fun h => by
    rw [hsof] at h
    cases ha : a.active <;> rw [ha] at h <;> exact nomatch h
  have hasm : startAsm v w a = ⟨true, if a.active = true then a.bytes else [], app, false⟩ := by
    cases ha : a.active with
    | true =>
      rw [startAsm_goes (by rw [hsof, ha]; rfl) ha]
      simp only [app, ha, if_true, ← herr ha]
      rw [← ha]
    | false =>
      rw [startAsm_starts (by rw [hsof, ha]; rfl)]
      simp only [app, ha, if_false, Bool.false_eq_true]
  have hplan : txPlan (s.withBus (.okay :: .okay :: rest)) r w = (0, ⟨true, bytes, app, false⟩, s.withBus (.okay :: rest)) := by
    refine (txPlan_good (l := .okay :: rest) (s := s.withBus (.okay :: .okay :: rest)) (r := r) hb ?_ rfl).trans ?_
    · exact congrArg Asm.err hasm
    · have hasm' : startAsm (s.withBus (.okay :: .okay :: rest)).cfg.variant w
        ((s.withBus (.okay :: .okay :: rest)).txe r.q).asm = _ := hasm
      rw [hasm']
      rfl
  have hexec : exec i s = .next (s.processNext r) := exec_descStep hq (s.txEnabled_of hp hg) hi
  have hframe := s.processNext_txFrame (r := r) rfl
  obtain ⟨hstat, hbus, hev, htxe, hregs, hirq, hgrant⟩ := State.processNext_txOkay hplan rfl hl rfl hc hp h1
  refine ⟨_, hexec, ?_, hbus, fun heof => ?_, fun heof => ?_, hframe⟩
  · rw [hstat, statusWord_sent]
  · obtain ⟨cev, casm, cplain, cts, cgrant⟩ := (s.withBus (.okay :: rest)).txClose_sent q (a := ⟨true, bytes, app, false⟩) rfl
    rw [heof] at hev htxe hgrant
    rw [heof, if_pos rfl] at hregs hirq
    refine ⟨hev.trans cev, ?_, hregs, hirq, fun hts => ?_, fun hts => ?_, ?_⟩
    · rw [htxe, casm]
    · rw [htxe, cplain hts]
      rfl
    · rw [htxe, cts hts, (State.drawTs_eq _).1]
      rfl
    · exact hgrant.trans ((congrArg _ cgrant).trans (ite_grant_ended _ _ _))
  · obtain ⟨cev, ctxe, cgrant⟩ := (s.withBus (.okay :: rest)).txClose_inner q ⟨true, bytes, app, false⟩
    rw [heof] at hev htxe hgrant
    rw [heof, if_neg Bool.false_ne_true] at hregs hirq
    refine ⟨hev.trans cev, htxe.trans ctxe, hregs, hirq, ?_⟩
    rw [hgrant, cgrant]
    simp only [show r.dir = .tx from rfl, and_true]
    rfl

/-- The flags of a TX descriptor that sends nothing, `b` the answer to the read of its buffer (R383, R385). -/
def dropFlag (b : BusResp) : BitVec 3 := if b = .okay then errInt else respErr b

theorem statusWord_dropFlag (b : BusResp) (n : Nat) : statusWord (dropFlag b) false false n =
    (match b with | .okay => 0x90000000 | .slverr => 0xA0000000 | .decerr => 0xC0000000) := by
  have hflag : dropFlag b ≠ 0 := by cases b <;> decide
  unfold statusWord
  rw [if_neg hflag]
  cases b <;> decide

/-- A frame that is neither started wrongly nor marked has no error. -/
theorem startAsm_unmarked {v : Variant} {w : Desc} {a : Asm} (hb : ¬txBroken v w a)
    (hm : ¬(sofOf v w.ctrl = false ∧ a.active = true ∧ a.err = true)) : (startAsm v w a).err = false := by
  cases hs : sofOf v w.ctrl with
  | true => rw [startAsm_starts hs]
  | false =>
    have ha : a.active = true := by
      cases ha : a.active with
      | true => rfl
      | false => exact absurd (Or.inr (hs.trans ha.symm)) hb
    rw [startAsm_goes hs ha]
    exact Bool.eq_false_iff.2 fun he => hm ⟨hs, ha, he⟩

/-- Settles O27: the plan of the descriptor flags it and marks the frame, which sends nothing when it is closed. -/
theorem txFrameDropped : Obligations.TxFrameDropped := by
  unfold Obligations.TxFrameDropped
  intro s q rest b hq r v x w a broken marked hp hg h1 hc hbad
  have hplan : ∃ l₀, s.env.busResp = .okay :: l₀ ∧ txPlan (s.withBus l₀) r w =
      (dropFlag b, { startAsm v w a with err := true }, s.withBus (.okay :: rest)) := by
    obtain ⟨herr, rfl, hl⟩ | ⟨hb, hm, hne, hl⟩ := hbad
    · exact ⟨_, hl, txPlan_dropped (s := s.withBus (.okay :: rest)) (r := r) herr⟩
    · refine ⟨_, hl, (txPlan_bad (s := s.withBus (b :: .okay :: rest)) (r := r) hb (startAsm_unmarked hb hm) rfl hne).trans ?_⟩
      rw [dropFlag, if_neg hne]
      rfl
  obtain ⟨l₀, hl, hplan⟩ := hplan
  have hexec : exec (.eTxDesc q.val) s = .next (s.processNext r) :=
    exec_descStep hq (s.txEnabled_of hp hg) (Or.inl rfl)
  have hframe := s.processNext_txFrame (r := r) rfl
  obtain ⟨hstat, hbus, hev, htxe, hregs, hirq, hgrant⟩ := State.processNext_txOkay hplan rfl hl rfl hc hp h1
  have hstat := hstat.trans (statusWord_dropFlag b _)
  cases heof : eofOf v w.ctrl with
  | true =>
    obtain ⟨cev, ctxe, cgrant⟩ := (s.withBus (.okay :: rest)).txClose_dropped q (a := { startAsm v w a with err := true }) rfl
    rw [heof] at hev htxe hgrant
    rw [heof, if_pos rfl] at hregs hirq
    have hev := hev.trans cev
    have htxe := htxe.trans ctxe
    refine ⟨_, hexec, hev, hstat, hbus, by rw [htxe]; rfl, fun _ => ⟨by rw [htxe], hregs, hirq, ?_⟩, fun h => (nomatch h),
      { hframe with events := fun _ => hev }⟩
    exact hgrant.trans ((congrArg _ cgrant).trans (ite_grant_ended _ _ _))
  | false =>
    obtain ⟨cev, ctxe, cgrant⟩ := (s.withBus (.okay :: rest)).txClose_inner q { startAsm v w a with err := true }
    rw [heof] at hev htxe hgrant
    rw [heof, if_neg Bool.false_ne_true] at hregs hirq
    have hev := hev.trans cev
    have htxe := htxe.trans ctxe
    refine ⟨_, hexec, hev, hstat, hbus, by rw [htxe]; rfl, fun h => (nomatch h),
      fun _ => ⟨?_, hregs, hirq, ?_⟩, { hframe with events := fun _ => hev }⟩
    · rw [htxe]
      exact startAsm_dropped v w a
    · rw [hgrant, cgrant]
      simp only [show r.dir = .tx from rfl, and_true]
      rfl

end Sys2Proof.Machine
end

section
/-! SUPPORT. A receive descriptor from its fetch to the end of the step (R388, R389). -/

namespace Sys2Proof.Machine

/-! ### The bytes of a descriptor -/

section
variable {s : State} {w : Desc} {m : RxRem} {l : List BusResp}

theorem State.rxData_noRoom (h0 : lenOf w.ctrl = 0) : s.rxData w m = (errInt, 0, s) := if_pos h0

theorem State.rxData_bad {b : BusResp} (h0 : lenOf w.ctrl ≠ 0) (h : s.env.busResp = b :: l) (hb : b ≠ .okay) :
    s.rxData w m = (respErr b, min (lenOf w.ctrl) m.bytes.length, s.withBus l) := by
  unfold State.rxData
  rw [if_neg h0, State.drawBus_cons h]
  dsimp only
  rw [if_neg hb]

theorem State.rxData_good (h0 : lenOf w.ctrl ≠ 0) (h : s.env.busResp = .okay :: l) : s.rxData w m =
    (0, min (lenOf w.ctrl) m.bytes.length,
      (s.withBus l).setMem (memPutBytes s.mem w.buf (m.bytes.take (min (lenOf w.ctrl) m.bytes.length)))) := by
  unfold State.rxData
  rw [if_neg h0, State.drawBus_cons h]
  rfl

/-! ### What is left of the frame -/

variable {u : State} {e : BitVec 3} {n : Nat} (r : RingId) (d : Word)

/-- A flagged descriptor loses the rest of the frame. -/
theorem State.rxSpread_flagged (h : s.rxData w m = (e, n, u)) (he : e ≠ 0) :
    s.rxSpread r d w m = u.setRxe r.q { u.rxe r.q with rem := none } := by
  have hne : (e != 0) = true := bne_iff_ne.2 he
  have heq : (e == 0) = false := beq_false_of_ne he
  simp only [State.rxSpread, h, hne, heq, Bool.true_or, Bool.and_false, Bool.false_eq_true, if_true, if_false]

/-- The last bytes bring the application words. -/
theorem State.rxSpread_whole (h : s.rxData w m = (0, n, u)) (hn : n = m.bytes.length) : s.rxSpread r d w m =
    (u.writeApp d m.app).setRxe r.q { (u.writeApp d m.app).rxe r.q with rem := none } := by
  have heq : (n == m.bytes.length) = true := beq_iff_eq.2 hn
  simp only [State.rxSpread, h, heq, Bool.or_true, BEq.rfl, Bool.and_self, if_true]

/-- What a full buffer does not take stays for the next descriptor. -/
theorem State.rxSpread_part (h : s.rxData w m = (0, n, u)) (hn : n ≠ m.bytes.length) : s.rxSpread r d w m =
    u.setRxe r.q { u.rxe r.q with rem := some ⟨m.bytes.drop n, m.app, false⟩ } := by
  have heq : (n == m.bytes.length) = false := beq_false_of_ne hn
  have hne : ((0 : BitVec 3) != 0) = false := rfl
  simp only [State.rxSpread, h, heq, hne, Bool.or_false, Bool.false_and, Bool.false_eq_true, if_false]

end

/-- The application words that were written, after `STATUS`. -/
theorem readDesc_app_written (v : Variant) (s : State) (d : Word) (a : App) (st : Word) :
    (readDesc v (memPutWord (s.writeApp d a).mem (d + BitVec.ofNat 32 (statusOff v)) st) d).app = a := by
  have hstatus (k : Nat) (hk : k < 5) (m : Memory) :
      memWord (memPutWord m (d + BitVec.ofNat 32 (statusOff v)) st) (d + BitVec.ofNat 32 (appOff k)) =
        memWord m (d + BitVec.ofNat 32 (appOff k)) := by
    refine memWord_memPutWord_apart _ _ _ _ ?_
    unfold apart
    cases v <;> interval_cases k <;> simp only [statusOff, appOff] <;> bv_omega
  have happ (j k : Nat) (hj : j < 5) (hk : k < 5) (hjk : j ≠ k) (m : Memory) (x : Word) :
      memWord (memPutWord m (d + BitVec.ofNat 32 (appOff j)) x) (d + BitVec.ofNat 32 (appOff k)) =
        memWord m (d + BitVec.ofNat 32 (appOff k)) := by
    refine memWord_memPutWord_apart _ _ _ _ ?_
    unfold apart appOff
    bv_omega
  simp [readDesc, hstatus, State.writeApp, happ, memWord_memPutWord_self]

/-- The five writes take five answers, whatever they are (R85). -/
theorem State.writeApp_takes {s : State} {apps l : List BusResp} (happs : apps.length = 5) (h : s.env.busResp = apps ++ l)
    (d : Word) (a : App) : (s.writeApp d a).env.busResp = l := by
  match apps, happs with
  | [_, _, _, _, _], _ => exact State.writeApp_busResp d a h

/-! ### The step -/

section
variable {s : State} {r : RingId} {w : Desc} {m : RxRem} {u : State} {e : BitVec 3} {n : Nat} {l : List BusResp}
  (hdata : s.rxData w m = (e, n, u))
include hdata

/-- An RX descriptor whose `STATUS` is written: the engine moves on. -/
theorem State.fillRx_okay (d : Word) (hbus : (s.rxSpread r d w m).env.busResp = .okay :: l) : ∃ y : State,
    s.fillRx r d w m = y.advance r d w.next (e != 0 || n == m.bytes.length) ∧
    y.mem = memPutWord (s.rxSpread r d w m).mem (d + BitVec.ofNat 32 (statusOff s.cfg.variant))
      (statusWord e m.first (e != 0 || n == m.bytes.length) n) ∧
    y.env.busResp = l ∧ y.cfg = s.cfg ∧ y.regs r = s.regs r ∧ y.irq r.dir = s.irq r.dir ∧
    y.rxe r.q = (s.rxSpread r d w m).rxe r.q := by
  have hspread := s.rxSpread_frame r d w m
  rw [State.fillRx_eq, hdata]
  dsimp only
  generalize s.rxSpread r d w m = z at hspread hbus ⊢
  have hcfg : z.cfg = s.cfg := hspread.cfg id
  rw [State.writeStatus_okay hbus, if_pos rfl, hcfg]
  exact ⟨_, rfl, rfl, rfl, hcfg, hspread.regs r id, hspread.irq r.dir id, rfl⟩

end

/-- The record a descriptor takes: the machine is the same but for the queue, which holds the frames `fs`. -/
def TakesRx (s : State) (q : Chan) (m : RxRem) (fs : List StreamFrame) (u : State) : Prop :=
  s.rxTake q = some (m, u) ∧ (u.rxe q).stream = fs ∧ u.mem = s.mem ∧ u.env = s.env ∧ Keeps { rxe := (· = q) } s u

theorem takesRx_of {s : State} {q : Chan} {m : RxRem} {fs : List StreamFrame}
    (h : s.rxe q = ⟨some m, fs⟩ ∨ ∃ f, s.rxe q = ⟨none, f :: fs⟩ ∧ m = ⟨f.bytes, f.app, true⟩) :
    rxWaiting (s.rxe q) = true ∧ ∃ u, TakesRx s q m fs u := by
  obtain h | ⟨f, h, rfl⟩ := h
  · have htake : s.rxTake q = some (m, s) := by simp only [State.rxTake, h]
    exact ⟨by rw [h]; rfl, s, htake, by rw [h], rfl, rfl, State.rxTake_frame htake⟩
  · have htake : s.rxTake q = some (⟨f.bytes, f.app, true⟩, s.setRxe q ⟨none, fs⟩) := by simp only [State.rxTake, h]
    exact ⟨by rw [h]; rfl, s.setRxe q ⟨none, fs⟩, htake, by simp, rfl, rfl, State.rxTake_frame htake⟩

section
variable {s : State} {r : RingId} {w : Desc} {m : RxRem} {u : State} {l₀ : List BusResp}
  (hd : r.dir = .rx) (hl : s.env.busResp = .okay :: l₀)
  (hw : w = readDesc s.cfg.variant s.mem (s.regs r).curdesc) (hc : cmpltOf w.status = false)
include hd hl hw hc

theorem State.processNext_takes {fs : List StreamFrame} (htake : TakesRx (s.withBus l₀) r.q m fs u) :
    s.processNext r = u.fillRx r (s.regs r).curdesc w m := by
  subst hw
  rw [State.processNext_rx hd hl hc, State.runRx, htake.1]

/-- An RX descriptor step whose `STATUS` is written. -/
theorem State.processNext_rxOkay {fs : List StreamFrame} (htake : TakesRx (s.withBus l₀) r.q m fs u) {e : BitVec 3} {n : Nat}
    {u₁ : State} {l : List BusResp} (hdata : u.rxData w m = (e, n, u₁))
    (hbus : (u.rxSpread r (s.regs r).curdesc w m).env.busResp = .okay :: l) (hp : processing (s.regs r) = true)
    (h1 : 1 ≤ (s.regs r).iocCount) :
    (s.processNext r).mem = memPutWord (u.rxSpread r (s.regs r).curdesc w m).mem
      ((s.regs r).curdesc + BitVec.ofNat 32 (statusOff s.cfg.variant))
      (statusWord e m.first (e != 0 || n == m.bytes.length) n) ∧
    (s.processNext r).env.busResp = l ∧
    (s.processNext r).rxe r.q = (u.rxSpread r (s.regs r).curdesc w m).rxe r.q ∧
    (s.processNext r).regs r = (if (e != 0 || n == m.bytes.length) = true then doneRegs s.cfg.variant w.next (s.regs r)
      else movedRegs w.next (s.regs r)) ∧
    (s.processNext r).irq r.dir = (if (e != 0 || n == m.bytes.length) = true then
      s.irq r.dir || ((s.regs r).iocCount == 1 && raises s.cfg.variant 1 (s.regs r)) else s.irq r.dir) := by
  rw [State.processNext_takes hd hl hw hc htake]
  obtain ⟨-, -, -, -, hkeeps⟩ := htake
  have hucfg : u.cfg = s.cfg := hkeeps.cfg id
  have huregs : u.regs r = s.regs r := hkeeps.regs r id
  have huirq : u.irq r.dir = s.irq r.dir := hkeeps.irq r.dir id
  obtain ⟨y, hy, hmem, hybus, hcfg, hregs, hirq, hrxe⟩ := State.fillRx_okay hdata (s.regs r).curdesc hbus
  rw [hucfg] at hmem hcfg
  rw [huregs] at hregs
  rw [huirq] at hirq
  rw [hy]
  have hcur : (s.regs r).curdesc = (y.regs r).curdesc := by rw [hregs]
  have hidle : (y.regs r).idle = false := by rw [hregs, processing_idle hp]
  have hcount : 1 ≤ (y.regs r).iocCount := by rw [hregs]; exact h1
  obtain ⟨aregs, airq, -⟩ := State.advance_ends hcur hidle w.next (e != 0 || n == m.bytes.length) hcount
  rw [hregs, hcfg] at aregs airq
  rw [hirq] at airq
  obtain ⟨-, -, -, -, -, -, krxe, -, -, -, kmem, -, -, kenv, -⟩ := y.advance_keeps r (s.regs r).curdesc w.next
    (e != 0 || n == m.bytes.length)
  exact ⟨by rw [kmem, hmem], by rw [kenv, hybus], by rw [krxe, hrxe], aregs, airq⟩

end

end Sys2Proof.Machine
end

section
/-! PROOF. Receive descriptors, completed (R388, R389, R394). -/

namespace Sys2Proof.Machine

/-- What an RX descriptor step touches, the bytes it writes being `p`. -/
theorem State.processNext_rxFrame {s : State} {r : RingId} (hd : r.dir = .rx) {p : Word → Prop}
    (hp : ∀ a, ¬p a → memByte (s.processNext r).mem a = memByte s.mem a) :
    Keeps { regs := (· = r), rxe := (· = r.q), irq := (· = r.dir), env := True, bytes := p } s (s.processNext r) :=
  { (s.processNext_frame r).mono
      (d := { regs := (· = r), rxe := (· = r.q), irq := (· = r.dir), env := True, bytes := s.engineBytes r })
      { txe := fun q h => nomatch hd.symm.trans (congrArg RingId.dir h)
        rxe := fun q h => (congrArg RingId.q h).symm
        grant := fun h => nomatch hd.symm.trans h
        events := fun h => nomatch hd.symm.trans h } with bytes := hp }

theorem statusWord_stored (first last : Bool) (n : Nat) : statusWord 0 first last n =
    0x80000000 ||| (if first = true then 0x08000000 else 0) ||| (if last = true then 0x04000000 else 0) |||
      BitVec.ofNat 32 n := by
  unfold statusWord
  rw [if_pos rfl]
  cases first <;> cases last <;> exact congrArg (· ||| BitVec.ofNat 32 n) (by decide)

theorem statusWord_flagged {e : BitVec 3} (he : e ≠ 0) (first : Bool) (n : Nat) : statusWord e first true n =
    (0x84000000 : Word) ||| (if first = true then (0x08000000 : Word) else 0) ||| (e.setWidth 32 <<< 28 : Word) := by
  unfold statusWord
  rw [if_neg he]
  cases first <;> revert e <;> decide

/-- The memory after the bytes, the application words and `STATUS` have been written. -/
theorem stored_bytes {v : Variant} {d buf st : Word} {m mz : Memory} {bs : List Byte} {last : Prop} (hl : bs.length ≤ 2 ^ 32)
    (hz : ∀ a, ¬(last ∧ within32 a (d + 0x20) 20) → memByte mz a = memByte (memPutBytes m buf bs) a) :
    ((∀ a, within32 a buf bs.length → ¬within32 a d 64) → ∀ k, k < bs.length →
      some (memByte (memPutWord mz (d + BitVec.ofNat 32 (statusOff v)) st) (buf + BitVec.ofNat 32 k)) = bs[k]?) ∧
    ∀ a, ¬(within32 a buf bs.length ∨ within32 a (d + BitVec.ofNat 32 (statusOff v)) 4 ∨
        (last ∧ within32 a (d + 0x20) 20)) →
      memByte (memPutWord mz (d + BitVec.ofNat 32 (statusOff v)) st) a = memByte m a := by
  constructor
  · intro hapart k hk
    have hin : within32 (buf + BitVec.ofNat 32 k) buf bs.length := by
      unfold within32
      bv_omega
    have hout := hapart _ hin
    have hstatus : ¬within32 (buf + BitVec.ofNat 32 k) (d + BitVec.ofNat 32 (statusOff v)) 4 := fun h => hout (by
      unfold within32 at h ⊢
      cases v <;> simp only [statusOff] at h <;> bv_omega)
    have happ : ¬within32 (buf + BitVec.ofNat 32 k) (d + 0x20) 20 := fun h => hout (by
      unfold within32 at h ⊢
      bv_omega)
    rw [memByte_memPutWord_out _ _ _ _ hstatus, hz _ fun h => happ h.2]
    exact memByte_memPutBytes_at _ _ hl hk
  · intro a ha
    obtain ⟨hbuf, ha⟩ := not_or.1 ha
    obtain ⟨hstatus, happ⟩ := not_or.1 ha
    rw [memByte_memPutWord_out _ _ _ _ hstatus, hz _ happ, memByte_memPutBytes_out _ _ _ hl hbuf]

/-- The flags of an RX descriptor that has no room, or whose buffer answers `b` (R389, R385). -/
def rxFlag (w : Desc) (b : BusResp) : BitVec 3 := if lenOf w.ctrl = 0 then errInt else respErr b

theorem rxFlag_shift (w : Desc) (b : BusResp) : (rxFlag w b).setWidth 32 <<< 28 =
    (if lenOf w.ctrl = 0 then (0x10000000 : Word) else match b with
      | .okay => 0 | .slverr => 0x20000000 | .decerr => 0x40000000) := by
  unfold rxFlag
  split
  · decide
  · cases b <;> decide

theorem rxFlag_ne {w : Desc} {b : BusResp} (h : lenOf w.ctrl = 0 ∨ b ≠ .okay) : rxFlag w b ≠ 0 := by
  unfold rxFlag
  split
  · decide
  · next h0 =>
    cases b with
    | okay => exact absurd rfl (h.resolve_left h0)
    | slverr => decide
    | decerr => decide

/-- The buffer of a flagged descriptor is not written. -/
theorem State.rxData_flagged {s : State} {w : Desc} {b : BusResp} {l : List BusResp} (m : RxRem)
    (h : lenOf w.ctrl = 0 ∧ s.env.busResp = l ∨ lenOf w.ctrl ≠ 0 ∧ b ≠ .okay ∧ s.env.busResp = b :: l) :
    ∃ n, s.rxData w m = (rxFlag w b, n, s.withBus l) := by
  obtain ⟨h0, rfl⟩ | ⟨h0, hb, h⟩ := h
  · exact ⟨0, by rw [State.rxData_noRoom h0, rxFlag, if_pos h0]; rfl⟩
  · exact ⟨_, by rw [State.rxData_bad h0 h hb, rxFlag, if_neg h0]⟩

/-- Settles O28: a flagged descriptor gets its `STATUS` alone; otherwise the bytes land in the buffer, with the application
words where they end the frame. -/
theorem rxFrameStored : Obligations.RxFrameStored := by
  unfold Obligations.RxFrameStored
  intro s q i rest apps b m fs hq happs r v x w n first last answers hi hl hp h1 hc hrx
  obtain ⟨hwait, -⟩ := takesRx_of hrx
  obtain ⟨-, u, htake⟩ := takesRx_of (s := s.withBus answers) hrx
  have hen : s.descEnabled r = true := Bool.and_eq_true_iff.2 ⟨hp, hwait⟩
  have hexec : exec i s = .next (s.processNext r) := exec_descStep hq hen hi
  obtain ⟨-, hfs, humem, huenv, huk⟩ := id htake
  have hubus : u.env.busResp = answers := by rw [huenv]; rfl
  constructor
  · intro h0 hb hapart
    subst hb
    have hnlen : (m.bytes.take n).length = n := by
      rw [List.length_take]
      exact Nat.min_eq_left (Nat.min_le_right _ _)
    have hn32 : (m.bytes.take n).length ≤ 2 ^ 32 := by
      have := lenOf_lt w.ctrl
      omega
    have hevents : (s.processNext r).events = s.events := (s.processNext_frame r).events (fun h => nomatch h)
    have htakek (k : Nat) (hk : k < n) : (m.bytes.take n)[k]? = m.bytes[k]? := List.getElem?_take_of_lt hk
    by_cases hlast : last
    · have hn : n = m.bytes.length := Nat.min_eq_right hlast
      have hans : u.env.busResp = .okay :: (apps ++ .okay :: rest) := by
        rw [hubus]
        exact (if_neg h0).trans (if_pos ⟨rfl, hlast⟩)
      have hdata := State.rxData_good (m := m) h0 hans
      have hspread := State.rxSpread_whole r x.curdesc hdata hn
      have happframe := State.writeApp_frame ((u.withBus (apps ++ .okay :: rest)).setMem
        (memPutBytes u.mem w.buf (m.bytes.take n))) x.curdesc m.app
      have happbus : (((u.withBus (apps ++ .okay :: rest)).setMem
          (memPutBytes u.mem w.buf (m.bytes.take n))).writeApp x.curdesc m.app).env.busResp = .okay :: rest :=
        State.writeApp_takes happs rfl _ _
      have hdesc := readDesc_app_written v ((u.withBus (apps ++ .okay :: rest)).setMem
        (memPutBytes u.mem w.buf (m.bytes.take n))) x.curdesc m.app (statusWord 0 m.first true n)
      generalize ((u.withBus (apps ++ .okay :: rest)).setMem (memPutBytes u.mem w.buf (m.bytes.take n))).writeApp x.curdesc
        m.app = z at hspread happframe happbus hdesc
      obtain ⟨hmem, hbus, hrxe, hregs, hirq⟩ := State.processNext_rxOkay rfl hl rfl hc htake hdata
        (by rw [hspread]; exact happbus) hp h1
      have htrue : ((0 : BitVec 3) != 0 || n == m.bytes.length) = true := beq_iff_eq.2 hn
      rw [hspread] at hmem hrxe
      rw [htrue] at hmem hregs hirq
      obtain ⟨hput, hout⟩ := stored_bytes (v := v) (d := x.curdesc) (st := statusWord 0 m.first true n) (last := last)
        (mz := z.mem) (m := u.mem) hn32 (fun a ha => happframe.bytes a fun h => ha ⟨hlast, h⟩)
      have hmem' : (s.processNext r).mem = memPutWord z.mem (x.curdesc + BitVec.ofNat 32 (statusOff v))
        (statusWord 0 m.first true n) := hmem
      rw [hnlen] at hput hout
      refine ⟨_, hexec, hevents, hbus, fun k hk => ?_, ?_, fun _ => ⟨?_, ?_, hregs, hirq⟩, fun h => absurd hlast h,
        State.processNext_rxFrame rfl fun a ha => ?_⟩
      · rw [hmem', hput hapart k hk, htakek k hk]
      · rw [if_pos hlast]
        exact (congrArg (memWord · _) hmem').trans ((memWord_memPutWord_self _ _ _).trans (statusWord_stored _ _ _))
      · rw [hmem', hdesc]
      · rw [hrxe]
        simp only [State.setRxe_rxe, if_true]
        exact congrArg (RxEngine.mk none) ((congrArg RxEngine.stream (happframe.rxe q id)).trans hfs)
      · rw [hmem', hout a ha, humem]
        rfl
    · have hn : n ≠ m.bytes.length := fun h => hlast (min_eq_right_iff.1 h)
      have hans : u.env.busResp = .okay :: .okay :: rest := by
        rw [hubus]
        exact (if_neg h0).trans (if_neg fun h => hlast h.2)
      have hdata := State.rxData_good (m := m) h0 hans
      have hspread := State.rxSpread_part r x.curdesc hdata hn
      obtain ⟨hmem, hbus, hrxe, hregs, hirq⟩ := State.processNext_rxOkay rfl hl rfl hc htake hdata
        (by rw [hspread]; rfl) hp h1
      have hfalse : ((0 : BitVec 3) != 0 || n == m.bytes.length) = false := by
        rw [beq_false_of_ne hn]
        rfl
      rw [hspread] at hmem hrxe
      rw [hfalse] at hmem hregs hirq
      obtain ⟨hput, hout⟩ := stored_bytes (v := v) (d := x.curdesc) (st := statusWord 0 m.first false n) (last := last)
        (mz := memPutBytes u.mem w.buf (m.bytes.take n)) (m := u.mem) hn32 (fun a ha => rfl)
      have hmem' : (s.processNext r).mem = memPutWord (memPutBytes u.mem w.buf (m.bytes.take n))
        (x.curdesc + BitVec.ofNat 32 (statusOff v)) (statusWord 0 m.first false n) := hmem
      rw [hnlen] at hput hout
      refine ⟨_, hexec, hevents, hbus, fun k hk => ?_, ?_, fun h => absurd h hlast, fun _ => ⟨?_, hregs, hirq⟩,
        State.processNext_rxFrame rfl fun a ha => ?_⟩
      · rw [hmem', hput hapart k hk, htakek k hk]
      · rw [if_neg hlast]
        exact (congrArg (memWord · _) hmem').trans ((memWord_memPutWord_self _ _ _).trans (statusWord_stored _ _ _))
      · rw [hrxe]
        simp only [State.setRxe_rxe, if_true]
        exact congrArg (RxEngine.mk _) hfs
      · rw [hmem', hout a ha, humem]
        rfl
  · intro hflag
    have hne := rxFlag_ne hflag
    have hans : lenOf w.ctrl = 0 ∧ u.env.busResp = .okay :: rest ∨
        lenOf w.ctrl ≠ 0 ∧ b ≠ .okay ∧ u.env.busResp = b :: .okay :: rest := by
      by_cases h0 : lenOf w.ctrl = 0
      · exact Or.inl ⟨h0, hubus.trans (if_pos h0)⟩
      · have hb : b ≠ .okay := hflag.resolve_left h0
        exact Or.inr ⟨h0, hb, hubus.trans ((if_neg h0).trans (if_neg fun h => hb h.1))⟩
    obtain ⟨k, hdata⟩ := State.rxData_flagged m hans
    have hspread := State.rxSpread_flagged r x.curdesc hdata hne
    obtain ⟨hmem, hbus, hrxe, hregs, hirq⟩ := State.processNext_rxOkay rfl hl rfl hc htake hdata
      (by rw [hspread]; rfl) hp h1
    have hlast : (rxFlag w b != 0 || k == m.bytes.length) = true := by rw [bne_iff_ne.2 hne, Bool.true_or]
    rw [hspread] at hmem hrxe
    rw [hlast] at hmem hregs hirq
    have hmem' : (s.processNext r).mem = memPutWord s.mem (x.curdesc + BitVec.ofNat 32 (statusOff v))
        (statusWord (rxFlag w b) m.first true k) := by
      rw [hmem, ← (show (s.withBus answers).mem = s.mem from rfl), ← humem]
      rfl
    refine ⟨_, hexec, ?_, hbus, ?_, ?_, hregs, hirq, State.processNext_rxFrame rfl fun a ha => ?_⟩
    · exact (s.processNext_frame r).events (fun h => nomatch h)
    · rw [hmem', memWord_memPutWord_self]
      exact (statusWord_flagged hne m.first k).trans (congrArg (fun y : Word => 0x84000000 ||| first ||| y) (rxFlag_shift w b))
    · rw [hrxe]
      simp only [State.setRxe_rxe, if_true]
      exact congrArg (RxEngine.mk none) hfs
    · rw [hmem', memByte_memPutWord_out _ _ _ _ ha]

end Sys2Proof.Machine
end

section
/-! PROOF. The fetch of a descriptor, its row, and the answer to the write of `STATUS` (R382, R385, R392, R398). -/

namespace Sys2Proof.Machine

/-! ### Fetches -/

theorem State.descEnabled_processing {s : State} {r : RingId} (h : s.descEnabled r = true) : processing (s.regs r) = true := by
  unfold State.descEnabled at h
  split at h
  · exact (Bool.and_eq_true_iff.1 h).1
  · exact (Bool.and_eq_true_iff.1 h).1

theorem processing_faults {x : RingRegs} (h : processing x = true) : faultEnabled x = true := by
  simp only [processing, Bool.and_eq_true] at h
  obtain ⟨⟨⟨⟨hrun, hbusy⟩, -⟩, -⟩, -⟩ := h
  exact Bool.and_eq_true_iff.2 ⟨hrun, hbusy⟩

theorem exec_eFault {s : State} {r : RingId} (hq : r.q.val < s.cfg.nq) (hen : faultEnabled (s.regs r) = true) (c : Cause) :
    exec (.eFault r.dir r.q.val c) s = .next (s.engineFault r c) :=
  (withRing_ite hq (fun r => faultEnabled (s.regs r)) (s.engineFault · c)).trans (if_pos hen)

theorem State.processNext_faulted {s u : State} {r : RingId} (h : s.fetch r (s.regs r).curdesc = .faulted u) :
    s.processNext r = u := by
  unfold State.processNext
  rw [h]

section
variable {s : State} {r : RingId} {l : List BusResp}

/-- A bad answer to the fetch is the fault of the ring. -/
theorem State.processNext_fetchBad {b : BusResp} (h : s.env.busResp = b :: l) (hb : b ≠ .okay) :
    s.processNext r = (s.withBus l).engineFault r (badCause b) :=
  State.processNext_faulted (State.fetch_bad h hb)

/-- So is a descriptor that is still complete. -/
theorem State.processNext_fetchComplete (h : s.env.busResp = .okay :: l)
    (hc : cmpltOf (readDesc s.cfg.variant s.mem (s.regs r).curdesc).status = true) :
    s.processNext r = (s.withBus l).engineFault r .int :=
  State.processNext_faulted (State.fetch_complete h hc)

end

/-! ### A bad answer to the write of `STATUS` -/

theorem faultRegs_badCause {c : BusResp} (hc : c ≠ .okay) (x : RingRegs) : faultRegs (badCause c) x = { x with
    errSlv := x.errSlv || c == .slverr, errDec := x.errDec || c == .decerr,
    run := false, tailValid := false, idle := false, stopPending := false, dlyArmed := false } := by
  cases c with
  | okay => exact absurd rfl hc
  | slverr => simp [faultRegs, badCause, show (Cause.slv == Cause.dec) = false from rfl,
      show (BusResp.slverr == BusResp.decerr) = false from rfl]
  | decerr => simp [faultRegs, badCause, show (Cause.dec == Cause.slv) = false from rfl,
      show (BusResp.decerr == BusResp.slverr) = false from rfl]

/-- What the engine of ring `r` has touched before the answer to the write of `STATUS`. -/
@[simp] def beforeStatus (r : RingId) (p : Word → Prop) : Touch :=
  { txe := fun q => r = ⟨.tx, q⟩, rxe := fun q => r = ⟨.rx, q⟩, grant := True, events := r.dir = .tx, env := True, bytes := p }

/-- The engine has come to the write of `STATUS`, at which the machine is `z`. -/
structure ReachesStatus (s : State) (r : RingId) (p : Word → Prop) (z : State) : Prop where
  keeps : Keeps (beforeStatus r p) s z
  grant : ¬(s.cfg.variant = .mc ∧ r.dir = .tx) → z.hw.grant = s.hw.grant
  held : s.cfg.variant = .mc → r.dir = .tx → z.hw.grant = some r.q ∨ z.hw.grant = none

theorem ReachesStatus.faults {s z : State} {r : RingId} {p : Word → Prop} (h : ReachesStatus s r p z) {c : BusResp}
    (hc : c ≠ .okay) (l : List BusResp) :
    let t := (z.withBus l).engineFault r (badCause c)
    t.env.busResp = l ∧
    t.regs r = raised s.cfg.variant 4 { s.regs r with
      errSlv := (s.regs r).errSlv || c == .slverr, errDec := (s.regs r).errDec || c == .decerr,
      run := false, tailValid := false, idle := false, stopPending := false, dlyArmed := false } ∧
    t.irq r.dir = (s.irq r.dir || raises s.cfg.variant 4 (s.regs r)) ∧
    (r.dir = .tx → (t.txe r.q).asm = asmInactive) ∧ (r.dir = .rx → (t.rxe r.q).rem = none) ∧
    t.hw.grant = (if s.cfg.variant = .mc ∧ r.dir = .tx then none else s.hw.grant) ∧
    Keeps { regs := (· = r), txe := fun q => r = ⟨.tx, q⟩, rxe := fun q => r = ⟨.rx, q⟩, grant := True,
            irq := (· = r.dir), events := r.dir = .tx, env := True, bytes := p } s t := by
  intro t
  have hcfg : (z.withBus l).cfg = s.cfg := h.keeps.cfg id
  have hregs : (z.withBus l).regs r = s.regs r := h.keeps.regs r id
  have hirq : (z.withBus l).irq r.dir = s.irq r.dir := h.keeps.irq r.dir id
  have hfault := (z.withBus l).engineFault_frame r (badCause c)
  refine ⟨?_, ?_, ?_, fun hd => ?_, fun hd => ?_, ?_, ?_⟩
  · exact congrArg Env.busResp (hfault.env id)
  · rw [State.engineFault_regs_self, hregs, hcfg, faultRegs_badCause hc]
  · rw [State.engineFault_irq, hregs, hcfg, hirq]
    simp
  · rw [State.engineFault_txe, if_pos (by rw [← hd])]
  · rw [State.engineFault_rxe, if_pos (by rw [← hd])]
  · rw [State.engineFault_grant, hcfg]
    by_cases hmc : s.cfg.variant = .mc ∧ r.dir = .tx
    · rw [if_pos hmc]
      obtain hz | hz := h.held hmc.1 hmc.2
      · exact if_pos ⟨hmc.1, hmc.2, hz⟩
      · have hz' : (z.withBus l).hw.grant = none := hz
        rw [hz', ite_self]
    · rw [if_neg hmc, if_neg fun h => hmc ⟨h.1, h.2.1⟩]
      exact h.grant hmc
  · exact Keeps.after (Keeps.after (h.keeps.mono { }) (z.withBus_frame l) {}) hfault {}

theorem State.txEnabled_grant {s : State} {r : RingId} (h : s.txEnabled r = true) (hv : s.cfg.variant = .mc) :
    s.hw.grant = some r.q := by
  have hgrant := (Bool.and_eq_true_iff.1 h).2
  rw [hv] at hgrant
  simpa using hgrant

/-- The grant after a frame is closed. -/
theorem State.txClose_grant (s : State) (q : Chan) (a : Asm) (eof : Bool) : (s.txClose q a eof).hw.grant =
    if eof = true then (if s.cfg.variant = .mc then none else s.hw.grant) else s.hw.grant := by
  cases eof with
  | false => exact (s.txClose_inner q a).2.2
  | true =>
    cases ha : a.err with
    | true => exact (s.txClose_dropped q ha).2.2
    | false => exact (s.txClose_sent q ha).2.2.2.2

section
variable {s : State} {r : RingId} {l₀ l : List BusResp} {c : BusResp} (hl : s.env.busResp = .okay :: l₀)
  (hc : cmpltOf (readDesc s.cfg.variant s.mem (s.regs r).curdesc).status = false) (hbad : c ≠ .okay)
include hl hc hbad

/-- A TX descriptor whose `STATUS` is answered `c`. -/
theorem State.processNext_txBad (hd : r.dir = .tx) (hen : s.txEnabled r = true) {e : BitVec 3} {a : Asm} (p : Word → Prop)
    (hplan : txPlan (s.withBus l₀) r (readDesc s.cfg.variant s.mem (s.regs r).curdesc) = (e, a, s.withBus (c :: l))) :
    ∃ z, s.processNext r = (z.withBus l).engineFault r (badCause c) ∧ ReachesStatus s r p z := by
  rw [State.processNext_tx hd hl hc]
  generalize readDesc s.cfg.variant s.mem (s.regs r).curdesc = w at hplan ⊢
  have hr : r = ⟨.tx, r.q⟩ := by rw [← hd]
  have hframe := (s.withBus (c :: l)).txClose_frame r.q a (eofOf s.cfg.variant w.ctrl)
  have hbus := (s.withBus (c :: l)).txClose_busResp r.q a (eofOf s.cfg.variant w.ctrl)
  have hgrant := (s.withBus (c :: l)).txClose_grant r.q a (eofOf s.cfg.variant w.ctrl)
  have hcfg : (s.withBus l₀).cfg = s.cfg := rfl
  rw [State.runTx_eq, hplan, hcfg]
  dsimp only
  generalize (s.withBus (c :: l)).txClose r.q a (eofOf s.cfg.variant w.ctrl) = z at hframe hbus hgrant ⊢
  rw [State.writeStatus_bad hbus hbad, if_neg Bool.false_ne_true]
  refine ⟨z, rfl, ⟨?_, fun hmc => ?_, fun hmc _ => ?_⟩⟩
  · exact Keeps.trans ((s.withBus_frame _).mono {}) (hframe.mono
      { txe := by rintro q rfl; exact hr, events := fun _ => hd })
  · have hsq : ¬(s.withBus (c :: l)).cfg.variant = .mc := fun h => hmc ⟨h, hd⟩
    rw [hgrant, if_neg hsq, ite_self]
    rfl
  · have hheld : (s.withBus (c :: l)).hw.grant = some r.q := State.txEnabled_grant hen hmc
    have hmc' : (s.withBus (c :: l)).cfg.variant = .mc := hmc
    rw [hgrant, if_pos hmc', hheld]
    split
    · exact Or.inr rfl
    · exact Or.inl rfl

/-- An RX descriptor whose `STATUS` is answered `c`. -/
theorem State.processNext_rxBad (hd : r.dir = .rx) {w : Desc} (hw : w = readDesc s.cfg.variant s.mem (s.regs r).curdesc)
    {m : RxRem} {fs : List StreamFrame} {u : State} (htake : TakesRx (s.withBus l₀) r.q m fs u)
    (hbus : (u.rxSpread r (s.regs r).curdesc w m).env.busResp = c :: l) :
    ∃ z, s.processNext r = (z.withBus l).engineFault r (badCause c) ∧ ReachesStatus s r
      (fun a => r.dir = .rx ∧ (within32 a w.buf (lenOf w.ctrl) ∨ within32 a ((s.regs r).curdesc + 0x20) 20)) z := by
  have hc' : cmpltOf w.status = false := by rw [hw]; exact hc
  have hr : r = ⟨.rx, r.q⟩ := by rw [← hd]
  rw [State.processNext_takes hd hl hw hc' htake]
  obtain ⟨-, -, -, -, hkeeps⟩ := htake
  have hspread := u.rxSpread_frame r (s.regs r).curdesc w m
  have hgrant : (u.rxSpread r (s.regs r).curdesc w m).hw.grant = s.hw.grant := (hspread.grant id).trans (hkeeps.grant id)
  rw [State.fillRx_eq]
  dsimp only
  generalize u.rxSpread r (s.regs r).curdesc w m = z at hspread hgrant hbus ⊢
  rw [State.writeStatus_bad hbus hbad, if_neg Bool.false_ne_true]
  refine ⟨z, rfl, ⟨?_, fun _ => hgrant, fun _ h => nomatch hd.symm.trans h⟩⟩
  exact Keeps.trans ((s.withBus_frame _).mono {}) (Keeps.trans (hkeeps.mono { rxe := by rintro q rfl; exact hr })
    (hspread.mono { rxe := by rintro q rfl; exact hr, bytes := fun a h => ⟨hd, h.symm⟩ }))

end

/-- The TX answers before that of `STATUS` are used up by the read of the buffer, if it is made. -/
theorem txPlan_reaches {s : State} {r : RingId} {w : Desc} {b : BusResp} {l₀ l : List BusResp}
    (h : (lenOf w.ctrl ≠ 0 ∧ sofOf s.cfg.variant w.ctrl = !(s.txe r.q).asm.active ∧
        ((s.txe r.q).asm.active = true → (s.txe r.q).asm.err = false)) ∧ l₀ = b :: l ∨
      ¬(lenOf w.ctrl ≠ 0 ∧ sofOf s.cfg.variant w.ctrl = !(s.txe r.q).asm.active ∧
        ((s.txe r.q).asm.active = true → (s.txe r.q).asm.err = false)) ∧ l₀ = l) :
    ∃ e a, txPlan (s.withBus l₀) r w = (e, a, s.withBus l) := by
  have hplace : sofOf s.cfg.variant w.ctrl = !(s.txe r.q).asm.active ↔
      ¬sofOf s.cfg.variant w.ctrl = (s.txe r.q).asm.active := by
    cases sofOf s.cfg.variant w.ctrl <;> cases (s.txe r.q).asm.active <;> decide
  obtain ⟨⟨h0, hsof, herr⟩, rfl⟩ | ⟨hno, rfl⟩ := h
  · have hb : ¬txBroken (s.withBus (b :: l)).cfg.variant w ((s.withBus (b :: l)).txe r.q).asm :=
      fun h => h.elim h0 (hplace.1 hsof)
    have ha := startAsm_unmarked hb fun h => nomatch h.2.2.symm.trans (herr h.2.1)
    by_cases hok : b = .okay
    · subst hok
      exact ⟨_, _, txPlan_good hb ha rfl⟩
    · exact ⟨_, _, txPlan_bad hb ha rfl hok⟩
  · refine ⟨_, _, txPlan_dropped (s := s.withBus l₀) ?_⟩
    by_cases hb : txBroken s.cfg.variant w (s.txe r.q).asm
    · exact Or.inl hb
    · obtain ⟨h0, hsof⟩ := not_or.1 hb
      have hsof' := hplace.2 hsof
      have hact : (s.txe r.q).asm.active = true := by
        by_contra hact
        exact hno ⟨h0, hsof', fun h => absurd h hact⟩
      refine Or.inr ⟨by rw [show (s.withBus l₀).cfg = s.cfg from rfl, hsof', hact]; rfl, hact, ?_⟩
      by_contra herr
      exact hno ⟨h0, hsof', fun _ => Bool.eq_false_iff.2 herr⟩

/-- The RX answers before that of `STATUS` are used up by the buffer and, with the last bytes, the application words. -/
theorem State.rxSpread_reaches {u : State} {w : Desc} {m : RxRem} {b : BusResp} {apps l : List BusResp} (r : RingId) (d : Word)
    (happs : apps.length = if b = .okay ∧ m.bytes.length ≤ lenOf w.ctrl then 5 else 0)
    (h : lenOf w.ctrl ≠ 0 ∧ u.env.busResp = b :: (apps ++ l) ∨ ¬lenOf w.ctrl ≠ 0 ∧ u.env.busResp = l) :
    (u.rxSpread r d w m).env.busResp = l := by
  obtain ⟨h0, h⟩ | ⟨h0, h⟩ := h
  · by_cases hb : b = .okay
    · subst hb
      have hdata := State.rxData_good (m := m) h0 h
      by_cases hlast : m.bytes.length ≤ lenOf w.ctrl
      · rw [if_pos ⟨rfl, hlast⟩] at happs
        rw [State.rxSpread_whole r d hdata (Nat.min_eq_right hlast), State.setRxe_env]
        exact State.writeApp_takes happs rfl d m.app
      · rw [if_neg fun h => hlast h.2] at happs
        rw [State.rxSpread_part r d hdata fun h => hlast (min_eq_right_iff.1 h), List.eq_nil_of_length_eq_zero happs]
        rfl
    · rw [if_neg fun h => hb h.1] at happs
      obtain ⟨n, hdata⟩ := State.rxData_flagged m (Or.inr ⟨h0, hb, h⟩)
      rw [State.rxSpread_flagged r d hdata (rxFlag_ne (Or.inr hb)), List.eq_nil_of_length_eq_zero happs]
      rfl
  · have h0 := not_not.1 h0
    obtain ⟨n, hdata⟩ := State.rxData_flagged (b := b) m (Or.inl ⟨h0, h⟩)
    rw [State.rxSpread_flagged r d hdata (rxFlag_ne (Or.inl h0))]
    rfl

/-- What is in hand of an RX engine that has bytes. -/
theorem rxInHand {x : RxEngine} (h : rxWaiting x = true) : ∃ (m : RxRem) (fs : List StreamFrame),
    (x = ⟨some m, fs⟩ ∨ ∃ f, x = ⟨none, f :: fs⟩ ∧ m = ⟨f.bytes, f.app, true⟩) ∧
    (match x.rem, x.stream with | some m, _ => m.bytes.length | none, f :: _ => f.bytes.length | none, [] => 0) =
      m.bytes.length := by
  obtain ⟨rem, stream⟩ := x
  cases rem with
  | some m => exact ⟨m, stream, Or.inl rfl, rfl⟩
  | none =>
    cases stream with
    | nil => exact nomatch h
    | cons f fs => exact ⟨_, fs, Or.inr ⟨f, rfl, rfl⟩, rfl⟩

/-- Settles O29: what is left of the step after a bad answer is the fault, at the fetch or where `STATUS` is written. -/
theorem engineFetches : Obligations.EngineFetches := by
  unfold Obligations.EngineFetches
  refine ⟨?_, ?_, ?_⟩
  · intro s r b rest hq hen hl i u
    have hexec : exec i s = .next (s.processNext r) := exec_descStep hq hen (Or.inl rfl)
    have hfault (c : Cause) : exec (.eFault r.dir r.q.val c) u = .next (u.engineFault r c) :=
      exec_eFault (s := u) hq (processing_faults (x := u.regs r) (State.descEnabled_processing hen)) c
    refine ⟨fun hb => ?_, fun hb => ?_, fun hb hc => ?_, _, hexec⟩
    · rw [hfault, hexec, State.processNext_fetchBad hl (by rw [hb]; decide), hb]
      rfl
    · rw [hfault, hexec, State.processNext_fetchBad hl (by rw [hb]; decide), hb]
      rfl
    · rw [hfault, hexec, State.processNext_fetchComplete (hb ▸ hl) hc]
      rfl
  · intro s r w hq held there
    have hrow := exec_descriptorRow s r w hq
    refine ⟨fun h => ?_, fun h => ?_, ?_⟩
    · rw [hrow, exec_engineRow s r hq, (s.standsAt_iff r w).2 h, Bool.and_true]
    · rw [hrow, if_neg fun h' => h ((s.standsAt_iff r w).1 (Bool.and_eq_true_iff.1 h').2)]
    · rw [hrow]
      split
      · exact ⟨_, rfl⟩
      · exact ⟨_, rfl⟩
  · intro s r b c apps rest hq v x w hen hc hbad a moves inHand wordsToo happs hl
    have hexec : exec (engineRow r) s = .next (s.processNext r) := exec_descStep hq hen (Or.inl rfl)
    have hreach : ∃ z, s.processNext r = (z.withBus rest).engineFault r (badCause c) ∧ ReachesStatus s r
        (fun a => r.dir = .rx ∧ (within32 a w.buf (lenOf w.ctrl) ∨ within32 a (x.curdesc + 0x20) 20)) z := by
      obtain hd | hd : r.dir = .tx ∨ r.dir = .rx := by cases r.dir <;> decide
      · have hnot : ¬wordsToo := fun h => nomatch hd.symm.trans h.1
        rw [if_neg hnot] at happs
        obtain rfl := List.eq_nil_of_length_eq_zero happs
        obtain ⟨l₀, hl, hplan⟩ : ∃ l₀, s.env.busResp = .okay :: l₀ ∧ ∃ e a, txPlan (s.withBus l₀) r w =
            (e, a, s.withBus (c :: rest)) := by
          simp only [moves, hd] at hl
          obtain ⟨hm, hl⟩ | ⟨hm, hl⟩ := hl
          · exact ⟨_, hl, txPlan_reaches (Or.inl ⟨hm, rfl⟩)⟩
          · exact ⟨_, hl, txPlan_reaches (b := b) (Or.inr ⟨hm, rfl⟩)⟩
        obtain ⟨e, a, hplan⟩ := hplan
        have hen' : s.txEnabled r = true := by simpa only [State.descEnabled, hd] using hen
        exact State.processNext_txBad hl hc hbad hd hen' _ hplan
      · have hen' : s.rxEnabled r = true := by simpa only [State.descEnabled, hd] using hen
        obtain ⟨m, fs, hm, hin⟩ := rxInHand (Bool.and_eq_true_iff.1 hen').2
        have happs' : apps.length = if b = .okay ∧ m.bytes.length ≤ lenOf w.ctrl then 5 else 0 := by
          rw [happs, ← hin]
          simp only [wordsToo, hd, true_and]
          rfl
        obtain ⟨l₀, hl, hdata⟩ : ∃ l₀, s.env.busResp = .okay :: l₀ ∧ (lenOf w.ctrl ≠ 0 ∧ l₀ = b :: (apps ++ c :: rest) ∨
            ¬lenOf w.ctrl ≠ 0 ∧ l₀ = c :: rest) := by
          simp only [moves, hd] at hl
          obtain ⟨hm, hl⟩ | ⟨hm, hl⟩ := hl
          · exact ⟨_, hl, Or.inl ⟨hm, rfl⟩⟩
          · exact ⟨_, hl, Or.inr ⟨hm, rfl⟩⟩
        obtain ⟨-, u, htake⟩ := takesRx_of (s := s.withBus l₀) hm
        have hubus : u.env.busResp = l₀ := by rw [htake.2.2.2.1]; rfl
        exact State.processNext_rxBad hl hc hbad hd rfl htake
          (State.rxSpread_reaches r x.curdesc happs' (by rw [hubus]; exact hdata))
    obtain ⟨z, hz, hreach⟩ := hreach
    refine ⟨_, hexec, ?_⟩
    rw [hz]
    exact hreach.faults hbad rest

end Sys2Proof.Machine
end

section
/-! SUPPORT. What a command on one ring can touch (R246, R295). -/

namespace Sys2Proof.Machine

/-- All that an operation on ring `r` may touch. -/
@[simp] def ringTouch (r : RingId) : Touch :=
  { regs := (· = r), rings := (· = r), fences := fun _ => True, tags := fun q => r = ⟨.tx, q⟩, txe := fun q => r = ⟨.tx, q⟩,
    rxe := fun q => r = ⟨.rx, q⟩, grant := True, irq := (· = r.dir), bytes := fun _ => True, events := True, answers := True,
    env := True, tasks := True }

/-- From `s` to `t` only ring `r` is touched; a grant is given up only if the ring holds it. -/
structure OneRing (r : RingId) (s t : State) : Prop where
  keeps : Keeps (ringTouch r) s t
  grant : t.hw.grant = s.hw.grant ∨ (t.hw.grant = none ∧ r.dir = .tx ∧ s.hw.grant = some r.q)

/-- No byte outside the pool of ring `r` is written. -/
def PoolOnly (r : RingId) (s t : State) : Prop :=
  s.HasPool r → ∀ a, ¬within32 a (s.ring r).base (64 * (s.ring r).cap) → memByte t.mem a = memByte s.mem a

theorem oneRing_of {c : Touch} {r : RingId} {s t : State} (h : Keeps c s t) (hc : c.Le (ringTouch r)) (hg : ¬c.grant) :
    OneRing r s t := ⟨h.mono hc, Or.inl (h.grant hg)⟩

theorem OneRing.refl (r : RingId) (s : State) : OneRing r s s := ⟨Keeps.refl _ s, Or.inl rfl⟩

theorem OneRing.trans {r : RingId} {s t u : State} (h : OneRing r s t) (k : OneRing r t u) : OneRing r s u := by
  refine ⟨h.keeps.trans k.keeps, ?_⟩
  obtain hk | ⟨hk, hd, hheld⟩ := k.grant
  · rw [hk]
    exact h.grant
  · obtain hh | ⟨hh, -⟩ := h.grant
    · exact Or.inr ⟨hk, hd, hh ▸ hheld⟩
    · exact nomatch hh.symm.trans hheld

theorem poolOnly_of {c : Touch} {r : RingId} {s t : State} (h : s.HasPool r → Keeps c s t)
    (hp : s.HasPool r → ∀ a, c.bytes a → within32 a (s.ring r).base (64 * (s.ring r).cap)) : PoolOnly r s t :=
  fun hpool a ha => (h hpool).bytes a fun hc => ha (hp hpool a hc)

theorem PoolOnly.refl (r : RingId) (s : State) : PoolOnly r s s := fun _ _ _ => rfl

/-- What follows leaves memory as it is. -/
theorem PoolOnly.then {r : RingId} {s t u : State} (h : PoolOnly r s t) (hm : u.mem = t.mem) : PoolOnly r s u := by
  unfold PoolOnly
  rw [hm]
  exact h

theorem State.HasPool.words {s : State} {r : RingId} (h : s.HasPool r) {i : Nat} (hi : i < (s.ring r).cap) {offs : List Nat}
    (ho : ∀ o ∈ offs, wordOff o) {a : Word} (ha : s.inWords r i offs a) :
    within32 a (s.ring r).base (64 * (s.ring r).cap) := by
  obtain ⟨o, hin, ha⟩ := ha
  exact State.inWord_pool (h.slot hi).fits hi (ho o hin) ha

/-! ### The pool commands -/

section
variable (s : State) (r : RingId)

theorem answer_oneRing (n : Nat) (x : Result) : OneRing r s (s.answer n x) :=
  oneRing_of (s.answer_frame n x) {} id

theorem answer_poolOnly (n : Nat) (x : Result) : PoolOnly r s (s.answer n x) := (PoolOnly.refl r s).then rfl

theorem resetRing_touches : Keeps { rings := (· = r), fences := (· = r), bytes := fun _ => True } s (s.resetRing r) := by
  constructor
  case rings => exact fun t h => resetRing_ring_ne s r t h
  case fences =>
    intro t (h : ¬t = r)
    rw [resetRing_unfenced, if_neg h]
  all_goals simp

theorem resetRing_oneRing : OneRing r s (s.resetRing r) := oneRing_of (resetRing_touches s r) {} id

theorem resetRing_poolOnly : PoolOnly r s (s.resetRing r) := by
  refine poolOnly_of (fun hp => resetRing_frame s r hp.facts.2.2.2.1) fun hp a ⟨i, hi, ha⟩ => ?_
  exact hp.words hi (fun o ho => wordOff_chain _ ho) ha

theorem armRx_oneRing (q : Chan) : OneRing ⟨.rx, q⟩ s (s.armRx q) := oneRing_of (armRx_frame s q) {} id

theorem armRx_poolOnly (q : Chan) : PoolOnly ⟨.rx, q⟩ s (s.armRx q) :=
  poolOnly_of (fun _ => armRx_frame s q) fun hp _ ⟨_, hi, ha⟩ => hp.words hi (wordOff_filled _) ha

theorem freeRing_oneRing : OneRing r s (s.freeRing r) := oneRing_of (freeRing_frame s r) {} id

theorem freeRing_poolOnly : PoolOnly r s (s.freeRing r) :=
  poolOnly_of (fun _ => freeRing_frame s r) fun hp _ ⟨_, hi, ha⟩ => hp.words hi (wordOff_cleared _) ha

end

/-- Every state `ALLOCATE` can come to has property `P`. -/
def AllocSat (P : State → Prop) : AllocRes → Prop
  | .ok t => P t
  | .outOfMemory t => P t
  | .alignment t => P t
  | .size => True
  | .present => True
  | .running => True

theorem allocate_sat {P : State → Prop} (s : State) (r : RingId) (n : Nat) (hdraw : P s.drawAlloc.2)
    (hpool : ∀ b, n ≤ 32768 → P (s.drawAlloc.2.makePool r n b)) : AllocSat P (s.allocate r n) := by
  unfold State.allocate
  split
  · trivial
  · next hn =>
    have hn : n ≤ 32768 := Nat.le_of_not_lt fun h => hn (Bool.or_eq_true_iff.2 (Or.inr (decide_eq_true h)))
    split
    · trivial
    · split
      · trivial
      · generalize s.drawAlloc = x at hdraw hpool ⊢
        obtain ⟨o, t⟩ := x
        cases o with
        | none => exact hdraw
        | some b =>
          dsimp only
          split
          · exact hpool b hn
          · exact hdraw

theorem drawAlloc_frame (s : State) : Keeps { env := True } s s.drawAlloc.2 := by
  constructor <;> simp

theorem allocate_oneRing (s : State) (r : RingId) (n : Nat) : AllocSat (OneRing r s) (s.allocate r n) := by
  have hdraw : OneRing r s s.drawAlloc.2 := oneRing_of (drawAlloc_frame s) {} id
  exact allocate_sat s r n hdraw fun b hn => hdraw.trans (oneRing_of (makePool_frame _ r b (by omega)) {} id)

/-! ### `SUBMIT_TX` -/

section
variable (s : State) (q : Chan) (f : Frame) (app : App)

theorem submitFill_oneRing : OneRing ⟨.tx, q⟩ s (s.submitFill ⟨.tx, q⟩ f app) := by
  have hfill : Keeps { bytes := fun _ => True } s (fillFrame ⟨.tx, q⟩ app f.handle true (s.ring ⟨.tx, q⟩).issue f.frags s) := by
    constructor <;> simp
  refine oneRing_of (c := { regs := (· = ⟨.tx, q⟩), rings := (· = ⟨.tx, q⟩), fences := fun _ => True, bytes := fun _ => True })
    (Keeps.after (Keeps.after (Keeps.after (Keeps.after (hfill.mono {}) (State.setRing_frame _ ⟨.tx, q⟩ _) {})
      (State.wmb_frame _) {}) (State.setRegs_frame _ ⟨.tx, q⟩ _) {}) (State.setRing_frame _ ⟨.tx, q⟩ _) {}) {} id

theorem submitFill_poolOnly : PoolOnly ⟨.tx, q⟩ s (s.submitFill ⟨.tx, q⟩ f app) := by
  refine poolOnly_of (fun hp => s.submitFill_frame q f app hp.facts.2.2.2.2.2.2.1) fun hp a ⟨j, hj, ha⟩ => ?_
  obtain ⟨-, -, h2, -⟩ := hp.facts
  exact hp.words (slotsFrom_lt (by omega) j hj) (wordOff_filled _) ha

end

/-! ### `POLL_RX` and `RECLAIM_TX` -/

/-- What an iteration of `POLL_RX` touches. -/
theorem pollIter_frame {p p' : PollSt} {s t : State} (h : pollIter p s = some (p', t)) :
    Keeps { rings := (· = ⟨.rx, p.q⟩), fences := (· = ⟨.rx, p.q⟩), events := True, env := True,
            bytes := s.inWords ⟨.rx, p.q⟩ (s.ring ⟨.rx, p.q⟩).completion (filledOffs s.cfg.variant) } s t := by
  have hgo : (s.ring ⟨.rx, p.q⟩).present = true ∧ p.n < p.budget ∧
      cmpltOf (s.statusD ⟨.rx, p.q⟩ (s.ring ⟨.rx, p.q⟩).completion) = true := by
    by_contra hno
    refine nomatch (h.symm.trans (pollIter_none ?_) : some (p', t) = none)
    by_contra hall
    simp only [not_or, Bool.not_eq_false, not_le] at hall
    exact hno ⟨hall.2.2, hall.1, hall.2.1⟩
  obtain ⟨hp, hn, hc⟩ := hgo
  have hrearm {u : State} {ws : List (Nat × Word)} (hu : Counted s u ⟨.rx, p.q⟩)
      (hws : RearmOffs s.cfg.variant (ws.map Prod.fst)) :
      Keeps { rings := (· = ⟨.rx, p.q⟩), fences := (· = ⟨.rx, p.q⟩), events := True, env := True,
              bytes := s.inWords ⟨.rx, p.q⟩ (s.ring ⟨.rx, p.q⟩).completion (filledOffs s.cfg.variant) } s
        (u.rearmed ⟨.rx, p.q⟩ (s.ring ⟨.rx, p.q⟩).completion ws) := by
    have hcfg : u.cfg = s.cfg := hu.frame.cfg id
    rw [← hcfg] at hws
    have hfill := State.rearmed_frame (u := u) (r := ⟨.rx, p.q⟩) (i := (s.ring ⟨.rx, p.q⟩).completion)
      fun o ho => (hws.1 o ho).1
    rw [hcfg] at hfill
    exact Keeps.after (hu.frame.mono {}) hfill { bytes := fun a ha => (State.inWords_congr hu.base _ _ _).1 ha }
  cases hg : goodRx (s.statusD ⟨.rx, p.q⟩ (s.ring ⟨.rx, p.q⟩).completion) with
  | false =>
    obtain ⟨-, rfl⟩ := Prod.mk.inj (Option.some.inj ((pollIter_bad hp hn hc hg).symm.trans h))
    exact hrearm (s.countError_counted _) (rearmWords_offs _)
  | true =>
    obtain ⟨-, rfl⟩ := Prod.mk.inj (Option.some.inj ((pollIter_good hp hn hc hg).symm.trans h))
    exact hrearm (s.frameTaken_counted _ _ _) (freshWords_offs _ _ _)

/-- What an iteration of `RECLAIM_TX` touches. -/
theorem reclaimIter_frame {p p' : ReclaimSt} {s t : State} (h : reclaimIter p s = some (p', t)) :
    Keeps { rings := (· = ⟨.tx, p.q⟩), fences := (· = ⟨.tx, p.q⟩), tags := (· = p.q), txe := (· = p.q), events := True,
            bytes := s.inWords ⟨.tx, p.q⟩ (s.ring ⟨.tx, p.q⟩).completion (clearedOffs s.cfg.variant) } s t := by
  have hgo : (s.ring ⟨.tx, p.q⟩).present = true ∧ (s.ring ⟨.tx, p.q⟩).completion ≠ (s.ring ⟨.tx, p.q⟩).issue ∧
      cmpltOf (s.statusD ⟨.tx, p.q⟩ (s.ring ⟨.tx, p.q⟩).completion) = true := by
    by_contra hno
    refine nomatch (h.symm.trans (reclaimIter_none ?_) : some (p', t) = none)
    by_contra hall
    simp only [not_or, Bool.not_eq_false] at hall
    exact hno ⟨hall.2.2, hall.1, hall.2.1⟩
  obtain ⟨hp, hi, hc⟩ := hgo
  obtain ⟨-, rfl⟩ := Prod.mk.inj (Option.some.inj ((reclaimIter_takes (out := p.out) rfl hp hi hc).symm.trans h))
  exact State.reclaimed_frame

end Sys2Proof.Machine
end

section
/-! SUPPORT. The commands on one ring, each within that ring (R246, R295). -/

namespace Sys2Proof.Machine

/-- What a command on ring `r` is held to. -/
def WithinRing (r : RingId) (s t : State) : Prop := OneRing r s t ∧ PoolOnly r s t

section
variable {r : RingId} {s t u : State}

/-- A change of the bookkeeping alone may follow. -/
theorem WithinRing.then (h : WithinRing r s t) {c : Touch} (k : Keeps c t u) (hc : c.Le (ringTouch r)) (hg : ¬c.grant)
    (hm : u.mem = t.mem) : WithinRing r s u := ⟨h.1.trans (oneRing_of k hc hg), h.2.then hm⟩

theorem WithinRing.refl (r : RingId) (s : State) : WithinRing r s s := ⟨OneRing.refl r s, PoolOnly.refl r s⟩

theorem answer_within (r : RingId) (s : State) (n : Nat) (x : Result) : WithinRing r s (s.answer n x) :=
  (WithinRing.refl r s).then (s.answer_frame n x) {} id rfl

theorem sat_mono {P Q : State → Prop} (h : ∀ t, P t → Q t) {x : Res} (hx : Sat P x) : Sat Q x := by
  cases x with
  | next t => exact h t hx
  | fault _ => trivial
  | refused _ => trivial

theorem begin_within {x : TaskRes} (h : TaskSat (WithinRing r s) x) : Sat (WithinRing r s) (begin x) := by
  cases x with
  | done t => exact h
  | more k t => exact WithinRing.then h (t.addTask_frame k) {} id rfl
  | stop _ => trivial

end

section
variable {s : State} {d : Dir} {q : Nat} {P : State → Prop}

theorem sat_atRing {k : RingId → Res} (h : ∀ r : RingId, r.dir = d → r.q.val = q → Sat P (k r)) :
    Sat P (withRing d q s k) := by
  unfold withRing
  split
  · trivial
  · next r hr =>
    obtain ⟨hd, hq, -⟩ := State.ring?_some hr
    exact h r hd hq

/-- The one ring the operand names. -/
def AtRing (d : Dir) (q : Nat) (P : RingId → State → Prop) (t : State) : Prop :=
  ∃ r : RingId, r.dir = d ∧ r.q.val = q ∧ P r t

theorem atRing_of {P : RingId → State → Prop} {r : RingId} (hd : r.dir = d) (hq : r.q.val = q) {x : Res} (h : Sat (P r) x) :
    Sat (AtRing d q P) x := sat_mono (fun _ ht => ⟨r, hd, hq, ht⟩) h

theorem withFreeRing_at {P : RingId → State → Prop} {n : Nat} {k : RingId → Res} (ha : ∀ r e, P r (s.answer n e))
    (h : ∀ r, r.dir = d → Sat (P r) (k r)) : Sat (AtRing d q P) (withFreeRing n d q s k) := by
  refine sat_atRing fun r hd hq => atRing_of hd hq (Kept.withControl ?_)
  split
  · exact ha r _
  · split
    · trivial
    · exact h r hd

theorem withPool_at {P : RingId → State → Prop} {n : Nat} {k : RingId → Res} (ha : ∀ r e, P r (s.answer n e))
    (h : ∀ r, r.dir = d → Sat (P r) (k r)) : Sat (AtRing d q P) (withPool n d q s k) := by
  refine withFreeRing_at ha fun r hd => ?_
  split
  · trivial
  · split
    · trivial
    · exact h r hd

theorem withRState_atRing {P : RingId → State → Prop} {st : RState} {k : RingId → Res} (h : ∀ r, r.dir = d → Sat (P r) (k r)) :
    Sat (AtRing d q P) (withRState st d q s k) := by
  refine sat_withContext (sat_atRing fun r hd hq => atRing_of hd hq ?_)
  split
  · exact h r hd
  · trivial

theorem withBody_within {r : RingId} {n : Nat} {k : Res} (h : Sat (WithinRing r s) k) :
    Sat (WithinRing r s) (withBody n r s k) := by
  unfold withBody
  split
  · exact answer_within r s n _
  · split
    · trivial
    · exact h

end

/-! ### The scans -/

theorem pollTask_within (s : State) (q : Chan) (b : Nat) :
    TaskSat (WithinRing ⟨.rx, q⟩ s) (pollTask ⟨q, b, 0, [], none⟩ s) := by
  cases h : pollIter ⟨q, b, 0, [], none⟩ s with
  | none =>
    rw [pollTask_ends h, pollReturn, pollFinish_quiet (Or.inl rfl)]
    exact answer_within _ s _ _
  | some x =>
    have hframe := pollIter_frame h
    rw [pollTask_takes h]
    exact ⟨oneRing_of hframe {} id, poolOnly_of (fun _ => hframe) fun hp a ha => hp.words hp.facts.2.2.2.2.2.2.2
      (wordOff_filled _) ha⟩

theorem reclaimTask_within (s : State) (q : Chan) : TaskSat (WithinRing ⟨.tx, q⟩ s) (reclaimTask ⟨q, []⟩ s) := by
  cases h : reclaimIter ⟨q, []⟩ s with
  | none =>
    rw [reclaimTask_ends h]
    exact answer_within _ s _ _
  | some x =>
    have hframe := reclaimIter_frame h
    rw [reclaimTask_takes h]
    exact ⟨oneRing_of hframe { tags := by rintro _ rfl; rfl, txe := by rintro _ rfl; rfl } id,
      poolOnly_of (fun _ => hframe) fun hp a ha => hp.words hp.facts.2.2.2.2.2.2.2 (wordOff_cleared _) ha⟩

/-! ### Recovery -/

section
variable (s : State) (r : RingId)

theorem setRing_within (w : RingSw) : WithinRing r s (s.setRing r w) :=
  (WithinRing.refl r s).then (s.setRing_frame r w) {} id rfl

/-- A write of `CR` gives up the grant where it resets the ring that holds it. -/
theorem writeCr_oneRing (v : Word) : OneRing r s (s.writeCr r v) := by
  refine ⟨(s.writeCr_frame r v).mono {}, ?_⟩
  unfold State.writeCr
  split
  · exact Or.inl rfl
  · split
    · have hdraw : Keeps { env := True } s s.drawResetCompletes.2 := by constructor <;> simp
      generalize s.drawResetCompletes = x at hdraw ⊢
      obtain ⟨b, u⟩ := x
      have hgrant : u.hw.grant = s.hw.grant := hdraw.grant id
      dsimp only
      unfold State.releaseGrant
      split
      · next h => exact Or.inr ⟨rfl, h.2.1, hgrant ▸ h.2.2⟩
      · exact Or.inl hgrant
    · exact Or.inl rfl

theorem pollFailed_within : WithinRing r s (s.pollFailed r) := by
  unfold State.pollFailed
  dsimp only
  split
  · exact WithinRing.then (setRing_within s r _) (State.emit_frame _ _) {} id rfl
  · exact setRing_within s r _

theorem drainFrom_touches (hd : r.dir = .tx) (n : Nat) : ∀ (s : State) (i : Nat),
    Keeps { rings := (· = r), fences := (· = r), events := True, bytes := fun _ => True } s (s.drainFrom r i n) := by
  induction n with
  | zero => exact fun s _ => Keeps.refl _ s
  | succ n ih =>
    intro s i
    unfold State.drainFrom
    split
    · exact Keeps.refl _ s
    · rw [dropSlot_eq hd]
      exact Keeps.trans ((freeSlot_frame s r i).mono {}) (ih _ _)

theorem drain_oneRing : OneRing r s (s.drain r) := by
  unfold State.drain
  split
  · exact OneRing.refl r s
  · next hd =>
    refine (oneRing_of (drainFrom_touches r hd _ s _) {} id).trans (oneRing_of (State.untag_frame _ r.q)
      { tags := ?_ } id)
    rintro _ rfl
    exact (RingId.eq_iff _ _).2 ⟨hd, rfl⟩

theorem drain_poolOnly : PoolOnly r s (s.drain r) := by
  intro hp a ha
  obtain hd | hd : r.dir = .rx ∨ r.dir = .tx := by cases r.dir <;> decide
  · rw [State.drain_rx hd]
  · rw [State.drain_tx hd hp]
    obtain ⟨-, -, h2, -⟩ := hp.facts
    refine (State.freeSlots_frame r _ s).bytes a fun ⟨i, hi, hw⟩ => ha (hp.words (slotsFrom_lt (by omega) i hi)
      (wordOff_cleared _) hw)

theorem rebuild_oneRing : OneRing r s (s.rebuild r) := by
  have hwmb (u : State) : OneRing r u u.wmb := oneRing_of u.wmb_frame {} id
  obtain hd | hd : r.dir = .rx ∨ r.dir = .tx := by cases r.dir <;> decide
  · have hr : (⟨.rx, r.q⟩ : RingId) = r := (RingId.eq_iff _ _).2 ⟨hd.symm, rfl⟩
    rw [rebuild_rx hd]
    exact ((resetRing_oneRing s r).trans (hr ▸ armRx_oneRing _ r.q)).trans (hwmb _)
  · rw [rebuild_tx hd]
    exact (resetRing_oneRing s r).trans (hwmb _)

theorem rebuild_poolOnly : PoolOnly r s (s.rebuild r) := by
  intro hp a ha
  have hreset := resetRing_poolOnly s r hp a ha
  obtain hd | hd : r.dir = .rx ∨ r.dir = .tx := by cases r.dir <;> decide
  · have hr : (⟨.rx, r.q⟩ : RingId) = r := (RingId.eq_iff _ _).2 ⟨hd.symm, rfl⟩
    have harm := armRx_poolOnly (s.resetRing r) r.q
    rw [hr] at harm
    rw [rebuild_rx hd]
    refine (harm hp.resetRing a ?_).trans hreset
    rwa [resetRing_ring]
  · rw [rebuild_tx hd]
    exact hreset

end

end Sys2Proof.Machine
end

section
/-! PROOF. An operation on one ring changes nothing of another (R246, R295). -/

namespace Sys2Proof.Machine

/-! ### The grant in a descriptor step -/

/-- The grant is as before, or in `MC` given up. -/
def GrantKept (s t : State) : Prop :=
  t.cfg = s.cfg ∧ (t.hw.grant = s.hw.grant ∨ s.cfg.variant = .mc ∧ t.hw.grant = none)

theorem GrantKept.trans {s t u : State} (h : GrantKept s t) (k : GrantKept t u) : GrantKept s u := by
  obtain ⟨hcfg, h⟩ := h
  obtain ⟨kcfg, k⟩ := k
  refine ⟨kcfg.trans hcfg, ?_⟩
  obtain k | ⟨kmc, k⟩ := k
  · rw [k]
    exact h
  · exact Or.inr ⟨hcfg ▸ kmc, k⟩

theorem grantKept_of {c : Touch} {s t : State} (h : Keeps c s t) (hc : ¬c.cfg) (hg : ¬c.grant) : GrantKept s t :=
  ⟨h.cfg hc, Or.inl (h.grant hg)⟩

theorem grantKept_ite {s t : State} {p : Prop} [Decidable p] (hcfg : t.cfg = s.cfg)
    (hg : t.hw.grant = if s.cfg.variant = .mc ∧ p then none else s.hw.grant) : GrantKept s t := by
  refine ⟨hcfg, ?_⟩
  by_cases h : s.cfg.variant = .mc ∧ p
  · exact Or.inr ⟨h.1, hg.trans (if_pos h)⟩
  · exact Or.inl (hg.trans (if_neg h))

theorem engineFault_grantKept (s : State) (r : RingId) (c : Cause) : GrantKept s (s.engineFault r c) :=
  grantKept_ite ((s.engineFault_frame r c).cfg id) (State.engineFault_grant s r c)

theorem dropGrant_grantKept (s : State) : GrantKept s s.dropGrant :=
  grantKept_ite (p := True) (s.dropGrant_frame.cfg id) (by rw [State.dropGrant_grant_eq]; simp only [and_true])

theorem txClose_grantKept (s : State) (q : Chan) (a : Asm) (eof : Bool) : GrantKept s (s.txClose q a eof) := by
  refine grantKept_ite (p := eof = true) ((s.txClose_frame q a eof).cfg id) ?_
  rw [State.txClose_grant]
  cases eof <;> simp

theorem writeStatus_grantKept (s : State) (r : RingId) (d w : Word) : GrantKept s (s.writeStatus r d w).2 := by
  have hdraw := grantKept_of s.drawBus_frame id id
  unfold State.writeStatus
  generalize s.drawBus = x at hdraw ⊢
  obtain ⟨b, u⟩ := x
  cases b with
  | okay => exact hdraw
  | slverr => exact hdraw.trans (engineFault_grantKept u r .slv)
  | decerr => exact hdraw.trans (engineFault_grantKept u r .dec)

theorem advance_grantKept (s : State) (r : RingId) (d n : Word) (done : Bool) : GrantKept s (s.advance r d n done) := by
  have hregs : GrantKept s (s.setRegs r (advanceRegs d n (s.regs r))) := grantKept_of (s.setRegs_frame r _) id id
  have htail : GrantKept s (if (d == (s.regs r).taildesc && r.dir == .tx) = true then
      (s.setRegs r (advanceRegs d n (s.regs r))).dropGrant else s.setRegs r (advanceRegs d n (s.regs r))) := by
    split
    · exact hregs.trans (dropGrant_grantKept _)
    · exact hregs
  unfold State.advance
  dsimp only
  split
  · exact htail.trans (grantKept_of (State.packetDone_frame _ r) id id)
  · exact htail

theorem runTx_grantKept (s : State) (r : RingId) (d : Word) (w : Desc) : GrantKept s (s.runTx r d w) := by
  have hplan : GrantKept s (txPlan s r w).2.2 := grantKept_of (txData_frame w _ _ s) id id
  rw [State.runTx_eq]
  dsimp only
  generalize txPlan s r w = x at hplan ⊢
  obtain ⟨e, a, u⟩ := x
  have hboth := hplan.trans ((txClose_grantKept u r.q a (eofOf s.cfg.variant w.ctrl)).trans
    (writeStatus_grantKept _ r d (statusWord e false false (lenOf w.ctrl))))
  split
  · exact hboth.trans (advance_grantKept _ r d w.next _)
  · exact hboth

theorem processNext_grantKept (s : State) {r : RingId} (hd : r.dir = .tx) : GrantKept s (s.processNext r) := by
  have hdraw := grantKept_of s.drawBus_frame id id
  unfold State.processNext
  obtain ⟨c, h⟩ | h := s.fetch_cases r (s.regs r).curdesc
  · rw [h]
    exact hdraw.trans (engineFault_grantKept _ r c)
  · rw [h, hd]
    exact hdraw.trans (runTx_grantKept _ r _ _)

/-! ### The engine steps -/

theorem processNext_oneRing {s : State} {r : RingId} (hen : s.descEnabled r = true) : OneRing r s (s.processNext r) := by
  have hframe := s.processNext_frame r
  refine ⟨hframe.mono {}, ?_⟩
  obtain hd | hd : r.dir = .tx ∨ r.dir = .rx := by cases r.dir <;> decide
  · obtain h | ⟨hmc, h⟩ := (processNext_grantKept s hd).2
    · exact Or.inl h
    · have hen' : s.txEnabled r = true := by simpa only [State.descEnabled, hd] using hen
      exact Or.inr ⟨h, hd, State.txEnabled_grant hen' hmc⟩
  · exact Or.inl (hframe.grant fun h => nomatch hd.symm.trans h)

section
variable (s : State) (r : RingId)

theorem setRegs_oneRing (x : RingRegs) : OneRing r s (s.setRegs r x) := oneRing_of (s.setRegs_frame r x) {} id

theorem releaseGrant_oneRing : OneRing r s (s.releaseGrant r) := by
  have hkeeps : Keeps { grant := True } s (s.releaseGrant r) := by constructor <;> simp
  refine ⟨hkeeps.mono {}, ?_⟩
  unfold State.releaseGrant
  split
  · next h => exact Or.inr ⟨rfl, h.2.1, h.2.2⟩
  · exact Or.inl rfl

theorem engineFault_oneRing (c : Cause) : OneRing r s (s.engineFault r c) := by
  refine ⟨(s.engineFault_frame r c).mono {}, ?_⟩
  rw [State.engineFault_grant]
  split
  · next h => exact Or.inr ⟨rfl, h.2.1, h.2.2⟩
  · exact Or.inl rfl

theorem dropFrame_oneRing : OneRing r s (s.dropFrame r) := by
  unfold State.dropFrame
  split
  · next hd => exact oneRing_of (s.setTxe_frame r.q _) { txe := by rintro _ rfl; exact (RingId.eq_iff _ _).2 ⟨hd, rfl⟩ } id
  · next hd => exact oneRing_of (s.setRxe_frame r.q _) { rxe := by rintro _ rfl; exact (RingId.eq_iff _ _).2 ⟨hd, rfl⟩ } id

theorem resetEngine_oneRing : OneRing r s (s.resetEngine r) := by
  unfold State.resetEngine
  split
  · next hd => exact oneRing_of (s.setTxe_frame r.q _) { txe := by rintro _ rfl; exact (RingId.eq_iff _ _).2 ⟨hd, rfl⟩ } id
  · next hd => exact oneRing_of (s.setRxe_frame r.q _) { rxe := by rintro _ rfl; exact (RingId.eq_iff _ _).2 ⟨hd, rfl⟩ } id

end

/-- A step that runs or does nothing. -/
theorem run_oneRing {s u : State} {r : RingId} {p : Prop} [Decidable p] (h : p → OneRing r s u) :
    Sat (OneRing r s) (if p then Host.Outcome.next u else .next s : Res) := by
  split
  · next hp => exact h hp
  · exact OneRing.refl r s

theorem engineDesc_oneRing (v : Variant) (d : Dir) (q : Nat) (w : Desc) (s : State) :
    Sat (AtRing d q fun r => OneRing r s) (engineDesc v d q w s) := by
  unfold engineDesc
  split
  · exact sat_atRing fun r hd hq => atRing_of hd hq
      (run_oneRing fun hen => processNext_oneRing (Bool.and_eq_true_iff.1 hen).1)
  · trivial

/-- An engine step keeps to its ring. -/
theorem engineStep_oneRing {i : Instr} {d : Dir} {q : Nat} (hi : isEngineStep i = true) (h : opRing i = some (d, q))
    (s : State) : Sat (AtRing d q fun r => OneRing r s) (exec i s) := by
  unfold isEngineStep at hi
  split at hi
  · cases h
    refine sat_atRing fun r hd hq => atRing_of hd hq (run_oneRing fun hen => processNext_oneRing ?_)
    simpa only [State.descEnabled, hd] using hen
  · cases h
    refine sat_atRing fun r hd hq => atRing_of hd hq (run_oneRing fun hen => processNext_oneRing ?_)
    simpa only [State.descEnabled, hd] using hen
  · exact nomatch h
  · cases h
    exact sat_atRing fun r hd hq => atRing_of hd hq (run_oneRing fun _ =>
      (setRegs_oneRing s r _).trans (oneRing_of (State.raise_frame _ r .dly) {} id))
  · cases h
    exact sat_atRing fun r hd hq => atRing_of hd hq (run_oneRing fun _ => engineFault_oneRing s r _)
  · cases h
    exact sat_atRing fun r hd hq => atRing_of hd hq (run_oneRing fun _ =>
      ((setRegs_oneRing s r _).trans (resetEngine_oneRing _ r)).trans (releaseGrant_oneRing _ r))
  · cases h
    exact sat_atRing fun r hd hq => atRing_of hd hq (run_oneRing fun _ =>
      ((setRegs_oneRing s r _).trans (dropFrame_oneRing _ r)).trans (releaseGrant_oneRing _ r))
  · cases h
    exact engineDesc_oneRing .sq _ _ _ s
  · cases h
    exact engineDesc_oneRing .mc _ _ _ s
  · exact nomatch hi

/-! ### The commands -/

theorem exec_allocate_oneRing (d : Dir) (q n : Nat) (s : State) :
    Sat (AtRing d q fun r => OneRing r s) (exec (.allocate d q n) s) := by
  refine withFreeRing_at (fun r e => answer_oneRing s r _ e) fun r _ => ?_
  have hall := allocate_oneRing s r n
  generalize s.allocate r n = x at hall ⊢
  cases x with
  | ok t => exact OneRing.trans hall (answer_oneRing t r _ _)
  | size => exact answer_oneRing s r _ _
  | present => trivial
  | running => trivial
  | outOfMemory t => exact OneRing.trans hall (answer_oneRing t r _ _)
  | alignment t => exact OneRing.trans hall (answer_oneRing t r _ _)

theorem exec_submitTx_within (q : Nat) (f : Frame) (s : State) :
    Sat (AtRing .tx q fun r => WithinRing r s) (exec (.submitTx q f) s) := by
  refine sat_withContext (sat_atRing fun r hd hq => atRing_of hd hq ?_)
  obtain ⟨d, c⟩ := r
  obtain rfl : d = .tx := hd
  split
  · exact answer_within _ s _ _
  · split
    · trivial
    · next app u ho =>
      have htag := offloadTx_frame ho
      have hpool : u.HasPool ⟨.tx, c⟩ ↔ s.HasPool ⟨.tx, c⟩ := by
        unfold State.HasPool
        rw [htag.rings _ id, htag.cfg id]
      have hfill := submitFill_oneRing u c f app
      have hbytes := submitFill_poolOnly u c f app
      refine WithinRing.then ⟨(oneRing_of htag { tags := by rintro _ rfl; rfl } id).trans hfill, fun hp a ha => ?_⟩
        (State.answer_frame _ _ _) {} id rfl
      refine (hbytes (hpool.2 hp) a ?_).trans (htag.bytes a id)
      rwa [htag.rings _ id]

/-- A command, other than `ALLOCATE`, keeps to its ring and its pool. -/
theorem command_within {i : Instr} {d : Dir} {q : Nat} (hi : isEngineStep i = false) (hn : ∀ n, i ≠ .allocate d q n)
    (h : opRing i = some (d, q)) (s : State) : Sat (AtRing d q fun r => WithinRing r s) (exec i s) := by
  unfold opRing at h
  split at h <;> cases h
  · exact absurd rfl (hn _)
  · exact withPool_at (fun r e => answer_within r s _ e) fun r _ => ⟨resetRing_oneRing s r, resetRing_poolOnly s r⟩
  · refine withPool_at (fun r e => answer_within r s _ e) fun r hd => ?_
    have hr : (⟨.rx, r.q⟩ : RingId) = r := (RingId.eq_iff _ _).2 ⟨hd.symm, rfl⟩
    exact ⟨hr ▸ armRx_oneRing s r.q, hr ▸ armRx_poolOnly s r.q⟩
  · refine withPool_at (fun r e => answer_within r s _ e) fun r _ => ?_
    split
    · trivial
    · exact ⟨freeRing_oneRing s r, freeRing_poolOnly s r⟩
  · exact exec_submitTx_within _ _ s
  · refine sat_withContext (sat_atRing fun r hd hq => atRing_of hd hq (withBody_within (begin_within ?_)))
    have hr : (⟨.rx, r.q⟩ : RingId) = r := (RingId.eq_iff _ _).2 ⟨hd.symm, rfl⟩
    have hpoll := pollTask_within s r.q
    rw [hr] at hpoll
    exact hpoll _
  · refine sat_withContext (sat_atRing fun r hd hq => atRing_of hd hq (withBody_within (begin_within ?_)))
    have hr : (⟨.tx, r.q⟩ : RingId) = r := (RingId.eq_iff _ _).2 ⟨hd.symm, rfl⟩
    have hreclaim := reclaimTask_within s r.q
    rwa [hr] at hreclaim
  · refine withRState_atRing fun r _ => ?_
    split
    · trivial
    · split
      · trivial
      · split
        · trivial
        · have hset := setRing_within s r ((((s.ring r).become .halting).pending false).polls 0)
          exact ⟨hset.1.trans (writeCr_oneRing _ r crReset), hset.2.then (by simp)⟩
  · refine withRState_atRing fun r _ => ?_
    split
    · exact setRing_within s r _
    · exact pollFailed_within s r
  · refine withRState_atRing fun r _ => ?_
    exact WithinRing.then ⟨drain_oneRing s r, drain_poolOnly s r⟩ (State.setRing_frame _ r _) {} id rfl
  · refine withRState_atRing fun r _ => ?_
    split
    · trivial
    · split
      · trivial
      · exact WithinRing.then ⟨rebuild_oneRing s r, rebuild_poolOnly s r⟩ (State.addTask_frame _ _) {} id rfl
  all_goals exact nomatch hi

/-- Settles O13: every operation on one ring keeps to that ring, a command to its pool too. -/
theorem ringIsolation : Obligations.RingIsolation := by
  unfold Obligations.RingIsolation
  intro i s t d q hop h
  have hat : ∃ r : RingId, r.dir = d ∧ r.q.val = q ∧ OneRing r s t ∧
      (isEngineStep i = false → (∀ n, i ≠ .allocate d q n) → PoolOnly r s t) := by
    cases hi : isEngineStep i with
    | true =>
      have hsat := engineStep_oneRing hi hop s
      rw [h] at hsat
      obtain ⟨r, hd, hq, hone⟩ := hsat
      exact ⟨r, hd, hq, hone, fun h => nomatch h⟩
    | false =>
      by_cases hall : ∃ n, i = .allocate d q n
      · obtain ⟨n, rfl⟩ := hall
        have hsat := exec_allocate_oneRing d q n s
        rw [h] at hsat
        obtain ⟨r, hd, hq, hone⟩ := hsat
        exact ⟨r, hd, hq, hone, fun _ hn => absurd rfl (hn n)⟩
      · have hsat := command_within hi (fun n hn => hall ⟨n, hn⟩) hop s
        rw [h] at hsat
        obtain ⟨r, hd, hq, hone, hpool⟩ := hsat
        exact ⟨r, hd, hq, hone, fun _ _ => hpool⟩
  obtain ⟨r, rfl, rfl, ⟨hkeeps, hgrant⟩, hpool⟩ := hat
  have hring (r' : RingId) (hr : ¬(r'.dir = r.dir ∧ r'.q.val = r.q.val)) : ¬r' = r := fun h => hr (h ▸ ⟨rfl, rfl⟩)
  have hchan (d' : Dir) (c : Chan) (hc : ¬(r.dir = d' ∧ c.val = r.q.val)) : ¬r = ⟨d', c⟩ := fun h => hc (h ▸ ⟨rfl, rfl⟩)
  obtain ⟨hctx, hlink, -⟩ := hkeeps.context id
  obtain ⟨hcredit, hrr⟩ := hkeeps.credits id
  refine ⟨fun r' hr => ⟨hkeeps.regs r' (hring r' hr), hkeeps.rings r' (hring r' hr)⟩,
    fun c hc => ⟨hkeeps.txe c (hchan .tx c hc), hkeeps.tags c (hchan .tx c hc)⟩, fun c hc => hkeeps.rxe c (hchan .rx c hc),
    fun c => ⟨hkeeps.weights c id, hcredit c⟩, hrr, ?_, fun d' hd => hkeeps.irq d' hd, hkeeps.cfg id, hctx, hlink,
    fun hi hn r' a hd hq hp ha => ?_⟩
  · exact hgrant.imp_right fun ⟨hnone, hd, hheld⟩ => ⟨hnone, hd, r.q, hheld, rfl⟩
  · obtain rfl : r' = r := (RingId.eq_iff _ _).2 ⟨hd, Fin.ext hq⟩
    exact hpool hi hn hp a ha

end Sys2Proof.Machine
end

section
/-! SUPPORT. What leaves the state of every ring as it is (R37, R290). -/

namespace Sys2Proof.Machine

/-- From `s` to `t` no ring's state changes. -/
def StatesKept (s t : State) : Prop := ∀ r, (t.ring r).rstate = (s.ring r).rstate

theorem StatesKept.refl (s : State) : StatesKept s s := fun _ => rfl

theorem StatesKept.trans {s t u : State} (h : StatesKept s t) (k : StatesKept t u) : StatesKept s u :=
  fun r => (k r).trans (h r)

theorem statesKept_of_rings {s t : State} (h : ∀ r, t.ring r = s.ring r) : StatesKept s t :=
  fun r => congrArg RingSw.rstate (h r)

/-- One ring alone is changed, its state not. -/
theorem statesKept_of_ring {s t : State} {r : RingId} (hr : (t.ring r).rstate = (s.ring r).rstate)
    (hne : ∀ u, u ≠ r → t.ring u = s.ring u) : StatesKept s t := by
  intro u
  by_cases h : u = r
  · rw [h]
    exact hr
  · rw [hne u h]

/-- What follows changes no ring. -/
theorem StatesKept.rings {s t u : State} (h : StatesKept s t) (hr : ∀ r, u.ring r = t.ring r) : StatesKept s u :=
  h.trans (statesKept_of_rings hr)

theorem setRing_states (s : State) (r : RingId) {w : RingSw} (h : w.rstate = (s.ring r).rstate) :
    StatesKept s (s.setRing r w) :=
  statesKept_of_ring (r := r) (by rw [State.setRing_ring, if_pos rfl, h]) fun u hu => by rw [State.setRing_ring, if_neg hu]

theorem StatesKept.setRing {s t : State} (h : StatesKept s t) {r : RingId} {w : RingSw} (hw : w.rstate = (t.ring r).rstate) :
    StatesKept s (t.setRing r w) := h.trans (setRing_states t r hw)

theorem StatesKept.owe {s t : State} (h : StatesKept s t) (r : RingId) : StatesKept s (t.owe r) :=
  h.rings fun _ => State.owe_ring ..

theorem foldl_states {α : Type} {f : State → α → State} (hf : ∀ s x, StatesKept s (f s x)) (xs : List α) (s : State) :
    StatesKept s (xs.foldl f s) :=
  Kept.foldl (P := StatesKept s) (fun t x h => h.trans (hf t x)) xs s (StatesKept.refl s)

/-! ### The descriptor pool -/

section
variable (s : State) (r : RingId)

theorem resetRing_states : StatesKept s (s.resetRing r) :=
  statesKept_of_ring (r := r) (by rw [resetRing_ring]) (resetRing_ring_ne s r)

theorem armRx_states (q : Chan) : StatesKept s (s.armRx q) :=
  statesKept_of_ring (r := ⟨.rx, q⟩) (by rw [armRx_ring, if_pos rfl]; rfl) fun u hu => by rw [armRx_ring, if_neg hu]

theorem freeSlot_states (i : Nat) : StatesKept s (freeSlot r i s) :=
  statesKept_of_ring (r := r) (by rw [freeSlot_ring]) fun _ hu => freeSlot_ring_ne s i hu

theorem freeRing_states : StatesKept s (s.freeRing r) := by
  have hslots : StatesKept s (loopN (freeSlot r) (s.ring r).cap 0 s) :=
    Kept.loopN (P := StatesKept s) (fun i t h => h.trans (freeSlot_states t r i)) _ _ s (StatesKept.refl s)
  exact hslots.trans (setRing_states _ r rfl)

theorem drainFrom_states (hd : r.dir = .tx) (n : Nat) : ∀ (s : State) (i : Nat), StatesKept s (s.drainFrom r i n) := by
  induction n with
  | zero => exact fun s _ => StatesKept.refl s
  | succ n ih =>
    intro s i
    unfold State.drainFrom
    split
    · exact StatesKept.refl s
    · rw [dropSlot_eq hd]
      exact (freeSlot_states s r i).trans (ih _ _)

theorem drain_states : StatesKept s (s.drain r) := by
  unfold State.drain
  split
  · exact StatesKept.refl s
  · next hd => exact (drainFrom_states r hd _ s _).rings fun u => State.setTags_ring ..

theorem rebuild_states : StatesKept s (s.rebuild r) := by
  obtain hd | hd : r.dir = .rx ∨ r.dir = .tx := by cases r.dir <;> decide
  · rw [rebuild_rx hd]
    exact ((resetRing_states s r).trans (armRx_states _ r.q)).rings fun u => State.wmb_ring ..
  · rw [rebuild_tx hd]
    exact (resetRing_states s r).rings fun u => State.wmb_ring ..

theorem makePool_states (n : Nat) (b : Word) : StatesKept s (s.makePool r n b) :=
  statesKept_of_ring (r := r) (by rw [makePool_ring]) (makePool_ring_ne s r n b)

theorem allocate_states (n : Nat) : AllocSat (StatesKept s) (s.allocate r n) := by
  have hdraw : StatesKept s s.drawAlloc.2 := statesKept_of_rings fun u => (drawAlloc_frame s).rings u id
  exact allocate_sat s r n hdraw fun b _ => hdraw.trans (makePool_states _ r n b)

theorem submitFill_states (q : Chan) (f : Frame) (app : App) : StatesKept s (s.submitFill ⟨.tx, q⟩ f app) :=
  statesKept_of_ring (r := ⟨.tx, q⟩) (by rw [submitFill_ring]) (submitFill_ring_ne s q f app)

theorem scheduleRecovery_states : StatesKept s (s.scheduleRecovery r) := by
  unfold State.scheduleRecovery
  exact StatesKept.rings (setRing_states s r (w := (s.ring r).pending true) rfl) fun u => State.emit_ring ..

theorem takeFrame_states (i : Nat) (st : Word) : StatesKept s (s.takeFrame r i st) := by
  unfold State.takeFrame
  exact StatesKept.rings (setRing_states s r (w := (s.ring r).countPacket (lenOf st)) rfl) fun u => by simp

end

/-! ### The scans -/

theorem StatesKept.rearmSlot {s t : State} (h : StatesKept s t) (r : RingId) (i : Nat) :
    StatesKept s (t.rearmSlot r i) := h.rings fun u => by simp

theorem StatesKept.releaseSlot {s t : State} (h : StatesKept s t) (r : RingId) (i : Nat) :
    StatesKept s (t.releaseSlot r i).2 := h.rings fun u => by simp [State.releaseSlot, State.clearSlot]

theorem cursors_rstate (w : RingSw) (i : Nat) : (w.cursors i).rstate = w.rstate := rfl

theorem pollIter_states {p p' : PollSt} {s t : State} (h : pollIter p s = some (p', t)) : StatesKept s t := by
  unfold pollIter at h
  dsimp only at h
  split at h
  · obtain ⟨-, rfl⟩ := Prod.mk.inj (Option.some.inj h)
    refine StatesKept.owe (StatesKept.setRing (StatesKept.rearmSlot ?_ _ _) (cursors_rstate _ _)) _
    split
    · exact takeFrame_states s.rmb _ _ _
    · exact setRing_states s _ rfl
  · exact nomatch h

theorem countReclaim_rstate (w : RingSw) (st h : Word) : (w.countReclaim st h).rstate = w.rstate := by
  unfold RingSw.countReclaim
  dsimp only
  split
  · rfl
  · split <;> rfl

theorem reclaimIter_states {p p' : ReclaimSt} {s t : State} (h : reclaimIter p s = some (p', t)) : StatesKept s t := by
  unfold reclaimIter at h
  dsimp only at h
  split at h
  · obtain ⟨-, rfl⟩ := Prod.mk.inj (Option.some.inj h)
    generalize (s.ring ⟨.tx, p.q⟩).completion = i
    have hstamp : StatesKept s (if tsReqOf (s.rmb.getD ⟨.tx, p.q⟩ i swTagOff) then s.rmb.tsCorrelate p.q i else s.rmb) := by
      split
      · exact statesKept_of_rings fun u => State.tsCorrelate_frame.rings u id
      · exact StatesKept.refl s
    exact StatesKept.setRing (StatesKept.releaseSlot (hstamp.setRing (countReclaim_rstate _ _ _)) _ _) rfl
  · exact nomatch h

theorem pollFinish_states (p : PollSt) (s : State) : StatesKept s (pollFinish p s) := by
  refine statesKept_of_rings fun r => ?_
  unfold pollFinish
  split
  · rfl
  · split
    · simp
    · rfl

theorem pollReturn_states (p : PollSt) (s : State) : StatesKept s (pollReturn p s) :=
  (pollFinish_states p s).rings fun _ => State.answer_ring ..

theorem pollTask_states (p : PollSt) (s : State) : TaskSat (StatesKept s) (pollTask p s) := by
  cases h : pollIter p s with
  | none =>
    rw [pollTask_ends h]
    exact pollReturn_states p s
  | some x =>
    rw [pollTask_takes h]
    exact pollIter_states h

theorem reclaimTask_states (p : ReclaimSt) (s : State) : TaskSat (StatesKept s) (reclaimTask p s) := by
  cases h : reclaimIter p s with
  | none =>
    rw [reclaimTask_ends h]
    exact statesKept_of_rings fun _ => State.answer_ring ..
  | some x =>
    rw [reclaimTask_takes h]
    exact reclaimIter_states h

end Sys2Proof.Machine
end

section
/-! SUPPORT. The operations and the steps of commands in progress that leave the state of every ring (R37, R290). -/

namespace Sys2Proof.Machine

theorem taskSat_mono {P Q : State → Prop} (h : ∀ t, P t → Q t) {x : TaskRes} (hx : TaskSat P x) : TaskSat Q x := by
  cases x with
  | done t => exact h t hx
  | more _ t => exact h t hx
  | stop _ => trivial

section
variable (s : State)

theorem answer_states (n : Nat) (x : Result) : StatesKept s (s.answer n x) := statesKept_of_rings fun _ => State.answer_ring ..

theorem StatesKept.answer {s t : State} (h : StatesKept s t) (n : Nat) (x : Result) : StatesKept s (t.answer n x) :=
  h.trans (answer_states t n x)

theorem regWrite_states (g : Reg) (v : Word) : StatesKept s (s.regWrite g v) := statesKept_of_rings fun _ => by simp

/-! ### Register rows and descriptor words -/

theorem transact_states (g : Reg) (x : Trans) : Sat (StatesKept s) (transact g x s) := by
  have hread : StatesKept s (s.afterRead g) := statesKept_of_rings fun _ => by simp
  unfold transact
  split
  · exact hread.answer _ _
  · split
    · split
      · trivial
      · exact regWrite_states s _ _
    · exact regWrite_states s _ _

theorem sqReg_states (g : Reg) (x : Trans) : Sat (StatesKept s) (sqReg g x s) := by
  unfold sqReg
  split
  · exact transact_states s g x
  · trivial

theorem mcReg_states (g : Reg) (x : Trans) : Sat (StatesKept s) (mcReg g x s) := by
  unfold mcReg
  split
  · exact transact_states s g x
  · trivial

theorem chanReg_states (d : Dir) (q : Nat) (g : RingId → Reg) (x : Trans) : Sat (StatesKept s) (chanReg d q g x s) := by
  unfold chanReg
  split
  · exact sat_withRing fun r _ => transact_states s _ x
  · trivial

theorem atOff_states (off : Nat) (x : Trans) : Sat (StatesKept s) (atOff off s fun g => transact g x s) := by
  unfold atOff
  split
  · exact transact_states s _ x
  · trivial

theorem putWord_states (d : Dir) (q i off : Nat) (v : Word) : Sat (StatesKept s) (putWord d q i off v s) := by
  have hstore (r : RingId) : StatesKept s ((s.putD r i off v).owe r) := statesKept_of_rings fun _ => by simp
  refine sat_withRing fun r _ => ?_
  split
  · trivial
  · split
    · dsimp only
      split
      · trivial
      · split
        · trivial
        · split
          · exact hstore r
          · trivial
    · trivial

theorem putCtrl_states (v : Variant) (d : Dir) (q i : Nat) (w : Word) : Sat (StatesKept s) (putCtrl v d q i w s) := by
  unfold putCtrl
  split
  · exact putWord_states s _ _ _ _ _
  · trivial

/-! ### Commands -/

theorem begin_states {x : TaskRes} (h : TaskSat (StatesKept s) x) : Sat (StatesKept s) (begin x) := by
  cases x with
  | done t => exact h
  | more k t => exact StatesKept.rings h fun _ => State.addTask_ring ..
  | stop _ => trivial

theorem withFreeRing_states {n : Nat} {d : Dir} {q : Nat} {k : RingId → Res} (h : ∀ r, Sat (StatesKept s) (k r)) :
    Sat (StatesKept s) (withFreeRing n d q s k) := by
  refine sat_withRing fun r _ => Kept.withControl ?_
  split
  · exact answer_states s _ _
  · split
    · trivial
    · exact h r

theorem withPool_states {n : Nat} {d : Dir} {q : Nat} {k : RingId → Res} (h : ∀ r, Sat (StatesKept s) (k r)) :
    Sat (StatesKept s) (withPool n d q s k) := by
  refine withFreeRing_states s fun r => ?_
  split
  · trivial
  · split
    · trivial
    · exact h r

theorem withBody_states {n : Nat} {r : RingId} {k : Res} (h : Sat (StatesKept s) k) :
    Sat (StatesKept s) (withBody n r s k) := by
  unfold withBody
  split
  · exact answer_states s _ _
  · split
    · trivial
    · exact h

theorem exec_allocate_states (d : Dir) (q n : Nat) : Sat (StatesKept s) (exec (.allocate d q n) s) := by
  refine withFreeRing_states s fun r => ?_
  have hall := allocate_states s r n
  generalize s.allocate r n = x at hall ⊢
  cases x with
  | ok t => exact StatesKept.answer hall _ _
  | size => exact answer_states s _ _
  | present => trivial
  | running => trivial
  | outOfMemory t => exact StatesKept.answer hall _ _
  | alignment t => exact StatesKept.answer hall _ _

theorem offloadTx_states {u : State} {q : Chan} {f : Frame} {app : App} (h : s.offloadTx q f = some (app, u)) :
    StatesKept s u := statesKept_of_rings fun r => (offloadTx_frame h).rings r id

theorem exec_submitTx_states (q : Nat) (f : Frame) : Sat (StatesKept s) (exec (.submitTx q f) s) := by
  refine sat_withContext (sat_withRing fun r hd => ?_)
  obtain ⟨d, c⟩ := r
  obtain rfl : d = .tx := hd
  split
  · exact answer_states s _ _
  · split
    · trivial
    · next ho => exact ((offloadTx_states s ho).trans (submitFill_states _ c f _)).answer _ _

theorem exec_offloadTx_states (q : Nat) (f : Frame) : Sat (StatesKept s) (exec (.offloadTx q f) s) := by
  refine sat_withContext (sat_withRing fun r _ => ?_)
  split
  · exact answer_states s _ _
  · split
    · trivial
    · next ho => exact (offloadTx_states s ho).answer _ _

theorem exec_offloadRx_states (q j : Nat) : Sat (StatesKept s) (exec (.offloadRx q j) s) := by
  refine sat_withContext (sat_withRing fun r _ => ?_)
  split
  · exact answer_states s _ _
  · split
    · trivial
    · split
      · exact answer_states s _ _
      · trivial

theorem exec_recoverReconfig_states (d : Dir) (q : Nat) : Sat (StatesKept s) (exec (.recoverReconfig d q) s) := by
  refine Kept.withRState fun r => ?_
  split
  · trivial
  · split
    · trivial
    · exact begin_states s (rebuild_states s r)

theorem exec_configureWeight_states (n w : Nat) : Sat (StatesKept s) (exec (.configureWeight n w) s) := by
  refine Kept.withControl (sat_withContext ?_)
  split
  · exact answer_states s _ _
  · split
    · exact answer_states s _ _
    · split
      · exact answer_states s _ _
      · split
        · exact answer_states s _ _
        · exact (regWrite_states s _ _).answer _ _

theorem exec_enableChannel_states (n : Nat) (ds : Dirs) : Sat (StatesKept s) (exec (.enableChannel n ds) s) := by
  have hbits (c : Chan) : StatesKept s (s.enableDirs c (dirsOf ds)) := statesKept_of_rings fun _ => by simp
  refine Kept.withControl (sat_withContext ?_)
  split
  · exact answer_states s _ _
  · next c _ =>
    split
    · exact answer_states s _ _
    · split
      · exact answer_states s _ _
      · exact (hbits c).answer _ _

theorem exec_disableChannel_states (n : Nat) (ds : Dirs) : Sat (StatesKept s) (exec (.disableChannel n ds) s) := by
  have hbits (c : Chan) : StatesKept s (s.disableDirs c (dirsOf ds)) := statesKept_of_rings fun _ => by simp
  refine Kept.withControl (sat_withContext ?_)
  split
  · exact answer_states s _ _
  · next c _ => exact (hbits c).answer _ _

theorem exec_irqService_states (d : Dir) (n : Nat) : Sat (StatesKept s) (exec (.irqService d n) s) := by
  show Sat (StatesKept s) (execIrqService d n s)
  unfold execIrqService
  split
  · exact StatesKept.refl s
  · split
    · trivial
    · exact begin_states s (statesKept_of_rings fun _ => State.setIrq_ring ..)

theorem exec_attach_states (x : Config) : Sat (StatesKept s) (exec (.attach x) s) := by
  show Sat (StatesKept s) (execAttach x s)
  refine Kept.withControl ?_
  split
  · trivial
  · split
    · exact answer_states s _ _
    · exact begin_states s (StatesKept.refl s)

/-- Every operation that moves no ring's state. -/
theorem exec_states {i : Instr} (hm : movesState i = false) : Sat (StatesKept s) (exec i s) := by
  cases he : isEngineStep i with
  | true =>
    cases h : exec i s with
    | next t =>
      have hsw := (engineLeavesSoftware i s t he h).1
      exact statesKept_of_rings fun r => by simp only [State.ring, hsw]
    | fault _ => trivial
    | refused _ => trivial
  | false =>
    cases i with
    | detach | recoverBegin | recoverPoll | recoverDrain => exact nomatch hm
    | eTxDesc | eRxDesc | eArbGrant | eDelayTimeout | eFault | eResetDone | eStopDone | descriptorSq | descriptorMc =>
      exact nomatch he
    | attach => exact exec_attach_states s _
    | allocate => exact exec_allocate_states s _ _ _
    | resetRing => exact withPool_states s (resetRing_states s)
    | armRx => exact withPool_states s fun r => armRx_states s r.q
    | freeRing =>
      refine withPool_states s fun r => ?_
      split
      · trivial
      · exact freeRing_states s r
    | submitTx => exact exec_submitTx_states s _ _
    | pollRx => exact sat_withContext (sat_withRing fun r _ => withBody_states s (begin_states s (pollTask_states _ s)))
    | reclaimTx => exact sat_withContext (sat_withRing fun r _ => withBody_states s (begin_states s (reclaimTask_states _ s)))
    | offloadTx => exact exec_offloadTx_states s _ _
    | offloadRx => exact exec_offloadRx_states s _ _
    | configureWeight => exact exec_configureWeight_states s _ _
    | enableChannel => exact exec_enableChannel_states s _ _
    | disableChannel => exact exec_disableChannel_states s _ _
    | irqService => exact exec_irqService_states s _ _
    | recoverReconfig => exact exec_recoverReconfig_states s _ _
    | linkNotify => exact Kept.withControl (sat_withContext (statesKept_of_rings fun _ => State.setLink_ring ..))
    | statsSnapshot => exact Kept.withControl (sat_withContext (answer_states s _ _))
    | regRead | regWrite | reservedOffset => exact atOff_states s _ _
    | crSq | srSq | curdescSq | taildescSq | isrSq | ierSq | icrSq | tsfCntSq | tsfTagSq | tsfLoSq | tsfHiSq =>
      exact sqReg_states s _ _
    | crMc | srMc | curdescMc | taildescMc | isrMc | ierMc | icrMc | tsfCntMc | tsfTagMc | tsfLoMc | tsfHiMc =>
      exact chanReg_states s _ _ _ _
    | chen | chIer | chIsr | chIcr | weight0 | weight1 => exact mcReg_states s _ _
    | descCtrlSq | descCtrlMc => exact putCtrl_states s _ _ _ _ _
    | descNext | descBuf | descStatus | descApp0Tx | descApp1Tx | descApp2Tx | descApp3Tx | descApp4Tx | descApp0Rx
    | descApp1Rx | descApp2Rx | descApp3Rx | descApp4Rx | descSwFrame | descSwMap | descSwTag =>
      exact putWord_states s _ _ _ _ _

/-! ### The steps of commands in progress -/

theorem accessStep_states (todo : List Access) {k : List Access → State → TaskRes}
    (hk : ∀ as t, StatesKept s t → TaskSat (StatesKept s) (k as t)) : TaskSat (StatesKept s) (accessStep todo s k) := by
  unfold accessStep
  split
  · exact hk _ _ (StatesKept.refl s)
  · split
    · trivial
    · exact hk _ _ (statesKept_of_rings fun _ => by simp)

/-- The handler goes on with the next channel, or ends. -/
theorem irqNext_states {s t : State} (h : StatesKept s t) (d : Dir) (n : Nat) (todo : List Chan) :
    TaskSat (StatesKept s) (irqNext d n todo t) := Kept.irqNext (P := StatesKept s) d n todo t h

theorem irqMaskIer_states (d : Dir) (n : Nat) (q : Chan) (todo : List Chan) :
    TaskSat (StatesKept s) (irqMaskIer d n q todo s) := by
  unfold irqMaskIer
  dsimp only
  split
  · exact irqNext_states ((regWrite_states s _ _).trans (scheduleRecovery_states _ _)) _ _ _
  · exact regWrite_states s _ _

theorem irqPoll_states (d : Dir) (n : Nat) (q : Chan) (v : BitVec 3) (p : PollSt) (todo : List Chan) :
    TaskSat (StatesKept s) (irqPoll d n q v p todo s) := by
  unfold irqPoll
  split
  · next h => exact pollIter_states h
  · exact pollFinish_states p s

theorem irqReclaim_states (d : Dir) (n : Nat) (q : Chan) (v : BitVec 3) (p : ReclaimSt) (todo : List Chan) :
    TaskSat (StatesKept s) (irqReclaim d n q v p todo s) := by
  unfold irqReclaim
  split
  · next h => exact reclaimIter_states h
  · exact StatesKept.refl s

theorem irqCall_states (d : Dir) (n : Nat) (q : Chan) (v : BitVec 3) (todo : List Chan) :
    TaskSat (StatesKept s) (irqCall d n q v todo s) := by
  unfold irqCall
  dsimp only
  split
  · exact StatesKept.refl s
  · split
    · exact irqNext_states (StatesKept.refl s) _ _ _
    · split
      · exact StatesKept.refl s
      · exact irqReclaim_states s _ _ _ _ _ _
      · exact StatesKept.refl s
      · exact irqPoll_states s _ _ _ _ _ _

theorem irqDeliver_states (d : Dir) (n : Nat) (q : Chan) (v : BitVec 3) (fs : List RxFrame) (todo : List Chan) :
    TaskSat (StatesKept s) (irqDeliver d n q v fs todo s) := by
  have hup : StatesKept s (s.emits (fs.map (.rxDeliver q))) := statesKept_of_rings fun _ => State.emits_ring ..
  unfold irqDeliver
  dsimp only
  split <;> exact hup

theorem irqTask_states (d : Dir) (n : Nat) (todo : List Chan) (st : IrqStage) :
    TaskSat (StatesKept s) (irqTask d n todo st s) := by
  have hmask (q : Chan) : StatesKept s ((s.clearBit (.chIer d) q).scheduleRecovery ⟨d, q⟩) :=
    (statesKept_of_rings fun _ => by simp).trans (scheduleRecovery_states (s.clearBit (.chIer d) q) ⟨d, q⟩)
  cases st with
  | readChIsr => exact StatesKept.refl s
  | readChIer => exact StatesKept.refl s
  | writeChIcr => exact irqNext_states (regWrite_states s _ _) _ _ _
  | entry =>
    cases todo with
    | nil => exact StatesKept.refl s
    | cons q qs => exact Kept.irqEntry (P := StatesKept s) d n q qs s (StatesKept.refl s)
  | maskIer => exact irqMaskIer_states s _ _ _ _
  | maskChIer q => exact irqNext_states (hmask q) _ _ _
  | call => exact irqCall_states s _ _ _ _ _
  | poll => exact irqPoll_states s _ _ _ _ _ _
  | reclaim => exact irqReclaim_states s _ _ _ _ _ _
  | deliver => exact irqDeliver_states s _ _ _ _ _ _
  | writeIcr => exact regWrite_states s _ _
  | readIer => exact StatesKept.refl s
  | writeIer => exact irqNext_states (regWrite_states s _ _) _ _ _

/-- Phase 2 of `ATTACH`, its pools given back on a failure. -/
def PoolsSat (P : State → Prop) : PoolsRes → Prop
  | .ok t => P t
  | .failed _ t => P t
  | .stop _ => True

theorem allocateAll_states (rs : List RingId) : ∀ (made : List RingId) (s : State),
    PoolsSat (StatesKept s) (allocateAll made s rs) := by
  induction rs with
  | nil => exact fun _ s => StatesKept.refl s
  | cons r rs ih =>
    intro made s
    have hback (t : State) : StatesKept t (made.foldl (fun t r' => t.setRing r' (t.ring r').gone) t) :=
      foldl_states (fun u r' => setRing_states u r' (w := (u.ring r').gone) rfl) made t
    have hall := allocate_states s r (s.cfg.ring r).cap
    unfold allocateAll
    dsimp only
    generalize s.allocate r (s.cfg.ring r).cap = x at hall ⊢
    cases x with
    | ok t =>
      have hrest := ih (made ++ [r]) t
      dsimp only
      generalize allocateAll (made ++ [r]) t rs = y at hrest ⊢
      cases y with
      | ok u => exact StatesKept.trans hall hrest
      | failed _ u => exact StatesKept.trans hall hrest
      | stop _ => trivial
    | size => exact hback s
    | present => trivial
    | running => trivial
    | outOfMemory t => exact StatesKept.trans hall (hback t)
    | alignment t => exact StatesKept.trans hall (hback t)

theorem attachSoftware_states (x : Config) : StatesKept s (s.attachSoftware x) := by
  have hzero : StatesKept s (s.eachRing (fun t r => t.setRing r (t.ring r).zeroed) s.ringIds) :=
    foldl_states (fun u r => setRing_states u r (w := (u.ring r).zeroed) rfl) s.ringIds s
  exact (hzero.trans (foldl_states (f := fun t q => t.setTags q ⟨0, []⟩)
    (fun u q => statesKept_of_rings fun _ => State.setTags_ring ..) s.chans _)).rings fun _ => rfl

theorem attachArm_states : StatesKept s s.attachArm :=
  (foldl_states armRx_states s.chans s).rings fun _ => State.wmb_ring ..

end

end Sys2Proof.Machine
end

section
/-! PROOF. The state of a ring changes only by the listed transitions (R37, R290). -/

namespace Sys2Proof.Machine

/-! ### The operations that move a ring -/

/-- A changed ring state is one of the moves R290 gives operation `i`. -/
def OpMoves (s : State) (i : Instr) (t : State) : Prop := ∀ r : RingId, (t.ring r).rstate ≠ (s.ring r).rstate →
  (i = .detach ∧ inRecovery (s.ring r).rstate = false ∧ (t.ring r).rstate = .fatal) ∨
  (i = .recoverBegin r.dir r.q.val ∧ (s.ring r).rstate = .running ∧ (t.ring r).rstate = .halting) ∨
  (i = .recoverPoll r.dir r.q.val ∧ (s.ring r).rstate = .halting ∧ ((t.ring r).rstate = .halted ∨ (t.ring r).rstate = .fatal)) ∨
  (i = .recoverDrain r.dir r.q.val ∧ (s.ring r).rstate = .halted ∧ (t.ring r).rstate = .reconfiguring)

/-- From `s` to `t` ring `r` alone may have changed its state. -/
def StateMoved (r : RingId) (s t : State) : Prop := ∀ u, u ≠ r → (t.ring u).rstate = (s.ring u).rstate

theorem StateMoved.eq {r u : RingId} {s t : State} (h : StateMoved r s t) (hu : (t.ring u).rstate ≠ (s.ring u).rstate) :
    u = r := by
  by_contra hne
  exact hu (h u hne)

/-- After changes that leave the states, ring `r` is set. -/
theorem StatesKept.moved {s t : State} (h : StatesKept s t) (r : RingId) (w : RingSw) :
    StateMoved r s (t.setRing r w) := by
  intro u hu
  rw [State.setRing_ring, if_neg hu]
  exact h u

theorem sat_withRState {P : State → Prop} {st : RState} {d : Dir} {q : Nat} {s : State} {k : RingId → Res}
    (h : ∀ r : RingId, r.dir = d → r.q.val = q → (s.ring r).rstate = st → Sat P (k r)) : Sat P (withRState st d q s k) := by
  refine sat_withContext (sat_atRing fun r hd hq => ?_)
  split
  · next hst => exact h r hd hq hst
  · trivial

theorem recoverBegin_moves (d : Dir) (q : Nat) (s : State) :
    Sat (OpMoves s (.recoverBegin d q)) (exec (.recoverBegin d q) s) := by
  refine sat_withRState fun r hd hq hst => ?_
  split
  · trivial
  · split
    · trivial
    · split
      · trivial
      · intro u hu
        have hset : StateMoved r s (s.setRing r ((((s.ring r).become .halting).pending false).polls 0)) :=
          (StatesKept.refl s).moved r _
        obtain rfl : u = r := StateMoved.eq (fun v hv => (regWrite_states _ _ _ v).trans (hset v hv)) hu
        refine Or.inr (Or.inl ⟨by rw [hd, hq], hst, ?_⟩)
        rw [regWrite_states _ _ _ u, State.setRing_ring, if_pos rfl]
        rfl

theorem pollFailed_moved (s : State) (r : RingId) : StateMoved r s (s.pollFailed r) ∧
    (((s.pollFailed r).ring r).rstate = (s.ring r).rstate ∨ ((s.pollFailed r).ring r).rstate = .fatal) := by
  unfold State.pollFailed
  dsimp only
  split
  · refine ⟨(StatesKept.refl s).moved r _, Or.inr ?_⟩
    rw [State.emit_ring, State.setRing_ring, if_pos rfl]
    rfl
  · refine ⟨(StatesKept.refl s).moved r _, Or.inl ?_⟩
    rw [State.setRing_ring, if_pos rfl]
    rfl

theorem recoverPoll_moves (d : Dir) (q : Nat) (s : State) :
    Sat (OpMoves s (.recoverPoll d q)) (exec (.recoverPoll d q) s) := by
  refine sat_withRState fun r hd hq hst => ?_
  split
  · intro u hu
    obtain rfl : u = r := ((StatesKept.refl s).moved r _).eq hu
    refine Or.inr (Or.inr (Or.inl ⟨by rw [hd, hq], hst, Or.inl ?_⟩))
    rw [State.setRing_ring, if_pos rfl]
    rfl
  · obtain ⟨hmoved, hsame | hfatal⟩ := pollFailed_moved s r
    · exact fun u hu => absurd hsame (hmoved.eq hu ▸ hu)
    · intro u hu
      obtain rfl : u = r := hmoved.eq hu
      exact Or.inr (Or.inr (Or.inl ⟨by rw [hd, hq], hst, Or.inr hfatal⟩))

theorem recoverDrain_moves (d : Dir) (q : Nat) (s : State) :
    Sat (OpMoves s (.recoverDrain d q)) (exec (.recoverDrain d q) s) := by
  refine sat_withRState fun r hd hq hst => ?_
  intro u hu
  obtain rfl : u = r := ((drain_states s r).moved r _).eq hu
  refine Or.inr (Or.inr (Or.inr ⟨by rw [hd, hq], hst, ?_⟩))
  rw [State.setRing_ring, if_pos rfl]
  rfl

/-- Where every ring of the hardware is changed by `g`, a ring whose state moved is one of them. -/
theorem mapRings_moved {s t : State} {g : RingSw → RingSw} (ht : t = s.mapRings g s.ringIds) {r : RingId}
    (h : (t.ring r).rstate ≠ (s.ring r).rstate) : r ∈ s.ringIds ∧ t.ring r = g (s.ring r) := by
  subst ht
  by_cases hin : r ∈ s.ringIds
  · exact ⟨hin, State.mapRings_ring g s.ringIds (ringsBelow_nodup _) s r hin⟩
  · exact absurd (congrArg RingSw.rstate ((State.mapRings_frame g s.ringIds s).rings r hin)) h

theorem detach_moves (s : State) : Sat (OpMoves s .detach) (exec .detach s) := by
  refine Kept.withControl (sat_withContext ?_)
  split
  · trivial
  · next hany =>
    intro r hr
    obtain ⟨hin, hring⟩ := mapRings_moved (g := fun w => (w.become .fatal).pending false) (t := s.quiesce) rfl hr
    refine Or.inl ⟨rfl, ?_, (congrArg RingSw.rstate hring).trans rfl⟩
    exact Bool.eq_false_iff.2 fun hrec => hany (List.any_eq_true.2 ⟨r, hin, hrec⟩)

theorem exec_moves (i : Instr) (s : State) : Sat (OpMoves s i) (exec i s) := by
  cases hm : movesState i with
  | false => exact sat_mono (fun t h r hr => absurd (h r) hr) (exec_states s hm)
  | true =>
    cases i with
    | detach => exact detach_moves s
    | recoverBegin => exact recoverBegin_moves _ _ s
    | recoverPoll => exact recoverPoll_moves _ _ s
    | recoverDrain => exact recoverDrain_moves _ _ s
    | _ => exact nomatch hm

/-! ### The steps of commands in progress that move a ring -/

/-- A changed ring state is one of the moves R290 gives a step of command `x`. -/
def TaskMoves (s : State) (x : Task) (t : State) : Prop := ∀ r : RingId, (t.ring r).rstate ≠ (s.ring r).rstate →
  (x = .reconfig r .enable ∧ (s.ring r).rstate = .reconfiguring ∧ (t.ring r).rstate = .running) ∨
  ((∃ cfg, x = .attach .present cfg) ∧ s.sw.ctxPresent = false ∧ t.sw.ctxPresent = true ∧ (t.ring r).rstate = .running) ∨
  ((∃ n, x = .detach (.poll [] n)) ∧ t.sw.ctxPresent = false ∧ (t.ring r).rstate = .fatal)

theorem taskMoves_of_states {s : State} {x : Task} {y : TaskRes} (h : TaskSat (StatesKept s) y) : TaskSat (TaskMoves s x) y :=
  taskSat_mono (fun _ ht r hr => absurd (ht r) hr) h

/-- The last step of `RECOVER_RECONFIG` moves its ring to `Running` after changes that move none. -/
theorem reenable_eq (s : State) (r : RingId) : ∃ t, StatesKept s t ∧ s.reenable r = t.setRing r ((t.ring r).become .running) := by
  have henable : StatesKept s (s.enableRing r) := statesKept_of_rings fun _ => by simp
  unfold State.reenable
  cases r.dir with
  | tx => exact ⟨_, henable, rfl⟩
  | rx => exact ⟨_, henable.rings fun _ => by simp, rfl⟩

theorem reconfigTask_moves (r : RingId) (st : ReconfigStage) (s : State) :
    TaskSat (TaskMoves s (.reconfig r st)) (reconfigTask r st s) := by
  unfold reconfigTask
  split
  · trivial
  · next hst =>
    have hst := not_not.1 hst
    cases st with
    | curdesc => exact taskMoves_of_states (y := .more _ _) (regWrite_states s _ _)
    | cr => exact taskMoves_of_states (y := .more _ _) (regWrite_states s _ _)
    | ier => exact taskMoves_of_states (y := .more _ _) (regWrite_states s _ _)
    | enable =>
      dsimp only
      split
      · trivial
      · intro u hu
        obtain ⟨t, ht, heq⟩ := reenable_eq s r
        rw [heq] at hu ⊢
        obtain rfl : u = r := (ht.moved r _).eq hu
        refine Or.inl ⟨rfl, hst, ?_⟩
        rw [State.setRing_ring, if_pos rfl]
        rfl

theorem attachPresent_moves (s : State) (cfg : Config) (hc : ¬s.sw.ctxPresent = true) :
    TaskMoves s (.attach .present cfg) s.attachPresent := by
  intro r hr
  obtain ⟨-, hring⟩ := mapRings_moved (s := s.setCtx true) (g := fun w => w.become .running) (t := s.attachPresent) rfl hr
  have hctx : s.attachPresent.sw.ctxPresent = true :=
    ((State.mapRings_frame (fun w => w.become .running) s.ringIds (s.setCtx true)).context id).1
  exact Or.inr (Or.inl ⟨⟨cfg, rfl⟩, Bool.eq_false_iff.2 hc, hctx, (congrArg RingSw.rstate hring).trans rfl⟩)

theorem attachTask_moves (ph : AttachPhase) (cfg : Config) (s : State) :
    TaskSat (TaskMoves s (.attach ph cfg)) (attachTask ph cfg s) := by
  cases ph with
  | allocate =>
    refine taskMoves_of_states ?_
    have hall := allocateAll_states (ringsBelow cfg.nq) [] (s.setCfg cfg)
    unfold attachTask
    dsimp only
    generalize allocateAll [] (s.setCfg cfg) (ringsBelow cfg.nq) = x at hall ⊢
    cases x with
    | ok t => exact hall
    | failed e t => exact StatesKept.answer (StatesKept.rings hall fun _ => State.setCfg_ring ..) _ _
    | stop _ => trivial
  | software => exact taskMoves_of_states (y := .more _ _) (attachSoftware_states s cfg)
  | arm => exact taskMoves_of_states (y := .more _ _) (attachArm_states s)
  | program todo =>
    exact taskMoves_of_states (accessStep_states s todo (k := fun as t => .more (.attach (.programs as) cfg) t)
      fun _ _ h => h)
  | present =>
    unfold attachTask
    dsimp only
    split
    · trivial
    · next hc => exact attachPresent_moves s cfg hc
  | enable todo =>
    refine taskMoves_of_states (accessStep_states s todo fun as t h => ?_)
    cases as with
    | nil => exact h.answer _ _
    | cons a as => exact h

theorem detachPoll_states (r : RingId) (rs : List RingId) (n : Nat) (s : State) :
    TaskSat (StatesKept s) (detachPoll r rs n s) := by
  unfold detachPoll
  split
  · exact StatesKept.refl s
  · split
    · exact StatesKept.answer (setRing_states s r (w := (s.ring r).cause .resetTimeout) rfl) _ _
    · exact StatesKept.refl s

/-- At its end `DETACH` leaves the rings of the hardware without a state, the others as they were. -/
theorem detachFree_moves (s : State) (n : Nat) : TaskMoves s (.detach (.poll [] n)) s.detachFree := by
  intro r hr
  have hfreed : StatesKept s (s.eachRing State.freeRing s.ringIds) := foldl_states freeRing_states s.ringIds s
  have hvacant : s.detachFree = (s.eachRing State.freeRing s.ringIds).vacate := rfl
  generalize s.eachRing State.freeRing s.ringIds = u at hfreed hvacant
  rw [hvacant] at hr ⊢
  refine Or.inr (Or.inr ⟨⟨n, rfl⟩, u.vacate_context.1, ?_⟩)
  by_cases hq : r.q.val < u.cfg.nq
  · rw [u.vacate_ring hq]
    rfl
  · exact absurd ((congrArg RingSw.rstate (u.vacate_frame.rings r hq)).trans (hfreed r)) hr

theorem detachTask_moves (st : DetachStage) (s : State) : TaskSat (TaskMoves s (.detach st)) (detachTask st s) := by
  unfold detachTask
  split
  · exact taskMoves_of_states (accessStep_states s _ fun _ _ h => h)
  · exact taskMoves_of_states (detachPoll_states _ _ _ s)
  · next n => exact detachFree_moves s n

theorem taskStep_moves (x : Task) (s : State) : TaskSat (TaskMoves s x) (taskStep x s) := by
  cases x with
  | attach ph cfg => exact attachTask_moves ph cfg s
  | detach st => exact detachTask_moves st s
  | poll p => exact taskMoves_of_states (pollTask_states p s)
  | reclaim p => exact taskMoves_of_states (reclaimTask_states p s)
  | irq d n todo st => exact taskMoves_of_states (irqTask_states s d n todo st)
  | reconfig r st => exact reconfigTask_moves r st s

/-- A step of a command in progress that changes a ring's state is one of the listed ones. -/
theorem resume_taskMoves (k : Nat) (s : State) : Sat (fun t => ∀ r, (t.ring r).rstate ≠ (s.ring r).rstate →
    ∃ x, s.tasks[k]? = some x ∧ TaskMoves s x t) (resume k s) := by
  cases hk : s.tasks[k]? with
  | none =>
    simp only [resume, hk]
    exact fun r hr => absurd rfl hr
  | some x =>
    have hmoves := taskStep_moves x (s.rest k)
    rw [resume_of hk]
    generalize taskStep x (s.rest k) = y at hmoves ⊢
    cases y with
    | done t => exact fun r _ => ⟨x, rfl, hmoves⟩
    | more z t => exact fun r _ => ⟨x, rfl, hmoves⟩
    | stop _ => trivial

theorem abandon_states (k : Nat) (s : State) : Sat (StatesKept s) (abandon k s) := by
  unfold abandon
  split
  · exact pollReturn_states _ _
  · exact StatesKept.refl s

theorem receive_states (s : State) (q : Chan) (f : StreamFrame) : StatesKept s (s.receive q f) := by
  unfold State.receive
  split
  · exact statesKept_of_rings fun _ => State.setRxe_ring ..
  · exact StatesKept.refl s

theorem poke_states (s : State) (a : Word) (bs : List Byte) : StatesKept s (s.poke a bs) := by
  unfold State.poke
  split
  · exact statesKept_of_rings fun _ => State.setMem_ring ..
  · exact StatesKept.refl s

/-- Settles O11: every step leaves the ring states but the listed operations and steps of commands in progress. -/
theorem rStateMoves : Obligations.RStateMoves := by
  unfold Obligations.RStateMoves
  intro s t r hstep hr
  unfold Steps step at hstep
  split at hstep
  · obtain rfl := Host.Outcome.next.inj hstep
    exact absurd rfl hr
  · next op rest hsched =>
    split at hstep
    · next i hi =>
      have hmoves := exec_moves i (s.setSched rest)
      rw [hstep] at hmoves
      exact Or.inl ⟨op, rest, i, hsched, hi, hmoves r hr⟩
    · exact nomatch hstep
  · next k rest hsched =>
    have hmoves := resume_taskMoves k (s.setSched rest)
    rw [hstep] at hmoves
    obtain ⟨x, hx, hmoves⟩ := hmoves r hr
    refine Or.inr ⟨k, rest, hsched, ?_⟩
    obtain ⟨rfl, hfrom, hto⟩ | ⟨⟨cfg, rfl⟩, hno, hctx, hto⟩ | ⟨⟨n, rfl⟩, hctx, hto⟩ := hmoves r hr
    · exact Or.inl ⟨hx, hfrom, hto⟩
    · exact Or.inr (Or.inl ⟨⟨cfg, hx⟩, hno, hctx, hto⟩)
    · exact Or.inr (Or.inr ⟨⟨n, hx⟩, hctx, hto⟩)
  · next k rest hsched =>
    have hkept := abandon_states k (s.setSched rest)
    rw [hstep] at hkept
    exact absurd (hkept r) hr
  · obtain rfl := Host.Outcome.next.inj hstep
    exact absurd (receive_states _ _ _ r) hr
  · obtain rfl := Host.Outcome.next.inj hstep
    exact absurd (poke_states _ _ _ r) hr

end Sys2Proof.Machine
end
